-- ==== Sys2Proof/Word.lean ====
section
/-! DEFINITION. The word types: a character of the system link and the uptime counter. -/

namespace Sys2Proof

/-- One character of a frame: 8 data bits (section 1, R162). -/
abbrev Byte := BitVec 8

/-- The uptime counter and the timestamps taken from it: 32 bits, wrapping (R180). -/
abbrev Uptime := BitVec 32

/-- A notice mask or wake mask: bit k − 1 for the notice kind of priority k (section 10.3). -/
abbrev NoticeSet := BitVec 9

end Sys2Proof
end

