-- ==== Sys2Proof/Syntax.lean ====
section
/-! DEFINITION. The commands: one constructor of `Instr` per row of spec/opcode_table.json, and the operands they carry. -/

namespace Sys2Proof

/-- The three sources, with the fixed indices 0, 1, 2 (spec/00_scope.md 5.3). -/
inductive Source where
  | dcIn | bayA | bayB
deriving DecidableEq, Repr

/-- The two battery bays. -/
inductive Bay where
  | a | b
deriving DecidableEq, Repr

/-- The five channels of the Sense Converter, in index order (section 4.1). -/
inductive Channel where
  | alsFront | alsRear | thBayA | thBayB | thPanel
deriving DecidableEq, Repr

/-- A latch position, commanded or sensed (section 3.1). -/
inductive LatchPos where
  | locked | unlocked
deriving DecidableEq, Repr

/-- The seven readings of one monitor sample: voltages in mV, currents in mA, as read before R1 limits them. -/
structure Readings where
  vDc : Nat
  vA : Nat
  vB : Nat
  vBus : Nat
  iDc : Int
  iA : Int
  iB : Int
deriving DecidableEq, Repr

/-- What one string's sink reports: current in 0.1 mA, headroom in mV (R116). -/
structure StringReading where
  current : Nat
  headroom : Nat
deriving DecidableEq, Repr

/-- The four strings' readings at the end of a period's delivered on-time (R116). -/
structure StringReadings where
  s1 : StringReading
  s2 : StringReading
  s3 : StringReading
  s4 : StringReading
deriving DecidableEq, Repr

/-- The eight characters of an accelerometer frame, in the order of section 10.12: status, check, X, Y and Z, the most
significant character first. -/
structure AccelFrame where
  status : Byte
  check : Byte
  xHi : Byte
  xLo : Byte
  yHi : Byte
  yLo : Byte
  zHi : Byte
  zLo : Byte
deriving DecidableEq, Repr

/-- The commands of the part. A request carries its tag and its payload characters; a command that names what one
monitor sample, one accelerometer frame or one string measurement brings about carries that sample, frame or measurement
(log entry 4). -/
inductive Instr where
  -- Power-on: the buttons found active, and the latch switches' first reports (R51, R62).
  | powerOnReset (btnA btnB : Bool) (lsnsA lsnsB : LatchPos)
  -- The system link. `stop` is the level of the stop bit: false is a framing error (R163).
  | rxFrame (check : Byte) (stop : Bool)
  | frameGapTimeout
  | lineBreak
  | breakEnd
  | requestDispatch
  | txFrameEnd
  -- Requests.
  | setPath (tag : Byte) (payload : List Byte)
  | getPath (tag : Byte) (payload : List Byte)
  | clearPath (tag : Byte) (payload : List Byte)
  | setSupply (tag : Byte) (payload : List Byte)
  | getSupply (tag : Byte) (payload : List Byte)
  | selectSource (tag : Byte) (payload : List Byte)
  | packInfo (tag : Byte) (payload : List Byte)
  | releaseBay (tag : Byte) (payload : List Byte)
  | getLatch (tag : Byte) (payload : List Byte)
  | setSense (tag : Byte) (payload : List Byte)
  | getSense (tag : Byte) (payload : List Byte)
  | loadThermistor (tag : Byte) (payload : List Byte)
  | convertNow (tag : Byte) (payload : List Byte)
  | setBrightness (tag : Byte) (payload : List Byte)
  | getBrightness (tag : Byte) (payload : List Byte)
  | loadCurve (tag : Byte) (payload : List Byte)
  | setLamp (tag : Byte) (payload : List Byte)
  | getLamp (tag : Byte) (payload : List Byte)
  | lampClear (tag : Byte) (payload : List Byte)
  | setMotion (tag : Byte) (payload : List Byte)
  | getMotion (tag : Byte) (payload : List Byte)
  | readDrop (tag : Byte) (payload : List Byte)
  | eraseDrops (tag : Byte) (payload : List Byte)
  | setPlatform (tag : Byte) (payload : List Byte)
  | setNoticeMask (tag : Byte) (payload : List Byte)
  | getStatus (tag : Byte) (payload : List Byte)
  | getIdent (tag : Byte) (payload : List Byte)
  | resetRequest (tag : Byte) (payload : List Byte)
  -- Source paths and supply.
  | monitorSample (r : Readings)
  | emptyTimerExpiry (bay : Bay)
  | blankingEnd (path : Source)
  | retryTimerExpiry (path : Source)
  | goodCloseInterval (path : Source)
  | startUpIntervalEnd
  | deadTimeExpiry
  | overlapTimerExpiry
  | lossDeclared (r : Readings)
  | preemptionTimerExpiry (source : Source)
  | busLowActivate (r : Readings)
  | busLowRecovery
  -- Bay latches.
  | buttonPress (bay : Bay)
  | latchSenseChange (bay : Bay) (pos : LatchPos)
  | releaseWindowExpiry (bay : Bay)
  | latchFaultTimerExpiry (bay : Bay)
  | latchStuckTimerExpiry (bay : Bay)
  -- Sense converter: the edges counted in the gate window, or the reference pulses of sixteen periods.
  | lightConversionEnd (edges : Nat)
  | thermistorConversionEnd (count : Nat)
  | thermistorTimeout
  | channelStale (channel : Channel)
  -- Lamp driver: the time of a FRAME edge and the on-time delivered, both in ns.
  | frameStart (time : Nat)
  | frameTimeout
  | periodStart
  | stringMeasurement (delivered : Nat) (r : StringReadings)
  | stringFaultConfirm (delivered : Nat) (r : StringReadings)
  -- Motion port and drop detector.
  | sampleEvent
  | frameEnd (f : AccelFrame)
  | linkLostEntry (f : AccelFrame)
  | linkRecovery (f : AccelFrame)
  | fallQualified (f : AccelFrame)
  | softLanding (f : AccelFrame)
  | fallTimeout (f : AccelFrame)
  | impactExit (f : AccelFrame)
  | settled (f : AccelFrame)
  | settleTimeout (f : AccelFrame)
  | blindHoldEnd (f : AccelFrame)
  | traceFreeze (f : AccelFrame)
  -- Characters and buttons.
  | rxCharacter (char : Byte) (stop : Bool)
  | buttonInactive (bay : Bay)
deriving DecidableEq, Repr

end Sys2Proof
end

