-- ==== Sys2Proof/Decode.lean ====
section
/-! DEFINITION. The command a word spells. No row of spec/opcode_table.json gives bits (its "fields" are empty and none has
"fixed"), so no word spells a command (log entry 24). -/

namespace Sys2Proof

/-- The command that the `nbits` bits of `w` spell by the table's rows that give bits: there are none. -/
def decodeTableWord (nbits w : Nat) : Option Instr :=
  match nbits, w with
  | _, _ => none

end Sys2Proof
end

