-- ==== Sys2Proof/Config.lean ====
section
/-! DEFINITION. What the part fixes: limits, durations and codes that no request changes. The spec leaves no value of the
part open, so there is no opaque constant here. Durations that the monitor sample counts are in units of 100 µs. -/

namespace Sys2Proof.Config

/-- Monitor samples in a millisecond: one every 100 µs (R1). -/
def samplesPerMs : Nat := 10
/-- DC_IN is present from this voltage on (R2), in mV. -/
def dcPresentMv : Nat := 17000
/-- DC_IN shows OVERVOLT from this voltage on (R2), in mV. -/
def dcOvervoltMv : Nat := 22000
/-- A bay is present from this voltage on (R2), in mV. -/
def bayPresentMv : Nat := 6000
/-- A bay is HOT from this temperature on (R3), in 0.1 °C. -/
def hotTemp : Int := 700
/-- Recovery from EMPTY is measured above the empty threshold by this much (R4), in mV. -/
def emptyRecoveryMv : Nat := 300
/-- The empty timer's 1 s (R4), in 100 µs. -/
def emptyTicks : Nat := 10000
/-- The good-close interval of 10 s (R18), in 100 µs. -/
def goodCloseTicks : Nat := 100000
/-- The largest consecutive trip count (R13). -/
def maxTripCount : Nat := 7
/-- The preemption timer's 500 ms (R36), in 100 µs. -/
def preemptTicks : Nat := 5000
/-- A loss is declared after 200 µs outside ride-through (R33), in 100 µs. -/
def lossTicks : Nat := 2
/-- Bus-low becomes active at this many consecutive samples below the threshold (R42). -/
def busLowSamples : Nat := 3
/-- Bus-low recovery is measured above the threshold by this much (R42), in mV. -/
def busLowRecoveryMv : Nat := 500
/-- The recovery timer's 10 ms (R42), in 100 µs. -/
def busLowRecoveryTicks : Nat := 100
/-- A feeding battery stops being low above the low-charge voltage by this much (R45), in mV. -/
def lowRecoveryMv : Nat := 200

/-- The release window (R56), in ms. -/
def releaseWindowMs : Nat := 10000
/-- The debounce of the fault and stuck timers (R59, R60), in ms. -/
def latchTimerMs : Nat := 200

/-- The 16-bit counter's limit: a count there is the fault OVER (R67). -/
def counterLimit : Nat := 65535
/-- The largest lux stored (R68). -/
def maxLux : Nat := 200000
/-- From this count on a light range is too long (R69). -/
def rangeUpCount : Nat := 49152
/-- Below this count a light range is too short (R69). -/
def rangeDownCount : Nat := 8192
/-- Below this count a thermistor is SHORT (R70). -/
def shortCount : Nat := 160
/-- The reference pulses of the 40 ms limit: no count is above (R70). -/
def periodCountLimit : Nat := 40000
/-- A value older than this is stale (R66), in ms. -/
def staleMs : Nat := 2000
/-- Ages saturate here (R66), in ms. -/
def maxAgeMs : Nat := 65535

/-- A FRAME edge sooner than this after the last frame start taken is a glitch (R108), in ns. -/
def frameGlitchNs : Nat := 2000000
/-- A panel silent for this long has stopped scanning (R108), in ns. -/
def frameSilenceNs : Nat := 50000000
/-- The frame interval before any was measured, 60 Hz (R109), in ns. -/
def defaultFrameNs : Nat := 16666667
/-- Consistent intervals that lock the PWM to FRAME (R108). -/
def lockCount : Nat := 4
/-- A period with less delivered on-time is not measured (R116), in ns. -/
def measurableNs : Nat := 100000
/-- Headroom above this is a short (R116), in mV. -/
def shortHeadroomMv : Nat := 6000
/-- Measured faults in a row that confirm a string fault (R118). -/
def stringFaultCount : Nat := 3
/-- Full duty (R112). -/
def fullDuty : Nat := 4096

/-- Consecutive rejected frames that lose the motion link (R133). -/
def lostRun : Nat := 8
/-- Accepted frames that recover it (R133). -/
def recoveryRun : Nat := 16
/-- Frames the link history holds (R132). -/
def historyLength : Nat := 16
/-- Samples the ring holds (R135). -/
def ringSize : Nat := 1024
/-- The settle band, 0.75 g to 1.25 g, in counts squared (R139). -/
def bandLow : Nat := 2359296
/-- See `bandLow`. -/
def bandHigh : Nat := 6553600
/-- Landing samples that end a fall softly (R143). -/
def landingSamples : Nat := 3
/-- Impact exit time (R140), in ms. -/
def impactExitMs : Nat := 20
/-- Maximum fall (R140), in ms. -/
def maxFallMs : Nat := 2000
/-- Maximum settle (R140), in ms. -/
def maxSettleMs : Nat := 10000
/-- Blind hold (R140), in ms. -/
def blindHoldMs : Nat := 2000
/-- Samples after the peak at which the trace freezes (R152). -/
def traceAfter : Nat := 23
/-- Entries read for a trace: 8 of lead, the peak, 23 after it (R152). -/
def traceEntries : Nat := 32
/-- Entries used for the pre-fall attitude (R151). -/
def attitudeSamples : Nat := 64
/-- Closed drop records kept (R154). -/
def maxRecords : Nat := 8
/-- The last sequence number that can be assigned (R148). -/
def lastSequence : Nat := 4294967295
/-- Where 32-bit counters stop (R131). -/
def maxCounter : Nat := 4294967295

/-- The sync character (section 9.1). -/
def syncChar : Byte := 0x5A
/-- The longest payload (R163). -/
def maxPayload : Nat := 240
/-- Requests the queue holds (R167). -/
def maxQueue : Nat := 4
/-- Replies the FIFO holds, reserved space included (R168, R173). -/
def maxReplies : Nat := 8
/-- Occurrence counts stop here (R174). -/
def maxOccurrences : Nat := 255
/-- The link error count stops here (R166). -/
def maxLinkErrors : Nat := 65535

/-- Identity: vendor code, part code and silicon revision (R182). -/
def vendorCode : Nat := 0x2D
/-- See `vendorCode`. -/
def partCode : Nat := 340
/-- See `vendorCode`. -/
def siliconRevision : Nat := 1

end Sys2Proof.Config
end

