-- ==== Sys2Proof/Machine/Types.lean ====
section
/-! DEFINITION. The data that State is made of: one structure per block, with the enumerations of section 10.3. Names follow
the manual's. What a rule computes from other state is computed in Flags.lean and not stored again (log entry 14). -/

namespace Sys2Proof.Machine

/-! ### Fixed families of like things -/

/-- One value per source. -/
structure PerSource (α : Type) where
  dc : α
  a : α
  b : α
deriving DecidableEq, Repr

/-- One value per bay. -/
structure PerBay (α : Type) where
  a : α
  b : α
deriving DecidableEq, Repr

/-- One value per channel of the Sense Converter. -/
structure PerChannel (α : Type) where
  alsFront : α
  alsRear : α
  thBayA : α
  thBayB : α
  thPanel : α
deriving DecidableEq, Repr

/-- One value per LED string. -/
structure PerString (α : Type) where
  s1 : α
  s2 : α
  s3 : α
  s4 : α
deriving DecidableEq, Repr

/-- The four LED strings (spec/00_scope.md 5.3). -/
inductive LedString where
  | s1 | s2 | s3 | s4
deriving DecidableEq, Repr

/-- The nine notice kinds, in priority order (R173). -/
inductive NoticeKind where
  | dropAlert | busLow | pathFault | supplyChange | release | dropRecord | lampFault | senseFault | motionLink
deriving DecidableEq, Repr

/-- One value per notice kind. -/
structure PerNotice (α : Type) where
  dropAlert : α
  busLow : α
  pathFault : α
  supplyChange : α
  release : α
  dropRecord : α
  lampFault : α
  senseFault : α
  motionLink : α
deriving DecidableEq, Repr

/-- The five supply situations (R45). -/
inductive Situation where
  | shed | dc | low | pair | single
deriving DecidableEq, Repr

/-- One value per supply situation: the allowance caps (R24). -/
structure PerSituation (α : Type) where
  dc : α
  pair : α
  single : α
  low : α
  shed : α
deriving DecidableEq, Repr

def PerSource.get {α : Type} (p : PerSource α) : Source → α
  | .dcIn => p.dc
  | .bayA => p.a
  | .bayB => p.b

def PerSource.set {α : Type} (p : PerSource α) (s : Source) (v : α) : PerSource α :=
  match s with
  | .dcIn => { p with dc := v }
  | .bayA => { p with a := v }
  | .bayB => { p with b := v }

def PerSource.map {α β : Type} (f : α → β) (p : PerSource α) : PerSource β := ⟨f p.dc, f p.a, f p.b⟩

def PerBay.get {α : Type} (p : PerBay α) : Bay → α
  | .a => p.a
  | .b => p.b

def PerBay.set {α : Type} (p : PerBay α) (bay : Bay) (v : α) : PerBay α :=
  match bay with
  | .a => { p with a := v }
  | .b => { p with b := v }

def PerBay.map {α β : Type} (f : α → β) (p : PerBay α) : PerBay β := ⟨f p.a, f p.b⟩

def PerChannel.get {α : Type} (p : PerChannel α) : Channel → α
  | .alsFront => p.alsFront
  | .alsRear => p.alsRear
  | .thBayA => p.thBayA
  | .thBayB => p.thBayB
  | .thPanel => p.thPanel

def PerChannel.set {α : Type} (p : PerChannel α) (c : Channel) (v : α) : PerChannel α :=
  match c with
  | .alsFront => { p with alsFront := v }
  | .alsRear => { p with alsRear := v }
  | .thBayA => { p with thBayA := v }
  | .thBayB => { p with thBayB := v }
  | .thPanel => { p with thPanel := v }

def PerChannel.map {α β : Type} (f : α → β) (p : PerChannel α) : PerChannel β :=
  ⟨f p.alsFront, f p.alsRear, f p.thBayA, f p.thBayB, f p.thPanel⟩

def PerString.get {α : Type} (p : PerString α) : LedString → α
  | .s1 => p.s1
  | .s2 => p.s2
  | .s3 => p.s3
  | .s4 => p.s4

def PerString.set {α : Type} (p : PerString α) (s : LedString) (v : α) : PerString α :=
  match s with
  | .s1 => { p with s1 := v }
  | .s2 => { p with s2 := v }
  | .s3 => { p with s3 := v }
  | .s4 => { p with s4 := v }

def PerString.map {α β : Type} (f : α → β) (p : PerString α) : PerString β := ⟨f p.s1, f p.s2, f p.s3, f p.s4⟩

def PerNotice.get {α : Type} (p : PerNotice α) : NoticeKind → α
  | .dropAlert => p.dropAlert
  | .busLow => p.busLow
  | .pathFault => p.pathFault
  | .supplyChange => p.supplyChange
  | .release => p.release
  | .dropRecord => p.dropRecord
  | .lampFault => p.lampFault
  | .senseFault => p.senseFault
  | .motionLink => p.motionLink

def PerNotice.set {α : Type} (p : PerNotice α) (k : NoticeKind) (v : α) : PerNotice α :=
  match k with
  | .dropAlert => { p with dropAlert := v }
  | .busLow => { p with busLow := v }
  | .pathFault => { p with pathFault := v }
  | .supplyChange => { p with supplyChange := v }
  | .release => { p with release := v }
  | .dropRecord => { p with dropRecord := v }
  | .lampFault => { p with lampFault := v }
  | .senseFault => { p with senseFault := v }
  | .motionLink => { p with motionLink := v }

def PerSituation.get {α : Type} (p : PerSituation α) : Situation → α
  | .shed => p.shed
  | .dc => p.dc
  | .low => p.low
  | .pair => p.pair
  | .single => p.single

/-! ### Source Path Controller: the path record (section 1.2) -/

inductive PathState where
  | opened | closing | closed | tripped | lockedOut
deriving DecidableEq, Repr

inductive SlewClass where
  | fast | medium | slow
deriving DecidableEq, Repr

/-- How a path's gate is driven (R7): off, ramping on at a slew class, or held fully on. -/
inductive GateDrive where
  | off
  | ramping (slew : SlewClass)
  | fullyOn
deriving DecidableEq, Repr

inductive Strategy where
  | auto | reported
deriving DecidableEq, Repr

inductive FaultCause where
  | none | overcurrent | short | inrush
deriving DecidableEq, Repr

/-- The eight settings of R6; the blanking time is in half-milliseconds as section 10.5 carries it. -/
structure PathSettings where
  ocThreshold : Nat
  blankingHalfMs : Nat
  slew : SlewClass
  strategy : Strategy
  retryMs : Nat
  tripLimit : Nat
  derating : Bool
  autoEligible : Bool
deriving DecidableEq, Repr

/-- The fault record of R13. -/
structure FaultRecord where
  cause : FaultCause
  current : Int
  threshold : Nat
  step : Nat
  uptime : Uptime
  read : Bool
deriving DecidableEq, Repr

/-- A path record. `blanking` and `retry` are `none` when not running and otherwise hold the length they started with (µs, ms);
`emptyTimer` is `none` when stopped and otherwise 100 µs counts; `closedTime` is in 100 µs, 0 outside CLOSED. `rampSlew` is the
class that the latest close order fixed for its ramp (R8, R14). -/
structure PathRecord where
  state : PathState
  settings : PathSettings
  voltage : Nat
  current : Int
  sampleUptime : Uptime
  isEmpty : Bool
  emptyTimer : Option Nat
  effSlew : SlewClass
  rampSlew : SlewClass
  tripCount : Nat
  overCount : Nat
  blanking : Option Nat
  retry : Option Nat
  closedTime : Nat
  fault : FaultRecord
deriving DecidableEq, Repr

/-! ### Source Path Controller: switchover and supply (sections 2.1, 2.2) -/

inductive SupplyMode where
  | auto | manual
deriving DecidableEq, Repr

inductive BusLowAction where
  | notify | shed
deriving DecidableEq, Repr

/-- The supply settings of R24. -/
structure SupplySettings where
  mode : SupplyMode
  order : List Source
  parallelMv : Nat
  overlapMs : Nat
  deadUs : Nat
  rideMs : Nat
  emptyMv : Nat
  lowMv : Nat
  lowPercent : Nat
  busLowMv : Nat
  busLowAction : BusLowAction
  caps : PerSituation Nat
deriving DecidableEq, Repr

inductive SwReason where
  | start | hostSelect | preempt | loss | trip | empty | hot | overvolt | release
deriving DecidableEq, Repr

inductive SwMode where
  | overlap | gap
deriving DecidableEq, Repr

inductive SwPhase where
  | idle | ovlClose | ovlHold | gapOpen | gapDead | gapClose
deriving DecidableEq, Repr

inductive SwOutcome where
  | noSwitchover | completed | failed | fellToNone
deriving DecidableEq, Repr

/-- The switchover record of section 2.2. -/
structure Switchover where
  reason : SwReason
  fromSrc : Option Source
  toSrc : Source
  mode : SwMode
  phase : SwPhase
  tried : List Source
  outcome : SwOutcome
deriving DecidableEq, Repr

/-- The SPC. Timers that are `none` are clear; the overlap and dead-time timers hold the length they started with (ms, µs);
the loss, preemption and recovery timers count 100 µs. -/
structure Spc where
  paths : PerSource PathRecord
  busVoltage : Nat
  settings : SupplySettings
  feeding : Option Source
  sw : Switchover
  overlapTimer : Option Nat
  deadTimer : Option Nat
  lossTimer : Option Nat
  preempt : PerSource (Option Nat)
  busLow : Bool
  belowCount : Nat
  recoveryTimer : Option Nat
  low : PerBay Bool
  packInfo : PerBay (Option Nat)
  soleSource : Bool
  situation : Situation
  cap : Nat
  startUp : Bool
deriving DecidableEq, Repr

/-! ### Latch Controller (section 3.1) -/

inductive ReleaseState where
  | idle | pending | granted
deriving DecidableEq, Repr

inductive PendingCause where
  | none | motion | otherGrant | supplyBusy | switchover
deriving DecidableEq, Repr

inductive ReleaseEvent where
  | none | granted | refused | expired | removed | revoked | fault | faultCleared | stuck | cancelled
deriving DecidableEq, Repr

/-- A bay latch record; timers in ms. -/
structure LatchRecord where
  commanded : LatchPos
  sensed : LatchPos
  release : ReleaseState
  byButton : Bool
  byHost : Bool
  cause : PendingCause
  windowMs : Nat
  hostOwed : Bool
  insecure : Bool
  stuck : Bool
  faultTimer : Nat
  stuckTimer : Nat
  lastEvent : ReleaseEvent
deriving DecidableEq, Repr

/-- The LTC: the two records, which bay's current release arrived first (the request ages of R53, log entry 15), and whether
each button has been seen inactive for 30 ms since its last press (R51). -/
structure Ltc where
  latches : PerBay LatchRecord
  older : Bay
  armed : PerBay Bool
deriving DecidableEq, Repr

/-! ### Sense Converter (sections 4.1, 4.2) -/

inductive ChannelFault where
  | never | none | over | openCircuit | short
deriving DecidableEq, Repr

/-- A channel record; a thermistor channel's range index stays 0. -/
structure ChannelRecord where
  value : Int
  valid : Bool
  fault : ChannelFault
  raw : Nat
  range : Nat
  age : Nat
  stale : Bool
deriving DecidableEq, Repr

/-- The converter activity with what it converts (R64); `slot` is 1-based. -/
inductive Activity where
  | idle
  | walk (slot : Nat) (channel : Channel)
  | oneShot (channel : Channel)
deriving DecidableEq, Repr

/-- The SCV. -/
structure Scv where
  slots : List Channel
  enable : PerChannel Bool
  calFront : Nat
  calRear : Nat
  table : List (Nat × Int)
  activity : Activity
  resume : Nat
  oneShot : Option Channel
  records : PerChannel ChannelRecord
deriving DecidableEq, Repr

/-! ### Brightness Engine (sections 5.2, 5.3) -/

inductive BrightMode where
  | auto | fixed | frozen
deriving DecidableEq, Repr

/-- The brightness settings of R84. -/
structure BrightSettings where
  rearWeight : Nat
  upRate : Nat
  downRate : Nat
  deadband : Nat
  fallback : Nat
  mode : BrightMode
  bias : Int
  fixedLevel : Nat
  t1 : Int
  slope : Nat
  floorTh : Nat
  ymin : Nat
deriving DecidableEq, Repr

/-- The BRE: settings, curve table and the pipeline values of section 5.3. -/
structure Bre where
  settings : BrightSettings
  curve : List (Nat × Nat)
  frontUsable : Bool
  rearUsable : Bool
  lux : Nat
  ambientUnknown : Bool
  level : Nat
  seeded : Bool
  lf : Nat
  lused : Nat
  motionHold : Bool
  y : Nat
  yb : Nat
  clamped : Bool
  frozen : Option Nat
  allowance : Nat
  panelKnown : Bool
  thermalCap : Nat
  cap : Nat
  yc : Nat
deriving DecidableEq, Repr

/-! ### Lamp Driver (sections 6.1, 6.2, 6.4) -/

inductive StringState where
  | enabled | faultOpen | faultShort | disabled
deriving DecidableEq, Repr

/-- A string's last measurement. -/
inductive Measurement where
  | notMeasured | regulating | openCircuit | short
deriving DecidableEq, Repr

/-- The fault whose run a string counts. -/
inductive CountedFault where
  | none | openCircuit | short
deriving DecidableEq, Repr

inductive DiagStrategy where
  | reportUnmeasured | holdLast
deriving DecidableEq, Repr

/-- A string record; `driven` is set while the string has been on since the running period's start (R115, log entry 17). -/
structure StringRecord where
  state : StringState
  meas : Measurement
  counted : CountedFault
  count : Nat
  current : Nat
  headroom : Nat
  driven : Bool
deriving DecidableEq, Repr

/-- A drive: duty in parts of 4096 and string current in 0.1 mA (R112). -/
structure Drive where
  duty : Nat
  current : Nat
deriving DecidableEq, Repr

/-- The LMD settings of R120. -/
structure LampSettings where
  upStep : Nat
  downStep : Nat
  crossover : Nat
  iMax : Nat
  multiple : Nat
  strategy : DiagStrategy
  enable : PerString Bool
deriving DecidableEq, Repr

/-- The LMD; times in ns. `changed`: the drive in force changed after the running period's start (R113). `measured`: the
running period has been measured (R116). `internalNext`: the next period start in FREE_RUN is an internal frame start
(R110, R120, log entry 22). -/
structure Lmd where
  settings : LampSettings
  a : Nat
  ycCopy : Nat
  capCopy : Nat
  runEntry : Bool
  inForce : Drive
  staged : Drive
  stagedPending : Bool
  locked : Bool
  reference : Option Nat
  lastInterval : Nat
  runCount : Nat
  everLocked : Bool
  internalInterval : Nat
  pwmPeriod : Nat
  freeCount : Nat
  internalNext : Bool
  changed : Bool
  measured : Bool
  strings : PerString StringRecord
deriving DecidableEq, Repr

/-! ### Motion Port (chapter 7) -/

inductive SampleRate where
  | hz400 | hz800 | hz1600
deriving DecidableEq, Repr

inductive Transfer where
  | idle | inFlight | discard
deriving DecidableEq, Repr

inductive LinkState where
  | ok | degraded | lost
deriving DecidableEq, Repr

/-- A ring entry, and the sample handed to the DDT (R130, R135). -/
structure Sample where
  x : Int
  y : Int
  z : Int
  held : Bool
  clipped : Bool
  jump : Bool
deriving DecidableEq, Repr

/-- The last values (R129). -/
structure LastValues where
  x : Int
  y : Int
  z : Int
  clipped : Bool
deriving DecidableEq, Repr

/-- The quality counters, in R131's order. -/
structure Counters where
  frames : Nat
  accepted : Nat
  checkFailures : Nat
  mbzFailures : Nat
  flaggedHeld : Nat
  duplicates : Nat
  jumps : Nat
  clipped : Nat
  unprimed : Nat
  lostEntries : Nat
deriving DecidableEq, Repr

/-- The MPT. `history`: true is rejected, oldest first. `ring`: the entry of age n is the n-th, age 0 the newest. -/
structure Mpt where
  rate : SampleRate
  transfer : Transfer
  lastCount : Option Nat
  primed : Bool
  last : LastValues
  history : List Bool
  rejectedRun : Nat
  recoveryRun : Nat
  link : LinkState
  counters : Counters
  ring : List Sample
deriving DecidableEq, Repr

/-! ### Drop Detector (chapter 8) -/

inductive MotionPhase where
  | still | falling | impact | settling
deriving DecidableEq, Repr

inductive DropKind where
  | drop | shock | softLanding | fallTimeout
deriving DecidableEq, Repr

/-- The four motion settings of R140: mg, tenths of a g, ms, ms. -/
structure MotionSettings where
  fallMg : Nat
  impactTenths : Nat
  qualifyMs : Nat
  settleMs : Nat
deriving DecidableEq, Repr

/-- A peak held (R150). -/
structure Peak where
  m2 : Nat
  x : Int
  y : Int
  z : Int
deriving DecidableEq, Repr

/-- A pre-fall attitude and how many samples it is formed from (R151). -/
structure Attitude where
  x : Int
  y : Int
  z : Int
  samples : Nat
deriving DecidableEq, Repr

/-- A frozen trace, oldest entry first, with its lead count (R152). -/
structure Trace where
  lead : Nat
  entries : List Sample
deriving DecidableEq, Repr

/-- The record in progress (R148). `fallUs` is the fall time once the fall has ended; the height is computed from it
(R149). `traceCount` counts the samples after the peak until the trace freezes (R152). -/
structure OpenRecord where
  sequence : Nat
  kind : Option DropKind
  uptime : Uptime
  feeding : Option Source
  inFlight : Bool
  deferred : Bool
  fallUs : Option Nat
  impacts : Nat
  peak : Option Peak
  peakClipped : Bool
  attitude : Option Attitude
  heldCount : Nat
  linkLost : Bool
  unsettled : Bool
  blind : Bool
  traceCount : Option Nat
  trace : Option Trace
deriving DecidableEq, Repr

/-- A closed record (section 8.4): the record as it stood at its close, with its read and displaced flags. The peak in mg
and the dominant axis are computed from the peak (R150). -/
structure DropRecord where
  core : OpenRecord
  read : Bool
  displaced : Bool
deriving DecidableEq, Repr

/-- The DDT. `fallStart` is the sample that began the free-fall run (R142); `table` is oldest first. -/
structure Ddt where
  settings : MotionSettings
  phase : MotionPhase
  blind : Bool
  lastM2 : Nat
  fallRun : Nat
  fallStart : Option Sample
  fallIntervals : Nat
  landingRun : Nat
  fallingCount : Nat
  exitCount : Nat
  settleRun : Nat
  settleLimit : Nat
  blindCount : Nat
  record : Option OpenRecord
  table : List DropRecord
  nextSequence : Nat
deriving DecidableEq, Repr

/-! ### System Link Unit (chapter 9) -/

inductive Platform where
  | run | dark | standby
deriving DecidableEq, Repr

/-- The receiver state with the characters of the partial frame it keeps (R162). -/
inductive Receiver where
  | hunt
  | length
  | kind (len : Nat)
  | tag (len : Nat) (kind : Byte)
  | payload (len : Nat) (kind tag : Byte) (got : List Byte)
  | check (len : Nat) (kind tag : Byte) (got : List Byte)
  | lineBreak
deriving DecidableEq, Repr

/-- A request frame in the queue (R167). -/
structure Request where
  kind : Byte
  tag : Byte
  payload : List Byte
deriving DecidableEq, Repr

/-- A reply in the FIFO (R170, R173). -/
structure Reply where
  tag : Byte
  payload : List Byte
deriving DecidableEq, Repr

/-- The SLU. `outbox` holds the occurrence count of each kind's entry, 0 where there is none (R174). The three `owed` fields
hold the tags of the deferred replies owed (R172). `tx` is the frame on SYS_TX, `none` when IDLE (R176). `subMs` counts
monitor samples inside the millisecond (log entry 1). -/
structure Slu where
  rx : Receiver
  queue : List Request
  fifo : List Reply
  owedSelect : Option Byte
  owedRelease : Option Byte
  owedConvert : Option Byte
  outbox : PerNotice Nat
  noticeMask : NoticeSet
  wakeMask : NoticeSet
  platform : Platform
  wake : Bool
  linkErrors : Nat
  uptime : Uptime
  subMs : Nat
  tx : Option (List Byte)
deriving DecidableEq, Repr

/-! ### What a motion frame brings about -/

/-- The occurrences of a frame-end event that rows of the table name (log entry 4). -/
inductive MotionEvent where
  | linkLost | linkRecovered | fallQualified | softLanding | fallTimeout | impactExit | settled | settleTimeout
  | blindHoldEnd | traceFrozen | recordClosed
deriving DecidableEq, Repr

end Sys2Proof.Machine
end

