-- ==== Sys2Proof/Machine/Defaults.lean ====
section
/-! DEFINITION. The default settings and tables, and each block's power-on value (R22, R49, R62, R81, R104, R123, R137, R160,
R184). -/

namespace Sys2Proof.Machine

/-! ### Defaults of settings and tables -/

/-- R6's defaults, which differ between DC_IN and the bays in the OC threshold and the derating enable. -/
def PathSettings.defaults (s : Source) : PathSettings :=
  { ocThreshold := match s with | .dcIn => 6000 | .bayA => 5000 | .bayB => 5000
    blankingHalfMs := 4, slew := .medium, strategy := .auto, retryMs := 500, tripLimit := 3
    derating := match s with | .dcIn => false | .bayA => true | .bayB => true
    autoEligible := true }

/-- R24's defaults. -/
def SupplySettings.defaults : SupplySettings :=
  { mode := .auto, order := [.dcIn, .bayA, .bayB], parallelMv := 300, overlapMs := 2, deadUs := 50, rideMs := 20
    emptyMv := 12400, lowMv := 13200, lowPercent := 10, busLowMv := 10500, busLowAction := .shed
    caps := { dc := 1000, pair := 1000, single := 850, low := 600, shed := 150 } }

/-- The default slot list (R73). -/
def defaultSlots : List Channel :=
  [.alsFront, .alsRear, .thBayA, .alsFront, .alsRear, .thBayB, .alsFront, .thPanel]

/-- The default thermistor table (R71): count over 16 periods, temperature in 0.1 °C. -/
def defaultThermistors : List (Nat × Int) :=
  [(400, 1250), (600, 950), (900, 720), (1300, 550), (1900, 400), (2800, 270), (4100, 150), (6000, 40), (8800, -70),
    (12900, -180), (19000, -290), (28000, -400)]

/-- The default calibration (R68). -/
def defaultCal : Nat := 256

/-- R84's defaults. -/
def BrightSettings.defaults : BrightSettings :=
  { rearWeight := 64, upRate := 8, downRate := 2, deadband := 2, fallback := 600, mode := .auto, bias := 0
    fixedLevel := 500, t1 := 600, slope := 7, floorTh := 300, ymin := 20 }

/-- The default curve table (R94): L, Y. -/
def defaultCurve : List (Nat × Nat) := [(0, 40), (96, 120), (160, 300), (208, 550), (224, 700), (256, 1000)]

/-- R120's defaults. -/
def LampSettings.defaults : LampSettings :=
  { upStep := 8, downStep := 4, crossover := 250, iMax := 250, multiple := 4, strategy := .reportUnmeasured
    enable := ⟨true, true, true, true⟩ }

/-- R140's defaults. -/
def MotionSettings.defaults : MotionSettings := { fallMg := 350, impactTenths := 60, qualifyMs := 80, settleMs := 300 }

/-- All nine notice kinds (R177). -/
def defaultNoticeMask : NoticeSet := 0x1FF

/-- DROP_ALERT, BUS_LOW and RELEASE: priorities 1, 2 and 5 (R179). -/
def defaultWakeMask : NoticeSet := 0b10011

/-! ### Power-on values -/

/-- A fault record that holds no fault (R20, R22). -/
def FaultRecord.clear : FaultRecord :=
  { cause := .none, current := 0, threshold := 0, step := 0, uptime := 0, read := false }

/-- R22; no close has been ordered, so the class of the last ramp is the model's choice (log entry 38). -/
def PathRecord.powerOn (s : Source) : PathRecord :=
  { state := .opened, settings := .defaults s, voltage := 0, current := 0, sampleUptime := 0, isEmpty := false
    emptyTimer := none, effSlew := .medium, rampSlew := .medium, tripCount := 0, overCount := 0, blanking := none
    retry := none, closedTime := 0, fault := .clear }

/-- R49, with the start-up interval of R47 running. -/
def Spc.powerOn : Spc :=
  { paths := ⟨.powerOn .dcIn, .powerOn .bayA, .powerOn .bayB⟩
    busVoltage := 0, settings := .defaults, feeding := none
    sw := { reason := .start, fromSrc := none, toSrc := .dcIn, mode := .gap, phase := .idle, tried := []
            outcome := .noSwitchover }
    overlapTimer := none, deadTimer := none, lossTimer := none, preempt := ⟨none, none, none⟩
    busLow := false, belowCount := 0, recoveryTimer := none, low := ⟨false, false⟩, packInfo := ⟨none, none⟩
    soleSource := false, situation := .shed, cap := 150, startUp := true }

/-- R62, with the sensed state the switch first reports. -/
def LatchRecord.powerOn (sensed : LatchPos) : LatchRecord :=
  { commanded := .locked, sensed := sensed, release := .idle, byButton := false, byHost := false, cause := .none
    windowMs := 0, hostOwed := false, insecure := false, stuck := false, faultTimer := 0, stuckTimer := 0
    lastEvent := .none }

/-- R51, R62: a button found active at power-on is not ready to be taken. -/
def Ltc.powerOn (btnA btnB : Bool) (lsnsA lsnsB : LatchPos) : Ltc :=
  { latches := ⟨.powerOn lsnsA, .powerOn lsnsB⟩, older := .a, armed := ⟨!btnA, !btnB⟩ }

/-- R81: a record with fault NEVER. -/
def ChannelRecord.powerOn : ChannelRecord :=
  { value := 0, valid := false, fault := .never, raw := 0, range := 0, age := 0, stale := false }

/-- R81: the walk has started slot 1 in the power-on event, which moves the resume slot on (R73). -/
def Scv.powerOn : Scv :=
  { slots := defaultSlots, enable := ⟨true, true, true, true, true⟩, calFront := defaultCal, calRear := defaultCal
    table := defaultThermistors, activity := .walk 1 .alsFront, resume := 2, oneShot := none
    records := ⟨.powerOn, .powerOn, .powerOn, .powerOn, .powerOn⟩ }

/-- R104. -/
def Bre.powerOn : Bre :=
  { settings := .defaults, curve := defaultCurve, frontUsable := false, rearUsable := false, lux := 0
    ambientUnknown := true, level := 0, seeded := false, lf := 0, lused := 0, motionHold := false, y := 600, yb := 600
    clamped := false, frozen := none, allowance := 150, panelKnown := false, thermalCap := 300, cap := 150, yc := 150 }

/-- A drive of nothing (R112). -/
def Drive.off : Drive := { duty := 0, current := 0 }

/-- R123: the PWM has started with a period start, so each string is driven since then. -/
def StringRecord.powerOn : StringRecord :=
  { state := .enabled, meas := .notMeasured, counted := .none, count := 0, current := 0, headroom := 0, driven := true }

/-- R123. -/
def Lmd.powerOn : Lmd :=
  { settings := .defaults, a := 0, ycCopy := 150, capCopy := 150, runEntry := false, inForce := .off, staged := .off
    stagedPending := false, locked := false, reference := none, lastInterval := Config.defaultFrameNs, runCount := 0
    everLocked := false, internalInterval := Config.defaultFrameNs, pwmPeriod := 4166666, freeCount := 0
    internalNext := false, changed := false, measured := false
    strings := ⟨.powerOn, .powerOn, .powerOn, .powerOn⟩ }

/-- A history in which no frame was rejected (R132). -/
def clearHistory : List Bool := List.replicate Config.historyLength false

/-- Counters at 0 (R131). -/
def Counters.zero : Counters :=
  { frames := 0, accepted := 0, checkFailures := 0, mbzFailures := 0, flaggedHeld := 0, duplicates := 0, jumps := 0
    clipped := 0, unprimed := 0, lostEntries := 0 }

/-- R137. -/
def Mpt.powerOn : Mpt :=
  { rate := .hz800, transfer := .idle, lastCount := none, primed := false
    last := { x := 0, y := 0, z := 0, clipped := false }, history := clearHistory, rejectedRun := 0, recoveryRun := 0
    link := .ok, counters := .zero, ring := [] }

/-- R160. -/
def Ddt.powerOn : Ddt :=
  { settings := .defaults, phase := .still, blind := false, lastM2 := 0, fallRun := 0, fallStart := none, fallIntervals := 0
    landingRun := 0, fallingCount := 0, exitCount := 0, settleRun := 0, settleLimit := 0, blindCount := 0
    record := none, table := [], nextSequence := 1 }

/-- R184. -/
def Slu.powerOn : Slu :=
  { rx := .hunt, queue := [], fifo := [], owedSelect := none, owedRelease := none, owedConvert := none
    outbox := ⟨0, 0, 0, 0, 0, 0, 0, 0, 0⟩, noticeMask := defaultNoticeMask, wakeMask := defaultWakeMask
    platform := .dark, wake := false, linkErrors := 0, uptime := 0, subMs := 0, tx := none }

end Sys2Proof.Machine
end

