-- ==== Sys2Proof/Machine/State.lean ====
section
/-! DEFINITION. The state of the part: one field per block of spec/00_scope.md 2.1, and the queue of commands that wait. -/

namespace Sys2Proof.Machine

/-- The whole part. `pending` is the command stream, first in, first out; everything else is state the spec names. -/
structure State where
  slu : Slu
  spc : Spc
  ltc : Ltc
  scv : Scv
  bre : Bre
  lmd : Lmd
  mpt : Mpt
  ddt : Ddt
  pending : List Instr
deriving DecidableEq, Repr

/-- Reasons the part could stop with: no rule of the spec stops it, so there is none (log entry 20). -/
inductive Fault where
deriving DecidableEq, Repr

/-- Reasons a command could have no meaning. -/
inductive Refusal where
  /-- Raised by `exec` alone, for a command that has no meaning yet: safe, since nothing can be proved of such a step. No
  arm of `exec` answers it. -/
  | notModelled (mnemonic : String)
deriving DecidableEq, Repr

/-- Every block at its power-on value, with the given button and switch levels (R51, R62), and the given command queue. -/
def State.powerOn (btnA btnB : Bool) (lsnsA lsnsB : LatchPos) (pending : List Instr) : State :=
  { slu := .powerOn, spc := .powerOn, ltc := .powerOn btnA btnB lsnsA lsnsB, scv := .powerOn, bre := .powerOn
    lmd := .powerOn, mpt := .powerOn, ddt := .powerOn, pending := pending }

/-- The part right after the release of nPOR, with both buttons inactive and both latches sensed LOCKED (log entry 12). -/
def State.reset : State := .powerOn false false .locked .locked []

end Sys2Proof.Machine
end

