-- ==== Sys2Proof/Machine/Operands.lean ====
section
/-! DEFINITION. Operands and codes: how a field is read from a payload and written to one (R185, R187, section 10.3), how a
value is clamped (R171), and the arguments each request carries (sections 10.5 to 10.9). -/

namespace Sys2Proof.Machine

/-! ### Fields of a payload (section 10.3) -/

/-- An unsigned field of 1 character. -/
def u8 (n : Nat) : List Byte := [BitVec.ofNat 8 n]

/-- An unsigned field of 2 characters, little-endian (R185). -/
def u16 (n : Nat) : List Byte := [BitVec.ofNat 8 n, BitVec.ofNat 8 (n / 256)]

/-- An unsigned field of 4 characters, little-endian (R185). -/
def u32 (n : Nat) : List Byte := u16 n ++ u16 (n / 65536)

/-- A signed field of 1 character, two's complement (R185). -/
def s8 (v : Int) : List Byte := u8 (BitVec.ofInt 8 v).toNat

/-- A signed field of 2 characters, two's complement (R185). -/
def s16 (v : Int) : List Byte := u16 (BitVec.ofInt 16 v).toNat

/-- A signed field of 4 characters, two's complement (R185). -/
def s32 (v : Int) : List Byte := u32 (BitVec.ofInt 32 v).toNat

/-- A flag: 0 clear, 1 set. -/
def flag (b : Bool) : List Byte := u8 b.toNat

/-- The number whose bit i is the i-th flag, bit 0 first. -/
def bits : List Bool → Nat
  | [] => 0
  | f :: fs => f.toNat + 2 * bits fs

/-- A character of a payload as a number; 0 past its end, which the length test has shut out (R186). -/
def at8 (p : List Byte) (i : Nat) : Nat := (p.getD i 0).toNat

/-- An unsigned field of 2 characters. -/
def at16 (p : List Byte) (i : Nat) : Nat := at8 p i + 256 * at8 p (i + 1)

/-- An unsigned field of 4 characters. -/
def at32 (p : List Byte) (i : Nat) : Nat := at16 p i + 65536 * at16 p (i + 2)

/-- A signed field of 1 character. -/
def atS8 (p : List Byte) (i : Nat) : Int := (p.getD i 0).toInt

/-- A signed field of 2 characters. -/
def atS16 (p : List Byte) (i : Nat) : Int := (BitVec.ofNat 16 (at16 p i)).toInt

/-- A flag field holding a value other than 0 or 1 is refused (R187). -/
def flagAt (p : List Byte) (i : Nat) : Option Bool :=
  match at8 p i with
  | 0 => some false
  | 1 => some true
  | _ => none

/-! ### Clamping (R171) -/

/-- The nearest end of a range. -/
def clamp (lo hi v : Nat) : Nat := max lo (min hi v)

/-- The nearest end of a signed range. -/
def clampInt (lo hi v : Int) : Int := max lo (min hi v)

/-- The nearest legal value of a range with steps, midway going to the lower (R171); `step` divides `hi - lo`. -/
def clampStep (lo hi step v : Nat) : Nat :=
  let d := clamp lo hi v - lo
  lo + (if step < 2 * (d % step) then d / step + 1 else d / step) * step

/-! ### Codes of the enumerations (section 10.3) -/

def Source.code : Source → Nat
  | .dcIn => 0
  | .bayA => 1
  | .bayB => 2

/-- An absent source is sent as 0xFF (R187). -/
def sourceCode : Option Source → Nat
  | none => 0xFF
  | some s => Source.code s

def sourceOf : Nat → Option Source
  | 0 => some .dcIn
  | 1 => some .bayA
  | 2 => some .bayB
  | _ => none

/-- A bay is carried by its source index (log entry 16). -/
def bayOf : Nat → Option Bay
  | 1 => some .a
  | 2 => some .b
  | _ => none

/-- The source a bay is. -/
def baySource : Bay → Source
  | .a => .bayA
  | .b => .bayB

/-- The bay a source is, if it is one. -/
def sourceBay : Source → Option Bay
  | .dcIn => none
  | .bayA => some .a
  | .bayB => some .b

def otherBay : Bay → Bay
  | .a => .b
  | .b => .a

/-- A bay's code (log entry 16). -/
def bayCode (bay : Bay) : Nat := Source.code (baySource bay)

def channelCode : Option Channel → Nat
  | some .alsFront => 0
  | some .alsRear => 1
  | some .thBayA => 2
  | some .thBayB => 3
  | some .thPanel => 4
  | none => 0xFF

def channelOf : Nat → Option Channel
  | 0 => some .alsFront
  | 1 => some .alsRear
  | 2 => some .thBayA
  | 3 => some .thBayB
  | 4 => some .thPanel
  | _ => none

/-- The reply statuses of R170. -/
inductive Status where
  | ok | adjusted | busy | badValue | badLength | unknownKind | notAllowed | queueFull | noData | cancelled | failed
deriving DecidableEq, Repr

def Status.code : Status → Nat
  | .ok => 0
  | .adjusted => 1
  | .busy => 2
  | .badValue => 3
  | .badLength => 4
  | .unknownKind => 5
  | .notAllowed => 6
  | .queueFull => 7
  | .noData => 8
  | .cancelled => 9
  | .failed => 10

/-- OK, or ADJUSTED when a stored value differs from the value requested (R171). -/
def okOr (adjusted : Bool) : Status := if adjusted then .adjusted else .ok

/-- The reasons of FAILED (R170). -/
inductive FailReason where
  | soleSource | targetTripped | targetDropped | targetUnavailable
deriving DecidableEq, Repr

def FailReason.code : FailReason → Nat
  | .soleSource => 1
  | .targetTripped => 2
  | .targetDropped => 3
  | .targetUnavailable => 4

def PathState.code : PathState → Nat
  | .opened => 0
  | .closing => 1
  | .closed => 2
  | .tripped => 3
  | .lockedOut => 4

def SlewClass.code : SlewClass → Nat
  | .fast => 0
  | .medium => 1
  | .slow => 2

def SlewClass.ofCode : Nat → Option SlewClass
  | 0 => some .fast
  | 1 => some .medium
  | 2 => some .slow
  | _ => none

def Strategy.code : Strategy → Nat
  | .auto => 0
  | .reported => 1

def Strategy.ofCode : Nat → Option Strategy
  | 0 => some .auto
  | 1 => some .reported
  | _ => none

def FaultCause.code : FaultCause → Nat
  | .none => 0
  | .overcurrent => 1
  | .short => 2
  | .inrush => 3

def SupplyMode.code : SupplyMode → Nat
  | .auto => 0
  | .manual => 1

def SupplyMode.ofCode : Nat → Option SupplyMode
  | 0 => some .auto
  | 1 => some .manual
  | _ => none

def BusLowAction.code : BusLowAction → Nat
  | .notify => 0
  | .shed => 1

def BusLowAction.ofCode : Nat → Option BusLowAction
  | 0 => some .notify
  | 1 => some .shed
  | _ => none

def SwReason.code : SwReason → Nat
  | .start => 0
  | .hostSelect => 1
  | .preempt => 2
  | .loss => 3
  | .trip => 4
  | .empty => 5
  | .hot => 6
  | .overvolt => 7
  | .release => 8

def SwMode.code : SwMode → Nat
  | .overlap => 0
  | .gap => 1

def SwPhase.code : SwPhase → Nat
  | .idle => 0
  | .ovlClose => 1
  | .ovlHold => 2
  | .gapOpen => 3
  | .gapDead => 4
  | .gapClose => 5

def SwOutcome.code : SwOutcome → Nat
  | .noSwitchover => 0
  | .completed => 1
  | .failed => 2
  | .fellToNone => 3

def Situation.code : Situation → Nat
  | .shed => 0
  | .dc => 1
  | .low => 2
  | .pair => 3
  | .single => 4

def LatchPos.code : LatchPos → Nat
  | .locked => 0
  | .unlocked => 1

def ReleaseState.code : ReleaseState → Nat
  | .idle => 0
  | .pending => 1
  | .granted => 2

def PendingCause.code : PendingCause → Nat
  | .none => 0
  | .motion => 1
  | .otherGrant => 2
  | .supplyBusy => 3
  | .switchover => 4

def ReleaseEvent.code : ReleaseEvent → Nat
  | .none => 0
  | .granted => 1
  | .refused => 2
  | .expired => 3
  | .removed => 4
  | .revoked => 5
  | .fault => 6
  | .faultCleared => 7
  | .stuck => 8
  | .cancelled => 9

def ChannelFault.code : ChannelFault → Nat
  | .never => 0
  | .none => 1
  | .over => 2
  | .openCircuit => 3
  | .short => 4

def Activity.code : Activity → Nat
  | .idle => 0
  | .walk _ _ => 1
  | .oneShot _ => 2

def BrightMode.code : BrightMode → Nat
  | .auto => 0
  | .fixed => 1
  | .frozen => 2

def BrightMode.ofCode : Nat → Option BrightMode
  | 0 => some .auto
  | 1 => some .fixed
  | 2 => some .frozen
  | _ => none

def StringState.code : StringState → Nat
  | .enabled => 0
  | .faultOpen => 1
  | .faultShort => 2
  | .disabled => 3

def Measurement.code : Measurement → Nat
  | .notMeasured => 0
  | .regulating => 1
  | .openCircuit => 2
  | .short => 3

def CountedFault.code : CountedFault → Nat
  | .none => 0
  | .openCircuit => 2
  | .short => 3

def DiagStrategy.code : DiagStrategy → Nat
  | .reportUnmeasured => 0
  | .holdLast => 1

def DiagStrategy.ofCode : Nat → Option DiagStrategy
  | 0 => some .reportUnmeasured
  | 1 => some .holdLast
  | _ => none

def Platform.code : Platform → Nat
  | .run => 0
  | .dark => 1
  | .standby => 2

def Platform.ofCode : Nat → Option Platform
  | 0 => some .run
  | 1 => some .dark
  | 2 => some .standby
  | _ => none

def MotionPhase.code : MotionPhase → Nat
  | .still => 0
  | .falling => 1
  | .impact => 2
  | .settling => 3

def LinkState.code : LinkState → Nat
  | .ok => 0
  | .degraded => 1
  | .lost => 2

/-- A drop kind that is absent is sent as 0xFF (R187). -/
def dropKindCode : Option DropKind → Nat
  | some .drop => 0
  | some .shock => 1
  | some .softLanding => 2
  | some .fallTimeout => 3
  | none => 0xFF

/-- Sample rates in Hz (R125). -/
def SampleRate.hz : SampleRate → Nat
  | .hz400 => 400
  | .hz800 => 800
  | .hz1600 => 1600

def SampleRate.ofHz (n : Nat) : Option SampleRate :=
  if n = 400 then some .hz400 else if n = 800 then some .hz800 else if n = 1600 then some .hz1600 else none

/-- Sample intervals in µs (R125). -/
def SampleRate.intervalUs : SampleRate → Nat
  | .hz400 => 2500
  | .hz800 => 1250
  | .hz1600 => 625

/-- The 28 request kinds of section 10.2. -/
inductive ReqKind where
  | setPath | getPath | clearPath | setSupply | getSupply | selectSource | packInfo | releaseBay | getLatch | setSense
  | getSense | loadThermistor | convertNow | setBrightness | getBrightness | loadCurve | setLamp | getLamp | lampClear
  | setMotion | getMotion | readDrop | eraseDrops | setPlatform | setNoticeMask | getStatus | getIdent | reset
deriving DecidableEq, Repr

/-- The kind codes of section 10.2. -/
def ReqKind.code : ReqKind → Nat
  | .setPath => 0x10
  | .getPath => 0x11
  | .clearPath => 0x12
  | .setSupply => 0x13
  | .getSupply => 0x14
  | .selectSource => 0x15
  | .packInfo => 0x16
  | .releaseBay => 0x20
  | .getLatch => 0x21
  | .setSense => 0x30
  | .getSense => 0x31
  | .loadThermistor => 0x32
  | .convertNow => 0x33
  | .setBrightness => 0x40
  | .getBrightness => 0x41
  | .loadCurve => 0x42
  | .setLamp => 0x50
  | .getLamp => 0x51
  | .lampClear => 0x52
  | .setMotion => 0x60
  | .getMotion => 0x61
  | .readDrop => 0x62
  | .eraseDrops => 0x63
  | .setPlatform => 0x70
  | .setNoticeMask => 0x71
  | .getStatus => 0x72
  | .getIdent => 0x73
  | .reset => 0x74

/-- A request kind's code as the character a frame carries. -/
def ReqKind.byte (k : ReqKind) : Byte := BitVec.ofNat 8 k.code

/-- Every request kind, in the order of section 10.2. -/
def ReqKind.all : List ReqKind :=
  [.setPath, .getPath, .clearPath, .setSupply, .getSupply, .selectSource, .packInfo, .releaseBay, .getLatch, .setSense,
    .getSense, .loadThermistor, .convertNow, .setBrightness, .getBrightness, .loadCurve, .setLamp, .getLamp, .lampClear,
    .setMotion, .getMotion, .readDrop, .eraseDrops, .setPlatform, .setNoticeMask, .getStatus, .getIdent, .reset]

/-- The kind a code names; a code of REPLY, of a notice kind or not in the table names none (R186). -/
def ReqKind.ofByte (b : Byte) : Option ReqKind := ReqKind.all.find? (fun k => k.byte == b)

/-- REPLY's kind code (section 10.2). -/
def replyCode : Nat := 0x80

/-- The notice kinds' priorities, 1 highest (R173). -/
def NoticeKind.priority : NoticeKind → Nat
  | .dropAlert => 1
  | .busLow => 2
  | .pathFault => 3
  | .supplyChange => 4
  | .release => 5
  | .dropRecord => 6
  | .lampFault => 7
  | .senseFault => 8
  | .motionLink => 9

/-- The notice kinds' codes: 0x81 to 0x89 in priority order (section 10.2). -/
def NoticeKind.code (k : NoticeKind) : Nat := 0x80 + k.priority

/-- Whether a mask holds a kind: bit k − 1 for priority k (section 10.3). -/
def inMask (m : NoticeSet) (k : NoticeKind) : Bool := m.getLsbD (k.priority - 1)

/-- Every notice kind, highest priority first. -/
def NoticeKind.all : List NoticeKind :=
  [.dropAlert, .busLow, .pathFault, .supplyChange, .release, .dropRecord, .lampFault, .senseFault, .motionLink]

/-- The payload lengths a kind allows (R186). A payload above 240 characters is no frame's. -/
def lengthAllowed (k : ReqKind) (p : List Byte) : Bool :=
  let n := p.length
  decide (n ≤ Config.maxPayload) &&
    match k with
    | .setPath => n == 11
    | .getPath | .clearPath => n == 1
    | .setSupply => n == 27
    | .getSupply => n == 0
    | .selectSource => n == 1
    | .packInfo => n == 1 || n == 2
    | .releaseBay | .getLatch => n == 1
    | .setSense => n != 0 && n == 6 + at8 p 0
    | .getSense => n == 0
    | .loadThermistor => n == 48
    | .convertNow => n == 1
    | .setBrightness => n == 18
    | .getBrightness => n == 0
    | .loadCurve => n != 0 && n == 1 + 4 * at8 p 0
    | .setLamp => n == 9
    | .getLamp | .lampClear => n == 1
    | .setMotion => n == 9
    | .getMotion => n == 0
    | .readDrop => n == 0 || n == 4
    | .eraseDrops => n == 0
    | .setPlatform => n == 3
    | .setNoticeMask => n == 2
    | .getStatus | .getIdent | .reset => n == 0

/-! ### Arguments of the requests: `none` where R171 or R187 refuses the payload with BAD_VALUE -/

/-- A source set: non-empty, bits 0 to 2 (R187). -/
def sourceSet (n : Nat) : Option (PerSource Bool) :=
  if n = 0 ∨ 8 ≤ n then none else some ⟨n.testBit 0, n.testBit 1, n.testBit 2⟩

/-- The lowest-indexed member of a non-empty source set (spec/00_scope.md 5.3). -/
def lowestSource (m : PerSource Bool) : Source := if m.dc then .dcIn else if m.a then .bayA else .bayB

/-- The four strings, lowest number first. -/
def LedString.all : List LedString := [.s1, .s2, .s3, .s4]

/-- A string's number, 1 to 4. -/
def LedString.number : LedString → Nat
  | .s1 => 1
  | .s2 => 2
  | .s3 => 3
  | .s4 => 4

/-- A set of strings 1 to 4, bit s − 1 for string s; `none` names a string outside (R187). -/
def stringBits (n : Nat) : Option (PerString Bool) :=
  if 16 ≤ n then none else some ⟨n.testBit 0, n.testBit 1, n.testBit 2, n.testBit 3⟩

/-- A string set: non-empty (R121, R122). -/
def stringSet (n : Nat) : Option (PerString Bool) := if n = 0 then none else stringBits n

/-- The lowest member of a non-empty string set. -/
def lowestString (m : PerString Bool) : LedString :=
  if m.s1 then .s1 else if m.s2 then .s2 else if m.s3 then .s3 else .s4

/-- SET_PATH's arguments (R19), as requested. -/
structure PathArgs where
  members : PerSource Bool
  ocThreshold : Nat
  blankingHalfMs : Nat
  slew : SlewClass
  strategy : Strategy
  retryMs : Nat
  tripLimit : Nat
  derating : Bool
  autoEligible : Bool
deriving DecidableEq, Repr

/-- Blanking times are given by their values, in half-milliseconds (section 10.5). -/
def blankingOf (n : Nat) : Option Nat := if n = 1 ∨ n = 2 ∨ n = 4 ∨ n = 8 then some n else none

/-- R19, section 10.5. -/
def pathArgs (p : List Byte) : Option PathArgs := do
  let members ← sourceSet (at8 p 0)
  let blanking ← blankingOf (at8 p 3)
  let slew ← SlewClass.ofCode (at8 p 4)
  let strategy ← Strategy.ofCode (at8 p 5)
  let derating ← flagAt p 9
  let autoEligible ← flagAt p 10
  return { members := members, ocThreshold := at16 p 1, blankingHalfMs := blanking, slew := slew, strategy := strategy
           retryMs := at16 p 6, tripLimit := at8 p 8, derating := derating, autoEligible := autoEligible }

/-- The settings stored on a member: clamped, and derating off on DC_IN (R19). -/
def PathArgs.stored (a : PathArgs) (s : Source) : PathSettings :=
  { ocThreshold := clampStep 1000 10000 100 a.ocThreshold
    blankingHalfMs := a.blankingHalfMs
    slew := a.slew
    strategy := a.strategy
    retryMs := clampStep 50 2000 50 a.retryMs
    tripLimit := clamp 1 7 a.tripLimit
    derating := match s with | .dcIn => false | .bayA => a.derating | .bayB => a.derating
    autoEligible := a.autoEligible }

/-- Whether any member's stored settings differ from those requested (R19). -/
def PathArgs.adjusted (a : PathArgs) : Bool :=
  clampStep 1000 10000 100 a.ocThreshold != a.ocThreshold || clampStep 50 2000 50 a.retryMs != a.retryMs ||
    clamp 1 7 a.tripLimit != a.tripLimit || (a.members.dc && a.derating)

/-- A preference order is a permutation of the three sources (R24). -/
def orderOf (p : List Byte) : Option (List Source) := do
  let x ← sourceOf (at8 p 1)
  let y ← sourceOf (at8 p 2)
  let z ← sourceOf (at8 p 3)
  if x = y ∨ y = z ∨ x = z then none else some [x, y, z]

/-- Dead times are given by their values in µs (section 10.6). -/
def deadTimeOf (n : Nat) : Option Nat := if n = 20 ∨ n = 50 ∨ n = 100 ∨ n = 200 then some n else none

/-- Bus-low thresholds are given by their values in mV (section 10.6). -/
def busLowMvOf (n : Nat) : Option Nat :=
  if n = 10000 ∨ n = 10500 ∨ n = 11000 ∨ n = 11500 then some n else none

/-- SET_SUPPLY's settings as requested (R24, section 10.6). -/
def supplyArgs (p : List Byte) : Option SupplySettings := do
  let mode ← SupplyMode.ofCode (at8 p 0)
  let order ← orderOf p
  let dead ← deadTimeOf (at8 p 7)
  let busLowMv ← busLowMvOf (at16 p 14)
  let action ← BusLowAction.ofCode (at8 p 16)
  return { mode := mode, order := order, parallelMv := at16 p 4, overlapMs := at8 p 6, deadUs := dead
           rideMs := at8 p 8, emptyMv := at16 p 9, lowMv := at16 p 11, lowPercent := at8 p 13, busLowMv := busLowMv
           busLowAction := action
           caps := { dc := at16 p 17, pair := at16 p 19, single := at16 p 21, low := at16 p 23, shed := at16 p 25 } }

/-- R24's ranges and steps. -/
def SupplySettings.clamped (a : SupplySettings) : SupplySettings :=
  { a with
    parallelMv := clampStep 50 800 50 a.parallelMv
    overlapMs := clamp 1 8 a.overlapMs
    rideMs := clampStep 5 50 5 a.rideMs
    emptyMv := clamp 11000 14000 a.emptyMv
    lowMv := clamp 11000 15000 a.lowMv
    lowPercent := clamp 5 30 a.lowPercent
    caps := { dc := min 1000 a.caps.dc, pair := min 1000 a.caps.pair, single := min 1000 a.caps.single
              low := min 1000 a.caps.low, shed := min 1000 a.caps.shed } }

/-- SET_SENSE's arguments (R75, section 10.8). -/
structure SenseArgs where
  slots : List Channel
  enable : PerChannel Bool
  calFront : Nat
  calRear : Nat
deriving DecidableEq, Repr

/-- The channels named by a list of characters, or none if one names no channel. -/
def channelsOf : List Byte → Option (List Channel)
  | [] => some []
  | b :: bs => do
    let c ← channelOf b.toNat
    let cs ← channelsOf bs
    return c :: cs

/-- A channel enable set: bits 0 to 4 (section 10.3); the empty set is accepted (R75). -/
def channelBits (n : Nat) : Option (PerChannel Bool) :=
  if 32 ≤ n then none else some ⟨n.testBit 0, n.testBit 1, n.testBit 2, n.testBit 3, n.testBit 4⟩

/-- R75. -/
def senseArgs (p : List Byte) : Option SenseArgs := do
  let slots ← channelsOf (p.drop 6)
  let enable ← channelBits (at8 p 1)
  if 1 ≤ slots.length ∧ slots.length ≤ 8 then
    some { slots := slots, enable := enable, calFront := at16 p 2, calRear := at16 p 4 }
  else none

/-- The points of LOAD_THERMISTOR, `n` of them from offset `i`: count, then temperature (section 10.8). -/
def thermistorPoints (p : List Byte) : Nat → Nat → List (Nat × Int)
  | 0, _ => []
  | n + 1, i => (at16 p i, atS16 p (i + 2)) :: thermistorPoints p n (i + 4)

/-- R72, step 1. -/
def clampThermistor (pt : Nat × Int) : Nat × Int := (clamp 160 40000 pt.1, clampInt (-400) 1250 pt.2)

/-- R72, step 2: strictly increasing counts, strictly decreasing temperatures. -/
def thermistorOrdered : List (Nat × Int) → Bool
  | [] => true
  | [_] => true
  | x :: y :: rest => decide (x.1 < y.1) && decide (y.2 < x.2) && thermistorOrdered (y :: rest)

/-- The points of LOAD_CURVE, `n` of them from offset `i`: L, then Y (section 10.9). -/
def curvePoints (p : List Byte) : Nat → Nat → List (Nat × Nat)
  | 0, _ => []
  | n + 1, i => (at16 p i, at16 p (i + 2)) :: curvePoints p n (i + 4)

/-- R95, step 2. -/
def clampCurve (pt : Nat × Nat) : Nat × Nat := (min 287 pt.1, min 1000 pt.2)

/-- R95, step 3: strictly increasing L. -/
def curveOrdered : List (Nat × Nat) → Bool
  | [] => true
  | [_] => true
  | x :: y :: rest => decide (x.1 < y.1) && curveOrdered (y :: rest)

/-- SET_BRIGHTNESS's settings as requested (R102, section 10.9). -/
def brightArgs (p : List Byte) : Option BrightSettings := do
  let mode ← BrightMode.ofCode (at8 p 7)
  return { rearWeight := at16 p 0, upRate := at8 p 2, downRate := at8 p 3, deadband := at8 p 4, fallback := at16 p 5
           mode := mode, bias := atS8 p 8, fixedLevel := at16 p 9, t1 := atS16 p 11, slope := at8 p 13
           floorTh := at16 p 14, ymin := at16 p 16 }

/-- R84's ranges. -/
def BrightSettings.clamped (a : BrightSettings) : BrightSettings :=
  { rearWeight := min 256 a.rearWeight, upRate := clamp 1 16 a.upRate, downRate := clamp 1 16 a.downRate
    deadband := min 8 a.deadband, fallback := min 1000 a.fallback, mode := a.mode, bias := clampInt (-8) 8 a.bias
    fixedLevel := min 1000 a.fixedLevel, t1 := clampInt 400 800 a.t1, slope := clamp 1 20 a.slope
    floorTh := clamp 100 1000 a.floorTh, ymin := min 200 a.ymin }

/-- SET_LAMP's settings as requested (R120, section 10.9). The empty enable set is accepted as R120 says, though R187 refuses an
empty set field (log entry 51). -/
def lampArgs (p : List Byte) : Option LampSettings := do
  let strategy ← DiagStrategy.ofCode (at8 p 7)
  let enable ← stringBits (at8 p 8)
  return { upStep := at8 p 0, downStep := at8 p 1, crossover := at16 p 2, iMax := at16 p 4, multiple := at8 p 6
           strategy := strategy, enable := enable }

/-- R120's ranges. -/
def LampSettings.clamped (a : LampSettings) : LampSettings :=
  { a with
    upStep := clamp 1 50 a.upStep
    downStep := clamp 1 50 a.downStep
    crossover := clamp 50 500 a.crossover
    iMax := clamp 50 400 a.iMax
    multiple := clamp 1 8 a.multiple }

/-- SET_MOTION's rate and settings as requested (R158, section 10.9). -/
def motionArgs (p : List Byte) : Option (SampleRate × MotionSettings) := do
  let rate ← SampleRate.ofHz (at16 p 0)
  return (rate, { fallMg := at16 p 2, impactTenths := at8 p 4, qualifyMs := at16 p 5, settleMs := at16 p 7 })

/-- R140's ranges and steps. -/
def MotionSettings.clamped (a : MotionSettings) : MotionSettings :=
  { fallMg := clampStep 100 600 25 a.fallMg, impactTenths := clampStep 20 150 5 a.impactTenths
    qualifyMs := clampStep 30 300 10 a.qualifyMs, settleMs := clamp 100 2000 a.settleMs }

/-- A notice or wake mask: bits 0 to 8 (R187). -/
def maskAt (p : List Byte) (i : Nat) : Option NoticeSet :=
  if at16 p i < 512 then some (BitVec.ofNat 9 (at16 p i)) else none

/-- The signed value of two characters, most significant first (section 10.12). -/
def axisOf (hi lo : Byte) : Int := (hi ++ lo).toInt

end Sys2Proof.Machine
end

