-- ==== Sys2Proof/Machine/Flags.lean ====
section
/-! DEFINITION. What the rules compute from the state: source conditions, availability, the supply situation, link space, motion
thresholds and the output pins. Each is one function here and nothing of it is stored (log entry 14). -/

namespace Sys2Proof.Machine

/-! ### Source conditions (section 1.1) -/

/-- The record of one path. -/
def State.path (s : State) (p : Source) : PathRecord := s.spc.paths.get p

/-- The record of one bay's latch. -/
def State.latch (s : State) (bay : Bay) : LatchRecord := s.ltc.latches.get bay

/-- R2: presence, from the source voltage alone. -/
def presentAt (p : Source) (mv : Nat) : Bool :=
  match p with
  | .dcIn => decide (Config.dcPresentMv ≤ mv)
  | .bayA => decide (Config.bayPresentMv ≤ mv)
  | .bayB => decide (Config.bayPresentMv ≤ mv)

/-- R2: present at the latest sample; the measurements read 0 before the first (R1). -/
def present (s : State) (p : Source) : Bool := presentAt p (s.path p).voltage

/-- R2: OVERVOLT, which only DC_IN can show. -/
def overvolt (s : State) (p : Source) : Bool :=
  match p with
  | .dcIn => decide (Config.dcOvervoltMv ≤ (s.path .dcIn).voltage)
  | .bayA => false
  | .bayB => false

/-- The channel of a bay's temperature (R3). -/
def bayChannel : Bay → Channel
  | .a => .thBayA
  | .b => .thBayB

/-- A channel's value while its reader counts it as known: valid and not stale (R3, R66, R99). -/
def knownValue (r : ChannelRecord) : Option Int := if r.valid && !r.stale then some r.value else none

/-- The bay temperature, when known (R3). -/
def bayTemp (s : State) (bay : Bay) : Option Int := knownValue (s.scv.records.get (bayChannel bay))

/-- R3: a bay is HOT when its temperature is known and at or above 70.0 °C; DC_IN never is. -/
def hot (s : State) (p : Source) : Bool :=
  match (sourceBay p).bind (bayTemp s) with
  | some t => decide (Config.hotTemp ≤ t)
  | none => false

/-- R11: the derating step for a bay temperature. -/
def deratingOf : Option Int → Nat
  | none => 3
  | some t => if t < 0 then 2 else if t < 450 then 0 else if t < 550 then 1 else if t < 600 then 2 else 3

/-- R11: the derating step k of a path. -/
def derating (s : State) (p : Source) : Nat :=
  match sourceBay p with
  | none => 0
  | some bay => if (s.path p).settings.derating then deratingOf (bayTemp s bay) else 0

/-- R11: the threshold in force, in mA. -/
def threshold (s : State) (p : Source) : Nat := (s.path p).settings.ocThreshold * (8 - derating s p) / 8

/-- R10: the short limit, in mA. -/
def shortLimit (s : State) (p : Source) : Nat := 3 * threshold s p

/-- R5: no other source is present. -/
def noOtherPresent (s : State) (p : Source) : Bool :=
  [Source.dcIn, .bayA, .bayB].all (fun q => q == p || !present s q)

/-- R5: the conditions that only a bay has. -/
def bayAvailable (s : State) (bay : Bay) : Bool :=
  (s.latch bay).commanded == .locked && (s.latch bay).release == .idle && !hot s (baySource bay) &&
    !(s.path (baySource bay)).isEmpty && (!(s.latch bay).insecure || noOtherPresent s (baySource bay))

/-- R5: available for selection. -/
def available (s : State) (p : Source) : Bool :=
  present s p && !overvolt s p && ((s.path p).state == .opened || s.spc.feeding == some p) &&
    (match sourceBay p with
      | none => true
      | some bay => bayAvailable s bay) &&
    (s.spc.settings.mode == .manual || (s.path p).settings.autoEligible)

/-! ### Switchover (sections 2.2 to 2.4) -/

/-- R27: a switchover is in flight while the phase is not IDLE. -/
def inFlight (s : State) : Bool := s.spc.sw.phase != .idle

/-- R19, R38: a path is the from or to path of the switchover in flight. -/
def inSwitchover (s : State) (p : Source) : Bool :=
  inFlight s && (s.spc.sw.fromSrc == some p || s.spc.sw.toSrc == p)

/-- R28: the target choice. -/
def chooseTarget (s : State) (fromSrc : Option Source) (tried : List Source) : Option Source :=
  s.spc.settings.order.find? (fun p => available s p && fromSrc != some p && !tried.contains p)

/-- R29: a CLOSED from path is healthy. -/
def healthy (s : State) (p : Source) : Bool := present s p && s.spc.lossTimer.isNone && !overvolt s p

/-- The magnitude of a difference. -/
def distance (m n : Nat) : Nat := (m - n) + (n - m)

/-- R29: the mode of a switchover at its start. -/
def chooseMode (s : State) (fromSrc : Option Source) (toSrc : Source) : SwMode :=
  match fromSrc with
  | none => .gap
  | some f =>
    if (s.path f).state = .closed ∧ healthy s f = true ∧
        distance (s.path f).voltage (s.path toSrc).voltage ≤ s.spc.settings.parallelMv then .overlap
    else .gap

/-- R33: ride-through is armed while the motion phase is not STILL. -/
def rideThroughArmed (s : State) : Bool := s.ddt.phase != .still

/-- R34: the feeding bay is EMPTY or HOT. -/
def heldCondition (s : State) : Option SwReason :=
  match s.spc.feeding with
  | none => none
  | some f =>
    if (sourceBay f).isSome && (s.path f).isEmpty then some .empty
    else if hot s f then some .hot
    else none

/-- R36: a source stands earlier in the preference order than the feeding source; NONE comes after all. -/
def earlierThanFeeding (s : State) (p : Source) : Bool :=
  match s.spc.feeding with
  | none => s.spc.settings.order.contains p
  | some f => (s.spc.settings.order.takeWhile (fun q => q != f)).contains p

/-- R36: a source's preemption timer runs. -/
def preemptRuns (s : State) (p : Source) : Bool :=
  s.spc.settings.mode == .auto && available s p && earlierThanFeeding s p

/-! ### Supply situation (section 2.8) -/

/-- R45: a GAP switchover between GAP_OPEN and its completion. -/
def gapRunning (s : State) : Bool :=
  match s.spc.sw.phase with
  | .gapOpen | .gapDead | .gapClose => true
  | .idle | .ovlClose | .ovlHold => false

/-- R45: the feeding battery is low. -/
def bayLow (s : State) (bay : Bay) : Bool :=
  match s.spc.packInfo.get bay with
  | some charge => decide (charge < s.spc.settings.lowPercent)
  | none => s.spc.low.get bay

/-- R45: a bay holds a present battery that feeds or is available. -/
def bayCounts (s : State) (bay : Bay) : Bool :=
  present s (baySource bay) && (s.spc.feeding == some (baySource bay) || available s (baySource bay))

/-- R45: the supply situation is the first that applies. -/
def situationOf (s : State) : Situation :=
  if (s.spc.busLow && s.spc.settings.busLowAction == .shed) || gapRunning s || s.spc.feeding.isNone then .shed
  else if s.spc.feeding = some .dcIn then .dc
  else if (s.spc.feeding.bind sourceBay).any (bayLow s) then .low
  else if bayCounts s .a && bayCounts s .b then .pair
  else .single

/-! ### Latches (chapter 3) -/

/-- R59: the fault timer runs. -/
def faultTimerRuns (l : LatchRecord) : Bool :=
  l.commanded == .locked && l.sensed == (if l.insecure then LatchPos.locked else .unlocked)

/-- R60: the stuck timer runs. -/
def stuckTimerRuns (l : LatchRecord) : Bool := l.commanded == .unlocked && l.sensed == .locked

/-- R60: the stuck timer has run its 200 ms and the flag is set: it holds (log entry 36). A flag that RESET kept (log entry 39) is set
before the timer of a new grant has run. -/
def stuckTaken (l : LatchRecord) : Bool := l.stuck && l.stuckTimer == Config.latchTimerMs

/-! ### System link (R168, R169) -/

/-- R168: the reserved reply space is the number of deferred replies owed. -/
def reservedSpace (s : State) : Nat :=
  s.slu.owedSelect.isSome.toNat + s.slu.owedRelease.isSome.toNat + s.slu.owedConvert.isSome.toNat

/-- R168: the free reply space. -/
def freeSpace (s : State) : Nat := Config.maxReplies - (s.slu.fifo.length + reservedSpace s)

/-- R169: the dispatcher can take a request. -/
def dispatchReady (s : State) : Bool := !s.slu.queue.isEmpty && decide (1 ≤ freeSpace s)

/-- Something waits for the transmitter (R176). -/
def outboxEmpty (o : PerNotice Nat) : Bool := NoticeKind.all.all (fun k => o.get k == 0)

/-! ### Motion (sections 7.4, 8.2) -/

/-- R132: rejected entries in the history. -/
def rejectedInWindow (m : Mpt) : Nat := m.history.count true

/-- R140: a time as a sample count, at least 1. -/
def sampleCount (rate : SampleRate) (ms : Nat) : Nat := max 1 (ms * rate.hz / 1000)

/-- R140: the squared free-fall threshold. -/
def fallSquared (m : MotionSettings) : Nat := (m.fallMg * 2048 / 1000) ^ 2

/-- R140: the squared impact threshold. -/
def impactSquared (m : MotionSettings) : Nat := (m.impactTenths * 2048 / 10) ^ 2

/-! ### Output pins -/

/-- R7, R14: GATE_DC, GATE_A, GATE_B ramp on in CLOSING, at the class fixed at the close order, are held fully on in CLOSED and
are off in any other state. -/
def gateDrive (s : State) (p : Source) : GateDrive :=
  match (s.path p).state with
  | .closing => .ramping (s.path p).rampSlew
  | .closed => .fullyOn
  | .opened | .tripped | .lockedOut => .off

/-- R7: a gate is not off: the path is CLOSING or CLOSED. -/
def gateDriven (s : State) (p : Source) : Bool :=
  match (s.path p).state with
  | .closing | .closed => true
  | .opened | .tripped | .lockedOut => false

/-- R50: LATCH_A and LATCH_B are driven while the commanded state is UNLOCKED. -/
def latchDriven (s : State) (bay : Bay) : Bool := (s.latch bay).commanded == .unlocked

/-- R141: PARK is asserted exactly when the motion phase is not STILL. -/
def parkAsserted (s : State) : Bool := s.ddt.phase != .still

/-- R125: MS_FS is asserted during a transfer. -/
def frameSyncAsserted (s : State) : Bool := s.mpt.transfer != .idle

/-- R112, R115: the current a string's sink regulates while it is on. -/
def sinkCurrent (s : State) (i : LedString) : Nat :=
  if (s.lmd.strings.get i).state = .enabled ∧ (s.lmd.strings.get i).driven = true ∧ 0 < s.lmd.inForce.duty then
    s.lmd.inForce.current
  else 0

end Sys2Proof.Machine
end

