-- ==== Sys2Proof/Machine/Layouts.lean ====
section
/-! DEFINITION. The byte layouts of chapter 10: records, results, notice contents and frames, each from the state at the moment
it is built (R170, R175, R185, R187). -/

namespace Sys2Proof.Machine

/-! ### The frame (section 10.1) -/

/-- The 8-bit sum of characters. -/
def sum8 (cs : List Byte) : Byte := cs.foldl (· + ·) 0

/-- R185: the frame the SLU builds; the check makes the 8-bit sum from length to check 0. -/
def buildFrame (kind : Nat) (tag : Byte) (payload : List Byte) : List Byte :=
  let body := u8 payload.length ++ u8 kind ++ [tag] ++ payload
  Config.syncChar :: body ++ [-(sum8 body)]

/-- Section 10.4: a reply's payload. -/
def replyPayload (kind : Byte) (status : Status) (reason : Option FailReason) (result : List Byte) : List Byte :=
  [kind] ++ u8 status.code ++ (match reason with | none => [] | some r => u8 r.code) ++ result

/-! ### Paths and supply (sections 10.5, 10.6) -/

/-- Offsets 26 to 36 of the path record. -/
def faultBytes (f : FaultRecord) : List Byte :=
  u8 f.cause.code ++ s16 f.current ++ u16 f.threshold ++ u8 f.step ++ u32 f.uptime.toNat ++ flag f.read

/-- Section 10.5: the path record, 37 characters. -/
def pathBytes (s : State) (p : Source) : List Byte :=
  let r := s.path p
  u8 (Source.code p) ++ u16 r.settings.ocThreshold ++ u8 r.settings.blankingHalfMs ++ u8 r.settings.slew.code ++
    u8 r.settings.strategy.code ++ u16 r.settings.retryMs ++ u8 r.settings.tripLimit ++ flag r.settings.derating ++
    flag r.settings.autoEligible ++ u8 r.state.code ++ u8 r.effSlew.code ++ u8 r.tripCount ++ u16 r.voltage ++
    s16 r.current ++ u32 r.sampleUptime.toNat ++
    u8 (bits [present s p, overvolt s p, hot s p, r.isEmpty, available s p]) ++ u8 (derating s p) ++
    u16 (threshold s p) ++ faultBytes r.fault

/-- Section 10.6: the supply settings, 27 characters. -/
def supplySettingsBytes (c : SupplySettings) : List Byte :=
  u8 c.mode.code ++ c.order.flatMap (fun p => u8 (Source.code p)) ++ u16 c.parallelMv ++ u8 c.overlapMs ++
    u8 c.deadUs ++ u8 c.rideMs ++ u16 c.emptyMv ++ u16 c.lowMv ++ u8 c.lowPercent ++ u16 c.busLowMv ++
    u8 c.busLowAction.code ++ u16 c.caps.dc ++ u16 c.caps.pair ++ u16 c.caps.single ++ u16 c.caps.low ++
    u16 c.caps.shed

/-- Offsets 28 to 36 of the GET_SUPPLY result: the switchover record; unused tried entries are 0xFF (R187). -/
def switchoverBytes (w : Switchover) : List Byte :=
  u8 w.reason.code ++ u8 (sourceCode w.fromSrc) ++ u8 (Source.code w.toSrc) ++ u8 w.mode.code ++ u8 w.phase.code ++
    u8 w.tried.length ++ u8 (sourceCode (w.tried[0]?)) ++ u8 (sourceCode (w.tried[1]?)) ++ u8 w.outcome.code

/-- The result of SELECT_SOURCE: feeding source and switchover record. -/
def selectBytes (s : State) : List Byte := u8 (sourceCode s.spc.feeding) ++ switchoverBytes s.spc.sw

/-- A bay's pack info: present flag and percent (R187: 0 when absent). -/
def packBytes (s : State) (bay : Bay) : List Byte :=
  flag (s.spc.packInfo.get bay).isSome ++ u8 ((s.spc.packInfo.get bay).getD 0)

/-- Section 10.6: the GET_SUPPLY result, 46 characters. -/
def supplyBytes (s : State) : List Byte :=
  supplySettingsBytes s.spc.settings ++ selectBytes s ++ u8 s.spc.situation.code ++ u16 s.spc.cap ++ flag s.spc.busLow ++
    flag s.spc.soleSource ++ packBytes s .a ++ packBytes s .b

/-! ### Latches and status (section 10.7) -/

/-- The bay latch record, 10 characters. -/
def latchBytes (s : State) (bay : Bay) : List Byte :=
  let l := s.latch bay
  u8 (bayCode bay) ++ u8 (LatchPos.code l.commanded) ++ u8 (LatchPos.code l.sensed) ++ u8 l.release.code ++ u8 (bits [l.byButton, l.byHost]) ++
    u8 l.cause.code ++ u16 l.windowMs ++ u8 (bits [l.hostOwed, l.insecure, l.stuck]) ++ u8 l.lastEvent.code

/-- R181, section 10.7: the status, 21 characters. -/
def statusBytes (s : State) : List Byte :=
  u8 (sourceCode s.spc.feeding) ++ u8 s.spc.sw.phase.code ++ u8 s.spc.situation.code ++ flag s.spc.busLow ++
    u8 s.ddt.phase.code ++ u8 s.mpt.link.code ++ u16 s.lmd.a ++
    u8 (bits [(s.latch .a).commanded == .unlocked, (s.latch .a).sensed == .unlocked,
      (s.latch .b).commanded == .unlocked, (s.latch .b).sensed == .unlocked]) ++
    u8 s.slu.platform.code ++ flag s.slu.wake ++ u16 s.slu.noticeMask.toNat ++ u16 s.slu.wakeMask.toNat ++
    u16 s.slu.linkErrors ++ u32 s.slu.uptime.toNat

/-- SET_PLATFORM's result. -/
def platformBytes (s : State) : List Byte := u8 s.slu.platform.code ++ u16 s.slu.wakeMask.toNat

/-- R182: the identity. -/
def identBytes : List Byte := u8 Config.vendorCode ++ u16 Config.partCode ++ u8 Config.siliconRevision

/-! ### Sense converter (section 10.8) -/

/-- The channel record, 11 characters. -/
def channelBytes (r : ChannelRecord) : List Byte :=
  s32 r.value ++ u8 (bits [r.valid, r.stale]) ++ u8 r.fault.code ++ u16 r.raw ++ u8 r.range ++ u16 r.age

/-- The five channel records, in channel index order. -/
def channelsBytes (s : State) : List Byte :=
  channelBytes s.scv.records.alsFront ++ channelBytes s.scv.records.alsRear ++ channelBytes s.scv.records.thBayA ++
    channelBytes s.scv.records.thBayB ++ channelBytes s.scv.records.thPanel

/-- The sense settings, 6 + slot count characters. -/
def senseSettingsBytes (v : Scv) : List Byte :=
  u8 v.slots.length ++
    u8 (bits [v.enable.alsFront, v.enable.alsRear, v.enable.thBayA, v.enable.thBayB, v.enable.thPanel]) ++
    u16 v.calFront ++ u16 v.calRear ++ v.slots.flatMap (fun c => u8 (channelCode (some c)))

/-- The thermistor table, 48 characters. -/
def thermistorBytes (t : List (Nat × Int)) : List Byte := t.flatMap (fun pt => u16 pt.1 ++ s16 pt.2)

/-- The channel being converted. -/
def Activity.channel : Activity → Option Channel
  | .idle => none
  | .walk _ c => some c
  | .oneShot c => some c

/-- The slot index in WALK, 0 otherwise. -/
def Activity.slot : Activity → Nat
  | .idle => 0
  | .walk i _ => i
  | .oneShot _ => 0

/-- R80: the GET_SENSE result. -/
def senseBytes (s : State) : List Byte :=
  senseSettingsBytes s.scv ++ thermistorBytes s.scv.table ++ u8 s.scv.activity.code ++
    u8 (channelCode s.scv.activity.channel) ++ u8 s.scv.activity.slot ++ u8 s.scv.resume ++
    u8 (channelCode s.scv.oneShot) ++ channelsBytes s

/-! ### Brightness and lamp (section 10.9) -/

/-- The brightness settings, 18 characters. -/
def brightSettingsBytes (c : BrightSettings) : List Byte :=
  u16 c.rearWeight ++ u8 c.upRate ++ u8 c.downRate ++ u8 c.deadband ++ u16 c.fallback ++ u8 c.mode.code ++ s8 c.bias ++
    u16 c.fixedLevel ++ s16 c.t1 ++ u8 c.slope ++ u16 c.floorTh ++ u16 c.ymin

/-- The curve table, 1 + 4 × points characters. -/
def curveBytes (t : List (Nat × Nat)) : List Byte := u8 t.length ++ t.flatMap (fun pt => u16 pt.1 ++ u16 pt.2)

/-- Section 5.3, R90: Lf and Lused read 0 while not seeded. -/
def seededLevel (e : Bre) (v : Nat) : Nat := if e.seeded then v else 0

/-- R103: the GET_BRIGHTNESS snapshot. -/
def brightBytes (s : State) : List Byte :=
  let e := s.bre
  u32 e.lux ++ u16 e.level ++ u16 (seededLevel e e.lf) ++ u16 (seededLevel e e.lused) ++
    u8 (bits [e.seeded, e.frontUsable, e.rearUsable, e.ambientUnknown, e.motionHold, e.clamped, e.panelKnown]) ++
    u16 e.y ++ u16 e.yb ++ u16 (if e.settings.mode = .frozen then e.frozen.getD 0xFFFF else 0xFFFF) ++
    u16 e.allowance ++ u16 e.thermalCap ++ u16 e.cap ++ u16 e.yc ++ u16 s.lmd.a ++ u16 s.lmd.staged.duty ++
    u16 s.lmd.staged.current ++ flag s.lmd.locked ++ brightSettingsBytes e.settings ++ curveBytes e.curve

/-- The string enable set as a character. -/
def stringSetCode (m : PerString Bool) : Nat := bits [m.s1, m.s2, m.s3, m.s4]

/-- The lamp settings, 9 characters. -/
def lampSettingsBytes (c : LampSettings) : List Byte :=
  u8 c.upStep ++ u8 c.downStep ++ u16 c.crossover ++ u16 c.iMax ++ u8 c.multiple ++ u8 c.strategy.code ++
    u8 (stringSetCode c.enable)

/-- A string record, 9 characters. -/
def stringBytes (l : Lmd) (i : LedString) : List Byte :=
  let r := l.strings.get i
  u8 i.number ++ u8 r.state.code ++ u8 r.meas.code ++ u8 r.counted.code ++ u8 r.count ++ u16 r.current ++ u16 r.headroom

/-- A drive: duty, then current. -/
def driveBytes (d : Drive) : List Byte := u16 d.duty ++ u16 d.current

/-- R109: the on-time of the drive in force at the current PWM period. -/
def onTime (l : Lmd) : Nat := l.pwmPeriod * l.inForce.duty / Config.fullDuty

/-- R122: the GET_LAMP result, its fields in the rule's order at R187's widths. -/
def lampBytes (s : State) (i : LedString) : List Byte :=
  let l := s.lmd
  stringBytes l i ++ lampSettingsBytes l.settings ++ u16 l.a ++ u16 l.ycCopy ++ u16 l.capCopy ++ flag l.runEntry ++
    driveBytes l.inForce ++ driveBytes l.staged ++ flag l.stagedPending ++ flag l.locked ++ u8 l.runCount ++
    flag l.everLocked ++ u32 l.lastInterval ++ u32 l.internalInterval ++ u32 l.pwmPeriod ++ u32 (onTime l)

/-! ### Motion (section 10.9) and drop records (section 10.10) -/

/-- R158: the stored settings with the derived thresholds and counts. The fields of section 10.9 make 29 characters, where its text
and the GET_MOTION table say 25 (log entry 49). -/
def motionSettingsBytes (s : State) : List Byte :=
  let c := s.ddt.settings
  let r := s.mpt.rate
  u16 r.hz ++ u16 c.fallMg ++ u8 c.impactTenths ++ u16 c.qualifyMs ++ u16 c.settleMs ++ u32 (fallSquared c) ++
    u32 (impactSquared c) ++ u16 (sampleCount r c.qualifyMs) ++ u16 (sampleCount r c.settleMs) ++
    u16 (sampleCount r Config.impactExitMs) ++ u16 (sampleCount r Config.maxFallMs) ++
    u16 (sampleCount r Config.maxSettleMs) ++ u16 (sampleCount r Config.blindHoldMs)

/-- R131's counters in its order, 40 characters. -/
def counterBytes (c : Counters) : List Byte :=
  u32 c.frames ++ u32 c.accepted ++ u32 c.checkFailures ++ u32 c.mbzFailures ++ u32 c.flaggedHeld ++ u32 c.duplicates ++
    u32 c.jumps ++ u32 c.clipped ++ u32 c.unprimed ++ u32 c.lostEntries

/-- A last frame count, 0xFF for none. -/
def lastCountCode (c : Option Nat) : Nat := c.getD 0xFF

/-- R149: the height of a fall time in µs, in mm. -/
def fallHeight (t : Nat) : Nat := 4903 * t ^ 2 / 10 ^ 12

/-- Unread records of the table. -/
def unreadCount (d : Ddt) : Nat := d.table.countP (fun r => !r.read)

/-- The values of a ring entry, each axis 2 characters. -/
def sampleBytes (e : Sample) : List Byte := s16 e.x ++ s16 e.y ++ s16 e.z

/-- The record in progress as GET_MOTION shows it (offsets 47 to 68); 0 and kind 0xFF where none is held (R187). -/
def openRecordBytes (r : Option OpenRecord) : List Byte :=
  u32 (r.elim 0 (·.sequence)) ++ u8 (dropKindCode (r.bind (·.kind))) ++ u32 (r.elim 0 (·.uptime.toNat)) ++
    u32 ((r.bind (·.fallUs)).getD 0) ++ u16 (((r.bind (·.fallUs)).map fallHeight).getD 0) ++
    u8 (r.elim 0 (·.impacts)) ++ u32 (((r.bind (·.peak)).map (·.m2)).getD 0) ++ u16 (r.elim 0 (·.heldCount))

/-- The next sequence number; 0 when the sequence numbers are exhausted. -/
def nextSequenceCode (n : Nat) : Nat := if n ≤ Config.lastSequence then n else 0

/-- R159: the GET_MOTION snapshot. -/
def motionBytes (s : State) : List Byte :=
  let d := s.ddt
  let m := s.mpt
  let newest := m.ring.head?
  motionSettingsBytes s ++ u16 m.rate.intervalUs ++ u8 d.phase.code ++
    u8 (bits [d.blind, parkAsserted s, d.record.isSome, (d.record.bind (·.fallUs)).isSome, (d.record.bind (·.peak)).isSome,
      (d.record.bind (·.trace)).isSome]) ++
    u32 d.lastM2 ++ u16 d.fallRun ++ u16 d.fallIntervals ++ u8 d.landingRun ++ u16 d.fallingCount ++ u8 d.exitCount ++
    u16 d.settleRun ++ u16 d.settleLimit ++ u16 d.blindCount ++ openRecordBytes d.record ++ u8 d.table.length ++
    u8 (unreadCount d) ++ u32 (nextSequenceCode d.nextSequence) ++ u8 m.link.code ++ u8 (rejectedInWindow m) ++
    u8 m.rejectedRun ++ u8 m.recoveryRun ++ u8 (lastCountCode m.lastCount) ++ flag m.primed ++ counterBytes m.counters ++
    u16 m.ring.length ++ (newest.elim [0, 0, 0, 0, 0, 0] sampleBytes) ++
    u8 (newest.elim 0 (fun e => bits [e.held, e.clipped, e.jump])) ++
    d.table.flatMap (fun r => u32 r.core.sequence)

/-- Digit by digit square root from bit `k` down: the largest number with these bits whose square does not exceed `n`. -/
def isqrtFrom : Nat → Nat → Nat → Nat
  | 0, acc, _ => acc
  | k + 1, acc, n => isqrtFrom k (if (acc + 2 ^ k) ^ 2 ≤ n then acc + 2 ^ k else acc) n

/-- The largest integer whose square does not exceed n (spec/00_scope.md 5.2). -/
def isqrt (n : Nat) : Nat := isqrtFrom (n.log2 / 2 + 1) 0 n

/-- R150: the peak in mg. -/
def peakMg (p : Peak) : Nat := isqrt p.m2 * 1000 / 2048

/-- R150: the dominant axis; equal magnitudes go to X before Y before Z. -/
def dominantAxis (p : Peak) : Nat :=
  if p.y.natAbs ≤ p.x.natAbs ∧ p.z.natAbs ≤ p.x.natAbs then (if p.x < 0 then 1 else 0)
  else if p.z.natAbs ≤ p.y.natAbs then (if p.y < 0 then 3 else 2)
  else (if p.z < 0 then 5 else 4)

/-- Section 10.10: the trace block; bit i of each bitmap belongs to entry i. -/
def traceBytes (t : Trace) : List Byte :=
  u8 t.lead ++ u32 (bits (t.entries.map (·.held))) ++ u32 (bits (t.entries.map (·.clipped))) ++
    u32 (bits (t.entries.map (·.jump))) ++ t.entries.flatMap sampleBytes

/-- Section 10.10: a drop record, 31 characters and its trace block. -/
def dropBytes (r : DropRecord) : List Byte :=
  let c := r.core
  u32 c.sequence ++ u8 (dropKindCode c.kind) ++ u32 c.uptime.toNat ++
    u8 (bits [c.fallUs.isSome, c.peak.isSome, c.attitude.isSome, c.trace.isSome]) ++
    u8 (bits [c.inFlight, c.deferred, c.linkLost, c.unsettled, c.blind, c.peak.isSome && c.peakClipped, r.read,
      r.displaced]) ++
    u8 (sourceCode c.feeding) ++ u32 (c.fallUs.getD 0) ++ u16 ((c.fallUs.map fallHeight).getD 0) ++
    u16 ((c.peak.map peakMg).getD 0) ++ u8 ((c.peak.map dominantAxis).getD 0) ++ u8 c.impacts ++
    s16 (c.attitude.elim 0 (·.x)) ++ s16 (c.attitude.elim 0 (·.y)) ++ s16 (c.attitude.elim 0 (·.z)) ++
    u8 (c.attitude.elim 0 (·.samples)) ++ u16 c.heldCount ++ c.trace.elim [] traceBytes

/-! ### Notice contents (section 10.11) -/

/-- PATH_FAULT's 14 characters for one path. -/
def pathFaultBytes (s : State) (p : Source) : List Byte :=
  u8 (s.path p).state.code ++ u8 (s.path p).tripCount ++ u8 (s.path p).effSlew.code ++ faultBytes (s.path p).fault

/-- R175, section 10.11: the content of a notice kind, from offset 1, from the state at the send. -/
def noticeContent (s : State) : NoticeKind → List Byte
  | .dropAlert =>
    u8 s.ddt.phase.code ++ u8 (bits [s.ddt.blind, parkAsserted s, s.ddt.record.isSome]) ++
      u32 (s.ddt.record.elim 0 (·.sequence)) ++ u8 (dropKindCode (s.ddt.record.bind (·.kind))) ++
      u32 (s.ddt.record.elim 0 (·.uptime.toNat)) ++ u8 (sourceCode (s.ddt.record.bind (·.feeding)))
  | .busLow =>
    flag s.spc.busLow ++ u16 s.spc.busVoltage ++ u16 s.spc.settings.busLowMv ++ u8 s.spc.settings.busLowAction.code ++
      u8 s.spc.situation.code ++ u8 (sourceCode s.spc.feeding) ++ u8 0
  | .pathFault => pathFaultBytes s .dcIn ++ pathFaultBytes s .bayA ++ pathFaultBytes s .bayB
  | .supplyChange =>
    u8 s.spc.situation.code ++ u16 s.spc.cap ++ u8 (sourceCode s.spc.feeding) ++ u8 s.spc.sw.phase.code ++
      flag s.spc.soleSource
  | .release => latchBytes s .a ++ latchBytes s .b
  | .dropRecord =>
    u8 s.ddt.table.length ++ u8 (unreadCount s.ddt) ++ u32 (s.ddt.table.getLast?.elim 0 (·.core.sequence)) ++
      u8 (dropKindCode (s.ddt.table.getLast?.bind (·.core.kind))) ++ flag (s.ddt.table.getLast?.any (·.displaced))
  | .lampFault =>
    stringBytes s.lmd .s1 ++ stringBytes s.lmd .s2 ++ stringBytes s.lmd .s3 ++ stringBytes s.lmd .s4 ++ u16 s.lmd.a ++
      driveBytes s.lmd.inForce
  | .senseFault => channelsBytes s
  | .motionLink =>
    u8 s.mpt.link.code ++ u16 s.mpt.rate.hz ++ u8 (rejectedInWindow s.mpt) ++ u8 s.mpt.rejectedRun ++
      u8 s.mpt.recoveryRun ++ u8 (lastCountCode s.mpt.lastCount) ++ flag s.mpt.primed ++ counterBytes s.mpt.counters

/-- Section 10.11: a notice frame, tag 0, with the entry's occurrence count first. -/
def noticeFrame (s : State) (k : NoticeKind) : List Byte :=
  buildFrame k.code 0 (u8 (s.slu.outbox.get k) ++ noticeContent s k)

/-- R170: a reply frame. -/
def replyFrame (r : Reply) : List Byte := buildFrame replyCode r.tag r.payload

end Sys2Proof.Machine
end

