-- ==== Sys2Proof/Machine/Ops.lean ====
section
/-! DEFINITION. The operations the blocks share: raising a notice (R174, R179), making a reply (R170, R172, R173), the
transmitter's choice (R176), and writing one record of a block. -/

namespace Sys2Proof.Machine

/-! ### Writing one record -/

/-- Put a path record. -/
def State.setPath (s : State) (p : Source) (r : PathRecord) : State :=
  { s with spc := { s.spc with paths := s.spc.paths.set p r } }

/-- Put a bay latch record. -/
def State.setLatch (s : State) (bay : Bay) (l : LatchRecord) : State :=
  { s with ltc := { s.ltc with latches := s.ltc.latches.set bay l } }

/-- Put a channel record. -/
def State.setChannel (s : State) (c : Channel) (r : ChannelRecord) : State :=
  { s with scv := { s.scv with records := s.scv.records.set c r } }

/-! ### Notices -/

/-- R174, R179: the SLU takes a raise. Outside the notice mask it leaves no trace; inside, it makes or counts up the kind's
entry, and in STANDBY a kind of the wake mask asserts WAKE. -/
def Slu.raised (u : Slu) (k : NoticeKind) : Slu :=
  if inMask u.noticeMask k then
    { u with
      outbox := u.outbox.set k (min Config.maxOccurrences (u.outbox.get k + 1))
      wake := u.wake || (u.platform == .standby && inMask u.wakeMask k) }
  else u

/-- A block raises a notice kind (R174). -/
def raise (k : NoticeKind) (s : State) : State := { s with slu := s.slu.raised k }

/-- Raise a kind when something occurred. -/
def raiseIf (b : Bool) (k : NoticeKind) (s : State) : State := if b then raise k s else s

/-! ### Replies -/

/-- R173: a reply joins the FIFO behind the others. -/
def Slu.pushReply (u : Slu) (r : Reply) : Slu := { u with fifo := u.fifo ++ [r] }

/-- R170: a reply at dispatch: kind, status and result. -/
def answer (tag : Byte) (k : ReqKind) (status : Status) (result : List Byte) (s : State) : State :=
  { s with slu := s.slu.pushReply { tag := tag, payload := replyPayload k.byte status none result } }

/-- A refusal carries no result (R170). -/
def refuse (tag : Byte) (k : ReqKind) (status : Status) (s : State) : State := answer tag k status [] s

/-- R172: the owed SELECT_SOURCE reply enters the FIFO in place of its reservation; one that a break discarded is not made. -/
def answerSelect (status : Status) (reason : Option FailReason) (s : State) : State :=
  match s.slu.owedSelect with
  | none => s
  | some tag =>
    { s with
      slu := { s.slu.pushReply { tag := tag, payload := replyPayload (ReqKind.byte .selectSource) status reason (selectBytes s) } with
        owedSelect := none } }

/-- R52: host reply owed is cleared when the reply is sent. -/
def clearOwed (bay : Bay) (s : State) : State := s.setLatch bay { s.latch bay with hostOwed := false }

/-- R52, R172: the owed RELEASE_BAY reply of a bay, with the bay latch record that results. -/
def answerRelease (bay : Bay) (status : Status) (reason : Option FailReason) (s : State) : State :=
  if (s.latch bay).hostOwed then
    let s := clearOwed bay s
    match s.slu.owedRelease with
    | none => s
    | some tag =>
      { s with
        slu := { s.slu.pushReply { tag := tag, payload := replyPayload (ReqKind.byte .releaseBay) status reason (latchBytes s bay) } with
          owedRelease := none } }
  else s

/-- R78, R172: the owed CONVERT_NOW reply, with the record of the channel converted. -/
def answerConvert (status : Status) (c : Channel) (s : State) : State :=
  match s.slu.owedConvert with
  | none => s
  | some tag =>
    { s with
      slu := { s.slu.pushReply { tag := tag, payload := replyPayload (ReqKind.byte .convertNow) status none (channelBytes (s.scv.records.get c)) } with
        owedConvert := none } }

/-! ### The transmitter -/

/-- R175: a notice is built as its transmission starts, and its entry leaves the outbox. -/
def noticeSent (s : State) (k : NoticeKind) : Slu :=
  { s.slu with tx := some (noticeFrame s k), outbox := s.slu.outbox.set k 0 }

/-- The notice kind of highest priority that the outbox holds. -/
def firstNotice (o : PerNotice Nat) : Option NoticeKind := NoticeKind.all.find? (fun k => o.get k != 0)

/-- R176: what the arbiter's choice leaves in the SLU: DROP_ALERT first, then the oldest reply, then the notice of highest
priority. -/
def arbitrated (s : State) : Slu :=
  match s.slu.tx with
  | some _ => s.slu
  | none =>
    if s.slu.outbox.dropAlert ≠ 0 then noticeSent s .dropAlert
    else
      match s.slu.fifo with
      | r :: rest => { s.slu with tx := some (replyFrame r), fifo := rest }
      | [] =>
        match firstNotice s.slu.outbox with
        | some k => noticeSent s k
        | none => s.slu

/-- R176: a transmitter that is free takes the next frame that waits, in the event. -/
def arbitrate (s : State) : State := { s with slu := arbitrated s }

end Sys2Proof.Machine
end

