-- ==== Sys2Proof/Machine/Lmd.lean ====
section
/-! DEFINITION. The Lamp Driver (chapter 6): drive, ramp and cap cut, frame lock and PWM timing, the strings, and its commands
and requests. -/

namespace Sys2Proof.Machine

/-! ### Drive and applied level -/

/-- R112: the drive for a level. -/
def driveFor (c : LampSettings) (a : Nat) : Drive :=
  if a = 0 then .off
  else if c.crossover ≤ a then { duty := Config.fullDuty, current := c.iMax * a / 1000 }
  else { duty := Config.fullDuty * a / c.crossover, current := c.iMax * c.crossover / 1000 }

/-- R113: a drive put in force at once, in the running period; the period is a changed one when the drive differs. -/
def Lmd.putInForce (l : Lmd) (d : Drive) : Lmd :=
  { l with inForce := d, staged := d, stagedPending := false, changed := l.changed || d != l.inForce }

/-- R106, R114: the BRE publishes Yc and the cap; a cap below A cuts A at once. -/
def Lmd.published (l : Lmd) (yc cap : Nat) : Lmd :=
  let l := { l with ycCopy := yc, capCopy := cap }
  if cap < l.a then { l with a := cap }.putInForce (driveFor l.settings cap) else l

/-- R107: the platform state changes. -/
def Lmd.platformChanged (l : Lmd) (now : Platform) : Lmd :=
  match now with
  | .run => { l with runEntry := true }
  | .dark => { l with a := 0, runEntry := false }.putInForce .off
  | .standby => { l with a := 0, runEntry := false }.putInForce .off

/-- R111: one ramp step. -/
def rampStep (c : LampSettings) (a yc : Nat) : Nat :=
  if a < yc then min yc (a + c.upStep) else if yc < a then max yc (a - c.downStep) else a

/-- R110, step 1: the level a dimming update leaves. -/
def updatedLevel (platform : Platform) (l : Lmd) : Nat :=
  match platform with
  | .dark => 0
  | .standby => 0
  | .run => if l.runEntry then l.ycCopy else rampStep l.settings l.a l.ycCopy

/-- R110: a dimming update. -/
def Lmd.dimmingUpdate (platform : Platform) (l : Lmd) : Lmd :=
  let a := updatedLevel platform l
  let d := driveFor l.settings a
  { l with a := a, runEntry := l.runEntry && platform != .run, staged := d, stagedPending := d != l.inForce }

/-! ### Periods -/

/-- R117: an ENABLED string in a period that was not measured. -/
def StringRecord.unmeasured (strategy : DiagStrategy) (r : StringRecord) : StringRecord :=
  if r.state = .enabled ∧ strategy = .reportUnmeasured then { r with meas := .notMeasured } else r

/-- R117: the running period ends (log entry 13). A period that has been measured stays so, though its drive changed after the
measurement (log entry 43). The strategy is the one stored at the period's end (R120, log entry 48). -/
def Lmd.endPeriod (l : Lmd) : Lmd :=
  if l.measured then l else { l with strings := l.strings.map (StringRecord.unmeasured l.settings.strategy) }

/-- R109: a period start of the given length. -/
def Lmd.startPeriod (period : Nat) (l : Lmd) : Lmd :=
  { l with
    pwmPeriod := period
    inForce := if l.stagedPending then l.staged else l.inForce
    stagedPending := false
    changed := false
    measured := false
    strings := l.strings.map (fun r => { r with driven := r.state == .enabled }) }

/-- R110: the free-run period count at the next period start. -/
def nextFreeCount (l : Lmd) : Nat :=
  if l.internalNext then 0 else if l.settings.multiple - 1 ≤ l.freeCount then 0 else l.freeCount + 1

/-- PERIOD_START (R109, R110): the next period of the length in force; in FREE_RUN it may be an internal frame start. -/
def Lmd.periodStart (platform : Platform) (l : Lmd) : Lmd :=
  if l.locked then l.endPeriod.startPeriod l.pwmPeriod
  else
    let n := nextFreeCount l
    let l := l.endPeriod.startPeriod (l.internalInterval / l.settings.multiple)
    let l := { l with freeCount := n, internalNext := false }
    if n = 0 then l.dimmingUpdate platform else l

/-- PERIOD_START (R109). -/
def execPeriodStart (s : State) : Host.Outcome State Fault Refusal :=
  .next { s with lmd := s.lmd.periodStart s.slu.platform }

/-! ### Frame lock -/

/-- R108: an interval is consistent with the one before it. -/
def consistent (earlier interval : Nat) : Bool := decide (distance earlier interval * 20 ≤ earlier)

/-- R108: 50 ms have passed with no frame start taken. -/
def Lmd.frameTimeout (l : Lmd) : Lmd :=
  if l.locked then
    { l with
      reference := none, runCount := 0, locked := false, internalInterval := l.lastInterval, freeCount := 0
      internalNext := true }
  else { l with reference := none, runCount := 0 }

/-- R108: the run count at a frame start taken in FREE_RUN that measured `interval`. -/
def nextRunCount (l : Lmd) (interval : Nat) : Nat :=
  if l.runCount = 0 then 1 else if consistent l.lastInterval interval then l.runCount + 1 else 1

/-- R109, R110: a frame start in LOCKED is a period start and then a dimming update. -/
def Lmd.lockedFrame (platform : Platform) (l : Lmd) : Lmd :=
  ((l.endPeriod.startPeriod (l.lastInterval / l.settings.multiple)).dimmingUpdate platform)

/-- R108: a frame start taken `interval` after the reference. -/
def Lmd.frameTaken (platform : Platform) (time interval : Nat) (l : Lmd) : Lmd :=
  if l.locked then { l with reference := some time, lastInterval := interval }.lockedFrame platform
  else
    let n := nextRunCount l interval
    let l := { l with reference := some time, lastInterval := interval, runCount := n }
    if Config.lockCount ≤ n then { l with locked := true, everLocked := true }.lockedFrame platform else l

/-- R108: an edge on FRAME at `time` ns. A glitch is ignored; silence of more than 50 ms has ended first (log entry 19). -/
def Lmd.frameStart (platform : Platform) (time : Nat) (l : Lmd) : Lmd :=
  match l.reference with
  | none => { l with reference := some time, runCount := 0 }
  | some ref =>
    if time - ref < Config.frameGlitchNs then l
    else if Config.frameSilenceNs < time - ref then { l.frameTimeout with reference := some time, runCount := 0 }
    else l.frameTaken platform time (time - ref)

/-- FRAME_START (R108). -/
def execFrameStart (time : Nat) (s : State) : Host.Outcome State Fault Refusal :=
  .next { s with lmd := s.lmd.frameStart s.slu.platform time }

/-- FRAME_TIMEOUT (R108). -/
def execFrameTimeout (s : State) : Host.Outcome State Fault Refusal :=
  .next { s with lmd := s.lmd.frameTimeout }

/-! ### Measurement of the strings -/

/-- R116: what a reading says at the current in force. -/
def measureString (inForce : Nat) (r : StringReading) : Measurement :=
  if r.current * 2 < inForce then .openCircuit
  else if Config.shortHeadroomMv < r.headroom then .short
  else .regulating

/-- R118: the fault a measurement counts for. -/
def Measurement.counts : Measurement → CountedFault
  | .notMeasured => .none
  | .regulating => .none
  | .openCircuit => .openCircuit
  | .short => .short

/-- R118: the count after a measurement of fault `f`. -/
def nextFaultCount (r : StringRecord) (f : CountedFault) : Nat :=
  if f = .none then 0 else if f = r.counted then min Config.stringFaultCount (r.count + 1) else 1

/-- R118: the state after a measurement: the third in a row of one fault confirms it. -/
def confirmedState (f : CountedFault) (n : Nat) : StringState :=
  if n < Config.stringFaultCount then .enabled
  else
    match f with
    | .none => .enabled
    | .openCircuit => .faultOpen
    | .short => .faultShort

/-- R116, R115: an ENABLED string that has been driven since the period's start is measured; that one made ENABLED inside the
period is not is the model's choice (log entry 42). -/
def StringRecord.measurable (r : StringRecord) : Bool := r.state == .enabled && r.driven

/-- R116, R118: one string's record after a measured period. -/
def StringRecord.measuredAs (inForce : Nat) (x : StringReading) (r : StringRecord) : StringRecord :=
  if r.measurable then
    let m := measureString inForce x
    let n := nextFaultCount r m.counts
    { r with
      state := confirmedState m.counts n, meas := m, counted := m.counts, count := n, current := x.current
      headroom := x.headroom }
  else r

/-- R118: the measurement confirms a fault of this string. -/
def StringRecord.confirms (inForce : Nat) (x : StringReading) (r : StringRecord) : Bool :=
  r.measurable && (r.measuredAs inForce x).state != .enabled

/-- R116: the period is measured: not measured before, drive unchanged since its start, at least 100 µs delivered. -/
def Lmd.measures (l : Lmd) (delivered : Nat) : Bool :=
  !l.changed && !l.measured && decide (Config.measurableNs ≤ min delivered (onTime l))

/-- R116: the strings after a measured period. -/
def Lmd.measuredWith (l : Lmd) (r : StringReadings) : Lmd :=
  let i := l.inForce.current
  { l with
    measured := true
    strings :=
      { s1 := l.strings.s1.measuredAs i r.s1, s2 := l.strings.s2.measuredAs i r.s2
        s3 := l.strings.s3.measuredAs i r.s3, s4 := l.strings.s4.measuredAs i r.s4 } }

/-- R119: LAMP_FAULT is raised once for each string confirmed. -/
def raiseLampFaults (l : Lmd) (r : StringReadings) (s : State) : State :=
  let i := l.inForce.current
  raiseIf (l.strings.s4.confirms i r.s4) .lampFault
    (raiseIf (l.strings.s3.confirms i r.s3) .lampFault
      (raiseIf (l.strings.s2.confirms i r.s2) .lampFault (raiseIf (l.strings.s1.confirms i r.s1) .lampFault s)))

/-- R116 to R119: the end of a period's delivered on-time. -/
def stringMeasurement (delivered : Nat) (r : StringReadings) (s : State) : State :=
  if s.lmd.measures delivered then raiseLampFaults s.lmd r { s with lmd := s.lmd.measuredWith r } else s

/-- R118: the measurement confirms some string's fault. -/
def confirmsFault (delivered : Nat) (r : StringReadings) (l : Lmd) : Bool :=
  let i := l.inForce.current
  l.measures delivered && (l.strings.s1.confirms i r.s1 || l.strings.s2.confirms i r.s2 || l.strings.s3.confirms i r.s3 ||
    l.strings.s4.confirms i r.s4)

/-- STRING_MEASUREMENT (R116). -/
def execStringMeasurement (delivered : Nat) (r : StringReadings) (s : State) : Host.Outcome State Fault Refusal :=
  .next (arbitrate (stringMeasurement delivered r s))

/-- STRING_FAULT_CONFIRM (R118): the measurement that confirms a fault; one that confirms none is not this event (log entry
4). -/
def execStringFaultConfirm (delivered : Nat) (r : StringReadings) (s : State) : Host.Outcome State Fault Refusal :=
  if confirmsFault delivered r s.lmd then .next (arbitrate (stringMeasurement delivered r s)) else .next s

/-! ### Requests -/

/-- R115: a string is added to or removed from the enable set. -/
def StringRecord.enabledChanged (was now : Bool) (r : StringRecord) : StringRecord :=
  if was = now then r
  else
    { r with
      state := if now then .enabled else .disabled, meas := .notMeasured, counted := .none, count := 0, driven := false }

/-- R120: settings are stored and act. -/
def Lmd.stored (c : LampSettings) (l : Lmd) : Lmd :=
  let old := l.settings
  let l :=
    { l with
      settings := c
      strings :=
        { s1 := l.strings.s1.enabledChanged old.enable.s1 c.enable.s1
          s2 := l.strings.s2.enabledChanged old.enable.s2 c.enable.s2
          s3 := l.strings.s3.enabledChanged old.enable.s3 c.enable.s3
          s4 := l.strings.s4.enabledChanged old.enable.s4 c.enable.s4 } }
  let l := if c.multiple ≠ old.multiple ∧ l.locked = false then { l with freeCount := 0, internalNext := true } else l
  if c.crossover ≠ old.crossover ∨ c.iMax ≠ old.iMax then l.putInForce (driveFor c l.a) else l

/-- SET_LAMP (R120). -/
def handleSetLamp (tag : Byte) (p : List Byte) (s : State) : State :=
  match lampArgs p with
  | none => refuse tag .setLamp .badValue s
  | some a =>
    let s := { s with lmd := s.lmd.stored a.clamped }
    answer tag .setLamp (okOr (a.clamped != a)) (lampSettingsBytes s.lmd.settings) s

/-- GET_LAMP (R122). -/
def handleGetLamp (tag : Byte) (p : List Byte) (s : State) : State :=
  match stringSet (at8 p 0) with
  | none => refuse tag .getLamp .badValue s
  | some m => answer tag .getLamp .ok (lampBytes s (lowestString m)) s

/-- R121: LAMP_CLEAR's effect on a member. -/
def StringRecord.cleared (r : StringRecord) : StringRecord :=
  match r.state with
  | .enabled => { r with count := 0, counted := .none }
  | .disabled => { r with count := 0, counted := .none }
  | .faultOpen => { r with count := 0, counted := .none, state := .enabled, meas := .notMeasured, driven := false }
  | .faultShort => { r with count := 0, counted := .none, state := .enabled, meas := .notMeasured, driven := false }

/-- R121: LAMP_CLEAR's effect on a set. -/
def Lmd.clearStrings (m : PerString Bool) (l : Lmd) : Lmd :=
  let one (b : Bool) (r : StringRecord) : StringRecord := if b then r.cleared else r
  { l with
    strings :=
      { s1 := one m.s1 l.strings.s1, s2 := one m.s2 l.strings.s2, s3 := one m.s3 l.strings.s3
        s4 := one m.s4 l.strings.s4 } }

/-- LAMP_CLEAR (R121). -/
def handleLampClear (tag : Byte) (p : List Byte) (s : State) : State :=
  match stringSet (at8 p 0) with
  | none => refuse tag .lampClear .badValue s
  | some m =>
    let s := { s with lmd := s.lmd.clearStrings m }
    answer tag .lampClear .ok (stringBytes s.lmd (lowestString m)) s

/-- R124: a string at the RESET request. -/
def StringRecord.reset (r : StringRecord) : StringRecord :=
  { r with
    state := .enabled, meas := .notMeasured, counted := .none, count := 0, driven := r.driven && r.state == .enabled }

/-- R124: the RESET request. -/
def Lmd.reset (l : Lmd) : Lmd :=
  let c := LampSettings.defaults
  let m := c.multiple != l.settings.multiple && !l.locked
  { l with
    settings := c
    freeCount := if m then 0 else l.freeCount
    internalNext := l.internalNext || m
    strings := l.strings.map StringRecord.reset }.putInForce (driveFor c l.a)

end Sys2Proof.Machine
end

