-- ==== Sys2Proof/Machine/Bre.lean ====
section
/-! DEFINITION. The Brightness Engine (chapter 5): the stages of the pipeline, what each input change runs, and its requests. -/

namespace Sys2Proof.Machine

/-! ### Stages 2 to 4 -/

/-- R87: the rear term of the combination. -/
def rearTerm (w rear : Nat) : Nat := rear * w / 256

/-- R87: E from the usable channels; `none` when neither is usable. -/
def combine (front rear : Bool) (w ef er : Nat) : Option Nat :=
  match front, rear with
  | true, true => some (max ef (rearTerm w er))
  | true, false => some ef
  | false, true => some (rearTerm w er)
  | false, false => none

/-- R89: the light level of an illuminance. -/
def logLevel (e : Nat) : Nat :=
  let p := Nat.log2 (e + 1)
  16 * p + (e + 1 - 2 ^ p) * 16 / 2 ^ p

/-- R91: one filter step. -/
def filterStep (c : BrightSettings) (lf l : Nat) : Nat :=
  if lf < l then lf + max 1 ((l - lf) * c.upRate / 16)
  else if l < lf then lf - max 1 ((lf - l) * c.downRate / 16)
  else lf

/-- R92: the level used, after a filter step to `lf`. -/
def deadbandStep (c : BrightSettings) (lf lused : Nat) : Nat := if c.deadband ≤ distance lf lused then lf else lused

/-- R90 to R93: a light level enters the filter, unless motion hold keeps it out. -/
def Bre.enter (e : Bre) (l : Nat) : Bre :=
  if e.motionHold then e
  else if e.seeded then
    let lf := filterStep e.settings e.lf l
    { e with lf := lf, lused := deadbandStep e.settings lf e.lused }
  else { e with seeded := true, lf := l, lused := l }

/-! ### Stage 5 -/

/-- R94: a point of a segment, truncated toward zero. -/
def segment (x0 x1 x : Nat) (y0 y1 : Int) : Int := y0 + ((y1 - y0) * (x - x0 : Int)).tdiv (x1 - x0 : Int)

/-- R94: the curve table at a level. -/
def curveAt : List (Nat × Nat) → Nat → Nat
  | [], _ => 0
  | [p], _ => p.2
  | p :: q :: rest, x =>
    if x ≤ p.1 then p.2
    else if x < q.1 then (segment p.1 q.1 x p.2 q.2).toNat
    else curveAt (q :: rest) x

/-- R94: stage 5. -/
def Bre.stage5 (e : Bre) : Bre := { e with y := if e.seeded then curveAt e.curve e.lused else e.settings.fallback }

/-! ### Stage 6 -/

/-- R96: the level with the bias applied, before the clamp. -/
def biased (y : Nat) (b : Int) : Nat := (((y : Int) * (16 + b)) / 16).toNat

/-- R96 to R98: stage 6. -/
def Bre.stage6 (e : Bre) : Bre :=
  match e.settings.mode with
  | .auto =>
    let v := biased e.y e.settings.bias
    { e with yb := min 1000 v, clamped := decide (1000 < v) }
  | .fixed => { e with yb := e.settings.fixedLevel, clamped := false }
  | .frozen => e

/-! ### Stage 7 -/

/-- R99: the panel temperature, when known. -/
def panelTemp (s : State) : Option Int := knownValue s.scv.records.thPanel

/-- R99: the thermal cap. -/
def thermalCapOf (c : BrightSettings) : Option Int → Nat
  | none => c.floorTh
  | some t => if t ≤ c.t1 then 1000 else (max (c.floorTh : Int) (1000 - (t - c.t1) * c.slope)).toNat

/-- R99: the thermal cap for the panel temperature. -/
def Bre.thermal (e : Bre) (panel : Option Int) : Bre :=
  { e with panelKnown := panel.isSome, thermalCap := thermalCapOf e.settings panel }

/-- R100, R101: the cap and Yc. -/
def Bre.limit (e : Bre) : Bre :=
  let cap := min e.allowance e.thermalCap
  { e with cap := cap, yc := min (max e.yb e.settings.ymin) cap }

/-- R83: the end of a recomputation: Yc and the cap are published to the LMD when either has changed. -/
def State.withBre (s : State) (e : Bre) : State :=
  { s with
    bre := e
    lmd := if e.yc = s.bre.yc ∧ e.cap = s.bre.cap then s.lmd else s.lmd.published e.yc e.cap }

/-! ### Input changes (R83) -/

/-- R86: the usable flag a publication writes; `stored`: the latest conversion stored its value. -/
def usableAt (r : ChannelRecord) (stored : Bool) : Bool :=
  r.valid && !r.stale && stored &&
    match r.fault with
    | .none => true
    | .over => true
    | .never => false
    | .openCircuit => false
    | .short => false

/-- R86: a light channel's flag is written; the rear flag is clear while the rear weight is 0. -/
def Bre.setUsable (e : Bre) (c : Channel) (b : Bool) : Bre :=
  match c with
  | .alsFront => { e with frontUsable := b }
  | .alsRear => { e with rearUsable := b && e.settings.rearWeight != 0 }
  | .thBayA => e
  | .thBayB => e
  | .thPanel => e

/-- R88: AMBIENT_UNKNOWN is set when neither flag is. -/
def Bre.noteUnknown (e : Bre) : Bre :=
  if e.frontUsable = false ∧ e.rearUsable = false then { e with ambientUnknown := true } else e

/-- R87 to R93: stages 2 to 4 with the channel values. -/
def Bre.combined (e : Bre) (ef er : Nat) : Bre :=
  match combine e.frontUsable e.rearUsable e.settings.rearWeight ef er with
  | none => e.noteUnknown
  | some lux => { e with lux := lux, ambientUnknown := false, level := logLevel lux }.enter (logLevel lux)

/-- R87: when E is computed, stages 3 to 7 follow; when it is not, nothing below runs. -/
def Bre.lightPublished (e : Bre) (c : Channel) (stored : Bool) (r : ChannelRecord) (ef er : Nat) : Bre :=
  let e := e.setUsable c (usableAt r stored)
  if e.frontUsable || e.rearUsable then (e.combined ef er).stage5.stage6.limit else e.noteUnknown

/-- R83: a light channel is published after a conversion. -/
def breLight (c : Channel) (stored : Bool) (s : State) : State :=
  s.withBre
    (s.bre.lightPublished c stored (s.scv.records.get c) s.scv.records.alsFront.value.toNat
      s.scv.records.alsRear.value.toNat)

/-- R83, R86: a light channel becomes stale. -/
def breLightStale (c : Channel) (s : State) : State := { s with bre := (s.bre.setUsable c false).noteUnknown }

/-- R83, R99: TH_PANEL is published, after a conversion or on becoming stale. -/
def brePanel (s : State) : State := s.withBre (s.bre.thermal (panelTemp s)).limit

/-- R83, R100: the SPC publishes an allowance cap. -/
def breAllowance (cap : Nat) (s : State) : State := s.withBre { s.bre with allowance := cap }.limit

/-- R83, R93: the motion phase changes. -/
def breMotion (hold : Bool) (s : State) : State := { s with bre := { s.bre with motionHold := hold } }

/-! ### Requests -/

/-- R98: the frozen level once the mode is `new`: kept inside FROZEN, Yb at the entry, none outside. -/
def Bre.frozenFor (e : Bre) (new : BrightMode) : Option Nat :=
  match new with
  | .frozen => if e.settings.mode = .frozen then e.frozen else some e.yb
  | .auto => none
  | .fixed => none

/-- R102: stages 6 and 7 run with the stored settings applied; stage 5 gives the fallback level while not seeded. -/
def Bre.stored (e : Bre) (c : BrightSettings) (panel : Option Int) : Bre :=
  let e := { e with settings := c, frozen := e.frozenFor c.mode }
  let e := if c.rearWeight = 0 then { e with rearUsable := false }.noteUnknown else e
  let e := if e.seeded then e else e.stage5
  (e.stage6.thermal panel).limit

/-- SET_BRIGHTNESS (R102). -/
def handleSetBrightness (tag : Byte) (p : List Byte) (s : State) : State :=
  match brightArgs p with
  | none => refuse tag .setBrightness .badValue s
  | some a =>
    let s := s.withBre (s.bre.stored a.clamped (panelTemp s))
    answer tag .setBrightness (okOr (a.clamped != a)) (brightSettingsBytes s.bre.settings) s

/-- GET_BRIGHTNESS (R103). -/
def handleGetBrightness (tag : Byte) (_p : List Byte) (s : State) : State :=
  answer tag .getBrightness .ok (brightBytes s) s

/-- R95: a table that passes is stored, and stages 5 to 7 run. -/
def Bre.loaded (e : Bre) (t : List (Nat × Nat)) : Bre := ({ e with curve := t }.stage5).stage6.limit

/-- LOAD_CURVE (R95): count, clamp, check. -/
def handleLoadCurve (tag : Byte) (p : List Byte) (s : State) : State :=
  let n := at8 p 0
  let pts := curvePoints p n 1
  let t := pts.map clampCurve
  if n < 2 ∨ 12 < n ∨ curveOrdered t = false then refuse tag .loadCurve .badValue s
  else
    let s := s.withBre (s.bre.loaded t)
    answer tag .loadCurve (okOr (t != pts)) (curveBytes s.bre.curve) s

/-- R105: the RESET request. -/
def Bre.reset (e : Bre) (panel : Option Int) : Bre :=
  let e := { e with settings := .defaults, curve := defaultCurve, frozen := none }
  (e.stage5.stage6.thermal panel).limit

end Sys2Proof.Machine
end

