-- ==== Sys2Proof/Machine/Spc.lean ====
section
/-! DEFINITION. The Source Path Controller's own operations: path orders and trips (R8, R13, R17), publishing the supply situation
(R45, R46), starting a switchover (R28 to R31), the feeding source (R25), and the preemption timers (R36). -/

namespace Sys2Proof.Machine

/-! ### Path orders -/

/-- R6: the ramp time of a slew class, in µs. -/
def SlewClass.rampUs : SlewClass → Nat
  | .fast => 250
  | .medium => 1000
  | .slow => 4000

/-- R14: one class slower. -/
def SlewClass.slower : SlewClass → SlewClass
  | .fast => .medium
  | .medium => .slow
  | .slow => .slow

/-- R8: the length of the blanking window, in µs. -/
def PathRecord.windowUs (r : PathRecord) : Nat := r.effSlew.rampUs + 500 * r.settings.blankingHalfMs

/-- R8: a close order is taken by a path in OPEN and refused in any other state; it fixes the ramp (R14). -/
def PathRecord.closeOrdered (r : PathRecord) : PathRecord :=
  if r.state = .opened then
    { r with state := .closing, rampSlew := r.effSlew, blanking := some r.windowUs, overCount := 0 }
  else r

/-- R17: an open order, and the opening of a dropout (R2, R9), turn the gate of a CLOSING or CLOSED path off. -/
def PathRecord.openOrdered (r : PathRecord) : PathRecord :=
  match r.state with
  | .closing => { r with state := .opened, blanking := none, overCount := 0, closedTime := 0 }
  | .closed => { r with state := .opened, blanking := none, overCount := 0, closedTime := 0 }
  | .opened => r
  | .tripped => r
  | .lockedOut => r

/-- R8: the blanking window has ended below the threshold in force. -/
def PathRecord.closedNow (r : PathRecord) : PathRecord :=
  { r with state := .closed, blanking := none, overCount := 0, closedTime := 0 }

/-- R13: the consecutive trip count after one more trip. -/
def PathRecord.nextTrips (r : PathRecord) : Nat := min Config.maxTripCount (r.tripCount + 1)

/-- R13: a trip, with the threshold in force, derating step and uptime of its event. -/
def PathRecord.tripNow (r : PathRecord) (cause : FaultCause) (threshold step : Nat) (uptime : Uptime) : PathRecord :=
  let locked := decide (r.settings.tripLimit ≤ r.nextTrips)
  { r with
    state := if locked then .lockedOut else .tripped
    blanking := none
    closedTime := 0
    effSlew := if r.state = .closing then r.effSlew.slower else r.effSlew
    tripCount := r.nextTrips
    retry := if !locked && r.settings.strategy == .auto then some r.settings.retryMs else none
    fault :=
      { cause := cause, current := r.current, threshold := threshold, step := step, uptime := uptime, read := false } }

def closeOrder (p : Source) (s : State) : State := s.setPath p (s.path p).closeOrdered

def openOrder (p : Source) (s : State) : State := s.setPath p (s.path p).openOrdered

/-- R13: a path trips, and PATH_FAULT is raised. -/
def trip (p : Source) (cause : FaultCause) (s : State) : State :=
  raise .pathFault (s.setPath p ((s.path p).tripNow cause (threshold s p) (derating s p) s.slu.uptime))

/-! ### Supply situation -/

/-- R45, R46: the situation and its cap are recomputed; a change is raised and published to the BRE. -/
def publishSituation (s : State) : State :=
  let situation := situationOf s
  let cap := s.spc.settings.caps.get situation
  if situation = s.spc.situation ∧ cap = s.spc.cap then s
  else
    breAllowance cap
      (raiseIf (situation != s.spc.situation) .supplyChange
        { s with spc := { s.spc with situation := situation, cap := cap } })

/-! ### Switchover -/

/-- R27, R47: a switchover may start: none is in flight and the start-up interval is over. -/
def canStart (s : State) : Bool := !inFlight s && !s.spc.startUp

/-- R30, R31: the phase a switchover's start event ends in; GAP_OPEN passes to GAP_DEAD in that event. -/
def startPhase (mode : SwMode) (fromSrc : Option Source) : SwPhase :=
  match mode, fromSrc with
  | .overlap, _ => .ovlClose
  | .gap, some _ => .gapDead
  | .gap, none => .gapClose

/-- R34: a start that clears the sole-source flag. -/
def SwReason.held : SwReason → Bool
  | .empty => true
  | .hot => true
  | .start => false
  | .hostSelect => false
  | .preempt => false
  | .loss => false
  | .trip => false
  | .overvolt => false
  | .release => false

/-- R27: the record a start writes. -/
def Spc.started (c : Spc) (reason : SwReason) (fromSrc : Option Source) (toSrc : Source) (tried : List Source)
    (mode : SwMode) : Spc :=
  { c with
    sw :=
      { reason := reason, fromSrc := fromSrc, toSrc := toSrc, mode := mode, phase := startPhase mode fromSrc
        tried := tried, outcome := c.sw.outcome }
    deadTimer := if startPhase mode fromSrc = .gapDead then some c.settings.deadUs else none
    overlapTimer := none
    lossTimer := match mode with | .overlap => c.lossTimer | .gap => none
    soleSource := c.soleSource && !reason.held }

/-- R29 to R31: a switchover starts, with its first orders. -/
def startSwitchover (reason : SwReason) (fromSrc : Option Source) (toSrc : Source) (tried : List Source) (s : State) :
    State :=
  let mode := chooseMode s fromSrc toSrc
  let t := { s with spc := s.spc.started reason fromSrc toSrc tried mode }
  match mode, fromSrc with
  | .overlap, _ => closeOrder toSrc t
  | .gap, some f => openOrder f t
  | .gap, none => closeOrder toSrc t

/-- R25, R32: the feeding source changes; with NONE, bus-low is inactive and its counters clear (R42). -/
def Spc.feed (c : Spc) (f : Option Source) : Spc :=
  if f = c.feeding then c
  else
    { c with
      feeding := f
      lossTimer := none
      soleSource := false
      busLow := c.busLow && f.isSome
      belowCount := if f.isSome then c.belowCount else 0
      recoveryTimer := if f.isSome then c.recoveryTimer else none }

/-! ### Preemption timers -/

/-- R36: one timer at an evaluation: it runs, and starts if it was clear, or it is clear. -/
def nextPreempt (runs : Bool) (t : Option Nat) : Option Nat :=
  if runs then some (t.getD 0) else none

/-- R36: the timers are evaluated. -/
def updatePreempt (s : State) : State :=
  { s with
    spc :=
      { s.spc with
        preempt :=
          { dc := nextPreempt (preemptRuns s .dcIn) s.spc.preempt.dc
            a := nextPreempt (preemptRuns s .bayA) s.spc.preempt.a
            b := nextPreempt (preemptRuns s .bayB) s.spc.preempt.b } } }

end Sys2Proof.Machine
end

