-- ==== Sys2Proof/Machine/Ltc.lean ====
section
/-! DEFINITION. The Latch Controller's own operations (chapter 3): the evaluation of a PENDING bay with its RELEASE ask, grant and
refusal, the end of a window, and revocation. -/

namespace Sys2Proof.Machine

/-! ### Records -/

/-- R59, R60: the commanded state becomes LOCKED: both timers restart and the stuck flag clears. -/
def LatchRecord.lock (l : LatchRecord) : LatchRecord :=
  { l with commanded := .locked, faultTimer := 0, stuckTimer := 0, stuck := false }

/-- R56: the record of a granted bay. -/
def LatchRecord.grant (l : LatchRecord) : LatchRecord :=
  { l with
    commanded := .unlocked, faultTimer := 0, stuckTimer := 0, release := .granted
    windowMs := Config.releaseWindowMs, cause := .none, lastEvent := .granted }

/-- A release that has ended with an event. -/
def LatchRecord.endRelease (l : LatchRecord) (e : ReleaseEvent) : LatchRecord :=
  { l with release := .idle, byButton := false, byHost := false, cause := .none, windowMs := 0, lastEvent := e }

/-- R58: a GRANTED bay is revoked. -/
def LatchRecord.revoke (l : LatchRecord) : LatchRecord :=
  { l.lock with release := .pending, cause := .motion, windowMs := 0, lastEvent := .revoked }

/-! ### Grant and refusal -/

/-- R44, R56: the stored charge of a bay is cleared. -/
def clearPack (bay : Bay) (s : State) : State :=
  { s with spc := { s.spc with packInfo := s.spc.packInfo.set bay none } }

/-- R56: a bay is granted. -/
def grantBay (bay : Bay) (s : State) : State :=
  raise .release (answerRelease bay .ok none (clearPack bay (s.setLatch bay (s.latch bay).grant)))

/-- R53: a release is refused. -/
def refuseBay (bay : Bay) (s : State) : State :=
  raise .release
    (answerRelease bay .failed (some .soleSource) (s.setLatch bay ((s.latch bay).endRelease .refused)))

/-! ### Evaluation and the RELEASE ask -/

/-- The SPC's answers to a RELEASE ask (R37), with the target of a switchover it starts. -/
inductive AskAnswer where
  | wait
  | moved
  | noTarget
  | started (target : Source)
deriving DecidableEq, Repr

/-- R37: the SPC's answer. -/
def askAnswer (s : State) (bay : Bay) : AskAnswer :=
  if inFlight s then .wait
  else if s.spc.feeding ≠ some (baySource bay) then .moved
  else
    match chooseTarget s s.spc.feeding [] with
    | none => .noTarget
    | some t => .started t

/-- A PENDING bay waits for a cause. -/
def pendFor (bay : Bay) (c : PendingCause) (s : State) : State := s.setLatch bay { s.latch bay with cause := c }

/-- R53: what the LTC does with the answer. -/
def askRelease (bay : Bay) (s : State) : State :=
  match askAnswer s bay with
  | .wait => pendFor bay .supplyBusy s
  | .moved => grantBay bay s
  | .noTarget => refuseBay bay s
  | .started t => pendFor bay .switchover (startSwitchover .release s.spc.feeding t [] s)

/-- R53: the LTC's ask for a bay was answered STARTED and runs. -/
def askRuns (s : State) (bay : Bay) : Bool :=
  (s.latch bay).release == .pending && (s.latch bay).cause == .switchover

/-- R53: the evaluation of a PENDING bay. -/
def evaluate (bay : Bay) (s : State) : State :=
  if s.ddt.phase ≠ .still then pendFor bay .motion s
  else if (s.latch (otherBay bay)).release = .granted then pendFor bay .otherGrant s
  else if askRuns s (otherBay bay) then pendFor bay .supplyBusy s
  else askRelease bay s

/-- R54: a PENDING bay whose ask is not running is evaluated. -/
def evaluateDue (bay : Bay) (s : State) : State :=
  if (s.latch bay).release = .pending ∧ (s.latch bay).cause ≠ .switchover then evaluate bay s else s

/-- R54: both bays, the older request first. -/
def evaluateAll (s : State) : State := evaluateDue (otherBay s.ltc.older) (evaluateDue s.ltc.older s)

/-- R55: the SPC's answer at the end of a RELEASE switchover; `moved` on COMPLETED and FELL_TO_NONE. -/
def answerAsk (bay : Bay) (moved : Bool) (s : State) : State :=
  if askRuns s bay then (if moved then evaluate bay s else refuseBay bay s) else s

/-! ### Windows and revocation -/

/-- R57: a release window ends. -/
def endWindow (bay : Bay) (e : ReleaseEvent) (s : State) : State :=
  raise .release (s.setLatch bay ((s.latch bay).lock.endRelease e))

/-- R58: a bay is revoked when it is GRANTED. -/
def revokeBay (bay : Bay) (s : State) : State :=
  if (s.latch bay).release = .granted then raise .release (s.setLatch bay (s.latch bay).revoke) else s

end Sys2Proof.Machine
end

