-- ==== Sys2Proof/Machine/Switchover.lean ====
section
/-! DEFINITION. Switchovers end to end (chapter 2): the end of a switchover and the examination of the waiting triggers (R32),
path reports (R39 to R41), loss (R33), the SPC's timed commands, and its requests. -/

namespace Sys2Proof.Machine

/-! ### Examination of the triggers (R32, R34, R36, R47) -/

/-- R34: the sole-source flag is set, raising SUPPLY_CHANGE when it was clear. -/
def markSole (s : State) : State :=
  if s.spc.soleSource then s else raise .supplyChange { s with spc := { s.spc with soleSource := true } }

/-- R34: the held EMPTY and HOT conditions are examined, and `start` is what becomes of one that has a target. -/
def examineHeldWith (start : SwReason → Source → State → State) (s : State) : State :=
  match heldCondition s with
  | none => { s with spc := { s.spc with soleSource := false } }
  | some reason =>
    if canStart s then
      match chooseTarget s s.spc.feeding [] with
      | some t => start reason t s
      | none => markSole s
    else s

/-- R34: the examination of EMPTY and HOT; one that has a target starts its switchover. -/
def examineHeld (s : State) : State :=
  examineHeldWith (fun reason t s => startSwitchover reason s.spc.feeding t [] s) s

/-- R36: the earliest source whose preemption timer holds at 500 ms. -/
def preemptTarget (s : State) : Option Source :=
  s.spc.settings.order.find? (fun p => s.spc.preempt.get p == some Config.preemptTicks)

/-- R36: an expired preemption timer is examined. -/
def examinePreempt (s : State) : State :=
  if canStart s ∧ s.ddt.phase = .still ∧ s.spc.feeding.isSome then
    match preemptTarget s with
    | some t => startSwitchover .preempt s.spc.feeding t [] s
    | none => s
  else s

/-- R47: START is examined while the feeding source is NONE. -/
def examineStart (s : State) : State :=
  if canStart s ∧ s.spc.feeding = none then
    match chooseTarget s none [] with
    | some t => startSwitchover .start none t [] s
    | none => s
  else s

/-- R49: the examination at the RESET request. A switchover that it starts begins after the RESET event: in the next event that
examines the triggers (log entry 46). -/
def examineReset (s : State) : State := updatePreempt (examineHeldWith (fun _ _ s => s) s)

/-- R32, R45: the end of an event that may have changed an input of the SPC: the triggers in R32's order, the PENDING releases
among them when the event calls for their evaluation (R54), then the situation. -/
def settle (evalDue : Bool) (s : State) : State :=
  let s := examineHeld s
  let s := if evalDue then evaluateAll s else s
  let s := examineStart (examinePreempt (updatePreempt s))
  publishSituation (updatePreempt s)

/-! ### The end of a switchover (R32) -/

/-- R32, steps 1 and 2. -/
def Spc.ended (c : Spc) (o : SwOutcome) : Spc :=
  let c := { c with sw := { c.sw with phase := .idle, tried := [], outcome := o }, overlapTimer := none, deadTimer := none }
  match o with
  | .completed => c.feed (some c.sw.toSrc)
  | .fellToNone => c.feed none
  | .failed => c
  | .noSwitchover => c

/-- R32, step 4, by the reason that started the switchover. -/
def answerStarter (reason : SwReason) (fromSrc : Option Source) (o : SwOutcome) (fail : FailReason) (s : State) : State :=
  match reason with
  | .hostSelect => if o = .completed then answerSelect .ok none s else answerSelect .failed (some fail) s
  | .release =>
    match fromSrc.bind sourceBay with
    | some bay => answerAsk bay (o != .failed) s
    | none => s
  | .start => s
  | .preempt => s
  | .loss => s
  | .trip => s
  | .empty => s
  | .hot => s
  | .overvolt => s

/-- R39: an EMPTY or HOT switchover that failed starts afresh outside the failed source (log entry 25). -/
def retryHeld (reason : SwReason) (failed : Source) (o : SwOutcome) (s : State) : State :=
  if o = .failed ∧ reason.held ∧ canStart s then
    match chooseTarget s s.spc.feeding [failed] with
    | some t => startSwitchover reason s.spc.feeding t [failed] s
    | none => s
  else s

/-- R32: a switchover ends; `fail` is the reason of a FAILED reply. The replies to the operation that started it are built here,
at step 4, and show the switchover as it ended: the triggers are examined after it, and a switchover that this event then starts
is not in the reply of a SELECT_SOURCE, where R170 has a reply built from the state after the handling in its event (log entry
52). -/
def endSwitchover (o : SwOutcome) (fail : FailReason) (s : State) : State :=
  let w := s.spc.sw
  let s := publishSituation { s with spc := s.spc.ended o }
  let s := answerStarter w.reason w.fromSrc o fail s
  settle true (retryHeld w.reason w.toSrc o s)

/-! ### Path reports -/

/-- R30, R31: a path reports CLOSED. -/
def pathClosed (p : Source) (s : State) : State :=
  if inFlight s ∧ s.spc.sw.toSrc = p then
    match s.spc.sw.phase with
    | .ovlClose =>
      { s with
        spc :=
          { s.spc with
            sw := { s.spc.sw with phase := .ovlHold }
            overlapTimer := some s.spc.settings.overlapMs } }
    | .gapClose => endSwitchover .completed .targetTripped s
    | .idle => s
    | .ovlHold => s
    | .gapOpen => s
    | .gapDead => s
  else s

/-- R41: the switchover goes on to a new target after the dead time. -/
def Spc.retarget (c : Spc) (t : Source) (tried : List Source) : Spc :=
  { c with
    sw := { c.sw with phase := .gapDead, toSrc := t, tried := tried }
    deadTimer := some c.settings.deadUs }

/-- R41, R48: SELECT_SOURCE is answered FAILED when its switchover goes on without its target. -/
def failSelect (fail : FailReason) (s : State) : State :=
  if s.spc.sw.reason = .hostSelect then answerSelect .failed (some fail) s else s

/-- R39, R41: the to path fails. -/
def toFailed (fail : FailReason) (s : State) : State :=
  if s.spc.sw.phase = .gapClose then
    let tried := s.spc.sw.tried ++ [s.spc.sw.toSrc]
    match chooseTarget s s.spc.sw.fromSrc tried with
    | some t => failSelect fail { s with spc := s.spc.retarget t tried }
    | none => endSwitchover .fellToNone fail s
  else endSwitchover .failed fail s

/-- R40: the from path of an OVERLAP switchover is lost; its path is open. -/
def fromLost (s : State) : State :=
  let w := s.spc.sw
  let t := { s with spc := { s.spc with lossTimer := none, sw := { w with mode := .gap, phase := .gapClose } } }
  if w.phase = .ovlHold then endSwitchover .completed .targetTripped t else t

/-- R28, R33: the feeding path has opened with no switchover in flight: a GAP switchover, or NONE when there is no target. -/
def feedingLost (reason : SwReason) (s : State) : State :=
  match chooseTarget s s.spc.feeding [] with
  | some t => startSwitchover reason s.spc.feeding t [] s
  | none =>
    endSwitchover .fellToNone .targetUnavailable
      { s with
        spc :=
          { s.spc with
            lossTimer := none, sw := { s.spc.sw with reason := reason, fromSrc := s.spc.feeding, mode := .gap, tried := [] } } }

/-- What a path reports when it opens by itself: a trip, a dropout of a CLOSING path, OVERVOLT of a CLOSED one, or a declared
loss. -/
inductive DownReport where
  | tripped | dropped | overvolt | lost
deriving DecidableEq, Repr

/-- R48: the reason of FAILED. -/
def DownReport.failReason : DownReport → FailReason
  | .tripped => .targetTripped
  | .dropped => .targetDropped
  | .overvolt => .targetDropped
  | .lost => .targetDropped

/-- R35: the reason of the switchover that follows on the feeding path. -/
def DownReport.reason : DownReport → SwReason
  | .tripped => .trip
  | .dropped => .loss
  | .overvolt => .overvolt
  | .lost => .loss

/-- R38: both paths of the switchover are closing or closed. -/
def overlapping (s : State) : Bool := s.spc.sw.phase == .ovlClose || s.spc.sw.phase == .ovlHold

/-- R33, R38 to R41: the switchover logic takes a report of a path that has opened. -/
def pathDown (p : Source) (r : DownReport) (s : State) : State :=
  if (overlapping s || s.spc.sw.phase == .gapClose) ∧ s.spc.sw.toSrc = p then toFailed r.failReason s
  else if overlapping s ∧ s.spc.sw.fromSrc = some p then fromLost s
  else if inFlight s = false ∧ s.spc.feeding = some p then feedingLost r.reason s
  else s

/-- R13: a path trips and reports it. -/
def tripAndReport (p : Source) (cause : FaultCause) (s : State) : State := pathDown p .tripped (trip p cause s)

/-- R2, R9: a path drops out and reports it. -/
def openAndReport (p : Source) (r : DownReport) (s : State) : State := pathDown p r (openOrder p s)

/-! ### The SPC's timed commands -/

/-- EMPTY_TIMER_EXPIRY (R4): a running timer reaches 1 s and EMPTY is set or clears. -/
def execEmptyTimerExpiry (bay : Bay) (s : State) : Host.Outcome State Fault Refusal :=
  let r := s.path (baySource bay)
  if r.emptyTimer.isSome then
    .next (arbitrate (settle false (s.setPath (baySource bay) { r with isEmpty := !r.isEmpty, emptyTimer := none })))
  else .next s

/-- R8: a blanking window ends. A threshold that a bay temperature has changed since the latest sample is in force at once here
(R8, R13), where R11 has it apply from the next sample (log entry 41). -/
def blankingEnd (p : Source) (s : State) : State :=
  if (threshold s p : Int) < (s.path p).current then tripAndReport p .inrush s
  else pathClosed p (s.setPath p (s.path p).closedNow)

/-- BLANKING_END (R8). -/
def execBlankingEnd (p : Source) (s : State) : Host.Outcome State Fault Refusal :=
  if (s.path p).state = .closing then .next (arbitrate (settle false (blankingEnd p s))) else .next s

/-- RETRY_TIMER_EXPIRY (R15): the path becomes OPEN. -/
def execRetryTimerExpiry (p : Source) (s : State) : Host.Outcome State Fault Refusal :=
  let r := s.path p
  if r.state = .tripped ∧ r.retry.isSome then
    .next (arbitrate (settle false (s.setPath p { r with state := .opened, retry := none })))
  else .next s

/-- R18: the good-close interval ends. -/
def PathRecord.goodClose (r : PathRecord) : PathRecord :=
  { r with closedTime := Config.goodCloseTicks, tripCount := 0, effSlew := r.settings.slew }

/-- GOOD_CLOSE_INTERVAL (R18): once per continuous closed interval. -/
def execGoodCloseInterval (p : Source) (s : State) : Host.Outcome State Fault Refusal :=
  let r := s.path p
  if r.state = .closed ∧ r.closedTime ≠ Config.goodCloseTicks then .next (s.setPath p r.goodClose) else .next s

/-- START_UP_INTERVAL_END (R47). -/
def execStartUpIntervalEnd (s : State) : Host.Outcome State Fault Refusal :=
  if s.spc.startUp then .next (arbitrate (settle false { s with spc := { s.spc with startUp := false } })) else .next s

/-- R31: the target is closed in GAP_CLOSE. -/
def closeTarget (t : Source) (tried : List Source) (s : State) : State :=
  closeOrder t
    { s with
      spc := { s.spc with sw := { s.spc.sw with phase := .gapClose, toSrc := t, tried := tried }, deadTimer := none } }

/-- R31: the dead time expires. -/
def deadTimeExpiry (s : State) : State :=
  let w := s.spc.sw
  if available s w.toSrc then closeTarget w.toSrc w.tried s
  else
    let tried := w.tried ++ [w.toSrc]
    match chooseTarget s w.fromSrc tried with
    | some t => failSelect .targetUnavailable (closeTarget t tried s)
    | none => endSwitchover .fellToNone .targetUnavailable s

/-- DEAD_TIME_EXPIRY (R31). -/
def execDeadTimeExpiry (s : State) : Host.Outcome State Fault Refusal :=
  if s.spc.sw.phase = .gapDead then .next (arbitrate (settle false (deadTimeExpiry s))) else .next s

/-- R30: the overlap time expires: the from path opens and the switchover completes. -/
def overlapExpiry (s : State) : State :=
  let t := match s.spc.sw.fromSrc with
    | some f => openOrder f s
    | none => s
  endSwitchover .completed .targetTripped t

/-- OVERLAP_TIMER_EXPIRY (R30). -/
def execOverlapTimerExpiry (s : State) : Host.Outcome State Fault Refusal :=
  if s.spc.sw.phase = .ovlHold then .next (arbitrate (settle false (overlapExpiry s))) else .next s

/-- PREEMPTION_TIMER_EXPIRY (R36): a running timer holds at 500 ms. -/
def execPreemptionTimerExpiry (p : Source) (s : State) : Host.Outcome State Fault Refusal :=
  if (s.spc.preempt.get p).isSome then
    .next
      (arbitrate
        (settle false
          { s with spc := { s.spc with preempt := s.spc.preempt.set p (some Config.preemptTicks) } }))
  else .next s

/-- BUS_LOW_RECOVERY (R42): the recovery timer has run 10 ms. -/
def execBusLowRecovery (s : State) : Host.Outcome State Fault Refusal :=
  if s.spc.busLow ∧ s.spc.recoveryTimer.isSome then
    .next
      (arbitrate
        (settle false { s with spc := { s.spc with busLow := false, belowCount := 0, recoveryTimer := none } }))
  else .next s

/-! ### Path requests (section 1.6) -/

/-- R14 to R16, R19: settings are stored on a record. -/
def PathRecord.stored (r : PathRecord) (c : PathSettings) : PathRecord :=
  let t := { r with settings := c, effSlew := c.slew }
  if r.state = .tripped then
    match c.strategy with
    | .auto => { t with retry := some c.retryMs }
    | .reported =>
      if r.settings.strategy = .auto ∧ r.fault.read = true then { t with state := .opened, retry := none }
      else { t with retry := none }
  else t

/-- Whether a source is a member of a set. -/
def onMember (members : PerSource Bool) (f : Source → State → State) (p : Source) (s : State) : State :=
  if members.get p then f p s else s

/-- An operation on every member of a source set. -/
def onMembers (members : PerSource Bool) (f : Source → State → State) (s : State) : State :=
  onMember members f .bayB (onMember members f .bayA (onMember members f .dcIn s))

/-- R19: one member. -/
def storePath (a : PathArgs) (p : Source) (s : State) : State := s.setPath p ((s.path p).stored (a.stored p))

/-- R19: a member is the from or to path of the switchover in flight. -/
def anyInSwitchover (s : State) (m : PerSource Bool) : Bool :=
  (m.dc && inSwitchover s .dcIn) || (m.a && inSwitchover s .bayA) || (m.b && inSwitchover s .bayB)

/-- SET_PATH (R19). -/
def handleSetPath (tag : Byte) (p : List Byte) (s : State) : State :=
  match pathArgs p with
  | none => refuse tag .setPath .badValue s
  | some a =>
    if anyInSwitchover s a.members then refuse tag .setPath .busy s
    else
      let s := settle false (onMembers a.members (storePath a) s)
      answer tag .setPath (okOr a.adjusted) (pathBytes s (lowestSource a.members)) s

/-- R16, R20: the fault record is read; under REPORTED a TRIPPED path becomes OPEN. -/
def PathRecord.readFault (r : PathRecord) : PathRecord :=
  let r := { r with fault := { r.fault with read := r.fault.read || r.fault.cause != .none } }
  if r.state = .tripped ∧ r.settings.strategy = .reported then { r with state := .opened, retry := none } else r

/-- R16, R20: the lowest member is read; a path that this opens is examined as a change of availability. -/
def readPath (q : Source) (s : State) : State :=
  let t := s.setPath q (s.path q).readFault
  if (s.path q).readFault.state = (s.path q).state then t else settle false t

/-- GET_PATH (R20). -/
def handleGetPath (tag : Byte) (p : List Byte) (s : State) : State :=
  match sourceSet (at8 p 0) with
  | none => refuse tag .getPath .badValue s
  | some m =>
    let q := lowestSource m
    let s := readPath q s
    answer tag .getPath .ok (pathBytes s q) s

/-- R21: CLEAR_PATH on a record. -/
def PathRecord.cleared (r : PathRecord) : PathRecord :=
  let t := { r with tripCount := 0, effSlew := r.settings.slew }
  match r.state with
  | .tripped => { t with state := .opened, retry := none }
  | .lockedOut => { t with state := .opened, retry := none }
  | .opened => t
  | .closing => t
  | .closed => t

/-- R21: one member. -/
def clearPathOf (p : Source) (s : State) : State := s.setPath p (s.path p).cleared

/-- CLEAR_PATH (R21). -/
def handleClearPath (tag : Byte) (p : List Byte) (s : State) : State :=
  match sourceSet (at8 p 0) with
  | none => refuse tag .clearPath .badValue s
  | some m =>
    let s := settle false (onMembers m clearPathOf s)
    answer tag .clearPath .ok (pathBytes s (lowestSource m)) s

/-! ### Supply requests -/

/-- R24, R36: settings are stored; a change of mode or order restarts the preemption timers. -/
def Spc.stored (c : Spc) (a : SupplySettings) : Spc :=
  { c with
    settings := a
    preempt := if a.mode ≠ c.settings.mode ∨ a.order ≠ c.settings.order then ⟨none, none, none⟩ else c.preempt }

/-- SET_SUPPLY (R24). A new low-charge voltage is compared at the next sample, where R45 has the low state change; the situation is
recomputed in this event with the low state as it is (log entry 47). -/
def handleSetSupply (tag : Byte) (p : List Byte) (s : State) : State :=
  match supplyArgs p with
  | none => refuse tag .setSupply .badValue s
  | some a =>
    let s := settle false { s with spc := s.spc.stored a.clamped }
    answer tag .setSupply (okOr (a.clamped != a)) (supplySettingsBytes s.spc.settings) s

/-- GET_SUPPLY (R24). -/
def handleGetSupply (tag : Byte) (_p : List Byte) (s : State) : State :=
  answer tag .getSupply .ok (supplyBytes s) s

/-- SELECT_SOURCE (R48): deferred. A switchover that RESET's examination has left to begin (R49) is not in flight: a request that
comes first is taken, also from NONE, and its HOST_SELECT takes that switchover's place (log entry 46). -/
def handleSelectSource (tag : Byte) (p : List Byte) (s : State) : State :=
  match sourceOf (at8 p 0) with
  | none => refuse tag .selectSource .badValue s
  | some q =>
    if canStart s = false then refuse tag .selectSource .busy s
    else if available s q = false ∨ s.spc.feeding = some q then refuse tag .selectSource .notAllowed s
    else
      settle false
        (startSwitchover .hostSelect s.spc.feeding q [] { s with slu := { s.slu with owedSelect := some tag } })

/-- PACK_INFO's charge: carried at length 2 (R186). -/
def chargeAt (p : List Byte) : Option Nat := if p.length = 2 then some (at8 p 1) else none

/-- R44: a charge is stored, clamped, or cleared; a stored charge resets the low state (R45). -/
def Spc.packStored (c : Spc) (bay : Bay) (charge : Option Nat) : Spc :=
  { c with
    packInfo := c.packInfo.set bay (charge.map (min 100))
    low := if charge.isSome then c.low.set bay false else c.low }

/-- PACK_INFO (R44). -/
def handlePackInfo (tag : Byte) (p : List Byte) (s : State) : State :=
  match bayOf (at8 p 0) with
  | none => refuse tag .packInfo .badValue s
  | some bay =>
    if present s (baySource bay) = false ∨ (s.latch bay).commanded = .unlocked then
      refuse tag .packInfo .notAllowed s
    else
      let s := settle false { s with spc := s.spc.packStored bay (chargeAt p) }
      answer tag .packInfo (okOr ((chargeAt p).any (fun c => decide (100 < c)))) (u8 (bayCode bay) ++ packBytes s bay) s

/-! ### The RESET request (R23, R49) -/

/-- R23: the RESET request on a path record. -/
def PathRecord.reset (p : Source) (r : PathRecord) : PathRecord :=
  let t :=
    { r with
      settings := .defaults p, effSlew := (PathSettings.defaults p).slew, tripCount := 0, overCount := 0, closedTime := 0
      retry := none, fault := .clear }
  match r.state with
  | .tripped => { t with state := .opened }
  | .lockedOut => { t with state := .opened }
  | .opened => t
  | .closing => t
  | .closed => t

/-- R23, R49: the RESET request on the SPC. -/
def Spc.reset (c : Spc) : Spc :=
  { c with
    paths := { dc := c.paths.dc.reset .dcIn, a := c.paths.a.reset .bayA, b := c.paths.b.reset .bayB }
    settings := .defaults
    packInfo := ⟨none, none⟩
    soleSource := false
    preempt := ⟨none, none, none⟩ }

end Sys2Proof.Machine
end

