-- ==== Sys2Proof/Machine/Monitor.lean ====
section
/-! DEFINITION. The monitor sample (R1): time, measurements, presence and EMPTY, path protection, loss and bus-low, in the order of
log entry 7; and the two commands that name what a sample brings about. -/

namespace Sys2Proof.Machine

/-! ### Time (log entries 1 and 2) -/

/-- A counter that waits just short of the limit that its expiry command reaches. -/
def countTo (limit n : Nat) : Nat := min (limit - 1) (n + 1)

/-- R59, R60: the debounce timers, and the window of a GRANTED bay, over one millisecond. -/
def LatchRecord.tick (l : LatchRecord) : LatchRecord :=
  { l with
    faultTimer := if faultTimerRuns l then countTo Config.latchTimerMs l.faultTimer else 0
    stuckTimer :=
      if stuckTimerRuns l then (if stuckTaken l then l.stuckTimer else countTo Config.latchTimerMs l.stuckTimer) else 0
    windowMs := if l.release = .granted then max 1 (l.windowMs - 1) else l.windowMs }

/-- R66: a channel's age over one millisecond; it waits at 2,000 ms until the channel is stale. -/
def ChannelRecord.tick (r : ChannelRecord) : ChannelRecord :=
  { r with
    age :=
      if r.valid then (if r.stale then min Config.maxAgeMs (r.age + 1) else min Config.staleMs (r.age + 1)) else r.age }

/-- R18: the closed-time counter over 100 µs; at 10 s it holds. -/
def PathRecord.tick (r : PathRecord) : PathRecord :=
  { r with
    closedTime :=
      if r.state = .closed ∧ r.closedTime ≠ Config.goodCloseTicks then countTo Config.goodCloseTicks r.closedTime
      else r.closedTime }

/-- R36: a preemption timer over 100 µs; at 500 ms it holds. -/
def tickPreempt (t : Option Nat) : Option Nat :=
  t.map (fun n => if n = Config.preemptTicks then n else countTo Config.preemptTicks n)

/-- R180: a millisecond passes. -/
def msTick (s : State) : State :=
  { s with
    slu := { s.slu with uptime := s.slu.uptime + 1, subMs := 0 }
    ltc := { s.ltc with latches := s.ltc.latches.map LatchRecord.tick }
    scv := { s.scv with records := s.scv.records.map ChannelRecord.tick } }

/-- 100 µs pass; every tenth time a millisecond (log entry 1). -/
def tick (s : State) : State :=
  let t :=
    { s with spc := { s.spc with paths := s.spc.paths.map PathRecord.tick, preempt := s.spc.preempt.map tickPreempt } }
  if Config.samplesPerMs ≤ t.slu.subMs + 1 then msTick t
  else { t with slu := { t.slu with subMs := t.slu.subMs + 1 } }

/-! ### Measurements (R1) -/

/-- R1: a voltage is stored as at most 65,535 mV. -/
def storedMv (v : Nat) : Nat := min 65535 v

/-- R1: a path current is clamped to 16 bits. -/
def storedMa (i : Int) : Int := clampInt (-32768) 32767 i

/-- R1: one path's measurements. -/
def PathRecord.measured (r : PathRecord) (v : Nat) (i : Int) (up : Uptime) : PathRecord :=
  { r with voltage := storedMv v, current := storedMa i, sampleUptime := up }

/-- R1: one sample updates all seven readings together. -/
def measure (r : Readings) (s : State) : State :=
  { s with
    spc :=
      { s.spc with
        paths :=
          { dc := s.spc.paths.dc.measured r.vDc r.iDc s.slu.uptime
            a := s.spc.paths.a.measured r.vA r.iA s.slu.uptime
            b := s.spc.paths.b.measured r.vB r.iB s.slu.uptime }
        busVoltage := storedMv r.vBus } }

/-! ### EMPTY, presence loss and low charge (R4, R44, R45, R57) -/

/-- A timer that a sample advances, or starts. -/
def advance (limit : Nat) (t : Option Nat) : Option Nat :=
  match t with
  | none => some 0
  | some n => some (countTo limit n)

/-- R4: a sample that advances the empty timer, at the empty threshold `mv`. -/
def PathRecord.emptyAdvances (r : PathRecord) (mv : Nat) : Bool :=
  if r.isEmpty then decide (mv + Config.emptyRecoveryMv ≤ r.voltage) else decide (r.voltage < mv)

/-- R4: a bay's empty timer at a sample; EMPTY clears when the bay is not present. -/
def PathRecord.emptyStep (r : PathRecord) (isPresent : Bool) (mv : Nat) : PathRecord :=
  if isPresent then
    { r with emptyTimer := if r.emptyAdvances mv then advance Config.emptyTicks r.emptyTimer else none }
  else { r with isEmpty := false, emptyTimer := none }

/-- R45: the low state of the feeding battery at a sample; one with a stored charge is judged by it. -/
def lowStep (c : SupplySettings) (voltage : Nat) (was : Bool) : Bool :=
  if voltage < c.lowMv then true else if c.lowMv + Config.lowRecoveryMv ≤ voltage then false else was

/-- R44, R45: pack info and the low state of one bay at a sample. -/
def bayConditions (bay : Bay) (s : State) : State :=
  let p := baySource bay
  let s := s.setPath p ((s.path p).emptyStep (present s p) s.spc.settings.emptyMv)
  if present s p then
    if s.spc.feeding = some p ∧ (s.spc.packInfo.get bay).isNone then
      { s with
        spc := { s.spc with low := s.spc.low.set bay (lowStep s.spc.settings (s.path p).voltage (s.spc.low.get bay)) } }
    else s
  else
    { s with spc := { s.spc with packInfo := s.spc.packInfo.set bay none, low := s.spc.low.set bay false } }

/-- R57: the battery of a GRANTED bay is removed: the bay was present and is not. -/
def removed (was : Bool) (s : State) (bay : Bay) : Bool :=
  was && !present s (baySource bay) && (s.latch bay).release == .granted

/-- R57: removal ends the window. -/
def removeBattery (was : Bool) (bay : Bay) (s : State) : State :=
  if removed was s bay then endWindow bay .removed s else s

/-! ### Protection (R2, R9, R10, R12) -/

/-- R12: the over count at a sample of a CLOSED path. -/
def overStep (p : Source) (s : State) : State :=
  let r := s.path p
  if (threshold s p : Int) < r.current then
    if r.overCount = 0 then s.setPath p { r with overCount := 1 } else tripAndReport p .overcurrent s
  else s.setPath p { r with overCount := 0 }

/-- R2, R9, R10, R12: one path at a sample. A dropout comes before the short limit (log entry 8). -/
def protect (p : Source) (s : State) : State :=
  match (s.path p).state with
  | .closing =>
    if present s p = false ∨ overvolt s p = true then openAndReport p .dropped s
    else if (shortLimit s p : Int) < (s.path p).current then tripAndReport p .short s
    else s
  | .closed =>
    if overvolt s p then openAndReport p .overvolt s
    else if (shortLimit s p : Int) < (s.path p).current then tripAndReport p .short s
    else overStep p s
  | .opened => s
  | .tripped => s
  | .lockedOut => s

/-- R39: in OVL_HOLD a to path whose source is not present drops out. -/
def holdDropout (s : State) : State :=
  if s.spc.sw.phase = .ovlHold ∧ present s s.spc.sw.toSrc = false then openAndReport s.spc.sw.toSrc .dropped s else s

/-! ### Loss and bus-low (R33, R42) -/

/-- R33: a loss can be pending: the feeding path is CLOSED and no GAP switchover is in flight. -/
def lossWatched (s : State) : Option Source :=
  match s.spc.feeding with
  | some f => if (s.path f).state = .closed ∧ gapRunning s = false then some f else none
  | none => none

/-- R33: the loss timer at a sample not present. -/
def nextLoss (s : State) : Nat :=
  match s.spc.lossTimer with
  | none => 0
  | some n => n + 1

/-- R33: the conditions of the declaration, with the loss timer at `n`. -/
def declares (s : State) (n : Nat) : Bool :=
  if rideThroughArmed s then
    decide (s.spc.settings.rideMs * Config.samplesPerMs ≤ n) || decide (s.spc.busVoltage < s.spc.settings.busLowMv)
  else decide (Config.lossTicks ≤ n)

/-- R33: this sample declares the loss of the feeding source. -/
def lossHere (s : State) : Option Source :=
  match lossWatched s with
  | some f => if present s f = false ∧ declares s (nextLoss s) = true then some f else none
  | none => none

/-- R33: the loss timer and the declaration at a sample. -/
def lossStep (s : State) : State :=
  match lossHere s with
  | some f => openAndReport f .lost s
  | none =>
    match lossWatched s with
    | some f =>
      { s with spc := { s.spc with lossTimer := if present s f then none else some (nextLoss s) } }
    | none => s

/-- R42: this sample activates bus-low: the third in a row below the threshold. -/
def busLowHere (s : State) : Bool :=
  s.spc.feeding.isSome && !s.spc.busLow && decide (s.spc.busVoltage < s.spc.settings.busLowMv) &&
    decide (Config.busLowSamples ≤ s.spc.belowCount + 1)

/-- R42: the below count while bus-low is inactive, the recovery timer while it is active. -/
def busLowCounters (s : State) : Spc :=
  if s.spc.feeding.isNone then s.spc
  else if s.spc.busLow then
    { s.spc with
      recoveryTimer :=
        if s.spc.settings.busLowMv + Config.busLowRecoveryMv ≤ s.spc.busVoltage then
          advance Config.busLowRecoveryTicks s.spc.recoveryTimer
        else none }
  else if s.spc.busVoltage < s.spc.settings.busLowMv then { s.spc with belowCount := s.spc.belowCount + 1 }
  else { s.spc with belowCount := 0 }

/-- R42: bus-low at a sample. -/
def busLowStep (s : State) : State :=
  let act := busLowHere s
  raiseIf act .busLow { s with spc := { busLowCounters s with busLow := s.spc.busLow || act } }

/-! ### The sample -/

/-- R57: the sample removes the battery of some GRANTED bay. -/
def removesBattery (s t : State) : Bool := removed (present s .bayA) t .a || removed (present s .bayB) t .b

/-- The sample's measurements and what follows from them for the bays. -/
def sampled (r : Readings) (s : State) : State := bayConditions .b (bayConditions .a (measure r (tick s)))

/-- The sample up to the loss declaration. -/
def sampledPaths (r : Readings) (s : State) : State :=
  let t := sampled r s
  let t := removeBattery (present s .bayB) .b (removeBattery (present s .bayA) .a t)
  holdDropout (protect .bayB (protect .bayA (protect .dcIn t)))

/-- The whole sample (log entry 7). -/
def monitorSample (r : Readings) (s : State) : State :=
  settle (removesBattery s (sampled r s)) (busLowStep (lossStep (sampledPaths r s)))

/-- MONITOR_SAMPLE (R1). -/
def execMonitorSample (r : Readings) (s : State) : Host.Outcome State Fault Refusal :=
  .next (arbitrate (monitorSample r s))

/-- LOSS_DECLARED (R33): the sample that declares a loss; one that declares none is not this event (log entry 4). -/
def execLossDeclared (r : Readings) (s : State) : Host.Outcome State Fault Refusal :=
  if (lossHere (sampledPaths r s)).isSome then .next (arbitrate (monitorSample r s)) else .next s

/-- BUS_LOW_ACTIVATE (R42): the sample that activates bus-low; one that does not is not this event (log entry 4). -/
def execBusLowActivate (r : Readings) (s : State) : Host.Outcome State Fault Refusal :=
  if busLowHere (lossStep (sampledPaths r s)) then .next (arbitrate (monitorSample r s)) else .next s

end Sys2Proof.Machine
end

