-- ==== Sys2Proof/Machine/Release.lean ====
section
/-! DEFINITION. The commands and requests of the Latch Controller (chapter 3), and what it and the BRE do when the motion phase
leaves STILL or returns (R54, R58, R93, R141). -/

namespace Sys2Proof.Machine

/-! ### Motion phase -/

/-- R58: some bay is GRANTED. -/
def anyGranted (s : State) : Bool := (s.latch .a).release == .granted || (s.latch .b).release == .granted

/-- R58, R93, R141: the phase has left STILL: grants are revoked and motion hold is set. A revocation calls for the evaluation of
the other bay's PENDING release (R54, log entry 37). -/
def motionLeft (s : State) : State := settle (anyGranted s) (breMotion true (revokeBay .b (revokeBay .a s)))

/-- R54, R93, R141: the phase has returned to STILL: motion hold clears and PENDING bays are evaluated. -/
def motionReturned (s : State) : State := settle true (breMotion false s)

/-! ### Release requests -/

/-- R53: a release request's origin. -/
inductive Origin where
  | button | host
deriving DecidableEq, Repr

/-- R53: the origin joins the release source. -/
def LatchRecord.joined (l : LatchRecord) (o : Origin) : LatchRecord :=
  match o with
  | .button => { l with byButton := true }
  | .host => { l with byHost := true }

/-- R53: the record of an IDLE bay whose release has been requested; the other bay's request, if any, is the older. -/
def pendRelease (bay : Bay) (o : Origin) (s : State) : State :=
  let s := s.setLatch bay { (s.latch bay).joined o with release := .pending }
  { s with ltc := { s.ltc with older := otherBay bay } }

/-- R53: a release starts on an IDLE bay. An EMPTY or HOT that the feeding bay holds is examined before the ask (R32): one that
RESET has left to begin starts first, and the ask is answered WAIT (R37, log entry 46). -/
def startRelease (bay : Bay) (o : Origin) (s : State) : State := evaluate bay (examineHeld (pendRelease bay o s))

/-- R53: a release request: it starts a release on an IDLE bay and joins the release of any other. -/
def releaseRequest (bay : Bay) (o : Origin) (s : State) : State :=
  match (s.latch bay).release with
  | .idle => startRelease bay o s
  | .pending => s.setLatch bay ((s.latch bay).joined o)
  | .granted => s.setLatch bay ((s.latch bay).joined o)

/-! ### Buttons and switches -/

/-- BUTTON_PRESS (R51): a button active for 30 ms, seen inactive since its last press. -/
def execButtonPress (bay : Bay) (s : State) : Host.Outcome State Fault Refusal :=
  if s.ltc.armed.get bay then
    .next
      (arbitrate
        (settle false (releaseRequest bay .button { s with ltc := { s.ltc with armed := s.ltc.armed.set bay false } })))
  else .next s

/-- BUTTON_INACTIVE (R51): a button inactive for 30 ms can be taken again. -/
def execButtonInactive (bay : Bay) (s : State) : Host.Outcome State Fault Refusal :=
  .next { s with ltc := { s.ltc with armed := s.ltc.armed.set bay true } }

/-- R50, R59, R60: the switch reports a position; a new one restarts both timers, and UNLOCKED clears the stuck flag. -/
def LatchRecord.sense (l : LatchRecord) (pos : LatchPos) : LatchRecord :=
  if pos = l.sensed then l
  else { l with sensed := pos, faultTimer := 0, stuckTimer := 0, stuck := l.stuck && pos == .locked }

/-- LATCH_SENSE_CHANGE (R50). -/
def execLatchSenseChange (bay : Bay) (pos : LatchPos) (s : State) : Host.Outcome State Fault Refusal :=
  .next (s.setLatch bay ((s.latch bay).sense pos))

/-- RELEASE_WINDOW_EXPIRY (R57): the window of a GRANTED bay ends. -/
def execReleaseWindowExpiry (bay : Bay) (s : State) : Host.Outcome State Fault Refusal :=
  if (s.latch bay).release = .granted then .next (arbitrate (settle true (endWindow bay .expired s))) else .next s

/-- R59: the fault timer has run 200 ms: the flag is set, or clears. -/
def LatchRecord.faultExpired (l : LatchRecord) : LatchRecord :=
  { l with insecure := !l.insecure, faultTimer := 0, lastEvent := if l.insecure then .faultCleared else .fault }

/-- LATCH_FAULT_TIMER_EXPIRY (R59). -/
def execLatchFaultTimerExpiry (bay : Bay) (s : State) : Host.Outcome State Fault Refusal :=
  if faultTimerRuns (s.latch bay) then
    .next (arbitrate (settle false (raise .release (s.setLatch bay (s.latch bay).faultExpired))))
  else .next s

/-- R60: the stuck timer has run 200 ms. -/
def LatchRecord.stuckExpired (l : LatchRecord) : LatchRecord :=
  { l with stuck := true, stuckTimer := Config.latchTimerMs, lastEvent := .stuck }

/-- LATCH_STUCK_TIMER_EXPIRY (R60): once in each run of the timer. -/
def execLatchStuckTimerExpiry (bay : Bay) (s : State) : Host.Outcome State Fault Refusal :=
  if stuckTimerRuns (s.latch bay) ∧ stuckTaken (s.latch bay) = false then
    .next (arbitrate (raise .release (s.setLatch bay (s.latch bay).stuckExpired)))
  else .next s

/-! ### Requests -/

/-- R52: a host release request is outstanding. -/
def releaseOutstanding (s : State) : Bool := (s.latch .a).hostOwed || (s.latch .b).hostOwed

/-- R52, R172: the request is accepted and its reply is owed. -/
def oweRelease (tag : Byte) (bay : Bay) (s : State) : State :=
  let t := s.setLatch bay { s.latch bay with hostOwed := true }
  { t with slu := { t.slu with owedRelease := some tag } }

/-- RELEASE_BAY (R52): deferred; on a GRANTED bay it is answered OK at once. -/
def handleReleaseBay (tag : Byte) (p : List Byte) (s : State) : State :=
  match bayOf (at8 p 0) with
  | none => refuse tag .releaseBay .badValue s
  | some bay =>
    if releaseOutstanding s then refuse tag .releaseBay .busy s
    else if (s.latch bay).release = .granted then
      let s := releaseRequest bay .host s
      answer tag .releaseBay .ok (latchBytes s bay) s
    else settle false (releaseRequest bay .host (oweRelease tag bay s))

/-- GET_LATCH (R61). -/
def handleGetLatch (tag : Byte) (p : List Byte) (s : State) : State :=
  match bayOf (at8 p 0) with
  | none => refuse tag .getLatch .badValue s
  | some bay => answer tag .getLatch .ok (latchBytes s bay) s

/-- R63: the RESET request on a record: a GRANTED release is revoked, a PENDING one cancelled. A latch that it locks restarts its
fault timer and keeps the latch-stuck flag and its timer, as R63 says of RESET, where R60 clears them at every other change to
LOCKED (log entry 39). -/
def LatchRecord.reset (l : LatchRecord) : LatchRecord :=
  match l.release with
  | .idle => l
  | .pending => l.endRelease .cancelled
  | .granted => { l with commanded := .locked, faultTimer := 0 }.endRelease .cancelled

/-- R63: the RESET request on the LTC. -/
def Ltc.reset (l : Ltc) : Ltc := { l with latches := l.latches.map LatchRecord.reset }

end Sys2Proof.Machine
end

