-- ==== Sys2Proof/Machine/Scv.lean ====
section
/-! DEFINITION. The Sense Converter (chapter 4): conversions and their results, the walk and the one-shot, staleness, and its
requests. -/

namespace Sys2Proof.Machine

/-! ### Results (R67 to R71) -/

def isLight : Channel → Bool
  | .alsFront => true
  | .alsRear => true
  | .thBayA => false
  | .thBayB => false
  | .thPanel => false

/-- R68: the calibration of a light channel. -/
def calibration (v : Scv) (c : Channel) : Nat := if c = .alsFront then v.calFront else v.calRear

/-- R68: the lux of a count at a range. -/
def luxOf (count range cal : Nat) : Nat := min Config.maxLux (count * 4 ^ range * cal / 1024)

/-- R69: a light conversion stores its value unless the counter saturated at range 0 or 1. -/
def lightStores (count range : Nat) : Bool := decide (count < Config.counterLimit) || decide (2 ≤ range)

/-- R69: the range index for the next conversion. -/
def nextRange (count range : Nat) : Nat :=
  if Config.rangeUpCount ≤ count then min 2 (range + 1)
  else if Config.rangeDownCount ≤ count then range
  else range - 1

/-- R65, R69: the record after a light conversion. -/
def ChannelRecord.lightResult (r : ChannelRecord) (count cal : Nat) : ChannelRecord :=
  let t :=
    { r with
      fault := if count < Config.counterLimit then .none else .over, raw := count, range := nextRange count r.range }
  if lightStores count r.range then { t with value := luxOf count r.range cal, valid := true, age := 0, stale := false }
  else t

/-- R71: a count through the table. -/
def thermistorAt : List (Nat × Int) → Nat → Int
  | [], _ => 0
  | [p], _ => p.2
  | p :: q :: rest, c =>
    if c ≤ p.1 then p.2
    else if c < q.1 then segment p.1 q.1 c p.2 q.2
    else thermistorAt (q :: rest) c

/-- R65, R70: the record after a thermistor conversion that completed its 16 periods. -/
def ChannelRecord.thermistorResult (r : ChannelRecord) (count : Nat) (table : List (Nat × Int)) : ChannelRecord :=
  if count < Config.shortCount then { r with fault := .short, raw := count }
  else
    { r with fault := .none, raw := count, value := thermistorAt table count, valid := true, age := 0, stale := false }

/-- R70: the record after the 40 ms limit. -/
def ChannelRecord.timeoutResult (r : ChannelRecord) : ChannelRecord := { r with fault := .openCircuit, raw := 0 }

/-- R79: a result that raises SENSE_FAULT. -/
def newFault (old new : ChannelFault) : Bool :=
  old != new &&
    match new with
    | .over => true
    | .openCircuit => true
    | .short => true
    | .never => false
    | .none => false

/-! ### The walk (R73) -/

/-- R73: a slot is eligible. -/
def eligible (platform : Platform) (v : Scv) (c : Channel) : Bool :=
  v.enable.get c && (platform != .standby || !isLight c)

/-- R73: the 0-based places of the list in the order of the search. -/
def searchOrder (v : Scv) : List Nat := (List.range v.slots.length).map (fun i => (v.resume - 1 + i) % v.slots.length)

/-- R73: the first eligible slot of the search: its place and channel. -/
def findSlot (platform : Platform) (v : Scv) : Option (Nat × Channel) :=
  (searchOrder v).findSome? fun i =>
    match v.slots[i]? with
    | some c => if eligible platform v c then some (i, c) else none
    | none => none

/-- R73: the converter is to start a walk conversion. -/
def Scv.startWalk (platform : Platform) (v : Scv) : Scv :=
  match findSlot platform v with
  | some (i, c) =>
    { v with activity := .walk (i + 1) c, resume := if i + 1 = v.slots.length then 1 else i + 2 }
  | none => { v with activity := .idle }

/-- R64: the next conversion: a pending one-shot, otherwise the walk. -/
def Scv.startNext (platform : Platform) (v : Scv) : Scv :=
  match v.oneShot with
  | some c => { v with activity := .oneShot c }
  | none => v.startWalk platform

/-- From IDLE the walk starts when something can be converted (R74, R75). -/
def Scv.wake (platform : Platform) (v : Scv) : Scv := if v.activity = .idle then v.startWalk platform else v

/-- The converter starts its next conversion. -/
def startNextConversion (s : State) : State := { s with scv := s.scv.startNext s.slu.platform }

/-! ### The end of a conversion (R64, R76, R78) -/

/-- R65: a record is published to the channel's reader after a conversion. -/
def publishChannel (c : Channel) (stored : Bool) (s : State) : State :=
  match c with
  | .alsFront => breLight c stored s
  | .alsRear => breLight c stored s
  | .thBayA => settle false s
  | .thBayB => settle false s
  | .thPanel => brePanel s

/-- R64, steps 1 and 2, R79: a result is stored and published. -/
def storeResult (c : Channel) (stored : Bool) (r : ChannelRecord) (s : State) : State :=
  publishChannel c stored
    (raiseIf (newFault (s.scv.records.get c).fault r.fault) .senseFault (s.setChannel c r))

/-- R76: a WALK conversion whose channel is out of the enable set is discarded. -/
def discards (v : Scv) : Bool :=
  match v.activity with
  | .walk _ c => !v.enable.get c
  | .oneShot _ => false
  | .idle => true

/-- R78: a one-shot that ends empties its slot and is answered. -/
def finishOneShot (c : Channel) (s : State) : State :=
  match s.scv.activity with
  | .oneShot _ => answerConvert .ok c { s with scv := { s.scv with oneShot := none } }
  | .walk _ _ => s
  | .idle => s

/-- R64: a conversion of a channel ends with a record. -/
def conversionEnd (c : Channel) (stored : Bool) (r : ChannelRecord) (s : State) : State :=
  startNextConversion (finishOneShot c (if discards s.scv then s else storeResult c stored r s))

/-- R64: the channel being converted, if it is of the kind (light or thermistor) whose end is reported. -/
def converting (s : State) (light : Bool) : Option Channel :=
  match s.scv.activity.channel with
  | some c => if isLight c = light then some c else none
  | none => none

/-- LIGHT_CONVERSION_END (R67): the gate window closes after `edges` rising edges. -/
def execLightConversionEnd (edges : Nat) (s : State) : Host.Outcome State Fault Refusal :=
  match converting s true with
  | some c =>
    let count := min Config.counterLimit edges
    let r := s.scv.records.get c
    .next
      (arbitrate (conversionEnd c (lightStores count r.range) (r.lightResult count (calibration s.scv c)) s))
  | none => .next s

/-- THERMISTOR_CONVERSION_END (R70): the sixteenth period ends after `count` reference pulses. -/
def execThermistorConversionEnd (count : Nat) (s : State) : Host.Outcome State Fault Refusal :=
  match converting s false with
  | some c =>
    let n := min Config.periodCountLimit count
    let r := s.scv.records.get c
    .next (arbitrate (conversionEnd c (decide (Config.shortCount ≤ n)) (r.thermistorResult n s.scv.table) s))
  | none => .next s

/-- THERMISTOR_TIMEOUT (R70): 40 ms have passed without 16 periods. -/
def execThermistorTimeout (s : State) : Host.Outcome State Fault Refusal :=
  match converting s false with
  | some c => .next (arbitrate (conversionEnd c false (s.scv.records.get c).timeoutResult s))
  | none => .next s

/-! ### Staleness (R66) -/

/-- R66: the age has passed 2,000 ms. -/
def ChannelRecord.staled (r : ChannelRecord) : ChannelRecord := { r with age := Config.staleMs + 1, stale := true }

/-- R66, R83: the stale record is published to the channel's reader. -/
def publishStale (c : Channel) (s : State) : State :=
  match c with
  | .alsFront => breLightStale c s
  | .alsRear => breLightStale c s
  | .thBayA => settle false s
  | .thBayB => settle false s
  | .thPanel => brePanel s

/-- CHANNEL_STALE (R66): only a valid channel has an age that runs. -/
def execChannelStale (c : Channel) (s : State) : Host.Outcome State Fault Refusal :=
  let r := s.scv.records.get c
  if r.valid ∧ r.stale = false then
    .next (arbitrate (publishStale c (raise .senseFault (s.setChannel c r.staled))))
  else .next s

/-! ### Requests -/

/-- R75: settings are stored; the walk restarts at slot 1, at once when the converter is IDLE. -/
def Scv.stored (platform : Platform) (a : SenseArgs) (v : Scv) : Scv :=
  { v with
    slots := a.slots, enable := a.enable, calFront := max 1 a.calFront, calRear := max 1 a.calRear
    resume := 1 }.wake platform

/-- SET_SENSE (R75). -/
def handleSetSense (tag : Byte) (p : List Byte) (s : State) : State :=
  match senseArgs p with
  | none => refuse tag .setSense .badValue s
  | some a =>
    let s := { s with scv := s.scv.stored s.slu.platform a }
    answer tag .setSense (okOr (a.calFront == 0 || a.calRear == 0)) (senseSettingsBytes s.scv) s

/-- GET_SENSE (R80). -/
def handleGetSense (tag : Byte) (_p : List Byte) (s : State) : State := answer tag .getSense .ok (senseBytes s) s

/-- LOAD_THERMISTOR (R72): clamp, check, store. -/
def handleLoadThermistor (tag : Byte) (p : List Byte) (s : State) : State :=
  let pts := thermistorPoints p 12 0
  let t := pts.map clampThermistor
  if thermistorOrdered t then
    let s := { s with scv := { s.scv with table := t } }
    answer tag .loadThermistor (okOr (t != pts)) (thermistorBytes s.scv.table) s
  else refuse tag .loadThermistor .badValue s

/-- R77: a one-shot is accepted; it starts at once when the converter is IDLE. -/
def Scv.request (c : Channel) (v : Scv) : Scv :=
  { v with oneShot := some c, activity := if v.activity = .idle then .oneShot c else v.activity }

/-- CONVERT_NOW (R77): deferred. -/
def handleConvertNow (tag : Byte) (p : List Byte) (s : State) : State :=
  match channelOf (at8 p 0) with
  | none => refuse tag .convertNow .badValue s
  | some c =>
    if s.scv.oneShot.isSome then refuse tag .convertNow .busy s
    else if isLight c ∧ s.slu.platform = .standby then refuse tag .convertNow .notAllowed s
    else { s with scv := s.scv.request c, slu := { s.slu with owedConvert := some tag } }

/-- R82: the RESET request: the conversion in progress is discarded and the walk starts at slot 1. -/
def Scv.reset (platform : Platform) (v : Scv) : Scv :=
  { v with
    slots := defaultSlots, enable := ⟨true, true, true, true, true⟩, calFront := defaultCal, calRear := defaultCal
    table := defaultThermistors, activity := .idle, resume := 1, oneShot := none }.startWalk platform

end Sys2Proof.Machine
end

