-- ==== Sys2Proof/Machine/Mpt.lean ====
section
/-! DEFINITION. The Motion Port (chapter 7): judging a frame, the sample it produces, the quality counters, the link state, the ring
and rate changes. -/

namespace Sys2Proof.Machine

/-! ### Judging a frame (R127, R128) -/

/-- R128, with the two ways of R127 to be rejected. -/
inductive Verdict where
  | checkFailed
  | mbzFailed
  | flagged
  | duplicate
  | accepted (jump : Bool)
deriving DecidableEq, Repr

/-- R127: the check a frame should carry: the XOR of the seven other bytes, XORed with 0xFF. -/
def frameCheck (f : AccelFrame) : Byte :=
  f.status ^^^ f.xHi ^^^ f.xLo ^^^ f.yHi ^^^ f.yLo ^^^ f.zHi ^^^ f.zLo ^^^ 0xFF

/-- Section 10.12: the frame count, status bits 7 to 4. -/
def frameCount (f : AccelFrame) : Nat := f.status.toNat / 16

/-- Section 10.12: CLIP, status bit 3. -/
def clipSet (f : AccelFrame) : Bool := f.status.getLsbD 3

/-- Section 10.12: SELFTEST or STALE, status bits 2 and 1. -/
def flagSet (f : AccelFrame) : Bool := f.status.getLsbD 2 || f.status.getLsbD 1

/-- R127, R128: the first row that applies. -/
def judge (last : Option Nat) (f : AccelFrame) : Verdict :=
  if f.check ≠ frameCheck f then .checkFailed
  else if f.status.getLsbD 0 then .mbzFailed
  else if flagSet f then .flagged
  else
    match last with
    | none => .accepted false
    | some n => if frameCount f = n then .duplicate else .accepted (frameCount f != (n + 1) % 16)

/-- R127. -/
def Verdict.rejected : Verdict → Bool
  | .checkFailed => true
  | .mbzFailed => true
  | .flagged => false
  | .duplicate => false
  | .accepted _ => false

def Verdict.isAccepted : Verdict → Bool
  | .accepted _ => true
  | .checkFailed => false
  | .mbzFailed => false
  | .flagged => false
  | .duplicate => false

def Verdict.isJump : Verdict → Bool
  | .accepted j => j
  | .checkFailed => false
  | .mbzFailed => false
  | .flagged => false
  | .duplicate => false

/-! ### Samples (R128, R129, R135) -/

/-- R129: a held sample repeats the last values. -/
def heldSample (v : LastValues) : Sample :=
  { x := v.x, y := v.y, z := v.z, held := true, clipped := v.clipped, jump := false }

/-- R128: an accepted frame's sample. -/
def frameSample (f : AccelFrame) (jump : Bool) : Sample :=
  { x := axisOf f.xHi f.xLo, y := axisOf f.yHi f.yLo, z := axisOf f.zHi f.zLo, held := false, clipped := clipSet f
    jump := jump }

/-- R128, R129: the sample a frame produces, if any: an unprimed port cannot hold. -/
def producedSample (m : Mpt) (f : AccelFrame) : Option Sample :=
  match judge m.lastCount f with
  | .accepted j => some (frameSample f j)
  | .checkFailed => if m.primed then some (heldSample m.last) else none
  | .mbzFailed => if m.primed then some (heldSample m.last) else none
  | .flagged => if m.primed then some (heldSample m.last) else none
  | .duplicate => if m.primed then some (heldSample m.last) else none

/-- R135: the ring with a sample appended. -/
def pushSample (ring : List Sample) (e : Sample) : List Sample := (e :: ring).take Config.ringSize

/-! ### Counters and link (R131 to R133) -/

/-- R131: a counter advances when something holds, and stops at 4,294,967,295. -/
def countIf (b : Bool) (n : Nat) : Nat := if b then min Config.maxCounter (n + 1) else n

/-- R132: the outcome joins the history, which holds 16. -/
def pushHistory (h : List Bool) (rejected : Bool) : List Bool :=
  (h ++ [rejected]).drop (h.length + 1 - Config.historyLength)

/-- R133: the rejected run. -/
def nextRejectedRun (m : Mpt) (v : Verdict) : Nat := if v.rejected then min Config.lostRun (m.rejectedRun + 1) else 0

/-- R133: this frame loses the link. -/
def losesLink (m : Mpt) (v : Verdict) : Bool := m.link != .lost && decide (Config.lostRun ≤ nextRejectedRun m v)

/-- R133: the recovery run. -/
def nextRecoveryRun (m : Mpt) (v : Verdict) : Nat :=
  if losesLink m v then 0
  else if m.link = .lost then
    (if v.rejected then 0 else if v.isAccepted then min Config.recoveryRun (m.recoveryRun + 1) else m.recoveryRun)
  else m.recoveryRun

/-- R133: this frame recovers the link. -/
def recoversLink (m : Mpt) (v : Verdict) : Bool :=
  m.link == .lost && decide (Config.recoveryRun ≤ nextRecoveryRun m v)

/-- R132: the link state outside LOST. -/
def windowState (h : List Bool) : LinkState := if h.count true = 0 then .ok else .degraded

/-- R132, R133: the link state after a frame. -/
def nextLink (m : Mpt) (v : Verdict) : LinkState :=
  if losesLink m v then .lost
  else if m.link = .lost ∧ recoversLink m v = false then .lost
  else windowState (pushHistory m.history v.rejected)

/-- R131: the counters after a frame. -/
def nextCounters (m : Mpt) (f : AccelFrame) (v : Verdict) : Counters :=
  let c := m.counters
  { frames := countIf true c.frames
    accepted := countIf v.isAccepted c.accepted
    checkFailures := countIf (v == .checkFailed) c.checkFailures
    mbzFailures := countIf (v == .mbzFailed) c.mbzFailures
    flaggedHeld := countIf (v == .flagged) c.flaggedHeld
    duplicates := countIf (v == .duplicate) c.duplicates
    jumps := countIf v.isJump c.jumps
    clipped := countIf (v.isAccepted && clipSet f) c.clipped
    unprimed := countIf (producedSample m f).isNone c.unprimed
    lostEntries := countIf (losesLink m v) c.lostEntries }

/-- R130, steps 1 to 3: the port after a frame that is not dropped. -/
def Mpt.frameTaken (m : Mpt) (f : AccelFrame) : Mpt :=
  let v := judge m.lastCount f
  let e := producedSample m f
  { rate := m.rate
    transfer := .idle
    lastCount := if v.rejected then m.lastCount else some (frameCount f)
    primed := m.primed || v.isAccepted
    last := e.elim m.last (fun e => { x := e.x, y := e.y, z := e.z, clipped := e.clipped })
    history := pushHistory m.history v.rejected
    rejectedRun := nextRejectedRun m v
    recoveryRun := nextRecoveryRun m v
    link := nextLink m v
    counters := nextCounters m f v
    ring := e.elim m.ring (pushSample m.ring) }

/-! ### Sample events and rate changes -/

/-- SAMPLE_EVENT (R125): a transfer begins; one in flight has always ended before (log entry 18). -/
def execSampleEvent (s : State) : Host.Outcome State Fault Refusal :=
  if s.mpt.transfer = .idle then .next { s with mpt := { s.mpt with transfer := .inFlight } } else .next s

/-- R126: a rate change marks a transfer in flight. -/
def discardTransfer (t : Transfer) : Transfer := if t = .inFlight then .discard else t

/-- R136: a rate change made by SET_MOTION. -/
def Mpt.rateChanged (m : Mpt) (r : SampleRate) : Mpt :=
  { m with
    rate := r, transfer := discardTransfer m.transfer, ring := [], primed := false, lastCount := none
    history := clearHistory, rejectedRun := 0, recoveryRun := 0, counters := .zero, link := .ok }

/-- R138: the RESET request. -/
def Mpt.reset (m : Mpt) : Mpt :=
  if m.rate = .hz800 then m else { m with rate := .hz800, transfer := discardTransfer m.transfer }

end Sys2Proof.Machine
end

