-- ==== Sys2Proof/Machine/Ddt.lean ====
section
/-! DEFINITION. The Drop Detector (chapter 8): the motion phase, the record in progress and the record table, and the frame-end
event with the commands that name what it brings about; SET_MOTION, GET_MOTION, READ_DROP and ERASE_DROPS. -/

namespace Sys2Proof.Machine

/-! ### Magnitude and thresholds (R139, R140) -/

/-- R139: the squared magnitude a sample carries. -/
def sampleM2 (lastM2 : Nat) (e : Sample) : Nat :=
  if e.held then lastM2 else e.x.natAbs ^ 2 + e.y.natAbs ^ 2 + e.z.natAbs ^ 2

def belowFall (c : MotionSettings) (m2 : Nat) : Bool := decide (m2 < fallSquared c)

def aboveImpact (c : MotionSettings) (m2 : Nat) : Bool := decide (impactSquared c < m2)

/-- R139: inside the settle band. -/
def inBand (m2 : Nat) : Bool := decide (Config.bandLow ≤ m2) && decide (m2 ≤ Config.bandHigh)

/-! ### The record in progress (R148 to R152) -/

/-- What a record takes from the rest of the part at its opening, and the port as the sample left it. -/
structure MotionContext where
  rate : SampleRate
  ring : List Sample
  link : LinkState
  uptime : Uptime
  feeding : Option Source
  inFlight : Bool
  deferred : Bool
deriving DecidableEq, Repr

/-- R151: the sum of an axis over the entries used, divided toward minus infinity. -/
def meanOf (f : Sample → Int) (es : List Sample) : Int := (es.map f).sum / (es.length : Int)

/-- R151: the pre-fall attitude from the entries just before the fall start. -/
def attitudeOf (ring : List Sample) (qualify : Nat) : Option Attitude :=
  let es := (ring.drop qualify).take Config.attitudeSamples
  if es.isEmpty then none
  else some { x := meanOf (·.x) es, y := meanOf (·.y) es, z := meanOf (·.z) es, samples := es.length }

/-- R148: the record opened by a sample. -/
def openedRecord (c : MotionContext) (sequence : Nat) (kind : Option DropKind) (attitude : Option Attitude) (e : Sample) :
    OpenRecord :=
  { sequence := sequence, kind := kind, uptime := c.uptime, feeding := c.feeding, inFlight := c.inFlight
    deferred := c.deferred, fallUs := none, impacts := if kind = some .shock then 1 else 0, peak := none
    peakClipped := false, attitude := attitude, heldCount := e.held.toNat, linkLost := false, unsettled := false
    blind := false, traceCount := none, trace := none }

/-- R148: a record is opened while there are sequence numbers. -/
def Ddt.openRecord (d : Ddt) (c : MotionContext) (kind : Option DropKind) (attitude : Option Attitude) (e : Sample) : Ddt :=
  if d.nextSequence ≤ Config.lastSequence then
    { d with record := some (openedRecord c d.nextSequence kind attitude e), nextSequence := d.nextSequence + 1 }
  else d

/-- R150: a sample taken in IMPACT is offered as a peak; a new peak starts the trace count (R152). -/
def OpenRecord.offer (r : OpenRecord) (m2 : Nat) (e : Sample) : OpenRecord :=
  let r := { r with peakClipped := r.peakClipped || e.clipped }
  if r.peak.all (fun p => decide (p.m2 < m2)) then
    { r with peak := some { m2 := m2, x := e.x, y := e.y, z := e.z }, traceCount := some 0 }
  else r

/-- R143, R145: a blow adds one to the impacts count, which saturates at 255. -/
def OpenRecord.struck (r : OpenRecord) : OpenRecord := { r with impacts := min 255 (r.impacts + 1) }

/-- R152: the trace in the ring around a peak of age 23. -/
def traceOf (ring : List Sample) : Trace :=
  { lead := (ring.take Config.traceEntries).length - (Config.traceAfter + 1)
    entries := (ring.take Config.traceEntries).reverse }

/-- R152: this sample completes the trace. -/
def freezesTrace (d : Ddt) : Bool :=
  (d.record.bind (·.traceCount)).any (fun n => decide (Config.traceAfter ≤ n + 1))

/-- R148, R152: what each sample does to a record in progress before the phase rows. -/
def OpenRecord.counted (r : OpenRecord) (ring : List Sample) (e : Sample) : OpenRecord :=
  let r := { r with heldCount := if e.held then min 65535 (r.heldCount + 1) else r.heldCount }
  match r.traceCount with
  | none => r
  | some n =>
    if Config.traceAfter ≤ n + 1 then { r with traceCount := none, trace := some (traceOf ring) }
    else { r with traceCount := some (n + 1) }

/-- The record in progress is changed, if one is held. -/
def Ddt.onRecord (d : Ddt) (f : OpenRecord → OpenRecord) : Ddt := { d with record := d.record.map f }

/-! ### Phases (R141 to R146) -/

/-- A phase is entered; the counters of every phase start from 0 (R159). -/
def Ddt.enter (d : Ddt) (p : MotionPhase) : Ddt :=
  { d with
    phase := p, blind := false, fallRun := 0, fallStart := none, fallIntervals := 0, landingRun := 0, fallingCount := 0, exitCount := 0
    settleRun := 0, settleLimit := 0, blindCount := 0 }

/-- R143, R149: the fall ends after `n` sample intervals, and the record takes a kind. -/
def Ddt.endFall (d : Ddt) (rate : SampleRate) (n : Nat) (k : DropKind) : Ddt :=
  d.onRecord (fun r => { r with kind := some k, fallUs := some (n * rate.intervalUs) })

/-- R144: a blow: IMPACT is entered, and the sample is offered as a peak. -/
def Ddt.enterImpact (d : Ddt) (m2 : Nat) (e : Sample) : Ddt := (d.enter .impact).onRecord (fun r => r.offer m2 e)

/-- R154: the table with a record appended; an evicted record that was not read marks it displaced. -/
def appendRecord (t : List DropRecord) (r : OpenRecord) : List DropRecord :=
  if t.length < Config.maxRecords then t ++ [{ core := r, read := false, displaced := false }]
  else t.drop 1 ++ [{ core := r, read := false, displaced := t.head?.any (fun o => !o.read) }]

/-- R153: the phase returns to STILL and the record, if one is held, closes. -/
def Ddt.close (d : Ddt) : Ddt :=
  { d.enter .still with record := none, table := d.record.elim d.table (appendRecord d.table) }

/-- R142: a sample below free fall joins the run; the first of a run is the fall start. -/
def Ddt.runOn (d : Ddt) (e : Sample) : Ddt :=
  { d with fallRun := d.fallRun + 1, fallStart := if d.fallRun = 0 then some e else d.fallStart }

/-- R142: the run is over. -/
def Ddt.runBroken (d : Ddt) : Ddt := { d with fallRun := 0, fallStart := none }

/-- R142: a sample in STILL. A fall that qualifies counts its intervals and takes its attitude by the numbers of R143 and R151,
also when the run's first sample is older than they say, because row 1 let held samples of a LOST link pass inside the run (log
entry 44). -/
def stillStep (c : MotionContext) (m2 : Nat) (e : Sample) (d : Ddt) : Ddt × List MotionEvent :=
  let q := sampleCount c.rate d.settings.qualifyMs
  if e.held ∧ c.link = .lost then (d, [])
  else if aboveImpact d.settings m2 then ((d.openRecord c (some .shock) none e).enterImpact m2 e, [])
  else if belowFall d.settings m2 then
    if q ≤ d.fallRun + 1 then
      ({ (d.openRecord c none (attitudeOf c.ring q) e).enter .falling with fallIntervals := q - 1 }, [.fallQualified])
    else (d.runOn e, [])
  else (d.runBroken, [])

/-- R143: the falling count of a sample that leaves the phase FALLING. -/
def fallOn (c : MotionContext) (d : Ddt) : Ddt × List MotionEvent :=
  if sampleCount c.rate Config.maxFallMs ≤ d.fallingCount + 1 then
    ((d.endFall c.rate d.fallIntervals .fallTimeout).enter .settling, [.fallTimeout])
  else ({ d with fallingCount := d.fallingCount + 1 }, [])

/-- R143: a sample in FALLING; its interval has been added. -/
def fallingStep (c : MotionContext) (m2 : Nat) (e : Sample) (d : Ddt) : Ddt × List MotionEvent :=
  let d := { d with fallIntervals := d.fallIntervals + 1 }
  if aboveImpact d.settings m2 then
    ((((d.endFall c.rate d.fallIntervals .drop).onRecord OpenRecord.struck).enterImpact m2 e), [])
  else if belowFall d.settings m2 then fallOn c { d with landingRun := 0 }
  else if Config.landingSamples ≤ d.landingRun + 1 then
    ((d.endFall c.rate (d.fallIntervals - 2) .softLanding).enter .settling, [.softLanding])
  else fallOn c { d with landingRun := d.landingRun + 1 }

/-- R144, R150: a later sample in IMPACT. Its clipped flag counts also when it is not above impact (log entry 35). -/
def impactStep (c : MotionContext) (m2 : Nat) (e : Sample) (d : Ddt) : Ddt × List MotionEvent :=
  let d := d.onRecord (fun r => r.offer m2 e)
  if aboveImpact d.settings m2 then ({ d with exitCount := 0 }, [])
  else if sampleCount c.rate Config.impactExitMs ≤ d.exitCount + 1 then (d.enter .settling, [.impactExit])
  else ({ d with exitCount := d.exitCount + 1 }, [])

/-- R145: a later blow turns a soft landing or a timed-out fall into a drop. -/
def OpenRecord.reclassified (r : OpenRecord) : OpenRecord :=
  match r.kind with
  | some .softLanding => { r with kind := some .drop }
  | some .fallTimeout => { r with kind := some .drop }
  | some .drop => r
  | some .shock => r
  | none => r

/-- The events of a close. -/
def closeEvents (d : Ddt) (e : MotionEvent) : List MotionEvent := if d.record.isSome then [e, .recordClosed] else [e]

/-- R145: a sample in SETTLING without the blind flag. -/
def settlingStep (c : MotionContext) (m2 : Nat) (e : Sample) (d : Ddt) : Ddt × List MotionEvent :=
  if aboveImpact d.settings m2 then
    ((d.onRecord (fun r => r.struck.reclassified)).enterImpact m2 e, [])
  else
    let run := if inBand m2 then d.settleRun + 1 else 0
    if sampleCount c.rate d.settings.settleMs ≤ run then (d.close, closeEvents d .settled)
    else if sampleCount c.rate Config.maxSettleMs ≤ d.settleLimit + 1 then
      ((d.onRecord (fun r => { r with unsettled := true })).close, closeEvents d .settleTimeout)
    else ({ d with settleRun := run, settleLimit := d.settleLimit + 1 }, [])

/-- R146: a sample in the blind settle. -/
def blindStep (c : MotionContext) (d : Ddt) : Ddt × List MotionEvent :=
  if sampleCount c.rate Config.blindHoldMs ≤ d.blindCount + 1 then
    ((d.onRecord (fun r => { r with linkLost := c.link == .lost })).close, closeEvents d .blindHoldEnd)
  else ({ d with blindCount := d.blindCount + 1 }, [])

/-- R142 to R146: the phase rows. -/
def phaseStep (c : MotionContext) (m2 : Nat) (e : Sample) (d : Ddt) : Ddt × List MotionEvent :=
  match d.phase with
  | .still => stillStep c m2 e d
  | .falling => fallingStep c m2 e d
  | .impact => impactStep c m2 e d
  | .settling => if d.blind then blindStep c d else settlingStep c m2 e d

/-- R139 to R146: the DDT takes a sample. -/
def takeSample (c : MotionContext) (e : Sample) (d : Ddt) : Ddt × List MotionEvent :=
  let m2 := sampleM2 d.lastM2 e
  let frozen := if freezesTrace d then [MotionEvent.traceFrozen] else []
  let x := phaseStep c m2 e { d.onRecord (fun r => r.counted c.ring e) with lastM2 := m2 }
  (x.1, frozen ++ x.2)

/-- R146: the blind settle is entered. -/
def Ddt.enterBlind (d : Ddt) (rate : SampleRate) : Ddt :=
  let t := if d.phase = .falling then d.endFall rate d.fallIntervals .drop else d
  { (t.onRecord (fun r => { r with blind := true })).enter .settling with blind := true }

/-- R146: a LOST link outside STILL, after the sample. -/
def linkStep (c : MotionContext) (d : Ddt) : Ddt :=
  if c.link = .lost ∧ d.phase ≠ .still ∧ d.blind = false then d.enterBlind c.rate else d

/-- R130, step 4: the DDT is handed the sample, if any, and the link state. -/
def ddtStep (c : MotionContext) (e : Option Sample) (d : Ddt) : Ddt × List MotionEvent :=
  match e with
  | none => (linkStep c d, [])
  | some e =>
    let x := takeSample c e d
    (linkStep c x.1, x.2)

/-! ### The frame-end event (R130) -/

/-- R148: what the DDT reads at a frame end, with the port as the frame leaves it. -/
def motionContext (s : State) (m : Mpt) : MotionContext :=
  { rate := m.rate, ring := m.ring, link := m.link, uptime := s.slu.uptime, feeding := s.spc.feeding
    inFlight := inFlight s
    deferred := (s.latch .a).release != .idle || (s.latch .b).release != .idle }

/-- The DDT after a frame, and what the frame brought about in it. -/
def ddtAfter (f : AccelFrame) (s : State) : Ddt × List MotionEvent :=
  ddtStep (motionContext s (s.mpt.frameTaken f)) (producedSample s.mpt f) s.ddt

/-- What a frame brings about (log entry 4). -/
def frameEvents (f : AccelFrame) (s : State) : List MotionEvent :=
  (if losesLink s.mpt (judge s.mpt.lastCount f) then [.linkLost] else []) ++
    (if recoversLink s.mpt (judge s.mpt.lastCount f) then [.linkRecovered] else []) ++ (ddtAfter f s).2

/-- R134, R147, R155: the notices of a frame end. -/
def raiseMotion (es : List MotionEvent) (s : State) : State :=
  raiseIf (es.contains .recordClosed) .dropRecord
    (raiseIf (es.contains .fallQualified) .dropAlert
      (raiseIf (es.contains .linkLost || es.contains .linkRecovered) .motionLink s))

/-- R141: a phase change is published. -/
def publishPhase (before after : MotionPhase) (s : State) : State :=
  if before = .still ∧ after ≠ .still then motionLeft s
  else if before ≠ .still ∧ after = .still then motionReturned s
  else s

/-- R130: a frame that is not dropped. -/
def frameTaken (f : AccelFrame) (s : State) : State :=
  let x := ddtAfter f s
  publishPhase s.ddt.phase x.1.phase
    (raiseMotion (frameEvents f s) { s with mpt := s.mpt.frameTaken f, ddt := x.1 })

/-- R126, R130: the end of a transfer. -/
def frameEnd (f : AccelFrame) (s : State) : State :=
  match s.mpt.transfer with
  | .idle => s
  | .discard => { s with mpt := { s.mpt with transfer := .idle } }
  | .inFlight => arbitrate (frameTaken f s)

/-- FRAME_END (R130). -/
def execFrameEnd (f : AccelFrame) (s : State) : Host.Outcome State Fault Refusal := .next (frameEnd f s)

/-- A frame end in which an event named by a row of the table occurs; a frame that brings none about is not that event (log
entry 4). -/
def frameEndWith (e : MotionEvent) (f : AccelFrame) (s : State) : State :=
  if s.mpt.transfer = .inFlight ∧ (frameEvents f s).contains e = true then frameEnd f s else s

/-- LINK_LOST_ENTRY (R133). -/
def execLinkLostEntry (f : AccelFrame) (s : State) : Host.Outcome State Fault Refusal := .next (frameEndWith .linkLost f s)

/-- LINK_RECOVERY (R133). -/
def execLinkRecovery (f : AccelFrame) (s : State) : Host.Outcome State Fault Refusal :=
  .next (frameEndWith .linkRecovered f s)

/-- FALL_QUALIFIED (R142). -/
def execFallQualified (f : AccelFrame) (s : State) : Host.Outcome State Fault Refusal :=
  .next (frameEndWith .fallQualified f s)

/-- SOFT_LANDING (R143). -/
def execSoftLanding (f : AccelFrame) (s : State) : Host.Outcome State Fault Refusal := .next (frameEndWith .softLanding f s)

/-- FALL_TIMEOUT (R143). -/
def execFallTimeout (f : AccelFrame) (s : State) : Host.Outcome State Fault Refusal := .next (frameEndWith .fallTimeout f s)

/-- IMPACT_EXIT (R144). -/
def execImpactExit (f : AccelFrame) (s : State) : Host.Outcome State Fault Refusal := .next (frameEndWith .impactExit f s)

/-- SETTLED (R145). -/
def execSettled (f : AccelFrame) (s : State) : Host.Outcome State Fault Refusal := .next (frameEndWith .settled f s)

/-- SETTLE_TIMEOUT (R145). -/
def execSettleTimeout (f : AccelFrame) (s : State) : Host.Outcome State Fault Refusal :=
  .next (frameEndWith .settleTimeout f s)

/-- BLIND_HOLD_END (R146). -/
def execBlindHoldEnd (f : AccelFrame) (s : State) : Host.Outcome State Fault Refusal :=
  .next (frameEndWith .blindHoldEnd f s)

/-- TRACE_FREEZE (R152). -/
def execTraceFreeze (f : AccelFrame) (s : State) : Host.Outcome State Fault Refusal := .next (frameEndWith .traceFrozen f s)

/-! ### Requests -/

/-- R158: the DDT's part of SET_MOTION. -/
def Ddt.stored (d : Ddt) (c : MotionSettings) : Ddt := { d.runBroken with settings := c }

/-- R136: the MPT's part of SET_MOTION. -/
def Mpt.stored (m : Mpt) (r : SampleRate) : Mpt := if r = m.rate then m else m.rateChanged r

/-- SET_MOTION (R136, R158). -/
def handleSetMotion (tag : Byte) (p : List Byte) (s : State) : State :=
  match motionArgs p with
  | none => refuse tag .setMotion .badValue s
  | some (rate, a) =>
    if s.ddt.phase ≠ .still then refuse tag .setMotion .busy s
    else
      let t := { s with mpt := s.mpt.stored rate, ddt := s.ddt.stored a.clamped }
      let t := raiseIf (rate != s.mpt.rate && s.mpt.link == .lost) .motionLink t
      answer tag .setMotion (okOr (a.clamped != a)) (motionSettingsBytes t) t

/-- GET_MOTION (R159). -/
def handleGetMotion (tag : Byte) (_p : List Byte) (s : State) : State := answer tag .getMotion .ok (motionBytes s) s

/-- R156: the record asked for: by sequence number, or the oldest that is not read. -/
def recordAsked (p : List Byte) (t : List DropRecord) : Option DropRecord :=
  if p.length = 4 then t.find? (fun r => r.core.sequence == at32 p 0) else t.find? (fun r => !r.read)

/-- R156: the read flag of the record with a sequence number is set. -/
def markRead (sequence : Nat) (t : List DropRecord) : List DropRecord :=
  t.map (fun r => if r.core.sequence = sequence then { r with read := true } else r)

/-- READ_DROP (R156). -/
def handleReadDrop (tag : Byte) (p : List Byte) (s : State) : State :=
  match recordAsked p s.ddt.table with
  | none => refuse tag .readDrop .noData s
  | some r =>
    answer tag .readDrop .ok (dropBytes { r with read := true })
      { s with ddt := { s.ddt with table := markRead r.core.sequence s.ddt.table } }

/-- ERASE_DROPS (R157). -/
def handleEraseDrops (tag : Byte) (_p : List Byte) (s : State) : State :=
  answer tag .eraseDrops .ok (u8 s.ddt.table.length) { s with ddt := { s.ddt with table := [] } }

/-- R161: the RESET request. -/
def Ddt.reset (d : Ddt) : Ddt := { d.enter .still with settings := .defaults, record := none }

end Sys2Proof.Machine
end

