-- ==== Sys2Proof/Machine/Link.lean ====
section
/-! DEFINITION. The System Link Unit (chapter 9): the receiver, the request queue, dispatch, its own requests and the RESET request,
and the commands on SYS_RX and SYS_TX. -/

namespace Sys2Proof.Machine

/-! ### The SLU's requests -/

/-- R107, R178: a change of the platform state is published to the Lamp Driver and, for a converter that left STANDBY idle (R74), to
the Sense Converter. WAKE, which a raise may have asserted again since the frame was received, is kept (R179, log entry 50). -/
def publishPlatform (before : Platform) (s : State) : State :=
  let p := s.slu.platform
  if p = before then s
  else
    { s with
      lmd := s.lmd.platformChanged p
      scv := if before = .standby then s.scv.wake p else s.scv }

/-- SET_PLATFORM (R178). -/
def handleSetPlatform (tag : Byte) (p : List Byte) (s : State) : State :=
  match Platform.ofCode (at8 p 0), maskAt p 1 with
  | some platform, some mask =>
    let t := publishPlatform s.slu.platform { s with slu := { s.slu with platform := platform, wakeMask := mask } }
    answer tag .setPlatform .ok (platformBytes t) t
  | some _, none => refuse tag .setPlatform .badValue s
  | none, _ => refuse tag .setPlatform .badValue s

/-- SET_NOTICE_MASK (R177). -/
def handleSetNoticeMask (tag : Byte) (p : List Byte) (s : State) : State :=
  match maskAt p 0 with
  | some mask =>
    answer tag .setNoticeMask .ok (u16 mask.toNat) { s with slu := { s.slu with noticeMask := mask } }
  | none => refuse tag .setNoticeMask .badValue s

/-- GET_STATUS (R181). -/
def handleGetStatus (tag : Byte) (_p : List Byte) (s : State) : State := answer tag .getStatus .ok (statusBytes s) s

/-- GET_IDENT (R182). -/
def handleGetIdent (tag : Byte) (_p : List Byte) (s : State) : State := answer tag .getIdent .ok identBytes s

/-! ### The RESET request (R183) -/

/-- R183, step 1: the owed replies are made with status CANCELLED: the RELEASE_BAY, then the CONVERT_NOW of the one-shot that RESET
ends (log entry 45). -/
def cancelOwed (oneShot : Option Channel) (s : State) : State :=
  let s := answerRelease .b .cancelled none (answerRelease .a .cancelled none s)
  match oneShot with
  | some c => answerConvert .cancelled c s
  | none => s

/-- R183, R184: the SLU's own effects. -/
def Slu.reset (u : Slu) : Slu :=
  { u with
    queue := [], outbox := ⟨0, 0, 0, 0, 0, 0, 0, 0, 0⟩, noticeMask := defaultNoticeMask, wakeMask := defaultWakeMask
    linkErrors := 0 }

/-- R183, steps 2 and 3: the queue is discarded and each block applies its RESET effects; the BRE publishes its results to the
LMD (log entry 11). -/
def resetBlocks (s : State) : State :=
  let t :=
    { s with
      slu := s.slu.reset
      spc := s.spc.reset
      ltc := s.ltc.reset
      scv := s.scv.reset s.slu.platform
      lmd := s.lmd.reset
      mpt := s.mpt.reset
      ddt := s.ddt.reset
      bre := { s.bre with motionHold := false } }
  t.withBre (t.bre.reset (panelTemp t))

/-- RESET (R183): declined while a switchover is in flight. The CANCELLED replies carry the records as the event leaves them (R52,
R170, log entry 40). The held triggers are examined before the reply to RESET is made, and a switchover that they start begins
after this event (R49, log entries 11 and 46). -/
def handleReset (tag : Byte) (_p : List Byte) (s : State) : State :=
  if inFlight s then refuse tag .reset .busy s
  else
    answer tag .reset .ok [] (cancelOwed s.scv.oneShot (examineReset (publishSituation (resetBlocks s))))

/-! ### Dispatch (R169, R186) -/

/-- R169, step 3: the owning block handles the request. -/
def handleOwned (k : ReqKind) (tag : Byte) (p : List Byte) (s : State) : State :=
  match k with
  | .setPath => handleSetPath tag p s
  | .getPath => handleGetPath tag p s
  | .clearPath => handleClearPath tag p s
  | .setSupply => handleSetSupply tag p s
  | .getSupply => handleGetSupply tag p s
  | .selectSource => handleSelectSource tag p s
  | .packInfo => handlePackInfo tag p s
  | .releaseBay => handleReleaseBay tag p s
  | .getLatch => handleGetLatch tag p s
  | .setSense => handleSetSense tag p s
  | .getSense => handleGetSense tag p s
  | .loadThermistor => handleLoadThermistor tag p s
  | .convertNow => handleConvertNow tag p s
  | .setBrightness => handleSetBrightness tag p s
  | .getBrightness => handleGetBrightness tag p s
  | .loadCurve => handleLoadCurve tag p s
  | .setLamp => handleSetLamp tag p s
  | .getLamp => handleGetLamp tag p s
  | .lampClear => handleLampClear tag p s
  | .setMotion => handleSetMotion tag p s
  | .getMotion => handleGetMotion tag p s
  | .readDrop => handleReadDrop tag p s
  | .eraseDrops => handleEraseDrops tag p s
  | .setPlatform => handleSetPlatform tag p s
  | .setNoticeMask => handleSetNoticeMask tag p s
  | .getStatus => handleGetStatus tag p s
  | .getIdent => handleGetIdent tag p s
  | .reset => handleReset tag p s

/-- A reply to a frame whose kind need not be a request kind (R167, R169). -/
def answerRaw (r : Request) (status : Status) (s : State) : State :=
  { s with slu := s.slu.pushReply { tag := r.tag, payload := replyPayload r.kind status none [] } }

/-- R169: the dispatcher judges the kind, then the length, then hands the request to its block. -/
def handleRequest (r : Request) (s : State) : State :=
  match ReqKind.ofByte r.kind with
  | none => answerRaw r .unknownKind s
  | some k => if lengthAllowed k r.payload then handleOwned k r.tag r.payload s else answerRaw r .badLength s

/-- R169: the oldest request leaves the queue and is handled. -/
def dispatchOne (s : State) : State :=
  match s.slu.queue with
  | [] => s
  | r :: rest => handleRequest r { s with slu := { s.slu with queue := rest } }

/-- R169, R176: the end of an event of the link: the transmitter's choice, then the dispatch that the event has made possible, and
the transmitter's choice after it. -/
def finishLink (before : State) (s : State) : State :=
  let s := arbitrate s
  if dispatchReady s = true ∧ dispatchReady before = false then arbitrate (dispatchOne s) else s

/-! ### Arrival (R167) -/

/-- R166: the link error count, which stops at 65,535. -/
def Slu.linkError (u : Slu) : Slu := { u with linkErrors := min Config.maxLinkErrors (u.linkErrors + 1) }

/-- R167: a valid frame joins the queue, or is answered QUEUE_FULL, or is discarded and counted. -/
def offerRequest (r : Request) (s : State) : State :=
  if s.slu.queue.length < Config.maxQueue then { s with slu := { s.slu with queue := s.slu.queue ++ [r] } }
  else if 1 ≤ freeSpace s then answerRaw r .queueFull s
  else { s with slu := s.slu.linkError }

/-- R163, R179: a valid frame releases WAKE and is offered to the queue. -/
def receiveRequest (r : Request) (s : State) : State :=
  finishLink s (offerRequest r { s with slu := { s.slu with wake := false } })

/-! ### The receiver (R162 to R165) -/

/-- What a character does to the receiver. -/
inductive Received where
  | goOn (rx : Receiver)
  | discarded
  | frame (r : Request)
deriving DecidableEq, Repr

/-- R163: the 8-bit sum from length to check. -/
def frameSum (len : Nat) (kind tag : Byte) (payload : List Byte) (check : Byte) : Byte :=
  sum8 (BitVec.ofNat 8 len :: kind :: tag :: payload) + check

/-- R163: the check character judges the frame. -/
def receiveCheck (len : Nat) (kind tag : Byte) (got : List Byte) (c : Byte) (stop : Bool) : Received :=
  if stop = true ∧ frameSum len kind tag got c = 0 then .frame { kind := kind, tag := tag, payload := got } else .discarded

/-- R162, R163: a character is taken as its stop bit is sampled; a low stop bit discards a partial frame. -/
def receive (rx : Receiver) (c : Byte) (stop : Bool) : Received :=
  match rx with
  | .hunt => if stop = true ∧ c = Config.syncChar then .goOn .length else .goOn .hunt
  | .lineBreak => .goOn .lineBreak
  | .length => if stop = true ∧ c.toNat ≤ Config.maxPayload then .goOn (.kind c.toNat) else .discarded
  | .kind n => if stop then .goOn (.tag n c) else .discarded
  | .tag n k =>
    if stop then (if n = 0 then .goOn (.check n k c []) else .goOn (.payload n k c [])) else .discarded
  | .payload n k t got =>
    if stop then
      (if n ≤ got.length + 1 then .goOn (.check n k t (got ++ [c])) else .goOn (.payload n k t (got ++ [c])))
    else .discarded
  | .check n k t got => receiveCheck n k t got c stop

/-- Put the receiver state. -/
def State.setRx (s : State) (rx : Receiver) : State := { s with slu := { s.slu with rx := rx } }

/-- What a character does to the part. -/
def takeReceived (r : Received) (s : State) : State :=
  match r with
  | .goOn rx => s.setRx rx
  | .discarded => { s with slu := { s.slu.linkError with rx := .hunt } }
  | .frame r => finishLink s (offerRequest r { s with slu := { s.slu with rx := .hunt, wake := false } })

/-- RX_CHARACTER (R162). -/
def execRxCharacter (c : Byte) (stop : Bool) (s : State) : Host.Outcome State Fault Refusal :=
  .next (takeReceived (receive s.slu.rx c stop) s)

/-- RX_FRAME (R163): the check character arrives; outside CHECK there is no frame to complete (log entry 28). -/
def execRxFrame (check : Byte) (stop : Bool) (s : State) : Host.Outcome State Fault Refusal :=
  match s.slu.rx with
  | .check n k t got => .next (takeReceived (receiveCheck n k t got check stop) s)
  | .hunt => .next s
  | .length => .next s
  | .kind _ => .next s
  | .tag _ _ => .next s
  | .payload _ _ _ _ => .next s
  | .lineBreak => .next s

/-- R164: the receiver state 1 ms after the last character. -/
def gapped : Receiver → Receiver
  | .hunt => .hunt
  | .lineBreak => .lineBreak
  | .length => .hunt
  | .kind _ => .hunt
  | .tag _ _ => .hunt
  | .payload _ _ _ _ => .hunt
  | .check _ _ _ _ => .hunt

/-- FRAME_GAP_TIMEOUT (R164): a partial frame is discarded without a count. -/
def execFrameGapTimeout (s : State) : Host.Outcome State Fault Refusal := .next (s.setRx (gapped s.slu.rx))

/-- R165: a break. -/
def breakLink (s : State) : State :=
  let t := clearOwed .b (clearOwed .a s)
  { t with
    slu :=
      { t.slu with
        rx := .lineBreak, queue := [], fifo := [], owedSelect := none, owedRelease := none, owedConvert := none } }

/-- BREAK (R165); a line held low for longer still makes one break. -/
def execLineBreak (s : State) : Host.Outcome State Fault Refusal :=
  if s.slu.rx = .lineBreak then .next s else .next (breakLink s)

/-- BREAK_END (R165). -/
def execBreakEnd (s : State) : Host.Outcome State Fault Refusal :=
  if s.slu.rx = .lineBreak then .next (s.setRx .hunt) else .next s

/-! ### Dispatch and transmission -/

/-- REQUEST_DISPATCH (R169): a further dispatch event. -/
def execRequestDispatch (s : State) : Host.Outcome State Fault Refusal :=
  if dispatchReady s then .next (arbitrate (dispatchOne s)) else .next s

/-- TX_FRAME_END (R176): the transmitter becomes free and the arbiter chooses. -/
def execTxFrameEnd (s : State) : Host.Outcome State Fault Refusal :=
  if s.slu.tx.isSome then .next (finishLink s { s with slu := { s.slu with tx := none } }) else .next s

/-- POWER_ON_RESET (R22, R49, R62, R81, R104, R123, R137, R160, R184). The commands that wait are the sender's and stay (log entry
27). -/
def execPowerOnReset (btnA btnB : Bool) (lsnsA lsnsB : LatchPos) (s : State) : Host.Outcome State Fault Refusal :=
  .next (.powerOn btnA btnB lsnsA lsnsB s.pending)

end Sys2Proof.Machine
end

