-- ==== Sys2Proof/Machine/Requests.lean ====
section
/-! DEFINITION. The requests as commands: a valid request frame of the kind arrives (log entry 5), releases WAKE, is offered to the
request queue and is dispatched in that event when the event makes that possible (R163, R167, R169, R179). -/

namespace Sys2Proof.Machine

/-- The frame of a request. -/
def requestFrame (k : ReqKind) (tag : Byte) (p : List Byte) : Request := { kind := k.byte, tag := tag, payload := p }

/-- SET_PATH (R19). -/
def execSetPath (tag : Byte) (p : List Byte) (s : State) : Host.Outcome State Fault Refusal :=
  .next (receiveRequest (requestFrame .setPath tag p) s)

/-- GET_PATH (R20). -/
def execGetPath (tag : Byte) (p : List Byte) (s : State) : Host.Outcome State Fault Refusal :=
  .next (receiveRequest (requestFrame .getPath tag p) s)

/-- CLEAR_PATH (R21). -/
def execClearPath (tag : Byte) (p : List Byte) (s : State) : Host.Outcome State Fault Refusal :=
  .next (receiveRequest (requestFrame .clearPath tag p) s)

/-- SET_SUPPLY (R24). -/
def execSetSupply (tag : Byte) (p : List Byte) (s : State) : Host.Outcome State Fault Refusal :=
  .next (receiveRequest (requestFrame .setSupply tag p) s)

/-- GET_SUPPLY (R24). -/
def execGetSupply (tag : Byte) (p : List Byte) (s : State) : Host.Outcome State Fault Refusal :=
  .next (receiveRequest (requestFrame .getSupply tag p) s)

/-- SELECT_SOURCE (R48). -/
def execSelectSource (tag : Byte) (p : List Byte) (s : State) : Host.Outcome State Fault Refusal :=
  .next (receiveRequest (requestFrame .selectSource tag p) s)

/-- PACK_INFO (R44). -/
def execPackInfo (tag : Byte) (p : List Byte) (s : State) : Host.Outcome State Fault Refusal :=
  .next (receiveRequest (requestFrame .packInfo tag p) s)

/-- RELEASE_BAY (R52). -/
def execReleaseBay (tag : Byte) (p : List Byte) (s : State) : Host.Outcome State Fault Refusal :=
  .next (receiveRequest (requestFrame .releaseBay tag p) s)

/-- GET_LATCH (R61). -/
def execGetLatch (tag : Byte) (p : List Byte) (s : State) : Host.Outcome State Fault Refusal :=
  .next (receiveRequest (requestFrame .getLatch tag p) s)

/-- SET_SENSE (R75). -/
def execSetSense (tag : Byte) (p : List Byte) (s : State) : Host.Outcome State Fault Refusal :=
  .next (receiveRequest (requestFrame .setSense tag p) s)

/-- GET_SENSE (R80). -/
def execGetSense (tag : Byte) (p : List Byte) (s : State) : Host.Outcome State Fault Refusal :=
  .next (receiveRequest (requestFrame .getSense tag p) s)

/-- LOAD_THERMISTOR (R72). -/
def execLoadThermistor (tag : Byte) (p : List Byte) (s : State) : Host.Outcome State Fault Refusal :=
  .next (receiveRequest (requestFrame .loadThermistor tag p) s)

/-- CONVERT_NOW (R77). -/
def execConvertNow (tag : Byte) (p : List Byte) (s : State) : Host.Outcome State Fault Refusal :=
  .next (receiveRequest (requestFrame .convertNow tag p) s)

/-- SET_BRIGHTNESS (R102). -/
def execSetBrightness (tag : Byte) (p : List Byte) (s : State) : Host.Outcome State Fault Refusal :=
  .next (receiveRequest (requestFrame .setBrightness tag p) s)

/-- GET_BRIGHTNESS (R103). -/
def execGetBrightness (tag : Byte) (p : List Byte) (s : State) : Host.Outcome State Fault Refusal :=
  .next (receiveRequest (requestFrame .getBrightness tag p) s)

/-- LOAD_CURVE (R95). -/
def execLoadCurve (tag : Byte) (p : List Byte) (s : State) : Host.Outcome State Fault Refusal :=
  .next (receiveRequest (requestFrame .loadCurve tag p) s)

/-- SET_LAMP (R120). -/
def execSetLamp (tag : Byte) (p : List Byte) (s : State) : Host.Outcome State Fault Refusal :=
  .next (receiveRequest (requestFrame .setLamp tag p) s)

/-- GET_LAMP (R122). -/
def execGetLamp (tag : Byte) (p : List Byte) (s : State) : Host.Outcome State Fault Refusal :=
  .next (receiveRequest (requestFrame .getLamp tag p) s)

/-- LAMP_CLEAR (R121). -/
def execLampClear (tag : Byte) (p : List Byte) (s : State) : Host.Outcome State Fault Refusal :=
  .next (receiveRequest (requestFrame .lampClear tag p) s)

/-- SET_MOTION (R158). -/
def execSetMotion (tag : Byte) (p : List Byte) (s : State) : Host.Outcome State Fault Refusal :=
  .next (receiveRequest (requestFrame .setMotion tag p) s)

/-- GET_MOTION (R159). -/
def execGetMotion (tag : Byte) (p : List Byte) (s : State) : Host.Outcome State Fault Refusal :=
  .next (receiveRequest (requestFrame .getMotion tag p) s)

/-- READ_DROP (R156). -/
def execReadDrop (tag : Byte) (p : List Byte) (s : State) : Host.Outcome State Fault Refusal :=
  .next (receiveRequest (requestFrame .readDrop tag p) s)

/-- ERASE_DROPS (R157). -/
def execEraseDrops (tag : Byte) (p : List Byte) (s : State) : Host.Outcome State Fault Refusal :=
  .next (receiveRequest (requestFrame .eraseDrops tag p) s)

/-- SET_PLATFORM (R178). -/
def execSetPlatform (tag : Byte) (p : List Byte) (s : State) : Host.Outcome State Fault Refusal :=
  .next (receiveRequest (requestFrame .setPlatform tag p) s)

/-- SET_NOTICE_MASK (R177). -/
def execSetNoticeMask (tag : Byte) (p : List Byte) (s : State) : Host.Outcome State Fault Refusal :=
  .next (receiveRequest (requestFrame .setNoticeMask tag p) s)

/-- GET_STATUS (R181). -/
def execGetStatus (tag : Byte) (p : List Byte) (s : State) : Host.Outcome State Fault Refusal :=
  .next (receiveRequest (requestFrame .getStatus tag p) s)

/-- GET_IDENT (R182). -/
def execGetIdent (tag : Byte) (p : List Byte) (s : State) : Host.Outcome State Fault Refusal :=
  .next (receiveRequest (requestFrame .getIdent tag p) s)

/-- RESET (R183). -/
def execResetRequest (tag : Byte) (p : List Byte) (s : State) : Host.Outcome State Fault Refusal :=
  .next (receiveRequest (requestFrame .reset tag p) s)

end Sys2Proof.Machine
end

