-- ==== Sys2Proof/Machine/Dispatch.lean ====
section
/-! DEFINITION. The meaning of every command: one arm per row of the table. -/

namespace Sys2Proof.Machine

def exec (i : Instr) (s : State) : Host.Outcome State Fault Refusal :=
  match i with
  | .powerOnReset btnA btnB lsnsA lsnsB => Sys2Proof.Machine.execPowerOnReset btnA btnB lsnsA lsnsB s
  | .rxFrame check stop => Sys2Proof.Machine.execRxFrame check stop s
  | .frameGapTimeout => Sys2Proof.Machine.execFrameGapTimeout s
  | .lineBreak => Sys2Proof.Machine.execLineBreak s
  | .breakEnd => Sys2Proof.Machine.execBreakEnd s
  | .requestDispatch => Sys2Proof.Machine.execRequestDispatch s
  | .txFrameEnd => Sys2Proof.Machine.execTxFrameEnd s
  | .setPath tag payload => Sys2Proof.Machine.execSetPath tag payload s
  | .getPath tag payload => Sys2Proof.Machine.execGetPath tag payload s
  | .clearPath tag payload => Sys2Proof.Machine.execClearPath tag payload s
  | .setSupply tag payload => Sys2Proof.Machine.execSetSupply tag payload s
  | .getSupply tag payload => Sys2Proof.Machine.execGetSupply tag payload s
  | .selectSource tag payload => Sys2Proof.Machine.execSelectSource tag payload s
  | .packInfo tag payload => Sys2Proof.Machine.execPackInfo tag payload s
  | .releaseBay tag payload => Sys2Proof.Machine.execReleaseBay tag payload s
  | .getLatch tag payload => Sys2Proof.Machine.execGetLatch tag payload s
  | .setSense tag payload => Sys2Proof.Machine.execSetSense tag payload s
  | .getSense tag payload => Sys2Proof.Machine.execGetSense tag payload s
  | .loadThermistor tag payload => Sys2Proof.Machine.execLoadThermistor tag payload s
  | .convertNow tag payload => Sys2Proof.Machine.execConvertNow tag payload s
  | .setBrightness tag payload => Sys2Proof.Machine.execSetBrightness tag payload s
  | .getBrightness tag payload => Sys2Proof.Machine.execGetBrightness tag payload s
  | .loadCurve tag payload => Sys2Proof.Machine.execLoadCurve tag payload s
  | .setLamp tag payload => Sys2Proof.Machine.execSetLamp tag payload s
  | .getLamp tag payload => Sys2Proof.Machine.execGetLamp tag payload s
  | .lampClear tag payload => Sys2Proof.Machine.execLampClear tag payload s
  | .setMotion tag payload => Sys2Proof.Machine.execSetMotion tag payload s
  | .getMotion tag payload => Sys2Proof.Machine.execGetMotion tag payload s
  | .readDrop tag payload => Sys2Proof.Machine.execReadDrop tag payload s
  | .eraseDrops tag payload => Sys2Proof.Machine.execEraseDrops tag payload s
  | .setPlatform tag payload => Sys2Proof.Machine.execSetPlatform tag payload s
  | .setNoticeMask tag payload => Sys2Proof.Machine.execSetNoticeMask tag payload s
  | .getStatus tag payload => Sys2Proof.Machine.execGetStatus tag payload s
  | .getIdent tag payload => Sys2Proof.Machine.execGetIdent tag payload s
  | .resetRequest tag payload => Sys2Proof.Machine.execResetRequest tag payload s
  | .monitorSample r => Sys2Proof.Machine.execMonitorSample r s
  | .emptyTimerExpiry bay => Sys2Proof.Machine.execEmptyTimerExpiry bay s
  | .blankingEnd path => Sys2Proof.Machine.execBlankingEnd path s
  | .retryTimerExpiry path => Sys2Proof.Machine.execRetryTimerExpiry path s
  | .goodCloseInterval path => Sys2Proof.Machine.execGoodCloseInterval path s
  | .startUpIntervalEnd => Sys2Proof.Machine.execStartUpIntervalEnd s
  | .deadTimeExpiry => Sys2Proof.Machine.execDeadTimeExpiry s
  | .overlapTimerExpiry => Sys2Proof.Machine.execOverlapTimerExpiry s
  | .lossDeclared r => Sys2Proof.Machine.execLossDeclared r s
  | .preemptionTimerExpiry source => Sys2Proof.Machine.execPreemptionTimerExpiry source s
  | .busLowActivate r => Sys2Proof.Machine.execBusLowActivate r s
  | .busLowRecovery => Sys2Proof.Machine.execBusLowRecovery s
  | .buttonPress bay => Sys2Proof.Machine.execButtonPress bay s
  | .latchSenseChange bay pos => Sys2Proof.Machine.execLatchSenseChange bay pos s
  | .releaseWindowExpiry bay => Sys2Proof.Machine.execReleaseWindowExpiry bay s
  | .latchFaultTimerExpiry bay => Sys2Proof.Machine.execLatchFaultTimerExpiry bay s
  | .latchStuckTimerExpiry bay => Sys2Proof.Machine.execLatchStuckTimerExpiry bay s
  | .lightConversionEnd edges => Sys2Proof.Machine.execLightConversionEnd edges s
  | .thermistorConversionEnd count => Sys2Proof.Machine.execThermistorConversionEnd count s
  | .thermistorTimeout => Sys2Proof.Machine.execThermistorTimeout s
  | .channelStale channel => Sys2Proof.Machine.execChannelStale channel s
  | .frameStart time => Sys2Proof.Machine.execFrameStart time s
  | .frameTimeout => Sys2Proof.Machine.execFrameTimeout s
  | .periodStart => Sys2Proof.Machine.execPeriodStart s
  | .stringMeasurement delivered r => Sys2Proof.Machine.execStringMeasurement delivered r s
  | .stringFaultConfirm delivered r => Sys2Proof.Machine.execStringFaultConfirm delivered r s
  | .sampleEvent => Sys2Proof.Machine.execSampleEvent s
  | .frameEnd f => Sys2Proof.Machine.execFrameEnd f s
  | .linkLostEntry f => Sys2Proof.Machine.execLinkLostEntry f s
  | .linkRecovery f => Sys2Proof.Machine.execLinkRecovery f s
  | .fallQualified f => Sys2Proof.Machine.execFallQualified f s
  | .softLanding f => Sys2Proof.Machine.execSoftLanding f s
  | .fallTimeout f => Sys2Proof.Machine.execFallTimeout f s
  | .impactExit f => Sys2Proof.Machine.execImpactExit f s
  | .settled f => Sys2Proof.Machine.execSettled f s
  | .settleTimeout f => Sys2Proof.Machine.execSettleTimeout f s
  | .blindHoldEnd f => Sys2Proof.Machine.execBlindHoldEnd f s
  | .traceFreeze f => Sys2Proof.Machine.execTraceFreeze f s
  | .rxCharacter char stop => Sys2Proof.Machine.execRxCharacter char stop s
  | .buttonInactive bay => Sys2Proof.Machine.execButtonInactive bay s

end Sys2Proof.Machine
end

