-- ==== Sys2Proof/Safety.lean ====
section
/-! DEFINITION. What a safe state of the part is, in the terms the statements use: the laws the manual says the part keeps. -/

namespace Sys2Proof.Safety

open Sys2Proof.Machine

/-- R166, R167, R168, R173, R174: what the link's stores hold. -/
structure LinkOk (s : State) : Prop where
  queue : s.slu.queue.length ≤ Config.maxQueue
  replies : s.slu.fifo.length + reservedSpace s ≤ Config.maxReplies
  outbox : ∀ k, s.slu.outbox.get k ≤ Config.maxOccurrences
  errors : s.slu.linkErrors ≤ Config.maxLinkErrors

/-- R176: nothing waits for a transmitter that is IDLE. -/
def TransmitterOk (s : State) : Prop := s.slu.tx = none → s.slu.fifo = [] ∧ ∀ k, s.slu.outbox.get k = 0

/-- R83, R99, R100, R101, R106, R107: the BRE's and the LMD's copies agree with what they are copies of, and the applied level
exceeds neither cap and is 0 outside RUN. -/
structure LampOk (s : State) : Prop where
  allowance : s.bre.allowance = s.spc.cap
  thermal : s.bre.thermalCap = thermalCapOf s.bre.settings (panelTemp s)
  cap : s.bre.cap = min s.bre.allowance s.bre.thermalCap
  yc : s.bre.yc ≤ s.bre.cap
  ycCopy : s.lmd.ycCopy = s.bre.yc
  capCopy : s.lmd.capCopy = s.bre.cap
  level : s.lmd.a ≤ s.lmd.capCopy
  dark : s.slu.platform ≠ .run → s.lmd.a = 0

/-- R25, R27, R30, R31: the state in which a path's gate is driven, by the phase of the switchover: `none` where it is off. -/
def drivenState (s : State) (p : Source) : Option PathState :=
  match s.spc.sw.phase with
  | .idle => if s.spc.feeding = some p then some .closed else none
  | .ovlClose => if s.spc.sw.fromSrc = some p then some .closed else if s.spc.sw.toSrc = p then some .closing else none
  | .ovlHold => if s.spc.sw.fromSrc = some p then some .closed else if s.spc.sw.toSrc = p then some .closed else none
  | .gapOpen => none
  | .gapDead => none
  | .gapClose => if s.spc.sw.toSrc = p then some .closing else none

/-- A path is as the switchover says: in that driven state, or with its gate off. -/
def PathOk (s : State) (p : Source) : Prop :=
  match drivenState s p with
  | some st => (s.path p).state = st
  | none => gateDriven s p = false

/-- R25, R27: every path is as the switchover says; in flight, the feeding source is the from source, which is not the to
source. -/
structure PathsOk (s : State) : Prop where
  path : ∀ p, PathOk s p
  feeding : inFlight s = true → s.spc.feeding = s.spc.sw.fromSrc
  apart : inFlight s = true → s.spc.sw.fromSrc ≠ some s.spc.sw.toSrc

/-- R56: a latch is commanded unlocked exactly while its bay is GRANTED, and then the bay's path is open, the other latch is
commanded locked and the motion phase is STILL. -/
structure LatchOk (s : State) (bay : Bay) : Prop where
  granted : (s.latch bay).commanded = .unlocked ↔ (s.latch bay).release = .granted
  opened : (s.latch bay).commanded = .unlocked → gateDriven s (baySource bay) = false
  other : (s.latch bay).commanded = .unlocked → (s.latch (otherBay bay)).commanded = .locked
  still : (s.latch bay).commanded = .unlocked → s.ddt.phase = .still

/-- R27, R56: the paths and both latches. -/
structure SupplyOk (s : State) : Prop where
  paths : PathsOk s
  latches : ∀ bay, LatchOk s bay

/-- R148, R153, R154: at most 8 closed records, their sequence numbers ascending and below the record in progress's, and that
below the next; in STILL no record is in progress. -/
structure RecordsOk (d : Ddt) : Prop where
  count : d.table.length ≤ Config.maxRecords
  ascending : (d.table.map (fun r => r.core.sequence)).Pairwise (· < ·)
  closed : ∀ r ∈ d.table, r.core.sequence < d.nextSequence
  inProgress : ∀ o, d.record = some o → o.sequence < d.nextSequence ∧ ∀ r ∈ d.table, r.core.sequence < o.sequence
  still : d.phase = .still → d.record = none

/-- R132, R133, R135: the ring, the history and the runs. -/
structure PortOk (m : Mpt) : Prop where
  ring : m.ring.length ≤ Config.ringSize
  history : m.history.length = Config.historyLength
  rejectedRun : m.rejectedRun ≤ Config.lostRun
  recoveryRun : m.recoveryRun ≤ Config.recoveryRun

/-- R45, R46: the supply situation and the allowance cap are those of their inputs. -/
structure SituationOk (s : State) : Prop where
  situation : s.spc.situation = situationOf s
  cap : s.spc.cap = s.spc.settings.caps.get s.spc.situation

/-! ### Requests and replies -/

/-- The command that brings a request of a kind. -/
def command (k : ReqKind) (tag : Byte) (p : List Byte) : Instr :=
  match k with
  | .setPath => .setPath tag p
  | .getPath => .getPath tag p
  | .clearPath => .clearPath tag p
  | .setSupply => .setSupply tag p
  | .getSupply => .getSupply tag p
  | .selectSource => .selectSource tag p
  | .packInfo => .packInfo tag p
  | .releaseBay => .releaseBay tag p
  | .getLatch => .getLatch tag p
  | .setSense => .setSense tag p
  | .getSense => .getSense tag p
  | .loadThermistor => .loadThermistor tag p
  | .convertNow => .convertNow tag p
  | .setBrightness => .setBrightness tag p
  | .getBrightness => .getBrightness tag p
  | .loadCurve => .loadCurve tag p
  | .setLamp => .setLamp tag p
  | .getLamp => .getLamp tag p
  | .lampClear => .lampClear tag p
  | .setMotion => .setMotion tag p
  | .getMotion => .getMotion tag p
  | .readDrop => .readDrop tag p
  | .eraseDrops => .eraseDrops tag p
  | .setPlatform => .setPlatform tag p
  | .setNoticeMask => .setNoticeMask tag p
  | .getStatus => .getStatus tag p
  | .getIdent => .getIdent tag p
  | .reset => .resetRequest tag p

/-- R169: a request that arrives is dispatched in its own event: no other waits, and a reply finds room. -/
structure Ready (s : State) : Prop where
  queue : s.slu.queue = []
  space : 1 ≤ freeSpace s
  transmitter : TransmitterOk s

/-- R179: a valid frame releases WAKE. -/
def heard (s : State) : State := { s with slu := { s.slu with wake := false } }

/-- R170: the reply of a kind, without the reason that FAILED alone carries. -/
def replyOf (k : ReqKind) (tag : Byte) (status : Status) (result : List Byte) : Reply :=
  { tag := tag, payload := replyPayload k.byte status none result }

/-- R173, R176: a reply is made: it joins the FIFO, or goes out at once on a transmitter that is IDLE. -/
def replied (s : State) (r : Reply) : State :=
  match s.slu.tx with
  | some _ => { s with slu := { s.slu with fifo := s.slu.fifo ++ [r] } }
  | none => { s with slu := { s.slu with tx := some (replyFrame r) } }

/-- The state a request leaves that only answers: WAKE released and the reply made. -/
def answered (k : ReqKind) (tag : Byte) (status : Status) (result : List Byte) (s : State) : State :=
  replied (heard s) (replyOf k tag status result)

/-- R174: a notice raised on a transmitter that is IDLE goes out at once; otherwise it waits. -/
def noticed (k : NoticeKind) (s : State) : State := arbitrate (raise k s)

/-- R172, R173, R176: between `s` and `t` a deferred reply was made: it is on an until then IDLE transmitter, or in the FIFO. -/
structure MadeReply (s t : State) (r : Reply) : Prop where
  sent : s.slu.tx = none → t.slu.tx = some (replyFrame r)
  waits : s.slu.tx ≠ none → r ∈ t.slu.fifo

/-! ### A monitor sample -/

/-- The voltage that a sample reads at a source, in mV. -/
def volts (r : Readings) : Source → Nat
  | .dcIn => r.vDc
  | .bayA => r.vA
  | .bayB => r.vB

/-- The current that a sample reads on a path, in mA. -/
def amps (r : Readings) : Source → Int
  | .dcIn => r.iDc
  | .bayA => r.iA
  | .bayB => r.iB

/-- The uptime at the next monitor sample (R180, log entry 1). -/
def nextUptime (s : State) : Uptime := if 10 ≤ s.slu.subMs + 1 then s.slu.uptime + 1 else s.slu.uptime

/-- R59, R60, R57: a latch record as a sample's time passes, a whole millisecond where `ms` says so; a counter waits one short of
the limit that its expiry reaches, and a stuck timer that has been taken holds (log entries 1, 2 and 36). -/
def aged (ms : Bool) (l : LatchRecord) : LatchRecord :=
  if ms then
    { l with
      faultTimer :=
        if l.commanded = .locked ∧ l.sensed = (if l.insecure then .locked else .unlocked) then min 199 (l.faultTimer + 1)
        else 0
      stuckTimer :=
        if l.commanded = .unlocked ∧ l.sensed = .locked then
          (if l.stuck = true ∧ l.stuckTimer = 200 then 200 else min 199 (l.stuckTimer + 1))
        else 0
      windowMs := if l.release = .granted then max 1 (l.windowMs - 1) else l.windowMs }
  else l

/-- R57: the battery of a GRANTED bay is removed at this sample: it was present and is not. -/
def Removed (r : Readings) (s : State) (bay : Bay) : Prop :=
  (s.latch bay).release = .granted ∧ present s (baySource bay) = true ∧ volts r (baySource bay) < 6000

/-- R44, R45, R53, R56 to R60: what a sample makes of a bay latch record, of pack info and of the low state. A release that is not
PENDING goes on, and its timers with the time; the removal of the battery locks the latch, ends the release and raises RELEASE; a
PENDING one waits, is granted or is refused. -/
structure SampledBay (r : Readings) (s t : State) (bay : Bay) : Prop where
  goesOn : (s.latch bay).release ≠ .pending → ¬Removed r s bay →
    t.latch bay = aged (decide (10 ≤ s.slu.subMs + 1)) (s.latch bay)
  removed : Removed r s bay →
    t.latch bay =
      { s.latch bay with
        commanded := .locked, faultTimer := 0, stuckTimer := 0, stuck := false, release := .idle, byButton := false
        byHost := false, cause := .none, windowMs := 0, lastEvent := .removed } ∧
    (s.slu.tx ≠ none → inMask s.slu.noticeMask .release = true →
      min 255 (s.slu.outbox.release + 1) ≤ t.slu.outbox.release)
  waits : (s.latch bay).release = .pending →
    let l := aged (decide (10 ≤ s.slu.subMs + 1)) (s.latch bay)
    t.latch bay = { l with cause := (t.latch bay).cause } ∨
    t.latch bay =
      { l with
        release := .granted, cause := .none, commanded := .unlocked, windowMs := 10000, faultTimer := 0, stuckTimer := 0
        lastEvent := .granted, hostOwed := (t.latch bay).hostOwed } ∨
    t.latch bay =
      { l with
        release := .idle, byButton := false, byHost := false, cause := .none, windowMs := 0, lastEvent := .refused
        hostOwed := (t.latch bay).hostOwed }
  gone : volts r (baySource bay) < 6000 → t.spc.packInfo.get bay = none ∧ t.spc.low.get bay = false
  low : 6000 ≤ volts r (baySource bay) →
    t.spc.low.get bay =
      if s.spc.feeding = some (baySource bay) ∧ s.spc.packInfo.get bay = none then
        (if min 65535 (volts r (baySource bay)) < s.spc.settings.lowMv then true
         else if s.spc.settings.lowMv + 200 ≤ min 65535 (volts r (baySource bay)) then false
         else s.spc.low.get bay)
      else s.spc.low.get bay

/-- R4, R18, R66: the times that a sample advances: a path's closed time, a bay's empty timer, which runs while the voltage is on
the other side of the empty threshold (300 mV above it to clear), and, each millisecond, a channel's age. -/
structure SampledTimes (r : Readings) (s t : State) : Prop where
  closed : ∀ p, (t.path p).state = .closed →
    (s.path p).state = .closed ∧
      (t.path p).closedTime =
        if (s.path p).closedTime = 100000 then 100000 else min 99999 ((s.path p).closedTime + 1)
  empty : ∀ bay, 6000 ≤ volts r (baySource bay) →
    (t.path (baySource bay)).isEmpty = (s.path (baySource bay)).isEmpty ∧
      (t.path (baySource bay)).emptyTimer =
        if (if (s.path (baySource bay)).isEmpty then
              decide (s.spc.settings.emptyMv + 300 ≤ min 65535 (volts r (baySource bay)))
            else decide (min 65535 (volts r (baySource bay)) < s.spc.settings.emptyMv)) then
          some ((s.path (baySource bay)).emptyTimer.elim 0 (fun n => min 9999 (n + 1)))
        else none
  cleared : ∀ bay, volts r (baySource bay) < 6000 →
    (t.path (baySource bay)).isEmpty = false ∧ (t.path (baySource bay)).emptyTimer = none
  ages : ∀ c,
    (t.scv.records.get c).age =
      if 10 ≤ s.slu.subMs + 1 ∧ (s.scv.records.get c).valid = true then
        (if (s.scv.records.get c).stale then min 65535 ((s.scv.records.get c).age + 1)
         else min 2000 ((s.scv.records.get c).age + 1))
      else (s.scv.records.get c).age

/-- R13: the record that a trip leaves. -/
def tripped (r : PathRecord) (cause : FaultCause) (current : Int) (threshold step : Nat) (up : Uptime) (escalate : Bool) :
    PathRecord :=
  { r with
    state := if r.settings.tripLimit ≤ min 7 (r.tripCount + 1) then .lockedOut else .tripped
    blanking := none
    closedTime := 0
    tripCount := min 7 (r.tripCount + 1)
    effSlew :=
      if escalate then (match r.effSlew with | .fast => .medium | .medium => .slow | .slow => .slow) else r.effSlew
    retry :=
      if min 7 (r.tripCount + 1) < r.settings.tripLimit ∧ r.settings.strategy = .auto then some r.settings.retryMs
      else none
    fault :=
      { cause := cause, current := current, threshold := threshold, step := step, uptime := up, read := false } }

/-- What one string's sink reports in a measurement. -/
def readingOf (r : StringReadings) : LedString → StringReading
  | .s1 => r.s1
  | .s2 => r.s2
  | .s3 => r.s3
  | .s4 => r.s4

/-- R110, R111: the level that a dimming update leaves. -/
def updatedA (s : State) : Nat :=
  if s.slu.platform = .run then
    (if s.lmd.runEntry then s.lmd.ycCopy
     else if s.lmd.a < s.lmd.ycCopy then min s.lmd.ycCopy (s.lmd.a + s.lmd.settings.upStep)
     else if s.lmd.ycCopy < s.lmd.a then max s.lmd.ycCopy (s.lmd.a - s.lmd.settings.downStep)
     else s.lmd.a)
  else 0

/-- R110 to R113: a dimming update has been made between `s` and `t`: A has moved, and its drive is staged. -/
structure DimmingUpdate (s t : State) : Prop where
  level : t.lmd.a = updatedA s
  staged : t.lmd.staged = driveFor s.lmd.settings (updatedA s)
  pending : t.lmd.stagedPending = decide (t.lmd.staged ≠ t.lmd.inForce)
  entry : s.slu.platform = .run → t.lmd.runEntry = false

/-- R129, R135: a frame that is not accepted hands on the last values as a held sample, if the port is primed. -/
structure HeldSample (s t : State) : Prop where
  primed : s.mpt.primed = true →
    t.mpt.ring =
      ({ x := s.mpt.last.x, y := s.mpt.last.y, z := s.mpt.last.z, held := true, clipped := s.mpt.last.clipped
         jump := false } :: s.mpt.ring).take 1024
  unprimed : s.mpt.primed = false → t.mpt.ring = s.mpt.ring ∧ t.ddt.lastM2 = s.ddt.lastM2
  accepted : t.mpt.counters.accepted = s.mpt.counters.accepted

/-! ### A sample in the DDT (R139 to R154) -/

/-- R127 to R129: a frame with a good check, no MBZ bit and no flag, whose count is not that of the last frame. -/
def FrameAccepted (m : Mpt) (f : AccelFrame) : Prop :=
  f.check = f.status ^^^ f.xHi ^^^ f.xLo ^^^ f.yHi ^^^ f.yLo ^^^ f.zHi ^^^ f.zLo ^^^ 0xFF ∧
  f.status.getLsbD 0 = false ∧ f.status.getLsbD 1 = false ∧ f.status.getLsbD 2 = false ∧
  m.lastCount ≠ some (f.status.toNat / 16)

/-- R128, R129: the sample of a frame: its own values when it is accepted, the last values held otherwise, and none from a port
that is not primed. -/
structure SampleOf (m : Mpt) (f : AccelFrame) (o : Option Sample) : Prop where
  accepted : FrameAccepted m f → ∃ jump, o = some
    { x := (f.xHi ++ f.xLo).toInt, y := (f.yHi ++ f.yLo).toInt, z := (f.zHi ++ f.zLo).toInt, held := false
      clipped := f.status.getLsbD 3, jump := jump }
  held : ¬FrameAccepted m f → o =
    if m.primed then
      some { x := m.last.x, y := m.last.y, z := m.last.z, held := true, clipped := m.last.clipped, jump := false }
    else none

/-- R139: the squared magnitude a sample carries: a held sample repeats the last. -/
def magnitude (d : Ddt) (e : Sample) : Nat := if e.held then d.lastM2 else e.x.natAbs ^ 2 + e.y.natAbs ^ 2 + e.z.natAbs ^ 2

/-- R139, R140: strictly below the free-fall threshold. -/
def below (d : Ddt) (m2 : Nat) : Prop := m2 < (d.settings.fallMg * 2048 / 1000) ^ 2

/-- R139, R140: strictly above the impact threshold. -/
def above (d : Ddt) (m2 : Nat) : Prop := (d.settings.impactTenths * 2048 / 10) ^ 2 < m2

/-- R140: a time in ms as a count of samples. -/
def inSamples (c : MotionContext) (ms : Nat) : Nat := max 1 (ms * c.rate.hz / 1000)

/-- R145: the settle run after a sample: 0.75 g to 1.25 g is inside the band. -/
def settleRunAfter (d : Ddt) (m2 : Nat) : Nat := if 2359296 ≤ m2 ∧ m2 ≤ 6553600 then d.settleRun + 1 else 0

/-- R142 to R146, R159: a phase as it is entered: every counter of the phases is 0. -/
def atPhase (p : MotionPhase) (d : Ddt) : Ddt :=
  { d with
    phase := p, blind := false, fallRun := 0, fallStart := none, fallIntervals := 0, landingRun := 0, fallingCount := 0
    exitCount := 0, settleRun := 0, settleLimit := 0, blindCount := 0 }

/-- R148, R152: a record in progress at each later sample: a held one is counted, and the trace count moves on; at 23 the trace is
frozen from the ring, with the entries of ages 24 to 31 that exist as its lead. -/
def noted (ring : List Sample) (e : Sample) (o : OpenRecord) : OpenRecord :=
  { o with
    heldCount := if e.held then min 65535 (o.heldCount + 1) else o.heldCount
    traceCount := o.traceCount.bind (fun n => if n + 1 < 23 then some (n + 1) else none)
    trace :=
      if o.traceCount.any (fun n => decide (23 ≤ n + 1)) then
        some { lead := (ring.take 32).length - 24, entries := (ring.take 32).reverse }
      else o.trace }

/-- R150, R152: a sample taken in IMPACT is offered as a peak: the first, and any strictly greater, becomes it and restarts the
trace count. Its clipped flag counts toward PEAK_CLIPPED (log entry 35). -/
def offered (m2 : Nat) (e : Sample) (o : OpenRecord) : OpenRecord :=
  { o with
    peakClipped := o.peakClipped || e.clipped
    peak :=
      if o.peak.all (fun p => decide (p.m2 < m2)) then some { m2 := m2, x := e.x, y := e.y, z := e.z } else o.peak
    traceCount := if o.peak.all (fun p => decide (p.m2 < m2)) then some 0 else o.traceCount }

/-- R151: the pre-fall attitude: the mean, toward minus infinity, of the up to 64 entries before the fall start. -/
def attitude (ring : List Sample) (qualify : Nat) : Option Attitude :=
  let es := (ring.drop qualify).take 64
  if es = [] then none
  else
    some
      { x := (es.map (·.x)).sum / (es.length : Int), y := (es.map (·.y)).sum / (es.length : Int)
        z := (es.map (·.z)).sum / (es.length : Int), samples := es.length }

/-- R148: the record that a sample opens, while there are sequence numbers. -/
def opening (c : MotionContext) (d : Ddt) (e : Sample) (kind : Option DropKind) (impacts : Nat) (a : Option Attitude) :
    Option OpenRecord :=
  if d.nextSequence ≤ 4294967295 then
    some
      { sequence := d.nextSequence, kind := kind, uptime := c.uptime, feeding := c.feeding, inFlight := c.inFlight
        deferred := c.deferred, fallUs := none, impacts := impacts, peak := none, peakClipped := false, attitude := a
        heldCount := if e.held then 1 else 0, linkLost := false, unsettled := false, blind := false, traceCount := none
        trace := none }
  else d.record

/-- R148: the next sequence number after an opening. -/
def nextAfterOpening (d : Ddt) : Nat := if d.nextSequence ≤ 4294967295 then d.nextSequence + 1 else d.nextSequence

/-- R153, R154: the phase returns to STILL, and the record in progress, if there is one, becomes the newest of the table; with 8
closed records the oldest makes room, and one that was not read marks the new one displaced. -/
def closing (d : Ddt) : Ddt :=
  { atPhase .still d with
    record := none
    table :=
      match d.record with
      | none => d.table
      | some o =>
        (if d.table.length < 8 then d.table else d.table.drop 1) ++
          [{ core := o, read := false
             displaced := decide (8 ≤ d.table.length) && d.table.head?.any (fun x => !x.read) }] }

/-- R139, R148, R152: what the DDT notes of a sample in every phase: its M2, and what a record in progress counts. -/
def seen (c : MotionContext) (e : Sample) (d : Ddt) : Ddt :=
  { d with lastM2 := magnitude d e, record := d.record.map (noted c.ring e) }

/-- R142, R148, R151: a sample in STILL, on the DDT `d` whose last M2 is already the sample's. -/
structure StillRows (c : MotionContext) (m2 : Nat) (e : Sample) (d t : Ddt) : Prop where
  passed : e.held = true → c.link = .lost → t = d
  shock : ¬(e.held = true ∧ c.link = .lost) → above d m2 →
    t = { atPhase .impact d with
          record := (opening c d e (some .shock) 1 none).map (offered m2 e), nextSequence := nextAfterOpening d }
  falls : ¬(e.held = true ∧ c.link = .lost) → ¬above d m2 → below d m2 →
    inSamples c d.settings.qualifyMs ≤ d.fallRun + 1 →
    t = { atPhase .falling d with
          fallIntervals := inSamples c d.settings.qualifyMs - 1
          record := opening c d e none 0 (attitude c.ring (inSamples c d.settings.qualifyMs))
          nextSequence := nextAfterOpening d }
  runs : ¬(e.held = true ∧ c.link = .lost) → ¬above d m2 → below d m2 →
    d.fallRun + 1 < inSamples c d.settings.qualifyMs →
    t = { d with fallRun := d.fallRun + 1, fallStart := if d.fallRun = 0 then some e else d.fallStart }
  breaks : ¬(e.held = true ∧ c.link = .lost) → ¬above d m2 → ¬below d m2 → t = { d with fallRun := 0, fallStart := none }

/-- R143, R149: a sample in FALLING; every row has added its interval. A blow and a timed-out fall end the fall at this sample, a
soft landing two samples before it. -/
structure FallingRows (c : MotionContext) (m2 : Nat) (e : Sample) (d t : Ddt) : Prop where
  blow : above d m2 →
    t = { atPhase .impact d with
          record := d.record.map fun o =>
            offered m2 e
              { o with
                kind := some .drop, fallUs := some ((d.fallIntervals + 1) * c.rate.intervalUs)
                impacts := min 255 (o.impacts + 1) } }
  lands : ¬above d m2 → ¬below d m2 → 3 ≤ d.landingRun + 1 →
    t = { atPhase .settling d with
          record := d.record.map fun o =>
            { o with kind := some .softLanding, fallUs := some ((d.fallIntervals + 1 - 2) * c.rate.intervalUs) } }
  timesOut : ¬above d m2 → (below d m2 ∨ d.landingRun + 1 < 3) → inSamples c 2000 ≤ d.fallingCount + 1 →
    t = { atPhase .settling d with
          record := d.record.map fun o =>
            { o with kind := some .fallTimeout, fallUs := some ((d.fallIntervals + 1) * c.rate.intervalUs) } }
  goesOn : ¬above d m2 → (below d m2 ∨ d.landingRun + 1 < 3) → d.fallingCount + 1 < inSamples c 2000 →
    ((below d m2 →
        t = { d with fallIntervals := d.fallIntervals + 1, landingRun := 0, fallingCount := d.fallingCount + 1 }) ∧
      (¬below d m2 →
        t = { d with
              fallIntervals := d.fallIntervals + 1, landingRun := d.landingRun + 1, fallingCount := d.fallingCount + 1 }))

/-- R144, R150: a later sample in IMPACT. -/
structure ImpactRows (c : MotionContext) (m2 : Nat) (e : Sample) (d t : Ddt) : Prop where
  blow : above d m2 → t = { d with record := d.record.map (offered m2 e), exitCount := 0 }
  leaves : ¬above d m2 → inSamples c 20 ≤ d.exitCount + 1 →
    t = { atPhase .settling d with record := d.record.map (offered m2 e) }
  quiet : ¬above d m2 → d.exitCount + 1 < inSamples c 20 →
    t = { d with record := d.record.map (offered m2 e), exitCount := d.exitCount + 1 }

/-- R145, R153: a sample in SETTLING without the blind flag. -/
structure SettlingRows (c : MotionContext) (m2 : Nat) (e : Sample) (d t : Ddt) : Prop where
  blow : above d m2 →
    t = { atPhase .impact d with
          record := d.record.map fun o =>
            offered m2 e
              { o with
                impacts := min 255 (o.impacts + 1)
                kind := if o.kind = some .softLanding ∨ o.kind = some .fallTimeout then some .drop else o.kind } }
  settles : ¬above d m2 → inSamples c d.settings.settleMs ≤ settleRunAfter d m2 → t = closing d
  givesUp : ¬above d m2 → settleRunAfter d m2 < inSamples c d.settings.settleMs → inSamples c 10000 ≤ d.settleLimit + 1 →
    t = closing { d with record := d.record.map fun o => { o with unsettled := true } }
  goesOn : ¬above d m2 → settleRunAfter d m2 < inSamples c d.settings.settleMs → d.settleLimit + 1 < inSamples c 10000 →
    t = { d with settleRun := settleRunAfter d m2, settleLimit := d.settleLimit + 1 }

/-- R146, R153: a sample in the blind settle, which is compared with no threshold. -/
structure BlindRows (c : MotionContext) (d t : Ddt) : Prop where
  ends : inSamples c 2000 ≤ d.blindCount + 1 →
    t = closing { d with record := d.record.map fun o => { o with linkLost := decide (c.link = .lost) } }
  goesOn : d.blindCount + 1 < inSamples c 2000 → t = { d with blindCount := d.blindCount + 1 }

/-- R139 to R146: the DDT takes a sample: what it notes in every phase, and the rows of its phase. -/
structure SampleTaken (c : MotionContext) (e : Sample) (d t : Ddt) : Prop where
  still : d.phase = .still → StillRows c (magnitude d e) e (seen c e d) t
  falling : d.phase = .falling → FallingRows c (magnitude d e) e (seen c e d) t
  impact : d.phase = .impact → ImpactRows c (magnitude d e) e (seen c e d) t
  settling : d.phase = .settling → d.blind = false → SettlingRows c (magnitude d e) e (seen c e d) t
  blind : d.phase = .settling → d.blind = true → BlindRows c (seen c e d) t

/-- R146: a LOST link outside STILL makes the blind settle, after the sample, if any; the fall of a phase that was FALLING ends
there. -/
structure LinkSeen (c : MotionContext) (d t : Ddt) : Prop where
  blinded : c.link = .lost → d.phase ≠ .still → d.blind = false →
    t = { atPhase .settling d with
          blind := true
          record := d.record.map fun o =>
            { o with
              blind := true
              kind := if d.phase = .falling then some .drop else o.kind
              fallUs := if d.phase = .falling then some (d.fallIntervals * c.rate.intervalUs) else o.fallUs } }
  kept : c.link ≠ .lost ∨ d.phase = .still ∨ d.blind = true → t = d

/-- R142 to R146, R152, R153: when a sample brings each event about. -/
structure EventsAre (c : MotionContext) (e : Sample) (d : Ddt) (es : List MotionEvent) : Prop where
  fallQualified : es.contains .fallQualified = true ↔
    d.phase = .still ∧ ¬(e.held = true ∧ c.link = .lost) ∧ ¬above d (magnitude d e) ∧ below d (magnitude d e) ∧
      inSamples c d.settings.qualifyMs ≤ d.fallRun + 1
  softLanding : es.contains .softLanding = true ↔
    d.phase = .falling ∧ ¬above d (magnitude d e) ∧ ¬below d (magnitude d e) ∧ 3 ≤ d.landingRun + 1
  fallTimeout : es.contains .fallTimeout = true ↔
    d.phase = .falling ∧ ¬above d (magnitude d e) ∧ (below d (magnitude d e) ∨ d.landingRun + 1 < 3) ∧
      inSamples c 2000 ≤ d.fallingCount + 1
  impactExit : es.contains .impactExit = true ↔
    d.phase = .impact ∧ ¬above d (magnitude d e) ∧ inSamples c 20 ≤ d.exitCount + 1
  settled : es.contains .settled = true ↔
    d.phase = .settling ∧ d.blind = false ∧ ¬above d (magnitude d e) ∧
      inSamples c d.settings.settleMs ≤ settleRunAfter d (magnitude d e)
  settleTimeout : es.contains .settleTimeout = true ↔
    d.phase = .settling ∧ d.blind = false ∧ ¬above d (magnitude d e) ∧
      settleRunAfter d (magnitude d e) < inSamples c d.settings.settleMs ∧ inSamples c 10000 ≤ d.settleLimit + 1
  blindHoldEnd : es.contains .blindHoldEnd = true ↔
    d.phase = .settling ∧ d.blind = true ∧ inSamples c 2000 ≤ d.blindCount + 1
  recordClosed : es.contains .recordClosed = true ↔
    d.record ≠ none ∧
      (es.contains .settled = true ∨ es.contains .settleTimeout = true ∨ es.contains .blindHoldEnd = true)
  traceFrozen : es.contains .traceFrozen = true ↔
    ∃ o n, d.record = some o ∧ o.traceCount = some n ∧ 23 ≤ n + 1

/-- What the end of a conversion and a stale channel leave alone. -/
structure SenseFrame (s t : State) : Prop where
  latches : t.ltc = s.ltc
  port : t.mpt = s.mpt
  detector : t.ddt = s.ddt
  pending : t.pending = s.pending
  supply : t.spc.settings = s.spc.settings
  brightness : t.bre.settings = s.bre.settings
  lamp : t.lmd.settings = s.lmd.settings
  queue : t.slu.queue = s.slu.queue
  platform : t.slu.platform = s.slu.platform

/-- R86: the usable flags after the publication of a light conversion; `stored`: the conversion stored its value. The rear flag is
clear while the rear weight is 0, and the other channel's flag is kept. -/
structure UsableWritten (c : Channel) (stored : Bool) (e g : Bre) : Prop where
  front : g.frontUsable = if c = .alsFront then stored else e.frontUsable
  rear : g.rearUsable = if c = .alsRear then stored && decide (e.settings.rearWeight ≠ 0) else e.rearUsable

/-- R87: E from the usable channels, of lux `front` and `rear`. -/
def combinedLux (g : Bre) (front rear : Nat) : Nat :=
  if g.frontUsable then (if g.rearUsable then max front (rear * g.settings.rearWeight / 256) else front)
  else rear * g.settings.rearWeight / 256

/-- R90 to R93: the filter after an event in which E was computed: held by motion hold; seeded by the first L; and otherwise one
step, after which Lused follows when Lf is a deadband away. -/
structure FilterStepped (e g : Bre) : Prop where
  held : e.motionHold = true → g.seeded = e.seeded ∧ g.lf = e.lf ∧ g.lused = e.lused
  seeds : e.motionHold = false → e.seeded = false → g.seeded = true ∧ g.lf = g.level ∧ g.lused = g.level
  steps : e.motionHold = false → e.seeded = true →
    g.seeded = true ∧
      g.lf =
        (if e.lf < g.level then e.lf + max 1 ((g.level - e.lf) * e.settings.upRate / 16)
         else if g.level < e.lf then e.lf - max 1 ((e.lf - g.level) * e.settings.downRate / 16)
         else e.lf) ∧
      g.lused = if e.settings.deadband ≤ (g.lf - e.lused) + (e.lused - g.lf) then g.lf else e.lused

/-- R96 to R98: Yb and CLAMPED by the mode in force. -/
structure BiasApplied (e g : Bre) : Prop where
  auto : e.settings.mode = .auto →
    g.yb = min 1000 (((g.y : Int) * (16 + e.settings.bias)) / 16).toNat ∧
      (g.clamped = true ↔ 1000 < (((g.y : Int) * (16 + e.settings.bias)) / 16).toNat)
  fixed : e.settings.mode = .fixed → g.yb = e.settings.fixedLevel ∧ g.clamped = false
  frozen : e.settings.mode = .frozen → g.yb = e.yb ∧ g.clamped = e.clamped

/-- R83, R86 to R94, R96, R100, R101: what the publication of a light conversion leaves in the BRE, between `e` and `g`, with the
light channels at `front` and `rear` lux: with a usable channel every stage runs; with none AMBIENT_UNKNOWN is set and the rest of
the pipeline holds. -/
structure LightPublished (c : Channel) (stored : Bool) (front rear : Nat) (e g : Bre) : Prop where
  usable : UsableWritten c stored e g
  settings : g.settings = e.settings ∧ g.curve = e.curve ∧ g.motionHold = e.motionHold ∧ g.frozen = e.frozen ∧
    g.allowance = e.allowance ∧ g.panelKnown = e.panelKnown ∧ g.thermalCap = e.thermalCap
  known : g.frontUsable = true ∨ g.rearUsable = true →
    g.ambientUnknown = false ∧ g.lux = combinedLux g front rear ∧ g.level = logLevel g.lux ∧ FilterStepped e g ∧
      g.y = (if g.seeded then curveAt e.curve g.lused else e.settings.fallback) ∧ BiasApplied e g ∧
      g.cap = min e.allowance e.thermalCap ∧ g.yc = min (max g.yb e.settings.ymin) g.cap
  unknown : g.frontUsable = false → g.rearUsable = false →
    g = { e with frontUsable := false, rearUsable := false, ambientUnknown := true }

/-- R117: the record of a string at a period start, from that of the period that ends: in a period that was not measured the
diagnostic strategy says what becomes of the last measurement of an ENABLED string. -/
def periodString (l : Lmd) (r : StringRecord) : StringRecord :=
  { r with
    meas :=
      if l.measured = false ∧ r.state = .enabled ∧ l.settings.strategy = .reportUnmeasured then .notMeasured else r.meas
    driven := decide (r.state = .enabled) }

/-- R109, R113, R115 to R117: a period has started between `s` and `t`: it is neither measured nor changed yet, and every ENABLED
string is driven in it. -/
structure PeriodStarted (s t : State) : Prop where
  fresh : t.lmd.measured = false ∧ t.lmd.changed = false
  strings : ∀ i, t.lmd.strings.get i = periodString s.lmd (s.lmd.strings.get i)

/-! ### What a command of the supply leaves alone -/

/-- A path record whose state, blanking window, over count or closed time alone may have changed. -/
structure SamePath (r t : PathRecord) : Prop where
  settings : t.settings = r.settings
  voltage : t.voltage = r.voltage
  current : t.current = r.current
  sampleUptime : t.sampleUptime = r.sampleUptime
  isEmpty : t.isEmpty = r.isEmpty
  emptyTimer : t.emptyTimer = r.emptyTimer
  effSlew : t.effSlew = r.effSlew
  tripCount : t.tripCount = r.tripCount
  retry : t.retry = r.retry
  fault : t.fault = r.fault

/-- What a change of the allowance cap alone changes in the BRE and the LMD (R100, R114). -/
structure CapFrame (u t : State) : Prop where
  bre : t.bre = { u.bre with allowance := t.bre.allowance, cap := t.bre.cap, yc := t.bre.yc }
  lmd : t.lmd =
    { u.lmd with
      ycCopy := t.lmd.ycCopy, capCopy := t.lmd.capCopy, a := t.lmd.a, inForce := t.lmd.inForce, staged := t.lmd.staged
      stagedPending := t.lmd.stagedPending, changed := t.lmd.changed }

/-- R27, R29 to R31: the switchover record that a start to `q` writes. -/
def startedRecord (u : State) (reason : SwReason) (q : Source) : Switchover :=
  { reason := reason, fromSrc := u.spc.feeding, toSrc := q, mode := chooseMode u u.spc.feeding q
    phase :=
      match chooseMode u u.spc.feeding q, u.spc.feeding with
      | .overlap, _ => .ovlClose
      | .gap, some _ => .gapDead
      | .gap, none => .gapClose
    tried := [], outcome := u.spc.sw.outcome }

/-- R32, R34: an EMPTY or HOT that the feeding bay holds, for `reason`, has the target `x` at a release request for `bay`, which is
PENDING by then and no target itself. -/
def HeldFirst (s : State) (bay : Bay) (reason : SwReason) (x : Source) : Prop :=
  canStart s = true ∧ heldCondition s = some reason ∧ chooseTarget s s.spc.feeding [baySource bay] = some x

/-- R36: the earliest source in the preference order whose running timer holds at 500 ms. -/
def preemptDue (u : State) : Option Source :=
  u.spc.settings.order.find? (fun p => preemptRuns u p && u.spc.preempt.get p == some 5000)

/-- R34, R36, R47: what an examination of the triggers must do. A feeding bay that is EMPTY or HOT starts its switchover, and
without a target sets the sole-source flag; with NONE feeding, START takes the target
there is; in STILL, a preemption timer that holds starts PREEMPT. Nothing else starts a switchover. -/
structure TriggersTaken (u t : State) : Prop where
  held : ∀ reason q, canStart u = true → heldCondition u = some reason → chooseTarget u u.spc.feeding [] = some q →
    t.spc.sw = startedRecord u reason q ∧ t.spc.soleSource = false
  alone : ∀ reason, canStart u = true → heldCondition u = some reason → chooseTarget u u.spc.feeding [] = none →
    t.spc.sw = u.spc.sw ∧ t.spc.soleSource = true
  start : ∀ q, canStart u = true → u.spc.feeding = none → chooseTarget u none [] = some q →
    t.spc.sw = startedRecord u .start q
  preempt : ∀ q, canStart u = true → heldCondition u = none → u.spc.feeding ≠ none → u.ddt.phase = .still →
    preemptDue u = some q → t.spc.sw = startedRecord u .preempt q
  idle : canStart u = true → heldCondition u = none →
    (u.spc.feeding = none ∧ chooseTarget u none [] = none ∨
      u.spc.feeding ≠ none ∧ (u.ddt.phase ≠ .still ∨ preemptDue u = none)) → t.spc.sw = u.spc.sw
  waits : canStart u = false → t.spc.sw = u.spc.sw ∧ (heldCondition u ≠ none → t.spc.soleSource = u.spc.soleSource)
  notHeld : heldCondition u = none → t.spc.soleSource = false

/-- R34, R46: the SUPPLY_CHANGE raises of an examination: one when the sole-source flag is set from clear, one when the situation
changes. -/
def SupplyRaises (u t : State) : Prop :=
  inMask u.slu.noticeMask .supplyChange = true → u.slu.outbox.supplyChange ≤ 255 →
    t.slu.outbox.supplyChange =
      min 255
        (u.slu.outbox.supplyChange + (t.spc.soleSource && !u.spc.soleSource).toNat +
          (t.spc.situation != u.spc.situation).toNat)

/-- R79: the SENSE_FAULT raises between `s` and `t`: one when `new` says so, and none otherwise. -/
def SenseRaises (new : Bool) (s t : State) : Prop :=
  s.slu.tx ≠ none → inMask s.slu.noticeMask .senseFault = true →
    t.slu.outbox.senseFault = if new then min 255 (s.slu.outbox.senseFault + 1) else s.slu.outbox.senseFault

/-- R65, R99, R100, R101: the BRE takes a record of TH_PANEL. -/
structure PanelTaken (r : ChannelRecord) (s t : State) : Prop where
  supply : t.spc = s.spc
  known : t.bre.panelKnown = (r.valid && !r.stale)
  thermal : t.bre.thermalCap = thermalCapOf s.bre.settings (if r.valid && !r.stale then some r.value else none)
  cap : t.bre.cap = min s.bre.allowance t.bre.thermalCap
  yc : t.bre.yc = min (max s.bre.yb s.bre.settings.ymin) t.bre.cap

/-- R3, R32, R34, R65: the SPC takes the record of a bay's channel that the SCV has put in `u`, and the triggers are examined, HOT
among them; a bay is HOT from 70.0 °C on. -/
structure BayTempTaken (c : Channel) (u t : State) : Prop where
  triggers : TriggersTaken u t
  situation : SituationOk t
  temperature : ∀ bay, (if bay = .a then Channel.thBayA else .thBayB) = c →
    (hot t (baySource bay) = true ↔
      (u.scv.records.get c).valid = true ∧ (u.scv.records.get c).stale = false ∧ 700 ≤ (u.scv.records.get c).value) ∧
    (hot t (baySource bay) = true → u.spc.feeding = some (baySource bay) → (u.path (baySource bay)).isEmpty = false →
      canStart u = true →
      (∀ q, chooseTarget u u.spc.feeding [] = some q → t.spc.sw = startedRecord u .hot q) ∧
      (chooseTarget u u.spc.feeding [] = none → t.spc.sw = u.spc.sw ∧ t.spc.soleSource = true))

/-- R64, R65, R78, R79: a thermistor conversion that is not discarded ends with the record `r`: it is stored and published to its
reader, a new OPEN or SHORT raises SENSE_FAULT, a one-shot empties its slot and its owed reply is made, and the next conversion
starts. -/
structure ConversionTaken (c : Channel) (r : ChannelRecord) (s t : State) : Prop where
  frame : SenseFrame s t
  sense : t.scv =
    ({ s.scv with
        records := s.scv.records.set c r
        oneShot := if s.scv.activity = Activity.oneShot c then none else s.scv.oneShot }).startNext s.slu.platform
  notice : SenseRaises (decide (r.fault ≠ .none ∧ r.fault ≠ (s.scv.records.get c).fault)) s t
  answered : ∀ tag, s.scv.activity = .oneShot c → s.slu.owedConvert = some tag →
    t.slu.owedConvert = none ∧ (s.slu.tx ≠ none → replyOf .convertNow tag .ok (channelBytes r) ∈ t.slu.fifo)
  panel : c = .thPanel → PanelTaken r s t
  bay : c ≠ .thPanel → BayTempTaken c (s.setChannel c r) t

/-- The examination of the triggers that ends an event (R32, R34, R36, R45), from the state `u` that the event's own effect
leaves: what it may change, and what it must do; at most one switchover starts, and none while one is in flight. A preemption timer
goes on where it runs, from 0 where it did not, and is clear where it does not run (R36). -/
structure Examined (u t : State) : Prop where
  rest : t = { u with slu := t.slu, spc := t.spc, bre := t.bre, lmd := t.lmd }
  link : t.slu = { u.slu with tx := t.slu.tx, outbox := t.slu.outbox, wake := t.slu.wake }
  sending : u.slu.tx.isSome = true → t.slu.tx = u.slu.tx
  supply : t.spc =
    { u.spc with
      paths := t.spc.paths, sw := t.spc.sw, overlapTimer := t.spc.overlapTimer, deadTimer := t.spc.deadTimer
      lossTimer := t.spc.lossTimer, preempt := t.spc.preempt, soleSource := t.spc.soleSource
      situation := t.spc.situation, cap := t.spc.cap }
  outcome : t.spc.sw.outcome = u.spc.sw.outcome
  caps : CapFrame u t
  path : ∀ p, SamePath (u.path p) (t.path p)
  quiet : inFlight u = true ∨ inFlight t = false →
    t.spc.paths = u.spc.paths ∧ t.spc.sw = u.spc.sw ∧ t.spc.overlapTimer = u.spc.overlapTimer ∧
      t.spc.deadTimer = u.spc.deadTimer ∧ t.spc.lossTimer = u.spc.lossTimer
  started : inFlight u = false → inFlight t = true →
    u.spc.startUp = false ∧ t.spc.sw.fromSrc = u.spc.feeding ∧ t.spc.sw.tried = [] ∧
      ∀ p, t.path p = u.path p ∨ (t.spc.sw.toSrc = p ∧ t.path p = (u.path p).closeOrdered) ∨
        (t.spc.sw.fromSrc = some p ∧ t.path p = (u.path p).openOrdered)
  timers : ∀ p, t.spc.preempt.get p = if preemptRuns t p then some ((u.spc.preempt.get p).getD 0) else none
  triggers : TriggersTaken u t
  raises : u.slu.tx ≠ none → SupplyRaises u t
  situation : SituationOk t

/-- A source that a sample shows present, below the voltage limit of DC_IN, and at most at the threshold in force. -/
structure CalmSource (r : Readings) (s : State) (x : Source) : Prop where
  present : presentAt x (min 65535 (volts r x)) = true
  volts : x = .dcIn → volts r x < Config.dcOvervoltMv
  amps : max (-32768) (min 32767 (amps r x)) ≤ (threshold s x : Int)

/-- R172, R176: a reply joins the FIFO behind what is being sent. -/
def Joins (w t : State) (r : Reply) : Prop := w.slu.tx ≠ none → r ∈ t.slu.fifo

/-- R39: the to path of an OVERLAP switchover has failed in `w` and reported it: the switchover ends FAILED, with the from source
feeding; an EMPTY or HOT one starts afresh outside the failed source, and a SELECT_SOURCE is answered FAILED with a reason. -/
structure ToPathFailed (reason : Byte) (w t : State) : Prop where
  feeding : t.spc.feeding = w.spc.feeding
  outcome : t.spc.sw.outcome = .failed
  overlapTimer : t.spc.overlapTimer = none
  again : ∀ q, w.spc.sw.reason = .empty ∨ w.spc.sw.reason = .hot → w.spc.startUp = false →
    chooseTarget w w.spc.feeding [w.spc.sw.toSrc] = some q →
    t.spc.sw.reason = w.spc.sw.reason ∧ t.spc.sw.fromSrc = w.spc.feeding ∧ t.spc.sw.toSrc = q ∧
      t.spc.sw.tried = [w.spc.sw.toSrc] ∧ inFlight t = true
  answered : ∀ tag, w.spc.sw.reason = .hostSelect → w.slu.owedSelect = some tag →
    t.slu.owedSelect = none ∧
      Joins w t
        { tag := tag
          payload :=
            [0x15, 10, reason, BitVec.ofNat 8 (sourceCode w.spc.feeding)] ++
              switchoverBytes { w.spc.sw with phase := .idle, tried := [], outcome := .failed } }

/-- R41: the to path of a GAP switchover has failed in `w` and reported it: the failed source joins the tried ones, and the dead
time runs for the next target; with none left NONE feeds and the outcome is FELL_TO_NONE. A SELECT_SOURCE is answered FAILED. -/
structure GapTargetFailed (reason : Byte) (w t : State) : Prop where
  next : ∀ q, chooseTarget w w.spc.sw.fromSrc (w.spc.sw.tried ++ [w.spc.sw.toSrc]) = some q →
    t.spc.sw = { w.spc.sw with phase := .gapDead, toSrc := q, tried := w.spc.sw.tried ++ [w.spc.sw.toSrc] } ∧
    t.spc.deadTimer = some w.spc.settings.deadUs ∧ t.spc.feeding = w.spc.feeding ∧
    ∀ tag, w.spc.sw.reason = .hostSelect → w.slu.owedSelect = some tag →
      t.slu.owedSelect = none ∧
        Joins w t
          { tag := tag
            payload :=
              [0x15, 10, reason, BitVec.ofNat 8 (sourceCode w.spc.feeding)] ++ switchoverBytes t.spc.sw }
  none : chooseTarget w w.spc.sw.fromSrc (w.spc.sw.tried ++ [w.spc.sw.toSrc]) = none →
    t.spc.feeding = none ∧ t.spc.sw.outcome = .fellToNone ∧
    ∀ tag, w.spc.sw.reason = .hostSelect → w.slu.owedSelect = some tag →
      t.slu.owedSelect = none ∧
        Joins w t
          { tag := tag
            payload :=
              [0x15, 10, reason, BitVec.ofNat 8 (sourceCode none)] ++
                switchoverBytes { w.spc.sw with phase := .idle, tried := [], outcome := .fellToNone } }

/-- R40: the from path of an OVERLAP switchover is off in `w` and has reported it: the switchover becomes GAP, and goes on without
a dead time while its to path closes, or completes at once when it is closed. -/
structure FromPathLost (w t : State) : Prop where
  closing : w.spc.sw.phase = .ovlClose →
    t.spc.sw = { w.spc.sw with mode := .gap, phase := .gapClose } ∧ t.spc.feeding = w.spc.feeding ∧
      t.spc.lossTimer = none
  completes : w.spc.sw.phase = .ovlHold →
    t.spc.feeding = some w.spc.sw.toSrc ∧ t.spc.sw.outcome = .completed ∧ t.spc.overlapTimer = none ∧
    ∀ tag, w.spc.sw.reason = .hostSelect → w.slu.owedSelect = some tag →
      t.slu.owedSelect = none ∧
        Joins w t
          { tag := tag
            payload :=
              [0x15, 0, BitVec.ofNat 8 (Source.code w.spc.sw.toSrc)] ++
                switchoverBytes { w.spc.sw with mode := .gap, phase := .idle, tried := [], outcome := .completed } }

/-- R53, R55: the RELEASE ask of a bay has started the switchover that is in flight in `w`, and waits for its end. -/
structure AskInFlight (bay : Bay) (w : State) : Prop where
  reason : w.spc.sw.reason = .release
  source : w.spc.sw.fromSrc = some (baySource bay)
  pending : (w.latch bay).release = .pending
  cause : (w.latch bay).cause = .switchover

/-- R174: between `w` and `t` RELEASE was raised. -/
def RaisedRelease (w t : State) : Prop :=
  w.slu.tx ≠ none → inMask w.slu.noticeMask .release = true → min 255 (w.slu.outbox.release + 1) ≤ t.slu.outbox.release

/-- R44, R53, R56: between `w` and `t` a PENDING bay was granted: RELEASE is raised, the pack info cleared, and the reply owed is
made, OK, in the way `made` says. -/
structure BayGranted (made : Reply → Prop) (bay : Bay) (w t : State) : Prop where
  record : t.latch bay =
    { w.latch bay with
      release := .granted, cause := .none, commanded := .unlocked, windowMs := 10000, faultTimer := 0, stuckTimer := 0
      lastEvent := .granted, hostOwed := false }
  pack : t.spc.packInfo.get bay = none
  notice : RaisedRelease w t
  answered : ∀ tag, (w.latch bay).hostOwed = true → w.slu.owedRelease = some tag →
    t.slu.owedRelease = none ∧ made (replyOf .releaseBay tag .ok (latchBytes t bay))

/-- R53, R55: between `w` and `t` the release of a PENDING bay was refused: RELEASE is raised, and the reply owed is made, FAILED
(SOLE_SOURCE), in the way `made` says. -/
structure BayRefused (made : Reply → Prop) (bay : Bay) (w t : State) : Prop where
  record : t.latch bay =
    { w.latch bay with
      release := .idle, byButton := false, byHost := false, cause := .none, windowMs := 0, lastEvent := .refused
      hostOwed := false }
  notice : RaisedRelease w t
  answered : ∀ tag, (w.latch bay).hostOwed = true → w.slu.owedRelease = some tag →
    t.slu.owedRelease = none ∧ made { tag := tag, payload := [0x20, 10, 1] ++ latchBytes t bay }

/-- R55, R56: the switchover of a bay's ask has ended with the load off the bay, and the ask is answered MOVED. Outside STILL the
bay waits for it. In STILL it is granted, where no other row of R53 holds it. -/
structure AskMoved (made : Reply → Prop) (bay : Bay) (w t : State) : Prop where
  waits : w.ddt.phase ≠ .still → t.latch bay = { w.latch bay with cause := .motion }
  granted : w.ddt.phase = .still → (w.latch (otherBay bay)).release ≠ .granted → askRuns w (otherBay bay) = false →
    BayGranted made bay w t

/-- R54: a PENDING bay that an event which calls for it evaluates: its ask does not run. -/
def Due (u : State) (bay : Bay) : Prop := (u.latch bay).release = .pending ∧ (u.latch bay).cause ≠ .switchover

/-- R32, R34: an EMPTY or HOT that the feeding bay holds has a target, and starts before any RELEASE ask. -/
def HeldStarts (u : State) : Prop :=
  canStart u = true ∧ heldCondition u ≠ none ∧ chooseTarget u u.spc.feeding [] ≠ none

/-- R53, R54: a bay whose evaluation sends the ask before any other: it is due, in STILL, the older of two that are, and the other
bay is not GRANTED. -/
structure AsksFirst (u : State) (bay : Bay) : Prop where
  due : Due u bay
  still : u.ddt.phase = .still
  other : (u.latch (otherBay bay)).release ≠ .granted
  older : Due u (otherBay bay) → u.ltc.older = bay

/-- R53, R54, R56: what an event that calls for the evaluation of the PENDING bays makes of a bay, from the state `u` that the
event's own effect leaves. -/
structure PendingEvaluated (u t : State) (bay : Bay) : Prop where
  notDue : ¬Due u bay → t.latch bay = u.latch bay
  motion : Due u bay → u.ddt.phase ≠ .still → t.latch bay = { u.latch bay with cause := .motion }
  otherGrant : Due u bay → u.ddt.phase = .still → (u.latch (otherBay bay)).release = .granted →
    t.latch bay = { u.latch bay with cause := .otherGrant }
  busy : AsksFirst u bay → inFlight u = true ∨ askRuns u (otherBay bay) = true ∨ HeldStarts u →
    t.latch bay = { u.latch bay with cause := .supplyBusy }
  moved : AsksFirst u bay → inFlight u = false → askRuns u (otherBay bay) = false → ¬HeldStarts u →
    u.spc.feeding ≠ some (baySource bay) → BayGranted (Joins u t) bay u t
  starts : AsksFirst u bay → inFlight u = false → askRuns u (otherBay bay) = false → ¬HeldStarts u →
    u.spc.feeding = some (baySource bay) → ∀ x, chooseTarget u u.spc.feeding [] = some x →
    t.latch bay = { u.latch bay with cause := .switchover } ∧ t.spc.sw = startedRecord u .release x
  refused : AsksFirst u bay → inFlight u = false → askRuns u (otherBay bay) = false → ¬HeldStarts u →
    u.spc.feeding = some (baySource bay) → chooseTarget u u.spc.feeding [] = none → BayRefused (Joins u t) bay u t
  younger : Due u bay → AsksFirst u (otherBay bay) → u.ltc.older = otherBay bay →
    ((t.latch (otherBay bay)).release = .granted → t.latch bay = { u.latch bay with cause := .otherGrant }) ∧
    ((t.latch (otherBay bay)).release = .pending → t.latch bay = { u.latch bay with cause := .supplyBusy }) ∧
    ((t.latch (otherBay bay)).release = .idle →
      t.latch bay =
        { u.latch bay with
          release := .granted, cause := .none, commanded := .unlocked, windowMs := 10000, faultTimer := 0, stuckTimer := 0
          lastEvent := .granted, hostOwed := false })

/-- R58, R54: what the motion phase makes of a bay as it leaves STILL: a GRANTED bay is revoked, with no reply, and a PENDING one
waits for the motion phase from its next evaluation on, which the revocation of the other bay calls for. -/
structure Revoked (s t : State) (bay : Bay) : Prop where
  granted : (s.latch bay).release = .granted →
    t.latch bay =
      { s.latch bay with
        commanded := .locked, faultTimer := 0, stuckTimer := 0, stuck := false, release := .pending, cause := .motion
        windowMs := 0, lastEvent := .revoked } ∧
    RaisedRelease s t
  pending : (s.latch bay).release = .pending →
    t.latch bay =
      { s.latch bay with
        cause :=
          if (s.latch (otherBay bay)).release = .granted ∧ (s.latch bay).cause ≠ .switchover then .motion
          else (s.latch bay).cause }
  idle : (s.latch bay).release = .idle → t.latch bay = s.latch bay
  owed : t.slu.owedRelease = s.slu.owedRelease ∧ (s.slu.tx ≠ none → t.slu.fifo = s.slu.fifo)

/-- What an event of the switchover logic leaves alone, the end of a switchover and the release that waits for it included (R32,
R41, R55), from the state `u`. -/
structure SupplyFrame (u t : State) : Prop where
  rest : t = { u with slu := t.slu, spc := t.spc, ltc := t.ltc, bre := t.bre, lmd := t.lmd }
  link : t.slu =
    { u.slu with
      tx := t.slu.tx, fifo := t.slu.fifo, outbox := t.slu.outbox, wake := t.slu.wake, owedSelect := t.slu.owedSelect
      owedRelease := t.slu.owedRelease }
  sending : u.slu.tx.isSome = true → t.slu.tx = u.slu.tx
  latches : t.ltc = { u.ltc with latches := t.ltc.latches }
  sensed : ∀ bay, (t.latch bay).sensed = (u.latch bay).sensed ∧ (t.latch bay).insecure = (u.latch bay).insecure
  supply : t.spc =
    { u.spc with
      paths := t.spc.paths, feeding := t.spc.feeding, sw := t.spc.sw, overlapTimer := t.spc.overlapTimer
      deadTimer := t.spc.deadTimer, lossTimer := t.spc.lossTimer, preempt := t.spc.preempt, busLow := t.spc.busLow
      belowCount := t.spc.belowCount, recoveryTimer := t.spc.recoveryTimer, packInfo := t.spc.packInfo
      soleSource := t.spc.soleSource, situation := t.spc.situation, cap := t.spc.cap }
  caps : CapFrame u t
  path : ∀ p, SamePath (u.path p) (t.path p)
  situation : SituationOk t

end Sys2Proof.Safety
end

