-- ==== Sys2Proof/Certificates/Slice0/Obligations.lean ====
section
/-! DEFINITION. The statements for the provers. Each names the rules of spec/ it formalises or rests on; where a clause rests on a
choice of the model, its docstring names the log entry. -/

open Sys2Proof Sys2Proof.Machine Sys2Proof.Safety

/-! ### The command stream -/

/-- One step takes the command at the front of the queue and runs it on the state with the queue's rest; with no command the part
stays as it is (that clause is the model's choice, log entry 6). -/
def Obligations.StepTakesFrontCommand : Prop :=
  (∀ (c : Instr) (rest : List Instr) (s : State),
    s.pending = c :: rest → step s = exec c { s with pending := rest }) ∧
  (∀ s : State, s.pending = [] → step s = .next s)

/-! ### Power-on -/

/-- R22, R49, R62: what power-on leaves in the path records, the supply state and the latches, with every gate off (R7). That the
commands of the sender that wait are kept is the model's choice (log entry 27), and so is the class of a ramp that no close order
has started yet (log entry 38). -/
def Obligations.PowerOnSupplySide : Prop :=
  ∀ (btnA btnB : Bool) (lsnsA lsnsB : LatchPos) (s : State), ∃ t, exec (.powerOnReset btnA btnB lsnsA lsnsB) s = .next t ∧
    t.pending = s.pending ∧
    (∀ p, t.path p =
      { state := .opened
        settings :=
          { ocThreshold := if p = .dcIn then 6000 else 5000, blankingHalfMs := 4, slew := .medium, strategy := .auto
            retryMs := 500, tripLimit := 3, derating := p != .dcIn, autoEligible := true }
        voltage := 0, current := 0, sampleUptime := 0, isEmpty := false, emptyTimer := none, effSlew := .medium
        rampSlew := .medium, tripCount := 0, overCount := 0, blanking := none, retry := none, closedTime := 0
        fault := { cause := .none, current := 0, threshold := 0, step := 0, uptime := 0, read := false } }) ∧
    (∀ p, gateDrive t p = .off ∧ gateDriven t p = false ∧ present t p = false ∧ overvolt t p = false ∧ hot t p = false) ∧
    threshold t .dcIn = 6000 ∧ threshold t .bayA = 3125 ∧ threshold t .bayB = 3125 ∧
    t.spc =
      { t.spc with
        busVoltage := 0
        settings :=
          { mode := .auto, order := [.dcIn, .bayA, .bayB], parallelMv := 300, overlapMs := 2, deadUs := 50, rideMs := 20
            emptyMv := 12400, lowMv := 13200, lowPercent := 10, busLowMv := 10500, busLowAction := .shed
            caps := { dc := 1000, pair := 1000, single := 850, low := 600, shed := 150 } }
        feeding := none
        sw :=
          { reason := .start, fromSrc := none, toSrc := .dcIn, mode := .gap, phase := .idle, tried := []
            outcome := .noSwitchover }
        overlapTimer := none, deadTimer := none, lossTimer := none, preempt := ⟨none, none, none⟩, busLow := false
        belowCount := 0, recoveryTimer := none, low := ⟨false, false⟩, packInfo := ⟨none, none⟩, soleSource := false
        situation := .shed, cap := 150, startUp := true } ∧
    (∀ bay, t.latch bay =
      { commanded := .locked, sensed := if bay = .a then lsnsA else lsnsB, release := .idle, byButton := false
        byHost := false, cause := .none, windowMs := 0, hostOwed := false, insecure := false, stuck := false
        faultTimer := 0, stuckTimer := 0, lastEvent := .none }) ∧
    t.ltc.armed = ⟨!btnA, !btnB⟩

/-- R81, R71, R104, R123, R137, R160, R184: what power-on leaves in the SCV, the BRE, the LMD, the MPT, the DDT and the SLU: every
setting, table, record, counter and run. (The walk has started at the resume slot 1 of R81, which moved it on to 2, R73.) -/
def Obligations.PowerOnOtherBlocks : Prop :=
  ∀ (btnA btnB : Bool) (lsnsA lsnsB : LatchPos) (s : State), ∃ t, exec (.powerOnReset btnA btnB lsnsA lsnsB) s = .next t ∧
    (∀ c, t.scv.records.get c =
      { value := 0, valid := false, fault := .never, raw := 0, range := 0, age := 0, stale := false }) ∧
    t.scv.slots = [.alsFront, .alsRear, .thBayA, .alsFront, .alsRear, .thBayB, .alsFront, .thPanel] ∧
    (∀ c, t.scv.enable.get c = true) ∧ t.scv.calFront = 256 ∧ t.scv.calRear = 256 ∧
    t.scv.table =
      [(400, 1250), (600, 950), (900, 720), (1300, 550), (1900, 400), (2800, 270), (4100, 150), (6000, 40), (8800, -70),
        (12900, -180), (19000, -290), (28000, -400)] ∧
    t.scv.activity = .walk 1 .alsFront ∧ t.scv.resume = 2 ∧ t.scv.oneShot = none ∧
    t.bre.settings =
      { rearWeight := 64, upRate := 8, downRate := 2, deadband := 2, fallback := 600, mode := .auto, bias := 0
        fixedLevel := 500, t1 := 600, slope := 7, floorTh := 300, ymin := 20 } ∧
    t.bre.curve = [(0, 40), (96, 120), (160, 300), (208, 550), (224, 700), (256, 1000)] ∧
    t.bre =
      { t.bre with
        frontUsable := false, rearUsable := false, lux := 0, ambientUnknown := true, level := 0, seeded := false
        lf := 0, lused := 0, motionHold := false, y := 600, yb := 600, clamped := false, frozen := none, allowance := 150
        panelKnown := false, thermalCap := 300, cap := 150, yc := 150 } ∧
    t.lmd.settings =
      { upStep := 8, downStep := 4, crossover := 250, iMax := 250, multiple := 4, strategy := .reportUnmeasured
        enable := ⟨true, true, true, true⟩ } ∧
    t.lmd.a = 0 ∧ t.lmd.ycCopy = 150 ∧ t.lmd.capCopy = 150 ∧ t.lmd.runEntry = false ∧ t.lmd.inForce = ⟨0, 0⟩ ∧
    t.lmd.staged = ⟨0, 0⟩ ∧ t.lmd.stagedPending = false ∧ t.lmd.locked = false ∧ t.lmd.reference = none ∧
    t.lmd.runCount = 0 ∧ t.lmd.everLocked = false ∧ t.lmd.lastInterval = 16666667 ∧
    t.lmd.internalInterval = 16666667 ∧ t.lmd.pwmPeriod = 4166666 ∧ t.lmd.freeCount = 0 ∧
    (∀ i, (t.lmd.strings.get i).state = .enabled ∧ (t.lmd.strings.get i).meas = .notMeasured ∧
      (t.lmd.strings.get i).counted = .none ∧ (t.lmd.strings.get i).count = 0 ∧ (t.lmd.strings.get i).current = 0 ∧
      (t.lmd.strings.get i).headroom = 0) ∧
    t.mpt =
      { rate := .hz800, transfer := .idle, lastCount := none, primed := false
        last := { x := 0, y := 0, z := 0, clipped := false }, history := List.replicate 16 false, rejectedRun := 0
        recoveryRun := 0, link := .ok, counters := ⟨0, 0, 0, 0, 0, 0, 0, 0, 0, 0⟩, ring := [] } ∧
    t.ddt.settings = { fallMg := 350, impactTenths := 60, qualifyMs := 80, settleMs := 300 } ∧
    t.ddt.phase = .still ∧ parkAsserted t = false ∧ t.ddt.blind = false ∧ t.ddt.record = none ∧ t.ddt.table = [] ∧
    t.ddt.nextSequence = 1 ∧ t.ddt.lastM2 = 0 ∧ t.ddt.fallRun = 0 ∧ t.ddt.fallStart = none ∧ t.ddt.fallIntervals = 0 ∧
    t.ddt.landingRun = 0 ∧ t.ddt.fallingCount = 0 ∧ t.ddt.exitCount = 0 ∧ t.ddt.settleRun = 0 ∧ t.ddt.settleLimit = 0 ∧
    t.ddt.blindCount = 0 ∧
    t.slu =
      { rx := .hunt, queue := [], fifo := [], owedSelect := none, owedRelease := none, owedConvert := none
        outbox := ⟨0, 0, 0, 0, 0, 0, 0, 0, 0⟩, noticeMask := 0b111111111, wakeMask := 0b000010011, platform := .dark
        wake := false, linkErrors := 0, uptime := 0, subMs := 0, tx := none }

/-- The state right after reset meets every invariant stated below. -/
def Obligations.ResetMeetsInvariants : Prop :=
  LinkOk State.reset ∧ TransmitterOk State.reset ∧ LampOk State.reset ∧ SupplyOk State.reset ∧ SituationOk State.reset ∧
    RecordsOk State.reset.ddt ∧ PortOk State.reset.mpt

/-! ### The receiver (R162 to R165) -/

/-- R162, R163, R166: characters with a good stop bit assemble a frame; outside HUNT the sync character is data. A length above
240, a framing error inside a frame, and a check that does not make the sum 0 discard the partial frame and count, up to 65,535; a
framing error in HUNT is ignored, and nothing is taken in BREAK. -/
def Obligations.CharactersAssembleFrames : Prop :=
  ∀ (c : Byte) (s : State),
    (s.slu.rx = .hunt →
      exec (.rxCharacter c true) s = .next { s with slu := { s.slu with rx := if c = 0x5A then .length else .hunt } }) ∧
    (s.slu.rx = .length → c.toNat ≤ 240 →
      exec (.rxCharacter c true) s = .next { s with slu := { s.slu with rx := .kind c.toNat } }) ∧
    (∀ len, s.slu.rx = .kind len →
      exec (.rxCharacter c true) s = .next { s with slu := { s.slu with rx := .tag len c } }) ∧
    (∀ len k, s.slu.rx = .tag len k →
      exec (.rxCharacter c true) s =
        .next { s with slu := { s.slu with rx := if len = 0 then .check len k c [] else .payload len k c [] } }) ∧
    (∀ len k tag got, s.slu.rx = .payload len k tag got →
      exec (.rxCharacter c true) s =
        .next
          { s with
            slu :=
              { s.slu with
                rx := if got.length + 1 < len then .payload len k tag (got ++ [c]) else .check len k tag (got ++ [c]) } }) ∧
    (s.slu.rx = .lineBreak → ∀ stop, exec (.rxCharacter c stop) s = .next s) ∧
    (s.slu.rx = .hunt → exec (.rxCharacter c false) s = .next s) ∧
    (((s.slu.rx = .length ∧ 240 < c.toNat) ∨
        (∃ len k tag got, s.slu.rx = .check len k tag got ∧
          BitVec.ofNat 8 len + k + tag + got.foldl (· + ·) 0 + c ≠ 0)) →
      exec (.rxCharacter c true) s =
        .next { s with slu := { s.slu with rx := .hunt, linkErrors := min 65535 (s.slu.linkErrors + 1) } }) ∧
    (s.slu.rx ≠ .hunt → s.slu.rx ≠ .lineBreak →
      exec (.rxCharacter c false) s =
        .next { s with slu := { s.slu with rx := .hunt, linkErrors := min 65535 (s.slu.linkErrors + 1) } })

/-- R163, R167, R169, R179: a valid frame at its check character: WAKE is released; behind other requests, or with no reply room,
the frame joins a queue that holds fewer than 4; it is answered QUEUE_FULL when the queue is full and a reply finds room, and
otherwise is discarded and counted. On an empty queue with reply room it is dispatched in the same event: a kind that is none is
answered UNKNOWN_KIND, and the statements about the requests say what a request does then. The character completes the frame
however it is given, as RX_CHARACTER or as RX_FRAME. That RX_FRAME on a request's frame does what the request's own command does,
and that such a command joins the queue where it cannot be dispatched, is the model's choice (log entry 5). -/
def Obligations.ValidFrameIsOffered : Prop :=
  ∀ (len : Nat) (k tag : Byte) (got : List Byte) (c : Byte) (s : State), TransmitterOk s →
    s.slu.rx = .check len k tag got → BitVec.ofNat 8 len + k + tag + got.foldl (· + ·) 0 + c = 0 →
    ((s.slu.queue ≠ [] ∨ freeSpace s = 0) → s.slu.queue.length < 4 →
      exec (.rxFrame c true) s =
        .next
          { s with
            slu := { s.slu with rx := .hunt, wake := false, queue := s.slu.queue ++ [{ kind := k, tag := tag, payload := got }] } }) ∧
    (s.slu.queue.length = 4 → 1 ≤ freeSpace s →
      exec (.rxFrame c true) s =
        .next
          (replied { s with slu := { s.slu with rx := .hunt, wake := false } }
            { tag := tag, payload := [k, 7] })) ∧
    (s.slu.queue.length = 4 → freeSpace s = 0 →
      exec (.rxFrame c true) s =
        .next
          { s with
            slu := { s.slu with rx := .hunt, wake := false, linkErrors := min 65535 (s.slu.linkErrors + 1) } }) ∧
    (s.slu.queue = [] → 1 ≤ freeSpace s → ReqKind.ofByte k = none →
      exec (.rxFrame c true) s =
        .next
          (replied { s with slu := { s.slu with rx := .hunt, wake := false } } { tag := tag, payload := [k, 5] })) ∧
    (∀ c' stop, exec (.rxCharacter c' stop) s = exec (.rxFrame c' stop) s) ∧
    (s.slu.queue = [] → 1 ≤ freeSpace s → ∀ k', ReqKind.byte k' = k →
      exec (.rxFrame c true) s = exec (command k' tag got) { s with slu := { s.slu with rx := .hunt } }) ∧
    (∀ k', (s.slu.queue ≠ [] ∨ freeSpace s = 0) → s.slu.queue.length < 4 →
      exec (command k' tag got) s =
        .next
          { s with
            slu := { s.slu with wake := false, queue := s.slu.queue ++ [{ kind := k'.byte, tag := tag, payload := got }] } })

/-- R164, R165: 1 ms without a character discards a partial frame and counts nothing. A break discards the partial frame, the
queue, the FIFO and the replies owed, clears host reply owed, and keeps everything else, the frame on SYS_TX and the one-shot
among it; the receiver leaves BREAK when SYS_RX goes high. That a gap inside a
break changes nothing, and a break inside a break, is the model's choice (log entries 3 and 31). -/
def Obligations.GapAndBreakDiscard : Prop :=
  ∀ s : State,
    (s.slu.rx ≠ .lineBreak → exec .frameGapTimeout s = .next { s with slu := { s.slu with rx := .hunt } }) ∧
    (s.slu.rx = .lineBreak → exec .frameGapTimeout s = .next s) ∧
    (s.slu.rx ≠ .lineBreak →
      exec .lineBreak s =
        .next
          { s with
            slu :=
              { s.slu with
                rx := .lineBreak, queue := [], fifo := [], owedSelect := none, owedRelease := none
                owedConvert := none }
            ltc :=
              { s.ltc with
                latches :=
                  ⟨{ s.ltc.latches.a with hostOwed := false }, { s.ltc.latches.b with hostOwed := false }⟩ } }) ∧
    (s.slu.rx = .lineBreak → exec .lineBreak s = .next s) ∧
    (s.slu.rx = .lineBreak → exec .breakEnd s = .next { s with slu := { s.slu with rx := .hunt } })

/-! ### The queue, dispatch and the transmitter (R167 to R176) -/

/-- R169: a payload length that the kind does not allow is answered BAD_LENGTH, and nothing else happens, when the request arrives
as when it is dispatched later. A further dispatch takes the oldest request; a kind that is not a request kind is answered
UNKNOWN_KIND, and any other request does in it what it does when it arrives at an empty queue. The requests behind it stay queued
and change nothing of what it does; RESET, when it is taken, discards them (R183). A WAKE that is asserted at the dispatch stays
asserted and changes nothing of what a request does (R179; of SET_PLATFORM that is the model's choice, log entry 50), but for
GET_STATUS, which reports it. With nothing to take nothing happens (log entry 3). -/
def Obligations.DispatchJudgesRequests : Prop :=
  ∀ s : State, TransmitterOk s →
    (∀ k tag p, Ready s → lengthAllowed k p = false →
      exec (command k tag p) s = .next (answered k tag .badLength [] s)) ∧
    (∀ r rest, s.slu.queue = r :: rest → 1 ≤ freeSpace s → ReqKind.ofByte r.kind = none →
      exec .requestDispatch s =
        .next (replied { s with slu := { s.slu with queue := rest } } { tag := r.tag, payload := [r.kind, 5] })) ∧
    (∀ k tag p, s.slu.queue = [{ kind := ReqKind.byte k, tag := tag, payload := p }] → 1 ≤ freeSpace s →
      s.slu.wake = false →
      exec .requestDispatch s = exec (command k tag p) { s with slu := { s.slu with queue := [] } }) ∧
    (∀ k tag p rest, s.slu.queue = { kind := ReqKind.byte k, tag := tag, payload := p } :: rest → 1 ≤ freeSpace s →
      s.slu.wake = false → ∃ t : State,
      exec (command k tag p) { s with slu := { s.slu with queue := [] } } = .next t ∧
      exec .requestDispatch s =
        .next
          { t with
            slu :=
              { t.slu with queue := if k = .reset ∧ p = [] ∧ inFlight s = false then [] else rest } }) ∧
    (∀ r rest, s.slu.queue = r :: rest → 1 ≤ freeSpace s → ∃ t : State,
      exec .requestDispatch { s with slu := { s.slu with queue := [r] } } = .next t ∧
      exec .requestDispatch s =
        .next
          { t with
            slu :=
              { t.slu with
                queue :=
                  if r.kind = ReqKind.byte .reset ∧ r.payload = [] ∧ inFlight s = false then [] else rest } }) ∧
    (∀ k tag p rest, s.slu.queue = { kind := ReqKind.byte k, tag := tag, payload := p } :: rest → 1 ≤ freeSpace s →
      lengthAllowed k p = false →
      exec .requestDispatch s =
        .next (replied { s with slu := { s.slu with queue := rest } } (replyOf k tag .badLength []))) ∧
    (∀ r rest, s.slu.queue = r :: rest → 1 ≤ freeSpace s → s.slu.wake = true → r.kind ≠ ReqKind.byte .getStatus →
      ∃ t : State,
      exec .requestDispatch { s with slu := { s.slu with wake := false } } = .next t ∧
      exec .requestDispatch s = .next { t with slu := { t.slu with wake := true } }) ∧
    (∀ tag rest, s.slu.queue = { kind := ReqKind.byte .getStatus, tag := tag, payload := [] } :: rest → 1 ≤ freeSpace s →
      exec .requestDispatch s =
        .next
          (replied { s with slu := { s.slu with queue := rest } }
            (replyOf .getStatus tag .ok (statusBytes { s with slu := { s.slu with queue := rest } })))) ∧
    (s.slu.queue = [] ∨ freeSpace s = 0 → exec .requestDispatch s = .next s)

/-- R173, R175, R176: at the end of a frame the transmitter takes DROP_ALERT, then the oldest reply, then the notice of highest
priority, which is built then and leaves the outbox; with nothing waiting it is IDLE. A reply that leaves a FIFO in which no room
was left makes the dispatch of a waiting request possible, and that happens in the same event (R169). -/
def Obligations.TransmitterChoosesByPriority : Prop :=
  ∀ s : State, s.slu.tx ≠ none →
    (∀ r rest, s.slu.queue ≠ [] → s.slu.outbox.dropAlert = 0 → s.slu.fifo = r :: rest →
      s.slu.fifo.length + reservedSpace s = 8 →
      exec .txFrameEnd s =
        exec .requestDispatch { s with slu := { s.slu with tx := some (replyFrame r), fifo := rest } }) ∧
    (s.slu.queue = [] → s.slu.outbox.dropAlert ≠ 0 →
      exec .txFrameEnd s =
        .next
          { s with
            slu :=
              { s.slu with
                tx := some (noticeFrame s .dropAlert), outbox := { s.slu.outbox with dropAlert := 0 } } }) ∧
    (∀ r rest, s.slu.queue = [] → s.slu.outbox.dropAlert = 0 → s.slu.fifo = r :: rest →
      exec .txFrameEnd s = .next { s with slu := { s.slu with tx := some (replyFrame r), fifo := rest } }) ∧
    (∀ k, s.slu.queue = [] → s.slu.fifo = [] → s.slu.outbox.get k ≠ 0 →
      (∀ x, NoticeKind.priority x < NoticeKind.priority k → s.slu.outbox.get x = 0) →
      exec .txFrameEnd s =
        .next { s with slu := { s.slu with tx := some (noticeFrame s k), outbox := s.slu.outbox.set k 0 } }) ∧
    (s.slu.queue = [] → s.slu.fifo = [] → (∀ k, s.slu.outbox.get k = 0) →
      exec .txFrameEnd s = .next { s with slu := { s.slu with tx := none } })

/-- R174, R179: a raise of a kind in the notice mask makes its entry or counts it up, to 255 at most, and in STANDBY a kind of the
wake mask asserts WAKE; a raise of a kind outside the notice mask leaves no trace. -/
def Obligations.RaiseCountsInsideTheMask : Prop :=
  ∀ (k : NoticeKind) (s : State),
    (s.slu.noticeMask.getLsbD (k.priority - 1) = false → raise k s = s) ∧
    (s.slu.noticeMask.getLsbD (k.priority - 1) = true →
      (raise k s).slu.outbox.get k = min 255 (s.slu.outbox.get k + 1) ∧
        (∀ x, x ≠ k → (raise k s).slu.outbox.get x = s.slu.outbox.get x) ∧
        (raise k s).slu.wake =
          (s.slu.wake || (s.slu.platform == .standby && s.slu.wakeMask.getLsbD (k.priority - 1))) ∧
        raise k s =
          { s with slu := { s.slu with outbox := (raise k s).slu.outbox, wake := (raise k s).slu.wake } })

/-- R166, R167, R168, R173, R174: every step keeps the queue at 4 or fewer, the replies and the reserved space at 8 or fewer, the
occurrence counts at 255 or fewer and the link error count at 65,535 or fewer. -/
def Obligations.StepKeepsLinkLimits : Prop :=
  ∀ s t : State, LinkOk s → step s = .next t → LinkOk t

/-- R176: after every step nothing waits for a transmitter that is IDLE. -/
def Obligations.StepKeepsTransmitterBusy : Prop :=
  ∀ s t : State, TransmitterOk s → step s = .next t → TransmitterOk t

/-! ### The SLU's requests (R177, R178, R181 to R183) -/

/-- R24, R61, R80, R103, R122, R159, R181: the requests that read: each answers OK with its snapshot, and nothing but WAKE (R179)
and the reply changes. The layouts of the replies to GET_LAMP and GET_MOTION are deduced (log entries 33 and 49). -/
def Obligations.SnapshotRequestsOnlyAnswer : Prop :=
  ∀ (tag : Byte) (p : List Byte) (s : State), Ready s →
    (p = [] →
      exec (.getSupply tag p) s = .next (answered .getSupply tag .ok (supplyBytes s) s) ∧
      exec (.getSense tag p) s = .next (answered .getSense tag .ok (senseBytes s) s) ∧
      exec (.getBrightness tag p) s = .next (answered .getBrightness tag .ok (brightBytes s) s) ∧
      exec (.getMotion tag p) s = .next (answered .getMotion tag .ok (motionBytes s) s) ∧
      exec (.getStatus tag p) s = .next (answered .getStatus tag .ok (statusBytes (heard s)) s)) ∧
    (∀ bay : Bay, p = [BitVec.ofNat 8 (bayCode bay)] →
      exec (.getLatch tag p) s = .next (answered .getLatch tag .ok (latchBytes s bay) s)) ∧
    (∀ m, p.length = 1 → stringSet (at8 p 0) = some m →
      exec (.getLamp tag p) s = .next (answered .getLamp tag .ok (lampBytes s (lowestString m)) s)) ∧
    (p.length = 1 → bayOf (at8 p 0) = none →
      exec (.getLatch tag p) s = .next (answered .getLatch tag .badValue [] s)) ∧
    (p.length = 1 → stringSet (at8 p 0) = none →
      exec (.getLamp tag p) s = .next (answered .getLamp tag .badValue [] s))

/-- R182: GET_IDENT answers OK with the vendor code, the part code (little-endian) and the silicon revision, changes nothing
(WAKE is the SLU's, R179) and is taken in every state; during the start-up interval SELECT_SOURCE is answered BUSY. -/
def Obligations.GetIdentIsTakenInEveryState : Prop :=
  ∀ (tag : Byte) (s : State), Ready s →
    exec (.getIdent tag []) s = .next (answered .getIdent tag .ok [0x2D, 0x54, 0x01, 0x01] s) ∧
    (s.spc.startUp = true → ∀ q : Source,
      exec (.selectSource tag [BitVec.ofNat 8 (Source.code q)]) s = .next (answered .selectSource tag .busy [] s))

/-- R177, R178, R107, R74: SET_NOTICE_MASK stores a mask of the nine kinds and echoes it, the outbox kept. SET_PLATFORM stores the
state and the wake mask and echoes both. A change to RUN sets the run-entry flag; a change to DARK or STANDBY makes A and the
drive 0; a change that leaves STANDBY starts an idle walk that has something to convert; the state already in force publishes
nothing. A state that is not one of the three, or a mask that names another kind, is refused. -/
def Obligations.MaskAndPlatformAreStored : Prop :=
  ∀ (tag st lo hi : Byte) (s : State), Ready s →
    (hi.toNat ≤ 1 →
      exec (.setNoticeMask tag [lo, hi]) s =
        .next
          (replied { heard s with slu := { (heard s).slu with noticeMask := BitVec.ofNat 9 (lo.toNat + 256 * hi.toNat) } }
            (replyOf .setNoticeMask tag .ok [lo, hi]))) ∧
    (2 ≤ hi.toNat → exec (.setNoticeMask tag [lo, hi]) s = .next (answered .setNoticeMask tag .badValue [] s)) ∧
    (∀ q, Platform.ofCode st.toNat = some q → hi.toNat ≤ 1 → ∃ u : State,
      exec (.setPlatform tag [st, lo, hi]) s = .next (replied u (replyOf .setPlatform tag .ok [st, lo, hi])) ∧
      u.slu = { s.slu with wake := false, platform := q, wakeMask := BitVec.ofNat 9 (lo.toNat + 256 * hi.toNat) } ∧
      u = { s with slu := u.slu, lmd := u.lmd, scv := u.scv } ∧
      (q = s.slu.platform → u.lmd = s.lmd ∧ u.scv = s.scv) ∧
      (q ≠ s.slu.platform → q = .run → u.lmd = { s.lmd with runEntry := true }) ∧
      (q ≠ s.slu.platform → q ≠ .run →
        u.lmd =
          { s.lmd with
            a := 0, runEntry := false, inForce := ⟨0, 0⟩, staged := ⟨0, 0⟩, stagedPending := false
            changed := s.lmd.changed || decide (s.lmd.inForce ≠ ⟨0, 0⟩) }) ∧
      (s.slu.platform ≠ .standby ∨ s.scv.activity ≠ .idle → u.scv = s.scv) ∧
      (s.slu.platform = .standby → q ≠ .standby → s.scv.activity = .idle → u.scv = s.scv.startWalk q)) ∧
    (Platform.ofCode st.toNat = none ∨ 2 ≤ hi.toNat →
      exec (.setPlatform tag [st, lo, hi]) s = .next (answered .setPlatform tag .badValue [] s))

/-- R183, R184, R23, R49, R63, R82, R105, R124, R138, R161: RESET is answered BUSY while a switchover is in flight, and nothing is
reset. Otherwise every setting returns to its default; a release ends CANCELLED; every TRIPPED or LOCKED_OUT path becomes OPEN;
the motion phase is STILL, the record in progress and the requests that wait are discarded, the outbox is emptied and the masks
and the link error count take their defaults; the feeding source, the platform state, the closed records, the measurements and
the uptime are kept. A RELEASE_BAY and a CONVERT_NOW that are owed are answered CANCELLED with the records as the event leaves them
(R52, R170; log entries 40 and 45), and the latch-stuck flag and its timer are kept (R63; on a GRANTED bay log entry 39). The held
triggers are examined in the event, before the reply to RESET is made (log entry 11): a feeding bay that is EMPTY or HOT sets the
sole-source flag, with its SUPPLY_CHANGE, where there is no target, and where there is one no switchover is in flight at the end of
the event: it begins after it (R49; in which event is the model's choice, log entry 46). The preemption timers run from 0. -/
def Obligations.ResetReturnsDefaults : Prop :=
  ∀ (tag : Byte) (s : State), Ready s →
    (inFlight s = true → exec (.resetRequest tag []) s = .next (answered .reset tag .busy [] s)) ∧
    (inFlight s = false → ∃ t, exec (.resetRequest tag []) s = .next t ∧
      (∀ p, (t.path p).settings = .defaults p ∧ (t.path p).tripCount = 0 ∧ (t.path p).effSlew = .medium ∧
        (t.path p).retry = none ∧ (t.path p).fault = .clear ∧ (t.path p).voltage = (s.path p).voltage ∧
        (t.path p).current = (s.path p).current ∧ (t.path p).sampleUptime = (s.path p).sampleUptime ∧
        (t.path p).isEmpty = (s.path p).isEmpty ∧ (t.path p).emptyTimer = (s.path p).emptyTimer ∧
        (t.path p).state =
          if (s.path p).state = .tripped ∨ (s.path p).state = .lockedOut then .opened else (s.path p).state) ∧
      t.spc.settings = .defaults ∧ t.spc.feeding = s.spc.feeding ∧ t.spc.busLow = s.spc.busLow ∧
      t.spc.low = s.spc.low ∧ t.spc.packInfo = ⟨none, none⟩ ∧ t.spc.startUp = s.spc.startUp ∧
      t.spc.sw = s.spc.sw ∧ t.spc.busVoltage = s.spc.busVoltage ∧
      (t.spc.soleSource = true ↔
        s.spc.startUp = false ∧ heldCondition t ≠ none ∧ chooseTarget t t.spc.feeding [] = none) ∧
      (∀ p, t.spc.preempt.get p = if preemptRuns t p then some 0 else none) ∧
      (s.slu.tx ≠ none →
        t.slu.outbox.supplyChange =
          t.spc.soleSource.toNat + (decide (t.spc.situation ≠ s.spc.situation)).toNat) ∧
      (∀ bay, (t.latch bay).release = .idle ∧ (t.latch bay).sensed = (s.latch bay).sensed ∧
        (t.latch bay).insecure = (s.latch bay).insecure ∧ (t.latch bay).stuck = (s.latch bay).stuck ∧
        (t.latch bay).stuckTimer = (s.latch bay).stuckTimer ∧ (t.latch bay).hostOwed = false ∧
        ((s.latch bay).release = .granted → (t.latch bay).faultTimer = 0) ∧
        ((s.latch bay).release ≠ .idle → (t.latch bay).lastEvent = .cancelled) ∧
        ((s.latch bay).release = .granted → (t.latch bay).commanded = .locked)) ∧
      t.scv.slots = defaultSlots ∧ t.scv.table = defaultThermistors ∧ t.scv.oneShot = none ∧
      t.scv.records = s.scv.records ∧
      t.bre.settings = .defaults ∧ t.bre.curve = defaultCurve ∧ t.bre.motionHold = false ∧
      t.lmd.settings = .defaults ∧ (∀ i, (t.lmd.strings.get i).state = .enabled) ∧
      t.mpt.rate = .hz800 ∧ t.mpt.ring = s.mpt.ring ∧ t.mpt.counters = s.mpt.counters ∧
      t.ddt.settings = .defaults ∧ t.ddt.phase = .still ∧ t.ddt.record = none ∧ t.ddt.table = s.ddt.table ∧
      t.ddt.nextSequence = s.ddt.nextSequence ∧ t.ddt.lastM2 = s.ddt.lastM2 ∧
      t.slu.queue = [] ∧ t.slu.noticeMask = 0b111111111 ∧ t.slu.wakeMask = 0b000010011 ∧ t.slu.linkErrors = 0 ∧
      t.slu.platform = s.slu.platform ∧ t.slu.uptime = s.slu.uptime ∧ t.pending = s.pending ∧
      (s.slu.tx ≠ none → replyOf .reset tag .ok [] ∈ t.slu.fifo) ∧
      t.slu.owedRelease = (if (s.latch .a).hostOwed = true ∨ (s.latch .b).hostOwed = true then none else s.slu.owedRelease) ∧
      (∀ bay rtag, (s.latch bay).hostOwed = true → (s.latch (otherBay bay)).hostOwed = false →
        s.slu.owedRelease = some rtag →
        MadeReply s t (replyOf .releaseBay rtag .cancelled (latchBytes t bay))) ∧
      (∀ c ctag, s.scv.oneShot = some c → s.slu.owedConvert = some ctag → t.slu.owedConvert = none ∧
        (s.slu.tx ≠ none → replyOf .convertNow ctag .cancelled (channelBytes (t.scv.records.get c)) ∈ t.slu.fifo)) ∧
      (∀ k, k ≠ .supplyChange → t.slu.outbox.get k = 0) ∧ SituationOk t)

/-! ### Path requests (R19 to R21) and values (R171) -/

/-- R171: a numeric setting goes to the nearest legal value, and midway to the lower one. -/
def Obligations.ClampTakesNearestLegalValue : Prop :=
  ∀ lo hi step v : Nat, 0 < step → lo ≤ hi → step ∣ hi - lo →
    let c := clampStep lo hi step v
    lo ≤ c ∧ c ≤ hi ∧ step ∣ c - lo ∧
      ∀ x, lo ≤ x → x ≤ hi → step ∣ x - lo → distance v c ≤ distance v x ∧ (distance v c = distance v x → c ≤ x)

/-- R19, R14 to R17: SET_PATH stores the clamped settings on every member, with the effective slew class set to the set class; a
TRIPPED member takes the new strategy (a retry timer under AUTO; none under REPORTED, and OPEN when it was AUTO and its fault is
read). Then availability is examined, and the reply echoes the lowest member, as the examination leaves it (log entry 26). A
member in a switchover in flight is answered BUSY, an illegal value BAD_VALUE, and nothing is stored. -/
def Obligations.SetPathStoresOnEveryMember : Prop :=
  ∀ (tag : Byte) (p : List Byte) (s : State), Ready s → p.length = 11 →
    (∀ a, pathArgs p = some a → (∀ q, a.members.get q = true → inSwitchover s q = false) → ∃ u t : State,
      exec (.setPath tag p) s = .next t ∧
      Examined (replied u (replyOf .setPath tag (okOr a.adjusted) (pathBytes t (lowestSource a.members)))) t ∧
      u = { heard s with spc := { s.spc with paths := u.spc.paths } } ∧
      ∀ q,
        (a.members.get q = false → u.path q = s.path q) ∧
        (a.members.get q = true →
          u.path q =
            { s.path q with
              settings :=
                { ocThreshold := clampStep 1000 10000 100 a.ocThreshold, blankingHalfMs := a.blankingHalfMs
                  slew := a.slew, strategy := a.strategy, retryMs := clampStep 50 2000 50 a.retryMs
                  tripLimit := clamp 1 7 a.tripLimit, derating := a.derating && q != .dcIn
                  autoEligible := a.autoEligible }
              effSlew := a.slew
              state :=
                if (s.path q).state = .tripped ∧ a.strategy = .reported ∧ (s.path q).settings.strategy = .auto ∧
                    (s.path q).fault.read = true then .opened
                else (s.path q).state
              retry :=
                if (s.path q).state = .tripped then
                  (if a.strategy = .auto then some (clampStep 50 2000 50 a.retryMs) else none)
                else (s.path q).retry })) ∧
    (∀ a q, pathArgs p = some a → a.members.get q = true → inSwitchover s q = true →
      exec (.setPath tag p) s = .next (answered .setPath tag .busy [] s)) ∧
    (pathArgs p = none → exec (.setPath tag p) s = .next (answered .setPath tag .badValue [] s))

/-- R20, R15 to R17: GET_PATH reads the lowest member of its set alone: the read flag of a fault it holds is set, and a TRIPPED
path under REPORTED becomes OPEN, which is examined as a change of availability; the reply shows the result, after that
examination (log entry 26). -/
def Obligations.GetPathReadsLowestMember : Prop :=
  ∀ (tag : Byte) (p : List Byte) (s : State), Ready s → p.length = 1 →
    (∀ m, sourceSet (at8 p 0) = some m → ∃ u t : State,
      exec (.getPath tag p) s = .next t ∧
      u =
        (heard s).setPath (lowestSource m)
          { s.path (lowestSource m) with
            fault :=
              { (s.path (lowestSource m)).fault with
                read := (s.path (lowestSource m)).fault.read || (s.path (lowestSource m)).fault.cause != .none }
            state :=
              if (s.path (lowestSource m)).state = .tripped ∧ (s.path (lowestSource m)).settings.strategy = .reported
              then .opened else (s.path (lowestSource m)).state
            retry :=
              if (s.path (lowestSource m)).state = .tripped ∧ (s.path (lowestSource m)).settings.strategy = .reported
              then none else (s.path (lowestSource m)).retry } ∧
      (if (s.path (lowestSource m)).state = .tripped ∧ (s.path (lowestSource m)).settings.strategy = .reported then
        Examined (replied u (replyOf .getPath tag .ok (pathBytes t (lowestSource m)))) t
      else t = replied u (replyOf .getPath tag .ok (pathBytes u (lowestSource m))))) ∧
    (sourceSet (at8 p 0) = none → exec (.getPath tag p) s = .next (answered .getPath tag .badValue [] s))

/-- R21: CLEAR_PATH makes every TRIPPED or LOCKED_OUT member OPEN with its retry timer stopped, clears every member's consecutive
trip count and returns its effective slew class to the set class; the fault record and the state of any other member are kept.
It is taken while a switchover is in flight, the members that become OPEN have their availability examined, and the reply OK
carries the record of the lowest member as that examination leaves it (log entry 26). -/
def Obligations.ClearPathOpensAndClears : Prop :=
  ∀ (tag : Byte) (p : List Byte) (s : State), Ready s → p.length = 1 →
    (∀ m, sourceSet (at8 p 0) = some m → ∃ u t : State,
      exec (.clearPath tag p) s = .next t ∧
      Examined (replied u (replyOf .clearPath tag .ok (pathBytes t (lowestSource m)))) t ∧
      u = { heard s with spc := { s.spc with paths := u.spc.paths } } ∧
      ∀ q,
        (m.get q = false → u.path q = s.path q) ∧
        (m.get q = true →
          u.path q =
            { s.path q with
              tripCount := 0
              effSlew := (s.path q).settings.slew
              state :=
                if (s.path q).state = .tripped ∨ (s.path q).state = .lockedOut then .opened else (s.path q).state
              retry :=
                if (s.path q).state = .tripped ∨ (s.path q).state = .lockedOut then none else (s.path q).retry })) ∧
    (sourceSet (at8 p 0) = none → exec (.clearPath tag p) s = .next (answered .clearPath tag .badValue [] s))

/-! ### Supply requests (R24, R44, R48) -/

/-- R24, R36: SET_SUPPLY stores the clamped settings in every state, restarts the preemption timers on a change of mode or order,
examines the triggers and recomputes the situation, and echoes the settings; an illegal value is refused. What an examination does
is in `Examined`: a feeding bay that is EMPTY or HOT starts its switchover where it can, and without a target sets the sole-source
flag and raises SUPPLY_CHANGE once (R34); START and PREEMPT follow (R36, R47). That the triggers are examined by level, at the end
of every such event, and that a preemption timer holds at 500 ms, is deduced (log entry 36); the low state is judged at the next
sample and not in this event (the model's choice, log entry 47). EMPTY, and HOT (R3) where there is no EMPTY, of the feeding bay
are the held conditions. -/
def Obligations.SetSupplyStores : Prop :=
  ∀ (tag : Byte) (p : List Byte) (s : State), Ready s → p.length = 27 →
    (∀ a, supplyArgs p = some a → ∃ t : State,
      exec (.setSupply tag p) s = .next t ∧
      Examined
        (replied
          { heard s with
            spc :=
              { s.spc with
                settings := a.clamped
                preempt :=
                  if a.mode = s.spc.settings.mode ∧ a.order = s.spc.settings.order then s.spc.preempt
                  else ⟨none, none, none⟩ } }
          (replyOf .setSupply tag (if a.clamped = a then .ok else .adjusted) (supplySettingsBytes a.clamped))) t ∧
      t.spc.settings = a.clamped ∧ t.spc.low = s.spc.low ∧
      ∀ q, t.spc.preempt.get q =
        if preemptRuns t q then
          some (if a.mode = s.spc.settings.mode ∧ a.order = s.spc.settings.order then (s.spc.preempt.get q).getD 0 else 0)
        else none) ∧
    (supplyArgs p = none → exec (.setSupply tag p) s = .next (answered .setSupply tag .badValue [] s)) ∧
    (heldCondition s = some .empty ↔
      ∃ bay, s.spc.feeding = some (baySource bay) ∧ (s.path (baySource bay)).isEmpty = true) ∧
    (heldCondition s = some .hot ↔
      ∃ bay, s.spc.feeding = some (baySource bay) ∧ (s.path (baySource bay)).isEmpty = false ∧
        hot s (baySource bay) = true) ∧
    (∀ r, heldCondition s = some r → r = .empty ∨ r = .hot) ∧
    hot s .dcIn = false ∧
    (∀ bay, hot s (baySource bay) = true ↔
      let r := s.scv.records.get (if bay = .a then .thBayA else .thBayB)
      r.valid = true ∧ r.stale = false ∧ 700 ≤ r.value)

/-- R48, R29 to R31, R172: an accepted SELECT_SOURCE owes its reply and starts a HOST_SELECT switchover to the named source: by
OVERLAP the to path takes its close order, which fixes the ramp of its gate (R7); by GAP the from path opens and the dead time
runs; nothing else of the part changes before the examination that ends the event (by level: deduced, log entry 36). It is refused
at once: BAD_VALUE for no source, BUSY in the start-up interval or while a switchover is in flight, NOT_ALLOWED for a source that
is not available or already feeds. Available is a source of R5's conditions; the target choice of R28 is the first available
source of the preference order that is neither the from source nor tried; and R29 gives OVERLAP to a healthy CLOSED from path
within the parallel window. A request that comes before the beginning of a switchover that RESET's examination starts (R49) is
taken, from NONE too, and takes its place: that is the model's choice (log entry 46). -/
def Obligations.SelectSourceStartsSwitchover : Prop :=
  ∀ (tag : Byte) (q : Source) (s : State), Ready s →
    (∀ p : List Byte, p.length = 1 → sourceOf (at8 p 0) = none →
      exec (.selectSource tag p) s = .next (answered .selectSource tag .badValue [] s)) ∧
    (s.spc.startUp = true ∨ inFlight s = true →
      exec (.selectSource tag [BitVec.ofNat 8 (Source.code q)]) s = .next (answered .selectSource tag .busy [] s)) ∧
    (canStart s = true → available s q = false ∨ s.spc.feeding = some q →
      exec (.selectSource tag [BitVec.ofNat 8 (Source.code q)]) s = .next (answered .selectSource tag .notAllowed [] s)) ∧
    (canStart s = true → available s q = true → s.spc.feeding ≠ some q →
    ∃ u t : State, exec (.selectSource tag [BitVec.ofNat 8 (Source.code q)]) s = .next t ∧ Examined u t ∧
      u =
        { s with
          slu := { s.slu with wake := false, owedSelect := some tag }
          spc :=
            { s.spc with
              paths := t.spc.paths, sw := t.spc.sw, overlapTimer := none, deadTimer := t.spc.deadTimer
              lossTimer := t.spc.lossTimer } } ∧
      t.spc.lossTimer = (if chooseMode s s.spc.feeding q = .overlap then s.spc.lossTimer else none) ∧
      t.spc.sw =
        { reason := .hostSelect, fromSrc := s.spc.feeding, toSrc := q, mode := chooseMode s s.spc.feeding q
          phase :=
            match chooseMode s s.spc.feeding q, s.spc.feeding with
            | .overlap, _ => .ovlClose
            | .gap, some _ => .gapDead
            | .gap, none => .gapClose
          tried := [], outcome := s.spc.sw.outcome } ∧
      t.spc.feeding = s.spc.feeding ∧
      (chooseMode s s.spc.feeding q = .overlap ∨ s.spc.feeding = none →
        t.spc.deadTimer = none ∧ gateDrive t q = .ramping (s.path q).effSlew ∧
        t.path q =
          { s.path q with
            state := .closing, rampSlew := (s.path q).effSlew, blanking := some (s.path q).windowUs, overCount := 0 } ∧
        ∀ x, x ≠ q → t.path x = s.path x) ∧
      (∀ f, chooseMode s s.spc.feeding q = .gap → s.spc.feeding = some f →
        gateDrive t f = .off ∧ t.spc.deadTimer = some s.spc.settings.deadUs ∧
        ∀ x, x ≠ f → t.path x = s.path x)) ∧
    (∀ x, present s x = true ↔ (if x = .dcIn then 17000 else 6000) ≤ (s.path x).voltage) ∧
    (available s q = true ↔
      present s q = true ∧ (q = .dcIn → (s.path q).voltage < 22000) ∧
        ((s.path q).state = .opened ∨ s.spc.feeding = some q) ∧
        (s.spc.settings.mode = .manual ∨ (s.path q).settings.autoEligible = true) ∧
        ∀ bay, baySource bay = q →
          (s.latch bay).commanded = .locked ∧ (s.latch bay).release = .idle ∧ hot s q = false ∧ (s.path q).isEmpty = false ∧
            ((s.latch bay).insecure = false ∨ ∀ x, x ≠ q → present s x = false)) ∧
    (∀ (f : Option Source) (tried : List Source),
      let can := fun x => available s x = true ∧ f ≠ some x ∧ x ∉ tried
      (chooseTarget s f tried = some q ↔
        ∃ before after, s.spc.settings.order = before ++ q :: after ∧ can q ∧ ∀ x ∈ before, ¬can x) ∧
      (chooseTarget s f tried = none ↔ ∀ x ∈ s.spc.settings.order, ¬can x)) ∧
    (∀ f : Option Source, chooseMode s f q = .overlap ↔
      ∃ x, f = some x ∧ (s.path x).state = .closed ∧ present s x = true ∧ s.spc.lossTimer = none ∧
        (x = .dcIn → (s.path x).voltage < 22000) ∧
        (s.path x).voltage ≤ (s.path q).voltage + s.spc.settings.parallelMv ∧
        (s.path q).voltage ≤ (s.path x).voltage + s.spc.settings.parallelMv)

/-- R44, R45: PACK_INFO stores a bay's charge, at most 100, which resets its low state, or clears it when the request carries none;
a bay that is not present or is commanded UNLOCKED is NOT_ALLOWED, with a charge or without one, and no bay is BAD_VALUE. That the
triggers are examined at its end, by level, is the model's and no rule's (deduced, log entry 36), and so is the event in which a
switchover that RESET left to begin starts, which may be this one (the model's choice, log entry 46). -/
def Obligations.PackInfoStoresCharge : Prop :=
  ∀ (tag charge : Byte) (bay : Bay) (s : State), Ready s →
    (present s (baySource bay) = true → (s.latch bay).commanded = .locked →
      (∃ t : State, exec (.packInfo tag [BitVec.ofNat 8 (bayCode bay), charge]) s = .next t ∧
        Examined
          (replied
            { heard s with
              spc :=
                { s.spc with
                  packInfo := s.spc.packInfo.set bay (some (min 100 charge.toNat)), low := s.spc.low.set bay false } }
            (replyOf .packInfo tag (if 100 < charge.toNat then .adjusted else .ok)
              [BitVec.ofNat 8 (bayCode bay), 1, BitVec.ofNat 8 (min 100 charge.toNat)])) t) ∧
      (∃ t : State, exec (.packInfo tag [BitVec.ofNat 8 (bayCode bay)]) s = .next t ∧
        Examined
          (replied { heard s with spc := { s.spc with packInfo := s.spc.packInfo.set bay none } }
            (replyOf .packInfo tag .ok [BitVec.ofNat 8 (bayCode bay), 0, 0])) t)) ∧
    (present s (baySource bay) = false ∨ (s.latch bay).commanded = .unlocked →
      exec (.packInfo tag [BitVec.ofNat 8 (bayCode bay), charge]) s =
        .next (answered .packInfo tag .notAllowed [] s) ∧
      exec (.packInfo tag [BitVec.ofNat 8 (bayCode bay)]) s = .next (answered .packInfo tag .notAllowed [] s)) ∧
    (∀ p : List Byte, p.length = 1 ∨ p.length = 2 → bayOf (at8 p 0) = none →
      exec (.packInfo tag p) s = .next (answered .packInfo tag .badValue [] s))

/-! ### Monitor samples (R1, R2, R10 to R13, R33, R42) -/

/-- R1, R180: a sample stores all its readings together, voltages at most 65,535 mV and currents in 16 bits, with the uptime,
which the tenth sample of a millisecond has moved on (log entry 1). It leaves the settings, the motion side, the receiver, the
queue and the masks alone, of the SCV changes the ages only, and of the BRE and the LMD what the allowance cap moves. It advances
the closed time (R18), the empty timers (R4), the channel ages (R66), the latch timers and the release window (R57, R59, R60) and,
where every source is calm, the preemption timers (R36); a counter waits one short of its limit, whose end the sender tells, and a
preemption timer or a stuck timer that has ended holds (log entries 2 and 36). A battery that a sample shows removed from a
GRANTED bay locks the latch, ends the release REMOVED and raises RELEASE (R57), and a bay that is not present loses its pack info,
its low state and EMPTY (R4, R44, R45). DC_IN at 22,000 mV or more while CLOSING or CLOSED opens without a trip (R2); outside a
switchover, closed, feeding and with both bays calm, a GAP switchover with reason OVERVOLT follows, or NONE feeds when there is no
target (R28, R35). That this holds whatever the current of DC_IN, one above the short limit included, so that no SHORT trip follows
the opening, is deduced and not stated by a rule (log entry 8). -/
def Obligations.SampleStoresMeasurements : Prop :=
  ∀ (r : Readings) (s : State), ∃ t, exec (.monitorSample r) s = .next t ∧
    t.slu.uptime = nextUptime s ∧
    (∀ p, (t.path p).voltage = min 65535 (volts r p) ∧
      (t.path p).current = max (-32768) (min 32767 (amps r p)) ∧ (t.path p).sampleUptime = nextUptime s ∧
      (t.path p).settings = (s.path p).settings) ∧
    t.spc.busVoltage = min 65535 r.vBus ∧ t.spc.settings = s.spc.settings ∧ t.spc.startUp = s.spc.startUp ∧
    t.mpt = s.mpt ∧ t.ddt = s.ddt ∧ t.pending = s.pending ∧ t.ltc.armed = s.ltc.armed ∧
    t.slu.rx = s.slu.rx ∧ t.slu.queue = s.slu.queue ∧ t.slu.noticeMask = s.slu.noticeMask ∧
    t.slu.wakeMask = s.slu.wakeMask ∧ t.slu.platform = s.slu.platform ∧ t.slu.linkErrors = s.slu.linkErrors ∧
    t.slu.owedConvert = s.slu.owedConvert ∧
    t.scv = { s.scv with records := t.scv.records } ∧
    (∀ c, t.scv.records.get c = { s.scv.records.get c with age := (t.scv.records.get c).age }) ∧
    CapFrame s t ∧ SituationOk t ∧ SampledTimes r s t ∧ (∀ bay, SampledBay r s t bay) ∧
    ((∀ x, CalmSource r s x) → ∀ p,
      t.spc.preempt.get p =
        if preemptRuns t p then
          some (((s.spc.preempt.get p).map (fun n => if n = 5000 then 5000 else min 4999 (n + 1))).getD 0)
        else none) ∧
    (gateDriven s .dcIn = true → 22000 ≤ r.vDc →
      (t.path .dcIn).state = .opened ∧ gateDrive t .dcIn = .off ∧ (t.path .dcIn).tripCount = (s.path .dcIn).tripCount ∧
        (t.path .dcIn).fault = (s.path .dcIn).fault) ∧
    (s.spc.feeding = some .dcIn → s.spc.sw.phase = .idle → (s.path .dcIn).state = .closed → 22000 ≤ r.vDc →
      CalmSource r s .bayA → CalmSource r s .bayB →
      (∀ q, chooseTarget (openOrder .dcIn (sampled r s)) (some .dcIn) [] = some q →
        t.spc.sw =
          { reason := .overvolt, fromSrc := some .dcIn, toSrc := q, mode := .gap, phase := .gapDead, tried := []
            outcome := s.spc.sw.outcome } ∧
        t.spc.deadTimer = some s.spc.settings.deadUs ∧ t.spc.feeding = some .dcIn) ∧
      (chooseTarget (openOrder .dcIn (sampled r s)) (some .dcIn) [] = none →
        t.spc.feeding = none ∧ t.spc.sw.outcome = .fellToNone))

/-- R11: the derating step by the bay temperature, and the threshold in force. -/
def Obligations.ThresholdFollowsTemperature : Prop :=
  ∀ s : State,
    derating s .dcIn = 0 ∧
    (∀ p, threshold s p = (s.path p).settings.ocThreshold * (8 - derating s p) / 8 ∧
      shortLimit s p = 3 * threshold s p) ∧
    (∀ bay, (s.path (baySource bay)).settings.derating = false → derating s (baySource bay) = 0) ∧
    (∀ bay, (s.path (baySource bay)).settings.derating = true →
      let r := s.scv.records.get (if bay = .a then .thBayA else .thBayB)
      (r.valid = false ∨ r.stale = true → derating s (baySource bay) = 3) ∧
      (r.valid = true → r.stale = false →
        (r.value < 0 → derating s (baySource bay) = 2) ∧
        (0 ≤ r.value → r.value ≤ 449 → derating s (baySource bay) = 0) ∧
        (450 ≤ r.value → r.value ≤ 549 → derating s (baySource bay) = 1) ∧
        (550 ≤ r.value → r.value ≤ 599 → derating s (baySource bay) = 2) ∧
        (600 ≤ r.value → derating s (baySource bay) = 3)))

/-- R10, R12, R13, R15: a sample of the feeding path, closed with the other gates off and its source neither lost nor over the
voltage limit: a current above the short limit trips it with SHORT; the second sample in a row above the threshold in force
trips it with OVERCURRENT, the first is counted, and a sample at or below the threshold clears the count. A path that the same
sample leaves for another reason has its count cleared with it (R17). The uptime of the fault record is that of the sample (log
entry 1). -/
def Obligations.SampleProtectsFeedingPath : Prop :=
  ∀ (p : Source) (r : Readings) (s : State), s.spc.feeding = some p → s.spc.sw.phase = .idle →
    (s.path p).state = .closed → (∀ q, q ≠ p → gateDriven s q = false) →
    presentAt p (min 65535 (volts r p)) = true → (p = .dcIn → volts r p < Config.dcOvervoltMv) →
    let i := max (-32768) (min 32767 (amps r p))
    let th := threshold s p
    ∃ t, exec (.monitorSample r) s = .next t ∧
      (∀ cause, ((3 * th : Nat) : Int) < i ∧ cause = .short ∨
          i ≤ ((3 * th : Nat) : Int) ∧ (th : Int) < i ∧ (s.path p).overCount ≠ 0 ∧ cause = .overcurrent →
        ∃ x : PathRecord, t.path p = tripped x cause i th (derating s p) (nextUptime s) false ∧
          x.settings = (s.path p).settings ∧ x.tripCount = (s.path p).tripCount ∧ x.effSlew = (s.path p).effSlew) ∧
      (i ≤ ((3 * th : Nat) : Int) → (th : Int) < i → (s.path p).overCount = 0 →
        (t.path p).tripCount = (s.path p).tripCount ∧ (t.path p).fault = (s.path p).fault ∧
        ((t.path p).state = .closed ∧ (t.path p).overCount = 1 ∨ (t.path p).state = .opened)) ∧
      (i ≤ (th : Int) →
        (t.path p).tripCount = (s.path p).tripCount ∧ (t.path p).fault = (s.path p).fault ∧
        (t.path p).overCount = 0 ∧ ((t.path p).state = .closed ∨ (t.path p).state = .opened))

/-- R33, R28: the sample at which a loss is declared opens the lost path and, outside a switchover, starts a GAP switchover with
reason LOSS, or leaves NONE feeding when there is no target; in an OVERLAP switchover whose from path it is, the switchover goes
on as GAP, or completes when its to path is closed (R40): a RELEASE ask is answered MOVED then (R55), and that the reply of a
SELECT_SOURCE shows the switchover before the triggers of the same event are examined is deduced (log entry 52). A sample that
declares none is not this event (log entry 4). A loss is declared when the feeding path is CLOSED, no GAP switchover is in flight,
its source is not present, and the loss timer has run 200 µs with the motion phase STILL; outside STILL when it has run the
ride-through interval or the bus voltage is below the bus-low threshold. -/
def Obligations.LossOpensAndLeavesTheSource : Prop :=
  ∀ (r : Readings) (s : State),
    (∀ f, lossHere (sampledPaths r s) = some f → ∃ t, exec (.lossDeclared r) s = .next t ∧
      exec (.monitorSample r) s = .next t ∧ (t.path f).state = .opened ∧
      (inFlight (sampledPaths r s) = false →
        (∀ x, chooseTarget (openOrder f (sampledPaths r s)) (some f) [] = some x →
          t.spc.sw.reason = .loss ∧ t.spc.sw.fromSrc = some f ∧ t.spc.sw.toSrc = x ∧ t.spc.sw.mode = .gap ∧
          t.spc.sw.phase = .gapDead ∧ t.spc.sw.tried = [] ∧ t.spc.deadTimer = some s.spc.settings.deadUs ∧
          t.spc.lossTimer = none ∧ t.spc.situation = .shed) ∧
        (chooseTarget (openOrder f (sampledPaths r s)) (some f) [] = none →
          t.spc.feeding = none ∧ t.spc.sw.outcome = .fellToNone ∧ t.spc.busLow = false)) ∧
      ((sampledPaths r s).spc.sw.fromSrc = some f → (sampledPaths r s).spc.sw.toSrc ≠ f →
        ((sampledPaths r s).spc.sw.phase = .ovlClose ∨ (sampledPaths r s).spc.sw.phase = .ovlHold) →
        FromPathLost (sampledPaths r s) t ∧
        ((sampledPaths r s).spc.sw.phase = .ovlClose → t.spc.situation = .shed) ∧
        ((sampledPaths r s).spc.sw.phase = .ovlHold → ∀ bay, AskInFlight bay (sampledPaths r s) →
          AskMoved (Joins (sampledPaths r s) t) bay (sampledPaths r s) t))) ∧
    (lossHere (sampledPaths r s) = none → exec (.lossDeclared r) s = .next s) ∧
    (∀ (v : State) (f : Source),
      lossHere v = some f ↔
        v.spc.feeding = some f ∧ (v.path f).state = .closed ∧
        (v.spc.sw.phase = .idle ∨ v.spc.sw.phase = .ovlClose ∨ v.spc.sw.phase = .ovlHold) ∧ present v f = false ∧
        (if v.ddt.phase = .still then ∃ n, v.spc.lossTimer = some n ∧ 2 ≤ n + 1
         else (∃ n, v.spc.lossTimer = some n ∧ v.spc.settings.rideMs * 10 ≤ n + 1) ∨
           v.spc.busVoltage < v.spc.settings.busLowMv ∨ v.spc.settings.rideMs = 0))

/-- R42, R43, R45: with a feeding source and bus-low inactive, each sample below the bus-low threshold adds to the below count and
any other clears it; the third in a row activates bus-low and raises BUS_LOW, and with action SHED the situation is SHED and the
allowance cap its cap. While bus-low is active, each sample 500 mV or more above the threshold advances the recovery timer, which
waits one sample short of 10 ms, and any other stops it. When it has run 10 ms, which the sender tells (log entry 2), bus-low is
inactive and both counters are clear, and the triggers are examined, by level (deduced, log entry 36). A BUS_LOW_RECOVERY with
bus-low inactive or its timer not running changes nothing (the model's choice, log entry 3), and a sample that does not activate
bus-low is not BUS_LOW_ACTIVATE (log entry 4). -/
def Obligations.BusLowActivatesAndRecovers : Prop :=
  (∀ v : State, busLowHere v = true ↔
    v.spc.feeding ≠ none ∧ v.spc.busLow = false ∧ v.spc.busVoltage < v.spc.settings.busLowMv ∧ 3 ≤ v.spc.belowCount + 1) ∧
  ∀ (r : Readings) (s : State),
    ((∀ x, CalmSource r s x) → s.spc.feeding ≠ none →
      let mv := min 65535 r.vBus
      let third := mv < s.spc.settings.busLowMv ∧ 3 ≤ s.spc.belowCount + 1
      ∃ t, exec (.monitorSample r) s = .next t ∧
        (s.spc.busLow = false →
          t.spc.belowCount = (if mv < s.spc.settings.busLowMv then s.spc.belowCount + 1 else 0) ∧
          t.spc.recoveryTimer = s.spc.recoveryTimer ∧ (t.spc.busLow = true ↔ third) ∧
          (third → exec (.busLowActivate r) s = .next t) ∧
          (¬third → exec (.busLowActivate r) s = .next s)) ∧
        (s.spc.busLow = true →
          t.spc.busLow = true ∧ t.spc.belowCount = s.spc.belowCount ∧
          t.spc.recoveryTimer =
            (if s.spc.settings.busLowMv + 500 ≤ mv then
              some (s.spc.recoveryTimer.elim 0 (fun n => min 99 (n + 1)))
             else none))) ∧
    (busLowHere (lossStep (sampledPaths r s)) = true → ∃ t, exec (.busLowActivate r) s = .next t ∧
      exec (.monitorSample r) s = .next t ∧ t.spc.busLow = true ∧ t.spc.busVoltage < t.spc.settings.busLowMv ∧
      t.spc.feeding ≠ none ∧ t.spc.belowCount = (lossStep (sampledPaths r s)).spc.belowCount + 1 ∧
      (s.spc.settings.busLowAction = .shed → t.spc.situation = .shed ∧ t.spc.cap = s.spc.settings.caps.shed) ∧
      (s.slu.tx ≠ none → inMask s.slu.noticeMask .busLow = true →
        t.slu.outbox.busLow = min 255 (s.slu.outbox.busLow + 1))) ∧
    (busLowHere (lossStep (sampledPaths r s)) = false → exec (.busLowActivate r) s = .next s) ∧
    (TransmitterOk s → s.spc.busLow = true → s.spc.recoveryTimer ≠ none → ∃ t, exec .busLowRecovery s = .next t ∧
      t.spc.busLow = false ∧ t.spc.belowCount = 0 ∧ t.spc.recoveryTimer = none ∧
      Examined { s with spc := { s.spc with busLow := false, belowCount := 0, recoveryTimer := none } } t) ∧
    (s.spc.busLow = false ∨ s.spc.recoveryTimer = none → exec .busLowRecovery s = .next s)

/-! ### The SPC's timers (R4, R8, R15, R18, R30, R31, R36, R47) -/

/-- R4: a running empty timer sets EMPTY, or clears it, and stops; the change of availability is examined (every trigger by level:
deduced, log entry 36). That the expiry of a timer that does not run changes nothing is the model's choice (log entry 3). -/
def Obligations.EmptyTimerTogglesEmpty : Prop :=
  ∀ (bay : Bay) (s : State), TransmitterOk s →
    ((s.path (baySource bay)).emptyTimer ≠ none → ∃ t, exec (.emptyTimerExpiry bay) s = .next t ∧
      Examined
        (s.setPath (baySource bay)
          { s.path (baySource bay) with isEmpty := !(s.path (baySource bay)).isEmpty, emptyTimer := none }) t) ∧
    ((s.path (baySource bay)).emptyTimer = none → exec (.emptyTimerExpiry bay) s = .next s)

/-- R8, R13, R14: a blanking window that ends above the threshold in force trips its path with INRUSH, which escalates its
effective slew class, and raises PATH_FAULT; what follows the trip is in the supply and the latches alone. A path that fails
inside a switchover, at the end of its window or in a sample: the to path ends an OVERLAP switchover FAILED with the from source
feeding (R39; an EMPTY or HOT one starts afresh, log entry 25), and in GAP_CLOSE it joins the tried sources, with the next target
after the dead time or NONE feeding (R41); a lost from path turns OVERLAP into GAP (R40). At such an end a bay's RELEASE ask is
answered FAILED, and the release refused, when the bay feeds on, and MOVED otherwise (R55). A FAILED reply shows the switchover as
it then stands (deduced, log entry 26), and the reply at an end shows it before the triggers of the same event are examined
(deduced, log entry 52). Two more things here are deduced and not stated by a rule: that a to path whose source is gone in a
sample drops out whatever its current, the dropout before the short limit (log entry 8), and that the end of a blanking window
compares with the threshold computed at that moment, not with that of the latest sample (log entry 41, against R11's from the next
sample). -/
def Obligations.BlankingEndTripsOnInrush : Prop :=
  (∀ (p : Source) (s : State), (s.path p).state = .closing → (threshold s p : Int) < (s.path p).current →
    ∃ t, exec (.blankingEnd p) s = .next t ∧
      t.path p = tripped (s.path p) .inrush (s.path p).current (threshold s p) (derating s p) s.slu.uptime true ∧
      (s.slu.tx ≠ none → inMask s.slu.noticeMask .pathFault = true →
        t.slu.outbox.pathFault = min 255 (s.slu.outbox.pathFault + 1)) ∧
      SupplyFrame (s.setPath p (t.path p)) t ∧
      (s.spc.sw.toSrc = p →
        (s.spc.sw.phase = .ovlClose ∨ s.spc.sw.phase = .ovlHold →
          ToPathFailed 2 (s.setPath p (t.path p)) t ∧ ∀ bay, AskInFlight bay s → BayRefused (Joins s t) bay s t) ∧
        (s.spc.sw.phase = .gapClose →
          GapTargetFailed 2 (s.setPath p (t.path p)) t ∧
            (chooseTarget (s.setPath p (t.path p)) s.spc.sw.fromSrc (s.spc.sw.tried ++ [p]) = none →
              ∀ bay, AskInFlight bay s → AskMoved (Joins s t) bay s t)))) ∧
  (∀ (p : Source) (report : DownReport) (w : State),
    let reason : Byte := if report = .tripped then 2 else 3
    let t := pathDown p report w
    (w.spc.sw.toSrc = p →
      (w.spc.sw.phase = .ovlClose ∨ w.spc.sw.phase = .ovlHold →
        ToPathFailed reason w t ∧ ∀ bay, AskInFlight bay w → BayRefused (Joins w t) bay w t) ∧
      (w.spc.sw.phase = .gapClose →
        GapTargetFailed reason w t ∧
          (chooseTarget w w.spc.sw.fromSrc (w.spc.sw.tried ++ [p]) = none →
            ∀ bay, AskInFlight bay w → AskMoved (Joins w t) bay w t))) ∧
    (w.spc.sw.fromSrc = some p → w.spc.sw.toSrc ≠ p → w.spc.sw.phase = .ovlClose ∨ w.spc.sw.phase = .ovlHold →
      FromPathLost w t ∧ (w.spc.sw.phase = .ovlHold → ∀ bay, AskInFlight bay w → AskMoved (Joins w t) bay w t))) ∧
  ∀ (p : Source) (r : Readings) (s : State), (∀ x, x ≠ p → CalmSource r s x) →
    ∃ t, exec (.monitorSample r) s = .next t ∧
      (s.spc.sw.toSrc = p → presentAt p (min 65535 (volts r p)) = false →
        (s.spc.sw.phase = .ovlClose ∧ (s.path p).state = .closing ∨
            s.spc.sw.phase = .ovlHold ∧ (s.path p).state = .closed ∧
              max (-32768) (min 32767 (amps r p)) ≤ (threshold s p : Int) →
          gateDrive t p = .off ∧ ToPathFailed 3 (openOrder p (sampled r s)) t) ∧
        (s.spc.sw.phase = .gapClose → (s.path p).state = .closing →
          gateDrive t p = .off ∧ GapTargetFailed 3 (openOrder p (sampled r s)) t)) ∧
      (s.spc.sw.fromSrc = some p → s.spc.sw.toSrc ≠ p → s.spc.sw.phase = .ovlClose ∨ s.spc.sw.phase = .ovlHold →
        (s.path p).state = .closed →
        ((3 * threshold s p : Nat) : Int) < max (-32768) (min 32767 (amps r p)) →
        gateDrive t p = .off ∧ FromPathLost s t)

/-- R8, R30 to R32, R48, R55: a blanking window that ends at or below the threshold in force closes its path. In OVL_CLOSE the to
path's closing starts the overlap time; in GAP_CLOSE it completes the switchover. A SELECT_SOURCE that started it is answered OK;
that its reply shows the switchover as it ended, before the triggers of the same event are examined, is deduced (log entry 52). A
bay's RELEASE ask that started it is answered MOVED: in STILL the bay is granted, outside STILL it waits for the motion phase.
That the threshold in force is the one computed at the end of the window is deduced (log entry 41, against R11's from the next
sample). -/
def Obligations.BlankingEndClosesPath : Prop :=
  ∀ (p : Source) (s : State), TransmitterOk s →
    (s.path p).state = .closing → (s.path p).current ≤ (threshold s p : Int) →
    ∃ t, exec (.blankingEnd p) s = .next t ∧
      SupplyFrame (s.setPath p { s.path p with state := .closed, blanking := none, overCount := 0, closedTime := 0 }) t ∧
      (s.spc.sw.phase = .ovlClose → s.spc.sw.toSrc = p →
        t.path p = { s.path p with state := .closed, blanking := none, overCount := 0, closedTime := 0 } ∧
        gateDrive t p = .fullyOn ∧
        t.spc.sw = { s.spc.sw with phase := .ovlHold } ∧ t.spc.overlapTimer = some s.spc.settings.overlapMs ∧
        t.spc.feeding = s.spc.feeding) ∧
      (s.spc.sw.phase = .gapClose → s.spc.sw.toSrc = p →
        t.spc.feeding = some p ∧ t.spc.sw.outcome = .completed ∧
        (gateDriven t p = true ∨ t.spc.sw.fromSrc = some p) ∧
        (∀ tag, s.spc.sw.reason = .hostSelect → s.slu.owedSelect = some tag →
          t.slu.owedSelect = none ∧
          MadeReply s t
            { tag := tag
              payload :=
                [0x15, 0, BitVec.ofNat 8 (Source.code p)] ++
                  switchoverBytes { s.spc.sw with phase := .idle, tried := [], outcome := .completed } }) ∧
        ∀ bay, AskInFlight bay s → p ≠ baySource bay → AskMoved (MadeReply s t) bay s t)

/-- R15, R18: the retry timer's expiry makes a TRIPPED path OPEN, and its availability is examined (every trigger by level:
deduced, log entry 36). After 10 s in CLOSED the consecutive trip count is 0 and the effective slew class the set class; the
counter holds, so this happens once in a closed interval, and the fault record is not touched. That either event changes nothing
where its timer does not run is the model's choice (log entry 3). -/
def Obligations.RetryAndGoodCloseRecoverPaths : Prop :=
  ∀ (p : Source) (s : State),
    (TransmitterOk s → (s.path p).state = .tripped → (s.path p).retry ≠ none →
      ∃ t, exec (.retryTimerExpiry p) s = .next t ∧
        Examined (s.setPath p { s.path p with state := .opened, retry := none }) t) ∧
    ((s.path p).state ≠ .tripped ∨ (s.path p).retry = none → exec (.retryTimerExpiry p) s = .next s) ∧
    ((s.path p).state = .closed → (s.path p).closedTime ≠ 100000 →
      exec (.goodCloseInterval p) s =
        .next
          (s.setPath p { s.path p with closedTime := 100000, tripCount := 0, effSlew := (s.path p).settings.slew })) ∧
    ((s.path p).state ≠ .closed ∨ (s.path p).closedTime = 100000 → exec (.goodCloseInterval p) s = .next s)

/-- R47: at the end of the start-up interval a START switchover from NONE closes the first available source in the preference
order; with none available NONE feeds on. That every trigger is examined then, by level, is deduced (log entry 36). -/
def Obligations.StartUpEndStartsFirstAvailable : Prop :=
  ∀ s : State, TransmitterOk s → s.spc.startUp = true → s.spc.feeding = none → s.spc.sw.phase = .idle →
    ∃ t, exec .startUpIntervalEnd s = .next t ∧ t.spc.startUp = false ∧ t.spc.feeding = none ∧
      Examined { s with spc := { s.spc with startUp := false } } t ∧
      (∀ q, s.spc.settings.order.find? (fun x => available s x) = some q →
        t.spc.sw =
          { reason := .start, fromSrc := none, toSrc := q, mode := .gap, phase := .gapClose, tried := []
            outcome := s.spc.sw.outcome } ∧
        gateDrive t q = .ramping (s.path q).effSlew ∧
        t.path q =
          { s.path q with
            state := .closing, rampSlew := (s.path q).effSlew, blanking := some (s.path q).windowUs, overCount := 0 }) ∧
      (s.spc.settings.order.find? (fun x => available s x) = none → inFlight t = false)

/-- R31, R28, R48, R55: the dead time's expiry closes the target when it is still available; otherwise the next candidate outside
the from source and the tried ones, to which the old target is appended, with FAILED (TARGET_UNAVAILABLE) for a HOST_SELECT; and
with no candidate left NONE feeds, the outcome is FELL_TO_NONE, and a bay's RELEASE ask that started it is answered MOVED. The
FAILED reply shows the switchover with its new target (deduced, log entry 26); at the end it shows it before the triggers of the
same event are examined (deduced, log entry 52). -/
def Obligations.DeadTimeExpiryClosesTarget : Prop :=
  ∀ s : State, TransmitterOk s → s.spc.sw.phase = .gapDead →
    ∃ t, exec .deadTimeExpiry s = .next t ∧ SupplyFrame s t ∧
      (available s s.spc.sw.toSrc = true →
        t.spc.sw = { s.spc.sw with phase := .gapClose } ∧ t.spc.deadTimer = none ∧
        t.path s.spc.sw.toSrc = (s.path s.spc.sw.toSrc).closeOrdered ∧
        ∀ x, x ≠ s.spc.sw.toSrc → t.path x = s.path x) ∧
      (available s s.spc.sw.toSrc = false → ∀ x,
        chooseTarget s s.spc.sw.fromSrc (s.spc.sw.tried ++ [s.spc.sw.toSrc]) = some x →
        t.spc.sw = { s.spc.sw with phase := .gapClose, toSrc := x, tried := s.spc.sw.tried ++ [s.spc.sw.toSrc] } ∧
        t.spc.deadTimer = none ∧ t.path x = (s.path x).closeOrdered ∧
        ∀ tag, s.spc.sw.reason = .hostSelect → s.slu.owedSelect = some tag →
          t.slu.owedSelect = none ∧
          MadeReply s t
            { tag := tag
              payload :=
                [0x15, 10, 4, BitVec.ofNat 8 (sourceCode s.spc.feeding)] ++ switchoverBytes t.spc.sw }) ∧
      (available s s.spc.sw.toSrc = false →
        chooseTarget s s.spc.sw.fromSrc (s.spc.sw.tried ++ [s.spc.sw.toSrc]) = none →
        t.spc.feeding = none ∧ t.spc.sw.outcome = .fellToNone ∧ (s.spc.feeding ≠ none → t.spc.busLow = false) ∧
        (∀ tag, s.spc.sw.reason = .hostSelect → s.slu.owedSelect = some tag →
          t.slu.owedSelect = none ∧
          MadeReply s t
            { tag := tag
              payload :=
                [0x15, 10, 4, BitVec.ofNat 8 (sourceCode none)] ++
                  switchoverBytes { s.spc.sw with phase := .idle, tried := [], outcome := .fellToNone } }) ∧
        ∀ bay, AskInFlight bay s → AskMoved (MadeReply s t) bay s t)

/-- R30, R32, R48, R55: the overlap time's expiry opens the from path and completes the switchover: the to source feeds. A
SELECT_SOURCE is answered OK; that its reply shows the switchover as it ended, before the triggers of the same event are examined,
is deduced (log entry 52). A bay's RELEASE ask is answered MOVED: in STILL the bay is granted, outside STILL it waits for the
motion phase. -/
def Obligations.OverlapExpiryCompletes : Prop :=
  ∀ (f : Source) (s : State), TransmitterOk s → s.spc.sw.phase = .ovlHold → s.spc.sw.fromSrc = some f →
    f ≠ s.spc.sw.toSrc → ∃ t, exec .overlapTimerExpiry s = .next t ∧ SupplyFrame s t ∧
      t.spc.feeding = some s.spc.sw.toSrc ∧ t.spc.sw.outcome = .completed ∧
      (gateDriven t f = true → inFlight t = true ∧ t.spc.sw.toSrc = f) ∧
      (∀ tag, s.spc.sw.reason = .hostSelect → s.slu.owedSelect = some tag →
        t.slu.owedSelect = none ∧
        MadeReply s t
          { tag := tag
            payload :=
              [0x15, 0, BitVec.ofNat 8 (Source.code s.spc.sw.toSrc)] ++
                switchoverBytes { s.spc.sw with phase := .idle, tried := [], outcome := .completed } }) ∧
      (∀ bay, AskInFlight bay s → AskMoved (MadeReply s t) bay s t)

/-- R36: a preemption timer that has run 500 ms holds there while it runs, whether or not PREEMPT can start; in STILL, with no
switchover in flight and no held trigger, a PREEMPT switchover starts to its source when no other timer holds there. A timer runs
in mode AUTO for an available source that stands before the feeding source in the preference order, and is clear otherwise. That
it holds at 500 ms and is examined by level is deduced (log entry 36); that the expiry of a timer that does not run changes
nothing is the model's choice (log entry 3). -/
def Obligations.PreemptionExpiryStartsPreempt : Prop :=
  ∀ (p : Source) (s : State), (s.spc.preempt.get p = none → exec (.preemptionTimerExpiry p) s = .next s) ∧
    (preemptRuns s p = true ↔
      s.spc.settings.mode = .auto ∧ available s p = true ∧
        ∃ before after, s.spc.settings.order = before ++ p :: after ∧
          ∀ f, s.spc.feeding = some f → f ∉ before ∧ f ≠ p) ∧
    (TransmitterOk s → s.spc.preempt.get p ≠ none → ∃ t, exec (.preemptionTimerExpiry p) s = .next t ∧
      Examined { s with spc := { s.spc with preempt := s.spc.preempt.set p (some 5000) } } t ∧
      t.spc.preempt.get p = (if preemptRuns t p then some 5000 else none) ∧
      (∀ q, q ≠ p → t.spc.preempt.get q = if preemptRuns t q then some ((s.spc.preempt.get q).getD 0) else none) ∧
      (canStart s = true → s.ddt.phase = .still → heldCondition s = none → preemptRuns s p = true →
        s.spc.feeding ≠ none → (∀ q, q ≠ p → s.spc.preempt.get q ≠ some 5000) →
        t.spc.sw.reason = .preempt ∧ t.spc.sw.fromSrc = s.spc.feeding ∧ t.spc.sw.toSrc = p ∧ inFlight t = true))

/-! ### The laws of the supply (R25, R27, R45, R56) -/

/-- R25, R27, R56: every step keeps the paths as the switchover says, the feeding source the from source while one is in flight,
and a latch unlocked only while its bay is GRANTED, with its path open, the other latch locked and the motion phase STILL. -/
def Obligations.StepKeepsSupplyLaws : Prop :=
  ∀ s t : State, SupplyOk s → step s = .next t → SupplyOk t

/-- R27: at most two paths are closing or closed at once, and two only in OVL_CLOSE or OVL_HOLD, as its from and to paths. -/
def Obligations.AtMostTwoPathsConduct : Prop :=
  ∀ (s : State) (p q : Source), PathsOk s → p ≠ q → gateDriven s p = true → gateDriven s q = true →
    (s.spc.sw.phase = .ovlClose ∨ s.spc.sw.phase = .ovlHold) ∧
    ((s.spc.sw.fromSrc = some p ∧ s.spc.sw.toSrc = q) ∨ (s.spc.sw.fromSrc = some q ∧ s.spc.sw.toSrc = p)) ∧
    ∀ x, gateDriven s x = true → x = p ∨ x = q

/-- R45, R46: after every step the supply situation is the first that applies, and the allowance cap is its cap. SHED applies
while bus-low is active with action SHED, in a GAP switchover, and with NONE feeding; then DC while DC_IN feeds; then LOW while
the feeding battery is low, by its stored charge, and without one by its low state; then PAIR while both bays hold a present
battery that feeds or is available; and SINGLE otherwise. -/
def Obligations.StepKeepsSituation : Prop :=
  (∀ s t : State, SituationOk s → step s = .next t → SituationOk t) ∧
  ∀ s : State,
    let shed := s.spc.busLow = true ∧ s.spc.settings.busLowAction = .shed ∨
      s.spc.sw.phase = .gapOpen ∨ s.spc.sw.phase = .gapDead ∨ s.spc.sw.phase = .gapClose ∨ s.spc.feeding = none
    let low := ∃ bay, s.spc.feeding = some (baySource bay) ∧
      (∀ n, s.spc.packInfo.get bay = some n → n < s.spc.settings.lowPercent) ∧
      (s.spc.packInfo.get bay = none → s.spc.low.get bay = true)
    let pair := ∀ bay, present s (baySource bay) = true ∧
      (s.spc.feeding = some (baySource bay) ∨ available s (baySource bay) = true)
    (situationOf s = .shed ↔ shed) ∧
    (situationOf s = .dc ↔ ¬shed ∧ s.spc.feeding = some .dcIn) ∧
    (situationOf s = .low ↔ ¬shed ∧ low) ∧
    (situationOf s = .pair ↔ ¬shed ∧ s.spc.feeding ≠ some .dcIn ∧ ¬low ∧ pair) ∧
    (situationOf s = .single ↔ ¬shed ∧ s.spc.feeding ≠ some .dcIn ∧ ¬low ∧ ¬pair)

/-! ### Bay latches (R50 to R60) -/

/-- R51, R53, R55, R56: a button press that is taken starts a release on an IDLE bay, evaluated in the same event: PENDING for the
motion phase, for the other bay's grant or for the supply; granted when the bay does not feed; with a RELEASE switchover when it
feeds and there is a target; refused when there is none. An EMPTY or HOT with a target that RESET has left to begin starts before
the ask, which then waits for the supply (R32; that it begins in this event is the model's choice, log entry 46). On a bay whose
release is under way it joins. A button that has not been inactive since is not taken; once it has been inactive for 30 ms it is. -/
def Obligations.ButtonPressStartsRelease : Prop :=
  ∀ (bay : Bay) (s : State),
    (s.ltc.armed.get bay = false → exec (.buttonPress bay) s = .next s) ∧
    exec (.buttonInactive bay) s = .next { s with ltc := { s.ltc with armed := s.ltc.armed.set bay true } } ∧
    (TransmitterOk s → s.ltc.armed.get bay = true → ∃ t, exec (.buttonPress bay) s = .next t ∧
      t.ltc.armed = s.ltc.armed.set bay false ∧ t.latch (otherBay bay) = s.latch (otherBay bay) ∧
      t.mpt = s.mpt ∧ t.ddt = s.ddt ∧ t.scv = s.scv ∧ t.spc.settings = s.spc.settings ∧
      (∀ p, SamePath (s.path p) (t.path p)) ∧ CapFrame s t ∧ SituationOk t ∧
      ((s.latch bay).release ≠ .idle → t.latch bay = { s.latch bay with byButton := true }) ∧
      ((s.latch bay).release = .idle → (s.latch bay).hostOwed = false →
        (∀ reason x, HeldFirst s bay reason x → t.spc.sw = startedRecord s reason x) ∧
        (s.ddt.phase ≠ .still →
          t.latch bay = { s.latch bay with byButton := true, release := .pending, cause := .motion }) ∧
        (s.ddt.phase = .still → (s.latch (otherBay bay)).release = .granted →
          t.latch bay = { s.latch bay with byButton := true, release := .pending, cause := .otherGrant }) ∧
        (s.ddt.phase = .still → (s.latch (otherBay bay)).release ≠ .granted →
          (inFlight s = true ∨ askRuns s (otherBay bay) = true ∨ (∃ reason x, HeldFirst s bay reason x) →
            t.latch bay = { s.latch bay with byButton := true, release := .pending, cause := .supplyBusy }) ∧
          (inFlight s = false → askRuns s (otherBay bay) = false → (∀ reason x, ¬HeldFirst s bay reason x) →
            (s.spc.feeding ≠ some (baySource bay) →
              t.latch bay =
                { s.latch bay with
                  byButton := true, release := .granted, cause := .none, commanded := .unlocked, windowMs := 10000
                  faultTimer := 0, stuckTimer := 0, lastEvent := .granted } ∧
              t.spc.packInfo.get bay = none) ∧
            (s.spc.feeding = some (baySource bay) →
              (∀ x, chooseTarget s s.spc.feeding [] = some x →
                t.latch bay = { s.latch bay with byButton := true, release := .pending, cause := .switchover } ∧
                t.spc.sw.reason = .release ∧ t.spc.sw.fromSrc = s.spc.feeding ∧ t.spc.sw.toSrc = x ∧
                inFlight t = true) ∧
              (chooseTarget s s.spc.feeding [] = none →
                t.latch bay =
                  { s.latch bay with
                    byButton := false, byHost := false, cause := .none, windowMs := 0, lastEvent := .refused }))))))

/-- R52, R53, R171, R172: RELEASE_BAY: refused at once for no bay, and while a host release request is outstanding; answered OK at
once on a GRANTED bay; on an IDLE bay evaluated in its event: granted and answered OK where R56 allows that; refused and answered
FAILED (SOLE_SOURCE) when the bay feeds and there is no target; and otherwise owed its reply while the bay is PENDING: for the
motion phase, for the other bay's grant, for the supply (the other bay's RELEASE switchover among it, R53), or for the RELEASE
switchover that it starts. An EMPTY or HOT with a target that RESET has left to begin starts before the ask, which then waits for
the supply (R32; that it begins in this event is the model's choice, log entry 46). On a PENDING bay it joins the release and is
owed its reply. -/
def Obligations.ReleaseBayIsDeferred : Prop :=
  ∀ (tag : Byte) (bay : Bay) (s : State), Ready s →
    (∀ p : List Byte, p.length = 1 → bayOf (at8 p 0) = none →
      exec (.releaseBay tag p) s = .next (answered .releaseBay tag .badValue [] s)) ∧
    ((s.latch .a).hostOwed = true ∨ (s.latch .b).hostOwed = true →
      exec (.releaseBay tag [BitVec.ofNat 8 (bayCode bay)]) s = .next (answered .releaseBay tag .busy [] s)) ∧
    ((s.latch .a).hostOwed = false → (s.latch .b).hostOwed = false →
      ((s.latch bay).release = .granted → ∃ u : State,
        exec (.releaseBay tag [BitVec.ofNat 8 (bayCode bay)]) s =
          .next (replied u (replyOf .releaseBay tag .ok (latchBytes u bay))) ∧
        u = (heard s).setLatch bay { s.latch bay with byHost := true }) ∧
      ((s.latch bay).release = .pending ∨ (s.latch bay).release = .idle ∧ s.ddt.phase ≠ .still →
        ∃ t, exec (.releaseBay tag [BitVec.ofNat 8 (bayCode bay)]) s = .next t ∧
          t.slu.owedRelease = some tag ∧ t.slu.fifo = s.slu.fifo ∧
          t.latch bay =
            { s.latch bay with
              byHost := true, hostOwed := true, release := .pending
              cause := if (s.latch bay).release = .idle then .motion else (s.latch bay).cause } ∧
          ((s.latch bay).release = .idle → ∀ reason x, HeldFirst s bay reason x → t.spc.sw = startedRecord s reason x)) ∧
      ((s.latch bay).release = .idle → s.ddt.phase = .still →
        ∃ t, exec (.releaseBay tag [BitVec.ofNat 8 (bayCode bay)]) s = .next t ∧
          t.latch (otherBay bay) = s.latch (otherBay bay) ∧ t.spc.feeding = s.spc.feeding ∧
          ((s.latch (otherBay bay)).release = .granted →
            t.slu.owedRelease = some tag ∧ t.slu.fifo = s.slu.fifo ∧
            t.latch bay =
              { s.latch bay with byHost := true, hostOwed := true, release := .pending, cause := .otherGrant }) ∧
          (∀ reason x, HeldFirst s bay reason x → t.spc.sw = startedRecord s reason x) ∧
          ((s.latch (otherBay bay)).release ≠ .granted →
            (inFlight s = true ∨ askRuns s (otherBay bay) = true ∨ (∃ reason x, HeldFirst s bay reason x) →
              t.slu.owedRelease = some tag ∧ t.slu.fifo = s.slu.fifo ∧
              t.latch bay =
                { s.latch bay with byHost := true, hostOwed := true, release := .pending, cause := .supplyBusy }) ∧
            (inFlight s = false → askRuns s (otherBay bay) = false → (∀ reason x, ¬HeldFirst s bay reason x) →
              s.spc.feeding = some (baySource bay) →
              (∀ x, chooseTarget s s.spc.feeding [] = some x →
                t.slu.owedRelease = some tag ∧ t.slu.fifo = s.slu.fifo ∧
                t.latch bay =
                  { s.latch bay with byHost := true, hostOwed := true, release := .pending, cause := .switchover } ∧
                t.spc.sw.reason = .release ∧ t.spc.sw.fromSrc = s.spc.feeding ∧ t.spc.sw.toSrc = x ∧
                inFlight t = true) ∧
              (chooseTarget s s.spc.feeding [] = none →
                t.slu.owedRelease = none ∧ t.spc.sw = s.spc.sw ∧
                t.latch bay =
                  { s.latch bay with
                    byButton := false, byHost := false, cause := .none, windowMs := 0, lastEvent := .refused } ∧
                MadeReply s t { tag := tag, payload := [0x20, 10, 1] ++ latchBytes t bay })))) ∧
      ((s.latch bay).release = .idle → s.ddt.phase = .still → (s.latch (otherBay bay)).release ≠ .granted →
        askRuns s (otherBay bay) = false → inFlight s = false → (∀ reason x, ¬HeldFirst s bay reason x) →
        s.spc.feeding ≠ some (baySource bay) →
        ∃ u t : State, exec (.releaseBay tag [BitVec.ofNat 8 (bayCode bay)]) s = .next t ∧
          t.slu.owedRelease = none ∧ (t.latch bay).hostOwed = false ∧ t.spc.packInfo.get bay = none ∧
          t.latch bay =
            { s.latch bay with
              byHost := true, release := .granted, cause := .none, commanded := .unlocked, windowMs := 10000
              faultTimer := 0, stuckTimer := 0, lastEvent := .granted } ∧
          u.latch bay = t.latch bay ∧ MadeReply s t (replyOf .releaseBay tag .ok (latchBytes u bay))))

/-- R50, R54, R57 to R60: the sensed state follows the switch and restarts both timers; the fault timer's 200 ms set or clear the
latch-insecure flag, the stuck timer's set the stuck flag, each with its last event and a RELEASE notice. A release window that
expires locks the latch and ends the release, with a RELEASE notice; what the examination that follows may change is the supply
and the other bay, which is evaluated when it is PENDING. A frame end that takes the motion phase out of STILL revokes a GRANTED
bay with no reply and keeps a PENDING or IDLE one; that the revocation of the other bay evaluates a PENDING one, whose cause
becomes MOTION in that event, is deduced (log entry 37). One that brings the phase back to STILL evaluates the PENDING bays, the
older first: a revoked bay whose path stays open is granted a fresh window. An EMPTY or HOT with a target that RESET has left to
begin starts before such an evaluation (R32; that it begins in that event is the model's choice, log entry 46). In any other
release state there is no window to end, and where a timer does not run its expiry changes nothing (log entry 3). That the stuck
timer holds at 200 ms is deduced (log entry 36); a stuck flag that RESET has kept does not keep the timer of a later grant from
its 200 ms. -/
def Obligations.LatchSwitchAndTimers : Prop :=
  ∀ (bay : Bay) (pos : LatchPos) (s : State),
    (pos = (s.latch bay).sensed → exec (.latchSenseChange bay pos) s = .next s) ∧
    (pos ≠ (s.latch bay).sensed →
      exec (.latchSenseChange bay pos) s =
        .next
          (s.setLatch bay
            { s.latch bay with
              sensed := pos, faultTimer := 0, stuckTimer := 0, stuck := (s.latch bay).stuck && pos == .locked })) ∧
    (TransmitterOk s → (s.latch bay).commanded = .locked →
      (s.latch bay).sensed = (if (s.latch bay).insecure then .locked else .unlocked) →
      ∃ t, exec (.latchFaultTimerExpiry bay) s = .next t ∧
        Examined
          (raise .release
            (s.setLatch bay
              { s.latch bay with
                insecure := !(s.latch bay).insecure, faultTimer := 0
                lastEvent := if (s.latch bay).insecure then .faultCleared else .fault })) t) ∧
    (¬((s.latch bay).commanded = .locked ∧
        (s.latch bay).sensed = (if (s.latch bay).insecure then .locked else .unlocked)) →
      exec (.latchFaultTimerExpiry bay) s = .next s) ∧
    ((s.latch bay).commanded = .unlocked → (s.latch bay).sensed = .locked →
      (s.latch bay).stuck = false ∨ (s.latch bay).stuckTimer ≠ 200 →
      exec (.latchStuckTimerExpiry bay) s =
        .next
          (noticed .release (s.setLatch bay { s.latch bay with stuck := true, stuckTimer := 200, lastEvent := .stuck }))) ∧
    ((s.latch bay).commanded = .locked ∨ (s.latch bay).sensed = .unlocked ∨
        (s.latch bay).stuck = true ∧ (s.latch bay).stuckTimer = 200 →
      exec (.latchStuckTimerExpiry bay) s = .next s) ∧
    ((s.latch bay).release = .granted → ∃ t, exec (.releaseWindowExpiry bay) s = .next t ∧
      t.latch bay =
        { s.latch bay with
          commanded := .locked, faultTimer := 0, stuckTimer := 0, stuck := false, release := .idle, byButton := false
          byHost := false, cause := .none, windowMs := 0, lastEvent := .expired } ∧
      t.spc.feeding = s.spc.feeding ∧ SupplyFrame s t ∧
      (s.slu.tx ≠ none → inMask s.slu.noticeMask .release = true →
        min 255 (s.slu.outbox.release + 1) ≤ t.slu.outbox.release) ∧
      PendingEvaluated (raise .release (s.setLatch bay (t.latch bay))) t (otherBay bay)) ∧
    ((s.latch bay).release ≠ .granted → exec (.releaseWindowExpiry bay) s = .next s) ∧
    (∀ f, s.mpt.transfer = .inFlight → ∃ t, exec (.frameEnd f) s = .next t ∧
      (s.ddt.phase = .still → t.ddt.phase ≠ .still → Revoked s t bay) ∧
      (s.ddt.phase ≠ .still → t.ddt.phase = .still → PendingEvaluated { s with ddt := t.ddt } t bay) ∧
      ((s.ddt.phase = .still ↔ t.ddt.phase = .still) → t.ltc = s.ltc ∧ t.spc = s.spc ∧ t.bre = s.bre))

/-! ### Sense converter (R64 to R78) -/

/-- R64, R65, R67 to R69, R73, R76, R78, R79: the end of a light conversion that is not discarded stores the count and the fault,
moves the range, and stores the lux unless the counter saturated at range 0 or 1; a new OVER raises SENSE_FAULT; a one-shot
empties its slot and its owed reply is made; and the next conversion starts. The BRE takes the publication in the same event: the
usable flags (R86), E (R87), AMBIENT_UNKNOWN (R88), the level, the filter with its seeding, deadband and motion hold (R90 to R93),
the curve, the bias and the caps, and a changed Yc or cap reaches the LMD (R83). Nothing of the supply, the latches or the motion
side changes. -/
def Obligations.LightConversionStores : Prop :=
  ∀ (edges : Nat) (c : Channel) (s : State), TransmitterOk s → c = .alsFront ∨ c = .alsRear →
    s.scv.activity = .oneShot c ∨ (∃ i, s.scv.activity = .walk i c) ∧ s.scv.enable.get c = true →
    let n := min 65535 edges
    let r := s.scv.records.get c
    ∃ t, exec (.lightConversionEnd edges) s = .next t ∧
      t.scv.records.get c =
        { value :=
            if n < 65535 ∨ 2 ≤ r.range then
              ((min 200000 (n * 4 ^ r.range * (if c = .alsFront then s.scv.calFront else s.scv.calRear) / 1024) : Nat) : Int)
            else r.value
          valid := r.valid || decide (n < 65535 ∨ 2 ≤ r.range)
          fault := if n < 65535 then .none else .over
          raw := n
          range := if 49152 ≤ n then min 2 (r.range + 1) else if 8192 ≤ n then r.range else r.range - 1
          age := if n < 65535 ∨ 2 ≤ r.range then 0 else r.age
          stale := r.stale && !decide (n < 65535 ∨ 2 ≤ r.range) } ∧
      (∀ d, d ≠ c → t.scv.records.get d = s.scv.records.get d) ∧
      t.scv =
        ({ s.scv with
            records := t.scv.records
            oneShot := if s.scv.activity = Activity.oneShot c then none else s.scv.oneShot }).startNext s.slu.platform ∧
      t.spc = s.spc ∧ t.ltc = s.ltc ∧ t.mpt = s.mpt ∧ t.ddt = s.ddt ∧ t.pending = s.pending ∧
      t.slu.queue = s.slu.queue ∧ t.slu.platform = s.slu.platform ∧
      (s.slu.tx ≠ none → inMask s.slu.noticeMask .senseFault = true →
        t.slu.outbox.senseFault =
          if n = 65535 ∧ r.fault ≠ .over then min 255 (s.slu.outbox.senseFault + 1) else s.slu.outbox.senseFault) ∧
      (∀ tag, s.scv.activity = .oneShot c → s.slu.owedConvert = some tag →
        t.slu.owedConvert = none ∧
        MadeReply s t (replyOf .convertNow tag .ok (channelBytes (t.scv.records.get c)))) ∧
      LightPublished c (decide (n < 65535 ∨ 2 ≤ r.range)) (t.scv.records.get .alsFront).value.toNat
        (t.scv.records.get .alsRear).value.toNat s.bre t.bre ∧
      (t.bre.yc = s.bre.yc → t.bre.cap = s.bre.cap → t.lmd = s.lmd) ∧
      (t.bre.yc ≠ s.bre.yc ∨ t.bre.cap ≠ s.bre.cap →
        t.lmd.ycCopy = t.bre.yc ∧ t.lmd.capCopy = t.bre.cap ∧ t.lmd.a = min s.lmd.a t.bre.cap)

/-- R3, R34, R64 to R66, R70, R71, R76, R78, R79: a thermistor conversion stores its temperature from a count of 160 or more,
SHORT from a lower one, and OPEN at the 40 ms limit, the value held in both; a new SHORT or OPEN raises SENSE_FAULT; a one-shot is
answered, and the next conversion starts. A channel that becomes stale has its flag set and raises SENSE_FAULT. Each is published
to its reader: the SPC examines the triggers on a bay's temperature, and a feeding bay that is HOT, from 70.0 °C on, starts its
switchover or is the sole source; that every trigger is examined then, by level, is deduced (log entry 36). The BRE takes the
panel's for the thermal cap. A WALK conversion whose channel is disabled is discarded. The latches, the motion side and every
setting stay. A count is converted by the table's straight lines, truncated toward zero. A light channel that becomes stale clears
its usable flag, and sets AMBIENT_UNKNOWN when no channel is left; the lux, the levels and Yc hold (R86, R88). -/
def Obligations.ThermistorEndsAndStaleness : Prop :=
  ∀ (n : Nat) (c : Channel) (s : State),
    (c = .thBayA ∨ c = .thBayB ∨ c = .thPanel →
      (s.scv.activity = .oneShot c ∨ (∃ i, s.scv.activity = .walk i c) ∧ s.scv.enable.get c = true →
        (160 ≤ n → n ≤ 40000 → ∃ t, exec (.thermistorConversionEnd n) s = .next t ∧
          ConversionTaken c
            { s.scv.records.get c with
              fault := .none, raw := n, value := thermistorAt s.scv.table n, valid := true, age := 0, stale := false } s t) ∧
        (n < 160 → ∃ t, exec (.thermistorConversionEnd n) s = .next t ∧
          ConversionTaken c { s.scv.records.get c with fault := .short, raw := n } s t) ∧
        (∃ t, exec .thermistorTimeout s = .next t ∧
          ConversionTaken c { s.scv.records.get c with fault := .openCircuit, raw := 0 } s t)) ∧
      (∀ i, s.scv.activity = .walk i c → s.scv.enable.get c = false → ∃ t, exec (.thermistorConversionEnd n) s = .next t ∧
        SenseFrame s t ∧ t.scv = s.scv.startNext s.slu.platform ∧ t.spc = s.spc ∧ t.bre = s.bre ∧ t.lmd = s.lmd)) ∧
    ((s.scv.records.get c).valid = true → (s.scv.records.get c).stale = false →
      let r := { s.scv.records.get c with age := 2001, stale := true }
      ∃ t, exec (.channelStale c) s = .next t ∧ SenseFrame s t ∧
        t.scv = { s.scv with records := s.scv.records.set c r } ∧ SenseRaises true s t ∧
        (c = .alsFront →
          t.bre = { s.bre with frontUsable := false, ambientUnknown := s.bre.ambientUnknown || !s.bre.rearUsable } ∧
            t.lmd = s.lmd) ∧
        (c = .alsRear →
          t.bre = { s.bre with rearUsable := false, ambientUnknown := s.bre.ambientUnknown || !s.bre.frontUsable } ∧
            t.lmd = s.lmd) ∧
        (c = .thPanel → PanelTaken r s t ∧ t.bre.thermalCap = s.bre.settings.floorTh) ∧
        ∀ bay, (if bay = .a then Channel.thBayA else .thBayB) = c →
          BayTempTaken c (s.setChannel c r) t ∧ hot t (baySource bay) = false ∧
          ((s.path (baySource bay)).settings.derating = true → derating t (baySource bay) = 3)) ∧
    (∀ pts : List (Nat × Int), pts.Pairwise (fun p q => p.1 < q.1) →
      (∀ p, pts.head? = some p → n ≤ p.1 → thermistorAt pts n = p.2) ∧
      (∀ p, pts.getLast? = some p → p.1 ≤ n → thermistorAt pts n = p.2) ∧
      (∀ i p q, pts[i]? = some p → pts[i + 1]? = some q → p.1 ≤ n → n < q.1 →
        thermistorAt pts n = p.2 + ((q.2 - p.2) * ((n : Int) - p.1)).tdiv ((q.1 : Int) - p.1)))

/-- R72, R75, R73: SET_SENSE replaces the settings and restarts the walk at slot 1: an IDLE converter starts the first eligible
slot, counted from slot 1, at once, and stays IDLE when there is none; a calibration of 0 becomes 1 with ADJUSTED. LOAD_THERMISTOR
replaces a table whose clamped points are strictly ordered and refuses any other; the values already stored are kept. -/
def Obligations.SenseSettingsAndTableAreStored : Prop :=
  ∀ (tag : Byte) (p : List Byte) (s : State), Ready s →
    (∀ a, lengthAllowed .setSense p = true → senseArgs p = some a → ∃ u : State,
      exec (.setSense tag p) s =
        .next
          (replied u
            (replyOf .setSense tag (if a.calFront = 0 ∨ a.calRear = 0 then .adjusted else .ok) (senseSettingsBytes u.scv))) ∧
      u = { heard s with scv := u.scv } ∧ u.scv.slots = a.slots ∧ u.scv.enable = a.enable ∧
      u.scv.calFront = max 1 a.calFront ∧ u.scv.calRear = max 1 a.calRear ∧ u.scv.records = s.scv.records ∧
      u.scv.table = s.scv.table ∧ u.scv.oneShot = s.scv.oneShot ∧
      (s.scv.activity ≠ .idle → u.scv.activity = s.scv.activity ∧ u.scv.resume = 1) ∧
      (s.scv.activity = .idle →
        let can := fun c : Channel => a.enable.get c = true ∧ (s.slu.platform = .standby → isLight c = false)
        u.scv =
          ({ s.scv with
              slots := a.slots, enable := a.enable, calFront := max 1 a.calFront, calRear := max 1 a.calRear
              resume := 1 } : Scv).startWalk s.slu.platform ∧
        (∀ i c, a.slots[i]? = some c → can c → (∀ j d, j < i → a.slots[j]? = some d → ¬can d) →
          u.scv.activity = .walk (i + 1) c ∧ u.scv.resume = if i + 1 = a.slots.length then 1 else i + 2) ∧
        ((∀ c ∈ a.slots, ¬can c) → u.scv.activity = .idle ∧ u.scv.resume = 1))) ∧
    (lengthAllowed .setSense p = true → senseArgs p = none →
      exec (.setSense tag p) s = .next (answered .setSense tag .badValue [] s)) ∧
    (p.length = 48 →
      let pts := thermistorPoints p 12 0
      let tab := pts.map fun x => (max 160 (min 40000 x.1), max (-400) (min 1250 x.2))
      (thermistorOrdered tab = true →
        exec (.loadThermistor tag p) s =
          .next
            (replied { heard s with scv := { s.scv with table := tab } }
              (replyOf .loadThermistor tag (if tab = pts then .ok else .adjusted) (thermistorBytes tab)))) ∧
      (thermistorOrdered tab = false →
        exec (.loadThermistor tag p) s = .next (answered .loadThermistor tag .badValue [] s)))

/-- R77, R171, R172: CONVERT_NOW is refused for no channel, while a one-shot is outstanding, and for a light channel in STANDBY;
otherwise it is owed its reply and takes the one-shot slot, and starts at once from IDLE. -/
def Obligations.ConvertNowIsDeferred : Prop :=
  ∀ (tag b : Byte) (s : State), Ready s →
    (channelOf b.toNat = none → exec (.convertNow tag [b]) s = .next (answered .convertNow tag .badValue [] s)) ∧
    (∀ c, channelOf b.toNat = some c →
      (s.scv.oneShot ≠ none → exec (.convertNow tag [b]) s = .next (answered .convertNow tag .busy [] s)) ∧
      (s.scv.oneShot = none → isLight c = true → s.slu.platform = .standby →
        exec (.convertNow tag [b]) s = .next (answered .convertNow tag .notAllowed [] s)) ∧
      (s.scv.oneShot = none → ¬(isLight c = true ∧ s.slu.platform = .standby) →
        exec (.convertNow tag [b]) s =
          .next
            { heard s with
              slu := { (heard s).slu with owedConvert := some tag }
              scv :=
                { s.scv with
                  oneShot := some c
                  activity := if s.scv.activity = .idle then .oneShot c else s.scv.activity } }))

/-! ### Brightness (R87 to R102) -/

/-- R89, R91, R94: stage 3 is 16 sixteenths of an octave per octave of E + 1, at most 280 for 200,000 lux; a filter step moves Lf
toward L by the rate's sixteenths of the distance, with rates up to 16 by at least 1 and never past it; the curve is the straight
lines between its points, truncated toward zero, and flat outside them. -/
def Obligations.LightLevelAndFilter : Prop :=
  (∀ e p : Nat, 2 ^ p ≤ e + 1 → e + 1 < 2 ^ (p + 1) → logLevel e = 16 * p + (e + 1 - 2 ^ p) * 16 / 2 ^ p) ∧
  (∀ e : Nat, e ≤ 200000 → logLevel e ≤ 280) ∧
  (∀ (c : BrightSettings) (lf l : Nat), c.upRate ≤ 16 → c.downRate ≤ 16 →
    (lf < l → lf + 1 ≤ filterStep c lf l ∧ filterStep c lf l ≤ l) ∧
    (l < lf → l ≤ filterStep c lf l ∧ filterStep c lf l + 1 ≤ lf) ∧
    (l = lf → filterStep c lf l = lf) ∧
    (lf < l → c.upRate = 16 → filterStep c lf l = l) ∧ (l < lf → c.downRate = 16 → filterStep c lf l = l)) ∧
  (∀ (c : BrightSettings) (lf l : Nat), filterStep c lf l =
    if lf < l then lf + max 1 ((l - lf) * c.upRate / 16)
    else if l < lf then lf - max 1 ((lf - l) * c.downRate / 16)
    else lf) ∧
  (∀ (pts : List (Nat × Nat)) (x : Nat), pts.Pairwise (fun p q => p.1 < q.1) →
    (∀ p, pts.head? = some p → x ≤ p.1 → curveAt pts x = p.2) ∧
    (∀ p, pts.getLast? = some p → p.1 ≤ x → curveAt pts x = p.2) ∧
    (∀ i p q, pts[i]? = some p → pts[i + 1]? = some q → p.1 ≤ x → x < q.1 →
      curveAt pts x = ((p.2 : Int) + (((q.2 : Int) - p.2) * ((x : Int) - p.1)).tdiv ((q.1 : Int) - p.1)).toNat))

/-- R86, R88, R95 to R102, R106: SET_BRIGHTNESS stores the clamped settings and runs stages 6 and 7: Yb and CLAMPED by the mode,
the thermal cap of the panel temperature, the cap, and Yc = min(max(Yb, Ymin), cap); the LMD takes both copies and cuts A to the
cap. A rear weight of 0 clears the rear usable flag, and sets AMBIENT_UNKNOWN when the front channel is not usable either; the
light level and the filter stay. LOAD_CURVE stores a table of 2 to 12 points whose clamped L rise strictly and runs stages 5 to 7,
the mode's stage 6 among them, and refuses any other. -/
def Obligations.BrightnessRequestsRunThePipeline : Prop :=
  ∀ (tag : Byte) (p : List Byte) (s : State), Ready s → LampOk s →
    (∀ a, p.length = 18 → brightArgs p = some a → ∃ u : State,
      exec (.setBrightness tag p) s =
        .next
          (replied u
            (replyOf .setBrightness tag (if a.clamped = a then .ok else .adjusted) (brightSettingsBytes a.clamped))) ∧
      u = { heard s with bre := u.bre, lmd := u.lmd } ∧
      u.bre =
        { s.bre with
          settings := a.clamped
          rearUsable := s.bre.rearUsable && decide (a.clamped.rearWeight ≠ 0)
          ambientUnknown := s.bre.ambientUnknown || (decide (a.clamped.rearWeight = 0) && !s.bre.frontUsable)
          y := if s.bre.seeded then s.bre.y else a.clamped.fallback
          yb := u.bre.yb, clamped := u.bre.clamped, frozen := u.bre.frozen, panelKnown := (panelTemp s).isSome
          thermalCap := u.bre.thermalCap, cap := u.bre.cap, yc := u.bre.yc } ∧
      (a.mode = .auto →
        u.bre.yb = min 1000 (((u.bre.y : Int) * (16 + a.clamped.bias)) / 16).toNat ∧
          (u.bre.clamped = true ↔ 1000 < (((u.bre.y : Int) * (16 + a.clamped.bias)) / 16).toNat) ∧
          u.bre.frozen = none) ∧
      (a.mode = .fixed → u.bre.yb = a.clamped.fixedLevel ∧ u.bre.clamped = false ∧ u.bre.frozen = none) ∧
      (a.mode = .frozen → u.bre.yb = s.bre.yb ∧ u.bre.clamped = s.bre.clamped ∧
        u.bre.frozen = if s.bre.settings.mode = .frozen then s.bre.frozen else some s.bre.yb) ∧
      u.bre.thermalCap =
        (match panelTemp s with
        | none => a.clamped.floorTh
        | some x =>
          if x ≤ a.clamped.t1 then 1000
          else (max (a.clamped.floorTh : Int) (1000 - (x - a.clamped.t1) * a.clamped.slope)).toNat) ∧
      u.bre.cap = min s.spc.cap u.bre.thermalCap ∧ u.bre.yc = min (max u.bre.yb a.clamped.ymin) u.bre.cap ∧
      u.lmd.ycCopy = u.bre.yc ∧ u.lmd.capCopy = u.bre.cap ∧ u.lmd.a = min s.lmd.a u.bre.cap) ∧
    (p.length = 18 → brightArgs p = none →
      exec (.setBrightness tag p) s = .next (answered .setBrightness tag .badValue [] s)) ∧
    (lengthAllowed .loadCurve p = true →
      let pts := curvePoints p (at8 p 0) 1
      let tab := pts.map fun x => (min 287 x.1, min 1000 x.2)
      (2 ≤ at8 p 0 → at8 p 0 ≤ 12 → curveOrdered tab = true → ∃ u : State,
        exec (.loadCurve tag p) s =
          .next (replied u (replyOf .loadCurve tag (if tab = pts then .ok else .adjusted) (curveBytes tab))) ∧
        u = { heard s with bre := u.bre, lmd := u.lmd } ∧
        u.bre =
          { s.bre with
            curve := tab
            y := if s.bre.seeded then curveAt tab s.bre.lused else s.bre.settings.fallback
            yb := u.bre.yb, clamped := u.bre.clamped, yc := u.bre.yc } ∧
        BiasApplied s.bre u.bre ∧ u.bre.yc = min (max u.bre.yb s.bre.settings.ymin) s.bre.cap ∧
        u.lmd.ycCopy = u.bre.yc ∧ u.lmd.capCopy = u.bre.cap ∧ u.lmd.a = min s.lmd.a u.bre.cap) ∧
      (at8 p 0 < 2 ∨ 12 < at8 p 0 ∨ curveOrdered tab = false →
        exec (.loadCurve tag p) s = .next (answered .loadCurve tag .badValue [] s)))

/-- R83, R99 to R101, R106, R107: every step keeps the copies of the allowance cap, of Yc and of the cap equal to what they copy,
the thermal cap that of the panel temperature, and A at most the lesser of the two caps, and 0 outside RUN. -/
def Obligations.StepKeepsLampLaws : Prop :=
  ∀ s t : State, LampOk s → step s = .next t → LampOk t

/-! ### Lamp driver (R108 to R121) -/

/-- R112: the drive for a level A: full duty from the crossover up, and the crossover's current below it; never above 4096 of 4096
or I_max; and a string that is not ENABLED carries no current. -/
def Obligations.DriveFollowsTheTable : Prop :=
  (∀ (c : LampSettings) (a : Nat), 0 < c.crossover → c.crossover ≤ 1000 → a ≤ 1000 →
    (c.crossover ≤ a → driveFor c a = { duty := 4096, current := c.iMax * a / 1000 }) ∧
    (0 < a → a < c.crossover →
      driveFor c a = { duty := 4096 * a / c.crossover, current := c.iMax * c.crossover / 1000 }) ∧
    driveFor c 0 = { duty := 0, current := 0 } ∧
    (driveFor c a).duty ≤ 4096 ∧ (driveFor c a).current ≤ c.iMax) ∧
  (∀ c : LampSettings, 50 ≤ c.clamped.crossover ∧ c.clamped.crossover ≤ 500 ∧ 50 ≤ c.clamped.iMax ∧ c.clamped.iMax ≤ 400) ∧
  LampSettings.defaults.crossover = 250 ∧ LampSettings.defaults.iMax = 250 ∧
  (∀ (s : State) (i : LedString), (s.lmd.strings.get i).state ≠ .enabled → sinkCurrent s i = 0)

/-- R108, R110, R112, R113: an edge with no reference is the reference; one sooner than 2 ms after it is ignored. A frame start
taken in LOCKED, and the one that locks after four consistent intervals, set the period from the interval, put a pending staged
drive in force and make a dimming update, and a period starts there (R117, log entries 13, 43 and 48); in FREE_RUN a frame start
counts its interval, and an interval that is not consistent counts as the first. More than 50 ms of silence leave LOCKED. The
absolute time that an edge carries, and that an edge more than 50 ms after the reference comes after the timeout and becomes the
reference, is the model's choice (log entry 19). -/
def Obligations.FrameStartsLockAndDim : Prop :=
  ∀ (time : Nat) (s : State),
    (s.lmd.reference = none →
      exec (.frameStart time) s = .next { s with lmd := { s.lmd with reference := some time, runCount := 0 } }) ∧
    (∀ ref, s.lmd.reference = some ref →
      (time < ref + 2000000 → exec (.frameStart time) s = .next s) ∧
      (ref + 2000000 ≤ time → time ≤ ref + 50000000 →
        (s.lmd.locked = true ∨ 3 ≤ s.lmd.runCount ∧
            distance s.lmd.lastInterval (time - ref) * 20 ≤ s.lmd.lastInterval →
          ∃ t, exec (.frameStart time) s = .next t ∧ t = { s with lmd := t.lmd } ∧ t.lmd.locked = true ∧
            t.lmd.reference = some time ∧ t.lmd.lastInterval = time - ref ∧
            t.lmd.pwmPeriod = (time - ref) / s.lmd.settings.multiple ∧
            t.lmd.inForce = (if s.lmd.stagedPending then s.lmd.staged else s.lmd.inForce) ∧ DimmingUpdate s t ∧
            PeriodStarted s t) ∧
        (s.lmd.locked = false →
          s.lmd.runCount < 3 ∨ s.lmd.lastInterval < distance s.lmd.lastInterval (time - ref) * 20 →
          exec (.frameStart time) s =
            .next
              { s with
                lmd :=
                  { s.lmd with
                    reference := some time, lastInterval := time - ref
                    runCount :=
                      if s.lmd.runCount = 0 then 1
                      else if distance s.lmd.lastInterval (time - ref) * 20 ≤ s.lmd.lastInterval then s.lmd.runCount + 1
                      else 1 } })) ∧
      (ref + 50000000 < time →
        exec (.frameStart time) s =
          .next
            { s with
              lmd :=
                { s.lmd with
                  reference := some time, runCount := 0, locked := false
                  internalInterval := if s.lmd.locked then s.lmd.lastInterval else s.lmd.internalInterval
                  freeCount := if s.lmd.locked then 0 else s.lmd.freeCount
                  internalNext := s.lmd.locked || s.lmd.internalNext } }))

/-- R108 to R110, R113, R115, R117: 50 ms with no frame start clear the reference and, in LOCKED, enter FREE_RUN with the interval
last measured. A period start puts a pending staged drive in force and the period's length by the mode; in FREE_RUN the internal
frame start, one period in every M, makes a dimming update; that the period that follows the entry is one is deduced (log entry
22). The period that ends without a measurement makes the last measurement of each ENABLED string NOT_MEASURED under
REPORT_UNMEASURED and keeps it under HOLD_LAST; the strategy is the one stored at its end, and a period measured before its drive
changed stays measured (the model's choice, log entries 13, 43 and 48). -/
def Obligations.PeriodsFollowTheLockMode : Prop :=
  ∀ s : State,
    exec .frameTimeout s =
      .next
        { s with
          lmd :=
            { s.lmd with
              reference := none, runCount := 0, locked := false
              internalInterval := if s.lmd.locked then s.lmd.lastInterval else s.lmd.internalInterval
              freeCount := if s.lmd.locked then 0 else s.lmd.freeCount
              internalNext := s.lmd.locked || s.lmd.internalNext } } ∧
    ∃ t, exec .periodStart s = .next t ∧ t = { s with lmd := t.lmd } ∧
      t.lmd.inForce = (if s.lmd.stagedPending then s.lmd.staged else s.lmd.inForce) ∧ PeriodStarted s t ∧
      t.lmd.pwmPeriod =
        (if s.lmd.locked then s.lmd.pwmPeriod else s.lmd.internalInterval / s.lmd.settings.multiple) ∧
      (s.lmd.locked = true ∨ s.lmd.internalNext = false ∧ s.lmd.freeCount + 1 < s.lmd.settings.multiple →
        t.lmd.a = s.lmd.a ∧ t.lmd.stagedPending = false) ∧
      (s.lmd.locked = false → s.lmd.internalNext = true ∨ s.lmd.settings.multiple ≤ s.lmd.freeCount + 1 →
        DimmingUpdate s t ∧ t.lmd.freeCount = 0)

/-- R116, R118, R119: a measured period writes each ENABLED, driven string's readings and outcome and runs its count; the third
fault in a row confirms FAULT_OPEN or FAULT_SHORT and raises LAMP_FAULT. A string that is not ENABLED is left alone. That a
STRING_MEASUREMENT of a period that is not measurable changes nothing is deduced (log entry 13); that a STRING_FAULT_CONFIRM that
confirms none changes nothing is the model's choice (log entry 4), and so is that a string enabled in mid-period, not driven in
it, is not measured (log entry 42). A period is measured once, when its drive has not changed and at least 100 µs were delivered,
of the on-time that the drive in force gives; a fault is confirmed when some ENABLED, driven string measures it for the third time
in a row. -/
def Obligations.StringMeasurementConfirmsFaults : Prop :=
  ∀ (delivered : Nat) (r : StringReadings) (s : State),
    (s.lmd.measures delivered = true → ∃ t, exec (.stringMeasurement delivered r) s = .next t ∧
      t = { s with lmd := { s.lmd with measured := true, strings := t.lmd.strings }, slu := t.slu } ∧
      (∀ i, (s.lmd.strings.get i).state ≠ .enabled ∨ (s.lmd.strings.get i).driven = false →
        t.lmd.strings.get i = s.lmd.strings.get i) ∧
      (∀ i, (s.lmd.strings.get i).state = .enabled → (s.lmd.strings.get i).driven = true →
        let old := s.lmd.strings.get i
        let f := if (readingOf r i).current * 2 < s.lmd.inForce.current then CountedFault.openCircuit
          else if 6000 < (readingOf r i).headroom then .short else .none
        let n := if f = .none then 0 else if f = old.counted then min 3 (old.count + 1) else 1
        t.lmd.strings.get i =
          { old with
            meas := if f = .openCircuit then .openCircuit else if f = .short then .short else .regulating
            counted := f, count := n, current := (readingOf r i).current, headroom := (readingOf r i).headroom
            state := if n < 3 then .enabled else if f = .openCircuit then .faultOpen else .faultShort })) ∧
    (s.lmd.measures delivered = false → TransmitterOk s → exec (.stringMeasurement delivered r) s = .next s) ∧
    (confirmsFault delivered r s.lmd = true → ∃ t, exec (.stringFaultConfirm delivered r) s = .next t ∧
      exec (.stringMeasurement delivered r) s = .next t ∧
      (∃ i, (s.lmd.strings.get i).state = .enabled ∧
        ((t.lmd.strings.get i).state = .faultOpen ∨ (t.lmd.strings.get i).state = .faultShort) ∧ sinkCurrent t i = 0) ∧
      (s.slu.tx ≠ none → inMask s.slu.noticeMask .lampFault = true →
        min 255 (s.slu.outbox.lampFault + 1) ≤ t.slu.outbox.lampFault)) ∧
    (confirmsFault delivered r s.lmd = false → exec (.stringFaultConfirm delivered r) s = .next s) ∧
    (s.lmd.measures delivered = true ↔
      s.lmd.changed = false ∧ s.lmd.measured = false ∧ 100000 ≤ delivered ∧
        100000 ≤ s.lmd.pwmPeriod * s.lmd.inForce.duty / 4096) ∧
    (confirmsFault delivered r s.lmd = true ↔
      s.lmd.measures delivered = true ∧ ∃ i,
        (s.lmd.strings.get i).state = .enabled ∧ (s.lmd.strings.get i).driven = true ∧
        2 ≤ (s.lmd.strings.get i).count ∧
        (((readingOf r i).current * 2 < s.lmd.inForce.current ∧ (s.lmd.strings.get i).counted = .openCircuit) ∨
          (s.lmd.inForce.current ≤ (readingOf r i).current * 2 ∧ 6000 < (readingOf r i).headroom ∧
            (s.lmd.strings.get i).counted = .short)))

/-- R115, R120, R121: SET_LAMP stores the clamped settings, disables and enables strings, and puts the drive for A in force when K
or I_max changes; a changed multiple waits for the next frame start in LOCKED, and in FREE_RUN makes the next period start an
internal frame start with the count at 0. An empty enable set is accepted (R120, against R187's words: the model's choice, log
entry 51). LAMP_CLEAR clears every member's count and returns a faulted member to ENABLED. -/
def Obligations.LampRequestsAct : Prop :=
  ∀ (tag : Byte) (p : List Byte) (s : State), Ready s →
    (∀ a, p.length = 9 → lampArgs p = some a → ∃ u : State,
      exec (.setLamp tag p) s =
        .next (replied u (replyOf .setLamp tag (if a.clamped = a then .ok else .adjusted) (lampSettingsBytes a.clamped))) ∧
      u = { heard s with lmd := u.lmd } ∧ u.lmd.settings = a.clamped ∧ u.lmd.a = s.lmd.a ∧
      (∀ i, a.enable.get i = s.lmd.settings.enable.get i → u.lmd.strings.get i = s.lmd.strings.get i) ∧
      (∀ i, a.enable.get i ≠ s.lmd.settings.enable.get i →
        u.lmd.strings.get i =
          { s.lmd.strings.get i with
            state := if a.enable.get i then .enabled else .disabled, meas := .notMeasured, counted := .none, count := 0
            driven := false }) ∧
      (a.clamped.crossover ≠ s.lmd.settings.crossover ∨ a.clamped.iMax ≠ s.lmd.settings.iMax →
        u.lmd.inForce = driveFor a.clamped s.lmd.a ∧ u.lmd.staged = u.lmd.inForce ∧ u.lmd.stagedPending = false) ∧
      (a.clamped.crossover = s.lmd.settings.crossover → a.clamped.iMax = s.lmd.settings.iMax →
        u.lmd.inForce = s.lmd.inForce ∧ u.lmd.staged = s.lmd.staged) ∧
      u.lmd.pwmPeriod = s.lmd.pwmPeriod ∧ u.lmd.internalInterval = s.lmd.internalInterval ∧
      (a.clamped.multiple = s.lmd.settings.multiple ∨ s.lmd.locked = true →
        u.lmd.freeCount = s.lmd.freeCount ∧ u.lmd.internalNext = s.lmd.internalNext) ∧
      (a.clamped.multiple ≠ s.lmd.settings.multiple → s.lmd.locked = false →
        u.lmd.freeCount = 0 ∧ u.lmd.internalNext = true)) ∧
    (p.length = 9 → lampArgs p = none → exec (.setLamp tag p) s = .next (answered .setLamp tag .badValue [] s)) ∧
    (∀ m, p.length = 1 → stringSet (at8 p 0) = some m → ∃ u : State,
      exec (.lampClear tag p) s = .next (replied u (replyOf .lampClear tag .ok (stringBytes u.lmd (lowestString m)))) ∧
      u = { heard s with lmd := { s.lmd with strings := u.lmd.strings } } ∧
      (∀ i, m.get i = false → u.lmd.strings.get i = s.lmd.strings.get i) ∧
      (∀ i, m.get i = true →
        (u.lmd.strings.get i).count = 0 ∧ (u.lmd.strings.get i).counted = .none ∧
        (u.lmd.strings.get i).current = (s.lmd.strings.get i).current ∧
        (u.lmd.strings.get i).headroom = (s.lmd.strings.get i).headroom ∧
        ((s.lmd.strings.get i).state = .faultOpen ∨ (s.lmd.strings.get i).state = .faultShort →
          (u.lmd.strings.get i).state = .enabled ∧ (u.lmd.strings.get i).meas = .notMeasured) ∧
        ((s.lmd.strings.get i).state = .enabled ∨ (s.lmd.strings.get i).state = .disabled →
          (u.lmd.strings.get i).state = (s.lmd.strings.get i).state ∧
          (u.lmd.strings.get i).meas = (s.lmd.strings.get i).meas))) ∧
    (p.length = 1 → stringSet (at8 p 0) = none →
      exec (.lampClear tag p) s = .next (answered .lampClear tag .badValue [] s))

/-! ### Motion (R125 to R158) -/

/-- R125 to R133, R135: a sample event begins a transfer on an IDLE port; the end of a DISCARD transfer hands on nothing; the end
of any other judges its frame, counts it, and appends and hands on the sample it produces, if any. -/
def Obligations.TransferEndsAreJudged : Prop :=
  ∀ (f : AccelFrame) (s : State),
    (s.mpt.transfer = .idle → exec .sampleEvent s = .next { s with mpt := { s.mpt with transfer := .inFlight } }) ∧
    (s.mpt.transfer = .discard → exec (.frameEnd f) s = .next { s with mpt := { s.mpt with transfer := .idle } }) ∧
    (s.mpt.transfer = .inFlight → ∃ t, exec (.frameEnd f) s = .next t ∧
      t.mpt.counters.frames = min 4294967295 (s.mpt.counters.frames + 1) ∧
      t.mpt.transfer = .idle ∧ t.mpt.rate = s.mpt.rate ∧ t.pending = s.pending ∧ t.scv = s.scv ∧
      t.spc.settings = s.spc.settings ∧ t.slu.queue = s.slu.queue ∧
      (f.check ≠ f.status ^^^ f.xHi ^^^ f.xLo ^^^ f.yHi ^^^ f.yLo ^^^ f.zHi ^^^ f.zLo ^^^ 0xFF →
        t.mpt.counters.checkFailures = min 4294967295 (s.mpt.counters.checkFailures + 1) ∧
        t.mpt.lastCount = s.mpt.lastCount ∧ t.mpt.rejectedRun = min 8 (s.mpt.rejectedRun + 1) ∧ HeldSample s t) ∧
      (f.check = f.status ^^^ f.xHi ^^^ f.xLo ^^^ f.yHi ^^^ f.yLo ^^^ f.zHi ^^^ f.zLo ^^^ 0xFF →
        (f.status.getLsbD 0 = true →
          t.mpt.counters.mbzFailures = min 4294967295 (s.mpt.counters.mbzFailures + 1) ∧
          t.mpt.lastCount = s.mpt.lastCount ∧ t.mpt.rejectedRun = min 8 (s.mpt.rejectedRun + 1) ∧ HeldSample s t) ∧
        (f.status.getLsbD 0 = false →
          f.status.getLsbD 1 = true ∨ f.status.getLsbD 2 = true ∨ s.mpt.lastCount = some (f.status.toNat / 16) →
          t.mpt.lastCount = some (f.status.toNat / 16) ∧ t.mpt.rejectedRun = 0 ∧ HeldSample s t) ∧
        (f.status.getLsbD 0 = false → f.status.getLsbD 1 = false → f.status.getLsbD 2 = false →
          s.mpt.lastCount ≠ some (f.status.toNat / 16) →
          t.mpt.lastCount = some (f.status.toNat / 16) ∧ t.mpt.primed = true ∧ t.mpt.rejectedRun = 0 ∧
          t.mpt.counters.accepted = min 4294967295 (s.mpt.counters.accepted + 1) ∧
          ∃ e, t.mpt.ring = (e :: s.mpt.ring).take 1024 ∧ e.x = (f.xHi ++ f.xLo).toInt ∧
            e.y = (f.yHi ++ f.yLo).toInt ∧ e.z = (f.zHi ++ f.zLo).toInt ∧ e.held = false ∧
            e.clipped = f.status.getLsbD 3 ∧
            (e.jump = true ↔ ∃ n, s.mpt.lastCount = some n ∧ f.status.toNat / 16 ≠ (n + 1) % 16) ∧
            t.ddt.lastM2 = e.x.natAbs ^ 2 + e.y.natAbs ^ 2 + e.z.natAbs ^ 2)))

/-- R133, R139 to R146, R148 to R154 (log entry 4): what a frame end brings about, and when. The port takes the frame's sample or
holds the last (R128, R129), loses the link at the eighth rejected frame in a row and recovers it at the sixteenth accepted one
(R133); the detector judges the sample by the rows of its phase, writes and closes the record, and sees the link (R142 to R146).
The rows that name an event: the frame end runs, the link is LOST or not, the phase is as the row says, the record is opened,
closed or carries its trace; a frame that does not bring the event about is not it. A height is floor(4903 t² / 10^12), a peak in
mg is floor(isqrt(M2) × 1000 / 2048), with its dominant axis. That a clipped sample below the impact threshold sets PEAK_CLIPPED
is deduced (log entry 35), and so are the fall's intervals when held samples passed inside its run (log entry 44). -/
def Obligations.NamedMotionEventsHappen : Prop :=
  (∀ d : Nat, fallHeight d = 4903 * d ^ 2 / 1000000000000) ∧
  (∀ (p : Peak) (r : Nat), r ^ 2 ≤ p.m2 → p.m2 < (r + 1) ^ 2 → peakMg p = r * 1000 / 2048) ∧
  (∀ p : Peak,
    (p.y.natAbs ≤ p.x.natAbs → p.z.natAbs ≤ p.x.natAbs → dominantAxis p = if p.x < 0 then 1 else 0) ∧
    (p.x.natAbs < p.y.natAbs → p.z.natAbs ≤ p.y.natAbs → dominantAxis p = if p.y < 0 then 3 else 2) ∧
    (p.x.natAbs < p.z.natAbs → p.y.natAbs < p.z.natAbs → dominantAxis p = if p.z < 0 then 5 else 4)) ∧
  (SampleRate.hz400.hz = 400 ∧ SampleRate.hz800.hz = 800 ∧ SampleRate.hz1600.hz = 1600 ∧
    SampleRate.hz400.intervalUs = 2500 ∧ SampleRate.hz800.intervalUs = 1250 ∧ SampleRate.hz1600.intervalUs = 625) ∧
  ∀ (f : AccelFrame) (s : State), s.mpt.transfer = .inFlight →
    let rejected :=
      f.check ≠ f.status ^^^ f.xHi ^^^ f.xLo ^^^ f.yHi ^^^ f.yLo ^^^ f.zHi ^^^ f.zLo ^^^ 0xFF ∨ f.status.getLsbD 0 = true
    (∃ t, exec (.frameEnd f) s = .next t ∧
      let c : MotionContext :=
        { rate := s.mpt.rate, ring := t.mpt.ring, link := t.mpt.link, uptime := s.slu.uptime, feeding := s.spc.feeding
          inFlight := inFlight s, deferred := (s.latch .a).release != .idle || (s.latch .b).release != .idle }
      SampleOf s.mpt f (producedSample s.mpt f) ∧
      (producedSample s.mpt f = none →
        LinkSeen c s.ddt t.ddt ∧ ∀ e ∈ frameEvents f s, e = .linkLost ∨ e = .linkRecovered) ∧
      (∀ e, producedSample s.mpt f = some e →
        t.mpt.ring = (e :: s.mpt.ring).take 1024 ∧
        (∃ d, SampleTaken c e s.ddt d ∧ LinkSeen c d t.ddt) ∧ EventsAre c e s.ddt (frameEvents f s))) ∧
    ((frameEvents f s).contains .linkLost = true ↔ s.mpt.link ≠ .lost ∧ rejected ∧ 8 ≤ s.mpt.rejectedRun + 1) ∧
    (s.mpt.recoveryRun < 16 →
      ((frameEvents f s).contains .linkRecovered = true ↔
        s.mpt.link = .lost ∧ FrameAccepted s.mpt f ∧ 16 ≤ s.mpt.recoveryRun + 1)) ∧
    (RecordsOk s.ddt →
    ((frameEvents f s).contains .linkLost = true → ∃ t, exec (.linkLostEntry f) s = .next t ∧
      exec (.frameEnd f) s = .next t ∧ t.mpt.link = .lost ∧ s.mpt.link ≠ .lost ∧ t.mpt.recoveryRun = 0) ∧
    ((frameEvents f s).contains .linkRecovered = true → ∃ t, exec (.linkRecovery f) s = .next t ∧
      exec (.frameEnd f) s = .next t ∧ s.mpt.link = .lost ∧ t.mpt.link ≠ .lost) ∧
    ((frameEvents f s).contains .fallQualified = true → ∃ t, exec (.fallQualified f) s = .next t ∧
      exec (.frameEnd f) s = .next t ∧ s.ddt.phase = .still ∧ t.ddt.phase ≠ .still ∧ parkAsserted t = true ∧
      t.bre.motionHold = true ∧ (t.latch .a).release ≠ .granted ∧ (t.latch .b).release ≠ .granted ∧
      (s.ddt.nextSequence ≤ 4294967295 →
        t.ddt.record.map (·.sequence) = some s.ddt.nextSequence ∧ t.ddt.nextSequence = s.ddt.nextSequence + 1)) ∧
    ((frameEvents f s).contains .softLanding = true → ∃ t, exec (.softLanding f) s = .next t ∧
      exec (.frameEnd f) s = .next t ∧ s.ddt.phase = .falling ∧ t.ddt.phase = .settling) ∧
    ((frameEvents f s).contains .fallTimeout = true → ∃ t, exec (.fallTimeout f) s = .next t ∧
      exec (.frameEnd f) s = .next t ∧ s.ddt.phase = .falling ∧ t.ddt.phase = .settling) ∧
    ((frameEvents f s).contains .impactExit = true → ∃ t, exec (.impactExit f) s = .next t ∧
      exec (.frameEnd f) s = .next t ∧ s.ddt.phase = .impact ∧ t.ddt.phase = .settling) ∧
    ((frameEvents f s).contains .settled = true → ∃ t, exec (.settled f) s = .next t ∧
      exec (.frameEnd f) s = .next t ∧ s.ddt.phase = .settling ∧ t.ddt.phase = .still ∧ parkAsserted t = false ∧
      t.ddt.record = none ∧ t.bre.motionHold = false) ∧
    ((frameEvents f s).contains .settleTimeout = true → ∃ t, exec (.settleTimeout f) s = .next t ∧
      exec (.frameEnd f) s = .next t ∧ s.ddt.phase = .settling ∧ t.ddt.phase = .still ∧ t.ddt.record = none) ∧
    ((frameEvents f s).contains .blindHoldEnd = true → ∃ t, exec (.blindHoldEnd f) s = .next t ∧
      exec (.frameEnd f) s = .next t ∧ s.ddt.blind = true ∧ t.ddt.phase = .still ∧ t.ddt.record = none) ∧
    ((frameEvents f s).contains .traceFrozen = true → ∃ t, exec (.traceFreeze f) s = .next t ∧
      exec (.frameEnd f) s = .next t ∧
      ∃ x, (t.ddt.record.bind (·.trace) = some x ∨ (t.ddt.table.getLast?.bind (·.core.trace)) = some x) ∧
        x.entries = (t.mpt.ring.take 32).reverse ∧ x.entries.length ≤ 32) ∧
    (∀ e c, (e, c) ∈ [(MotionEvent.linkLost, Instr.linkLostEntry f), (.linkRecovered, .linkRecovery f),
        (.fallQualified, .fallQualified f), (.softLanding, .softLanding f), (.fallTimeout, .fallTimeout f),
        (.impactExit, .impactExit f), (.settled, .settled f), (.settleTimeout, .settleTimeout f),
        (.blindHoldEnd, .blindHoldEnd f), (.traceFrozen, .traceFreeze f)] →
      (frameEvents f s).contains e = false → exec c s = .next s))

/-- R136, R158: SET_MOTION stores the clamped settings in STILL and clears the free-fall run; another rate empties the port: the
ring, the history, the runs, the counters and the last frame count. Outside STILL it is BUSY; an illegal rate is BAD_VALUE. The
reply's layout is deduced (log entry 49). -/
def Obligations.SetMotionStores : Prop :=
  ∀ (tag : Byte) (p : List Byte) (s : State), Ready s → p.length = 9 →
    (∀ rate a, motionArgs p = some (rate, a) → s.ddt.phase = .still → ∃ u t : State,
      exec (.setMotion tag p) s = .next t ∧
      u = { s with mpt := u.mpt, ddt := { s.ddt with settings := a.clamped, fallRun := 0, fallStart := none } } ∧
      t.mpt = u.mpt ∧ t.ddt = u.ddt ∧ t.spc = s.spc ∧ t.ltc = s.ltc ∧ t.scv = s.scv ∧ t.bre = s.bre ∧ t.lmd = s.lmd ∧
      (rate = s.mpt.rate → u.mpt = s.mpt) ∧
      (rate ≠ s.mpt.rate →
        u.mpt =
          { s.mpt with
            rate := rate, transfer := if s.mpt.transfer = .inFlight then .discard else s.mpt.transfer, ring := []
            primed := false, lastCount := none, history := List.replicate 16 false, rejectedRun := 0, recoveryRun := 0
            counters := ⟨0, 0, 0, 0, 0, 0, 0, 0, 0, 0⟩, link := .ok }) ∧
      MadeReply s t (replyOf .setMotion tag (if a.clamped = a then .ok else .adjusted) (motionSettingsBytes u))) ∧
    (∀ rate a, motionArgs p = some (rate, a) → s.ddt.phase ≠ .still →
      exec (.setMotion tag p) s = .next (answered .setMotion tag .busy [] s)) ∧
    (motionArgs p = none → exec (.setMotion tag p) s = .next (answered .setMotion tag .badValue [] s))

/-- R157: ERASE_DROPS empties the record table in its event, in every phase, and answers OK with the number of records it removed,
0 to 8; the record in progress, the next sequence number and the outbox are not touched. A record that closes afterwards is
appended to the empty table with its displaced flag clear, and a DROP_RECORD sent meanwhile reports the emptied table. -/
def Obligations.EraseDropsEmptiesTheTable : Prop :=
  (∀ (tag : Byte) (s : State), Ready s →
    exec (.eraseDrops tag []) s =
      .next
        (replied { heard s with ddt := { s.ddt with table := [] } }
          (replyOf .eraseDrops tag .ok [BitVec.ofNat 8 s.ddt.table.length])) ∧
    (RecordsOk s.ddt → s.ddt.table.length ≤ 8)) ∧
  (∀ (d : Ddt) (o : OpenRecord), d.table = [] → d.record = some o →
    d.close.table = [{ core := o, read := false, displaced := false }] ∧ d.close.nextSequence = d.nextSequence) ∧
  (∀ s : State, s.ddt.table = [] → noticeContent s .dropRecord = [0, 0, 0, 0, 0, 0, 255, 0])

/-- R156: READ_DROP reads the oldest unread record, or the one with the sequence number asked for, sets its read flag and shows it
set; where there is none it answers NO_DATA. -/
def Obligations.ReadDropMarksRead : Prop :=
  ∀ (tag : Byte) (p : List Byte) (s : State), Ready s →
    (p.length = 0 → s.ddt.table.find? (fun r => !r.read) = none →
      exec (.readDrop tag p) s = .next (answered .readDrop tag .noData [] s)) ∧
    (p.length = 4 → s.ddt.table.find? (fun r => r.core.sequence == at32 p 0) = none →
      exec (.readDrop tag p) s = .next (answered .readDrop tag .noData [] s)) ∧
    (∀ r : DropRecord,
      (p.length = 0 ∧ s.ddt.table.find? (fun x => !x.read) = some r) ∨
        (p.length = 4 ∧ s.ddt.table.find? (fun x => x.core.sequence == at32 p 0) = some r) →
      ∃ u : State,
        exec (.readDrop tag p) s = .next (replied u (replyOf .readDrop tag .ok (dropBytes { r with read := true }))) ∧
        u = { heard s with ddt := { s.ddt with table := u.ddt.table } } ∧
        u.ddt.table =
          s.ddt.table.map (fun x => if x.core.sequence = r.core.sequence then { x with read := true } else x))

/-- R132, R133, R135, R148, R154: every step keeps at most 8 closed records, with ascending sequence numbers below the record in
progress's and that below the next, and the port's ring, history and runs within their bounds. -/
def Obligations.StepKeepsMotionLaws : Prop :=
  ∀ s t : State, RecordsOk s.ddt ∧ PortOk s.mpt → step s = .next t → RecordsOk t.ddt ∧ PortOk t.mpt
end

