-- ==== Sys2Proof/Laws/State.lean ====
section
/-! SUPPORT. One lemma per field per update of State and of its families of like things, so that no proof unfolds a record update. -/

namespace Sys2Proof.Machine

/-! ### Families -/

@[simp] theorem PerSource.get_set {α : Type} (f : PerSource α) (p q : Source) (v : α) :
    (f.set p v).get q = if q = p then v else f.get q := by cases p <;> cases q <;> rfl

@[simp] theorem PerBay.get_set {α : Type} (f : PerBay α) (p q : Bay) (v : α) :
    (f.set p v).get q = if q = p then v else f.get q := by cases p <;> cases q <;> rfl

@[simp] theorem PerChannel.get_set {α : Type} (f : PerChannel α) (p q : Channel) (v : α) :
    (f.set p v).get q = if q = p then v else f.get q := by cases p <;> cases q <;> rfl

@[simp] theorem PerString.get_set {α : Type} (f : PerString α) (p q : LedString) (v : α) :
    (f.set p v).get q = if q = p then v else f.get q := by cases p <;> cases q <;> rfl

@[simp] theorem PerNotice.get_set {α : Type} (f : PerNotice α) (p q : NoticeKind) (v : α) :
    (f.set p v).get q = if q = p then v else f.get q := by cases p <;> cases q <;> rfl

@[simp] theorem PerSource.get_map {α β : Type} (f : α → β) (x : PerSource α) (p : Source) :
    (x.map f).get p = f (x.get p) := by cases p <;> rfl

@[simp] theorem PerBay.get_map {α β : Type} (f : α → β) (x : PerBay α) (bay : Bay) :
    (x.map f).get bay = f (x.get bay) := by cases bay <;> rfl

@[simp] theorem PerChannel.get_map {α β : Type} (f : α → β) (x : PerChannel α) (c : Channel) :
    (x.map f).get c = f (x.get c) := by cases c <;> rfl

@[simp] theorem PerString.get_map {α β : Type} (f : α → β) (x : PerString α) (i : LedString) :
    (x.map f).get i = f (x.get i) := by cases i <;> rfl

@[simp] theorem otherBay_ne (bay : Bay) : otherBay bay ≠ bay := by cases bay <;> decide

@[simp] theorem ne_otherBay (bay : Bay) : bay ≠ otherBay bay := by cases bay <;> decide

@[simp] theorem otherBay_otherBay (bay : Bay) : otherBay (otherBay bay) = bay := by cases bay <;> rfl

@[simp] theorem baySource_inj (x y : Bay) : baySource x = baySource y ↔ x = y := by cases x <;> cases y <;> decide

@[simp] theorem sourceBay_baySource (bay : Bay) : sourceBay (baySource bay) = some bay := by cases bay <;> rfl

/-! ### One record of a block -/

variable (s : State) (p : Source) (r : PathRecord) (bay : Bay) (l : LatchRecord) (c : Channel) (x : ChannelRecord)

@[simp] theorem setPath_path (q : Source) : (s.setPath p r).path q = if q = p then r else s.path q :=
  PerSource.get_set s.spc.paths p q r
@[simp] theorem setPath_slu : (s.setPath p r).slu = s.slu := rfl
@[simp] theorem setPath_ltc : (s.setPath p r).ltc = s.ltc := rfl
@[simp] theorem setPath_scv : (s.setPath p r).scv = s.scv := rfl
@[simp] theorem setPath_bre : (s.setPath p r).bre = s.bre := rfl
@[simp] theorem setPath_lmd : (s.setPath p r).lmd = s.lmd := rfl
@[simp] theorem setPath_mpt : (s.setPath p r).mpt = s.mpt := rfl
@[simp] theorem setPath_ddt : (s.setPath p r).ddt = s.ddt := rfl
@[simp] theorem setPath_pending : (s.setPath p r).pending = s.pending := rfl
@[simp] theorem setPath_latch (q : Bay) : (s.setPath p r).latch q = s.latch q := rfl
@[simp] theorem setPath_feeding : (s.setPath p r).spc.feeding = s.spc.feeding := rfl
@[simp] theorem setPath_sw : (s.setPath p r).spc.sw = s.spc.sw := rfl
@[simp] theorem setPath_settings : (s.setPath p r).spc.settings = s.spc.settings := rfl

@[simp] theorem setLatch_latch (q : Bay) : (s.setLatch bay l).latch q = if q = bay then l else s.latch q :=
  PerBay.get_set s.ltc.latches bay q l
@[simp] theorem setLatch_slu : (s.setLatch bay l).slu = s.slu := rfl
@[simp] theorem setLatch_spc : (s.setLatch bay l).spc = s.spc := rfl
@[simp] theorem setLatch_scv : (s.setLatch bay l).scv = s.scv := rfl
@[simp] theorem setLatch_bre : (s.setLatch bay l).bre = s.bre := rfl
@[simp] theorem setLatch_lmd : (s.setLatch bay l).lmd = s.lmd := rfl
@[simp] theorem setLatch_mpt : (s.setLatch bay l).mpt = s.mpt := rfl
@[simp] theorem setLatch_ddt : (s.setLatch bay l).ddt = s.ddt := rfl
@[simp] theorem setLatch_pending : (s.setLatch bay l).pending = s.pending := rfl
@[simp] theorem setLatch_path (q : Source) : (s.setLatch bay l).path q = s.path q := rfl
@[simp] theorem setLatch_older : (s.setLatch bay l).ltc.older = s.ltc.older := rfl
@[simp] theorem setLatch_armed : (s.setLatch bay l).ltc.armed = s.ltc.armed := rfl

@[simp] theorem setChannel_record (q : Channel) :
    (s.setChannel c x).scv.records.get q = if q = c then x else s.scv.records.get q :=
  PerChannel.get_set s.scv.records c q x
@[simp] theorem setChannel_slu : (s.setChannel c x).slu = s.slu := rfl
@[simp] theorem setChannel_spc : (s.setChannel c x).spc = s.spc := rfl
@[simp] theorem setChannel_ltc : (s.setChannel c x).ltc = s.ltc := rfl
@[simp] theorem setChannel_bre : (s.setChannel c x).bre = s.bre := rfl
@[simp] theorem setChannel_lmd : (s.setChannel c x).lmd = s.lmd := rfl
@[simp] theorem setChannel_mpt : (s.setChannel c x).mpt = s.mpt := rfl
@[simp] theorem setChannel_ddt : (s.setChannel c x).ddt = s.ddt := rfl
@[simp] theorem setChannel_pending : (s.setChannel c x).pending = s.pending := rfl

/-! ### Notices, replies and the transmitter change the SLU alone -/

variable (k : NoticeKind) (tag : Byte) (q : ReqKind) (st : Status) (res : List Byte)

@[simp] theorem raise_spc : (raise k s).spc = s.spc := rfl
@[simp] theorem raise_ltc : (raise k s).ltc = s.ltc := rfl
@[simp] theorem raise_scv : (raise k s).scv = s.scv := rfl
@[simp] theorem raise_bre : (raise k s).bre = s.bre := rfl
@[simp] theorem raise_lmd : (raise k s).lmd = s.lmd := rfl
@[simp] theorem raise_mpt : (raise k s).mpt = s.mpt := rfl
@[simp] theorem raise_ddt : (raise k s).ddt = s.ddt := rfl
@[simp] theorem raise_pending : (raise k s).pending = s.pending := rfl
@[simp] theorem raise_slu : (raise k s).slu = s.slu.raised k := rfl
@[simp] theorem raise_path (y : Source) : (raise k s).path y = s.path y := rfl
@[simp] theorem raise_latch (y : Bay) : (raise k s).latch y = s.latch y := rfl

@[simp] theorem answer_spc : (answer tag q st res s).spc = s.spc := rfl
@[simp] theorem answer_ltc : (answer tag q st res s).ltc = s.ltc := rfl
@[simp] theorem answer_scv : (answer tag q st res s).scv = s.scv := rfl
@[simp] theorem answer_bre : (answer tag q st res s).bre = s.bre := rfl
@[simp] theorem answer_lmd : (answer tag q st res s).lmd = s.lmd := rfl
@[simp] theorem answer_mpt : (answer tag q st res s).mpt = s.mpt := rfl
@[simp] theorem answer_ddt : (answer tag q st res s).ddt = s.ddt := rfl
@[simp] theorem answer_pending : (answer tag q st res s).pending = s.pending := rfl
@[simp] theorem answer_path (y : Source) : (answer tag q st res s).path y = s.path y := rfl
@[simp] theorem answer_latch (y : Bay) : (answer tag q st res s).latch y = s.latch y := rfl

@[simp] theorem arbitrate_spc : (arbitrate s).spc = s.spc := rfl
@[simp] theorem arbitrate_ltc : (arbitrate s).ltc = s.ltc := rfl
@[simp] theorem arbitrate_scv : (arbitrate s).scv = s.scv := rfl
@[simp] theorem arbitrate_bre : (arbitrate s).bre = s.bre := rfl
@[simp] theorem arbitrate_lmd : (arbitrate s).lmd = s.lmd := rfl
@[simp] theorem arbitrate_mpt : (arbitrate s).mpt = s.mpt := rfl
@[simp] theorem arbitrate_ddt : (arbitrate s).ddt = s.ddt := rfl
@[simp] theorem arbitrate_pending : (arbitrate s).pending = s.pending := rfl
@[simp] theorem arbitrate_slu : (arbitrate s).slu = arbitrated s := rfl
@[simp] theorem arbitrate_path (y : Source) : (arbitrate s).path y = s.path y := rfl
@[simp] theorem arbitrate_latch (y : Bay) : (arbitrate s).latch y = s.latch y := rfl

/-! ### The Brightness Engine publishes to the Lamp Driver alone -/

variable (e : Bre)

@[simp] theorem withBre_bre : (s.withBre e).bre = e := rfl
@[simp] theorem withBre_slu : (s.withBre e).slu = s.slu := rfl
@[simp] theorem withBre_spc : (s.withBre e).spc = s.spc := rfl
@[simp] theorem withBre_ltc : (s.withBre e).ltc = s.ltc := rfl
@[simp] theorem withBre_scv : (s.withBre e).scv = s.scv := rfl
@[simp] theorem withBre_mpt : (s.withBre e).mpt = s.mpt := rfl
@[simp] theorem withBre_ddt : (s.withBre e).ddt = s.ddt := rfl
@[simp] theorem withBre_pending : (s.withBre e).pending = s.pending := rfl
@[simp] theorem withBre_path (y : Source) : (s.withBre e).path y = s.path y := rfl
@[simp] theorem withBre_latch (y : Bay) : (s.withBre e).latch y = s.latch y := rfl

/-! ### Raises -/

variable (u : Slu)

@[simp] theorem raised_rx : (u.raised k).rx = u.rx := by unfold Slu.raised; split <;> rfl
@[simp] theorem raised_queue : (u.raised k).queue = u.queue := by unfold Slu.raised; split <;> rfl
@[simp] theorem raised_fifo : (u.raised k).fifo = u.fifo := by unfold Slu.raised; split <;> rfl
@[simp] theorem raised_owedSelect : (u.raised k).owedSelect = u.owedSelect := by unfold Slu.raised; split <;> rfl
@[simp] theorem raised_owedRelease : (u.raised k).owedRelease = u.owedRelease := by unfold Slu.raised; split <;> rfl
@[simp] theorem raised_owedConvert : (u.raised k).owedConvert = u.owedConvert := by unfold Slu.raised; split <;> rfl
@[simp] theorem raised_noticeMask : (u.raised k).noticeMask = u.noticeMask := by unfold Slu.raised; split <;> rfl
@[simp] theorem raised_wakeMask : (u.raised k).wakeMask = u.wakeMask := by unfold Slu.raised; split <;> rfl
@[simp] theorem raised_platform : (u.raised k).platform = u.platform := by unfold Slu.raised; split <;> rfl
@[simp] theorem raised_linkErrors : (u.raised k).linkErrors = u.linkErrors := by unfold Slu.raised; split <;> rfl
@[simp] theorem raised_uptime : (u.raised k).uptime = u.uptime := by unfold Slu.raised; split <;> rfl
@[simp] theorem raised_subMs : (u.raised k).subMs = u.subMs := by unfold Slu.raised; split <;> rfl
@[simp] theorem raised_tx : (u.raised k).tx = u.tx := by unfold Slu.raised; split <;> rfl

/-! ### Gates -/

/-- R7: the gates that are driven are those that ramp or are fully on. -/
theorem gateDriven_iff (s : State) (p : Source) : gateDriven s p = true ↔ gateDrive s p ≠ .off := by
  unfold gateDriven gateDrive
  cases (s.path p).state <;> simp

end Sys2Proof.Machine
end

