-- ==== Sys2Proof/Laws/Kept.lean ====
section
/-! SUPPORT. What the operations of the SPC and the LTC leave alone. `Reported` is what an event of the switchover logic keeps (the
end of a switchover included), `Kept` what the examination of the triggers at the end of an event keeps, `Calm` what it keeps when
it evaluates no release. One lemma per operation says so once; every frame and invariant of a command cites these. -/

namespace Sys2Proof.Machine

open Sys2Proof.Safety

theorem samePath_refl (r : PathRecord) : SamePath r r := ⟨rfl, rfl, rfl, rfl, rfl, rfl, rfl, rfl, rfl, rfl⟩

theorem samePath_trans {r t u : PathRecord} (h : SamePath r t) (g : SamePath t u) : SamePath r u :=
  ⟨g.1.trans h.1, g.2.trans h.2, g.3.trans h.3, g.4.trans h.4, g.5.trans h.5, g.6.trans h.6, g.7.trans h.7,
    g.8.trans h.8, g.9.trans h.9, g.10.trans h.10⟩

theorem capFrame_refl (s : State) : CapFrame s s := ⟨rfl, rfl⟩

theorem capFrame_trans {s t u : State} (h : CapFrame s t) (g : CapFrame t u) : CapFrame s u :=
  ⟨g.1.trans (by rw [h.1]), g.2.trans (by rw [h.2])⟩

/-- What an event of the switchover logic keeps, before the transmitter's choice. -/
structure Reported (s t : State) : Prop where
  rest : t = { s with slu := t.slu, spc := t.spc, ltc := t.ltc, bre := t.bre, lmd := t.lmd }
  link : t.slu =
    { s.slu with
      fifo := t.slu.fifo, outbox := t.slu.outbox, wake := t.slu.wake, owedSelect := t.slu.owedSelect
      owedRelease := t.slu.owedRelease }
  used : t.slu.fifo.length + reservedSpace t = s.slu.fifo.length + reservedSpace s
  outbox : (∀ k, s.slu.outbox.get k ≤ Config.maxOccurrences) → ∀ k, t.slu.outbox.get k ≤ Config.maxOccurrences
  grows : s.slu.fifo <+: t.slu.fifo
  kinds : ∀ k, k ≠ .supplyChange → k ≠ .release → t.slu.outbox.get k = s.slu.outbox.get k
  latches : t.ltc = { s.ltc with latches := t.ltc.latches }
  sensed : ∀ bay, (t.latch bay).sensed = (s.latch bay).sensed ∧ (t.latch bay).insecure = (s.latch bay).insecure
  supply : t.spc =
    { s.spc with
      paths := t.spc.paths, feeding := t.spc.feeding, sw := t.spc.sw, overlapTimer := t.spc.overlapTimer
      deadTimer := t.spc.deadTimer, lossTimer := t.spc.lossTimer, preempt := t.spc.preempt, busLow := t.spc.busLow
      belowCount := t.spc.belowCount, recoveryTimer := t.spc.recoveryTimer, packInfo := t.spc.packInfo
      soleSource := t.spc.soleSource, situation := t.spc.situation, cap := t.spc.cap }
  caps : CapFrame s t
  path : ∀ p, SamePath (s.path p) (t.path p)
  lamp : LampOk s → LampOk t

/-- What the examination of the triggers keeps besides, the evaluation of PENDING releases included. -/
structure Kept (s t : State) : Prop extends Reported s t where
  owedSelect : t.slu.owedSelect = s.slu.owedSelect
  feeding : t.spc.feeding = s.spc.feeding
  busLow : t.spc.busLow = s.spc.busLow
  belowCount : t.spc.belowCount = s.spc.belowCount
  recoveryTimer : t.spc.recoveryTimer = s.spc.recoveryTimer
  outcome : t.spc.sw.outcome = s.spc.sw.outcome

/-- What it keeps besides when no release is evaluated. -/
structure Calm (s t : State) : Prop extends Kept s t where
  ltc : t.ltc = s.ltc
  fifo : t.slu.fifo = s.slu.fifo
  owedRelease : t.slu.owedRelease = s.slu.owedRelease
  packInfo : t.spc.packInfo = s.spc.packInfo

theorem Reported.refl (s : State) : Reported s s := by
  constructor <;> first | rfl | exact id | exact fun _ => samePath_refl _ | exact fun _ => ⟨rfl, rfl⟩ | exact fun _ _ _ => rfl | exact List.prefix_rfl | exact ⟨rfl, rfl⟩

theorem Reported.trans {s t u : State} (h : Reported s t) (g : Reported t u) : Reported s u where
  rest := g.rest.trans (by rw [h.rest])
  link := g.link.trans (by rw [h.link])
  used := g.used.trans h.used
  outbox := fun x => g.outbox (h.outbox x)
  grows := h.grows.trans g.grows
  kinds := fun k x y => (g.kinds k x y).trans (h.kinds k x y)
  latches := g.latches.trans (by rw [h.latches])
  sensed := fun bay => ⟨(g.sensed bay).1.trans (h.sensed bay).1, (g.sensed bay).2.trans (h.sensed bay).2⟩
  supply := g.supply.trans (by rw [h.supply])
  caps := capFrame_trans h.caps g.caps
  path := fun p => samePath_trans (h.path p) (g.path p)
  lamp := fun x => g.lamp (h.lamp x)

theorem Kept.refl (s : State) : Kept s s := { Reported.refl s with
  owedSelect := rfl, feeding := rfl, busLow := rfl, belowCount := rfl, recoveryTimer := rfl, outcome := rfl }

theorem Kept.trans {s t u : State} (h : Kept s t) (g : Kept t u) : Kept s u :=
  { h.toReported.trans g.toReported with
    owedSelect := g.owedSelect.trans h.owedSelect
    feeding := g.feeding.trans h.feeding
    busLow := g.busLow.trans h.busLow
    belowCount := g.belowCount.trans h.belowCount
    recoveryTimer := g.recoveryTimer.trans h.recoveryTimer
    outcome := g.outcome.trans h.outcome }

theorem Calm.refl (s : State) : Calm s s := { Kept.refl s with ltc := rfl, fifo := rfl, owedRelease := rfl, packInfo := rfl }

theorem Calm.trans {s t u : State} (h : Calm s t) (g : Calm t u) : Calm s u :=
  { h.toKept.trans g.toKept with
    ltc := g.ltc.trans h.ltc
    fifo := g.fifo.trans h.fifo
    owedRelease := g.owedRelease.trans h.owedRelease
    packInfo := g.packInfo.trans h.packInfo }

/-! ### Record updates -/

theorem calm_setPath (s : State) (p : Source) (r : PathRecord) (h : SamePath (s.path p) r) : Calm s (s.setPath p r) := by
  constructor <;> try rfl
  constructor <;> try rfl
  constructor <;> try first | rfl | exact id | exact fun _ => ⟨rfl, rfl⟩ | exact fun _ _ _ => rfl | exact List.prefix_rfl | exact ⟨rfl, rfl⟩
  · intro q
    rw [setPath_path]
    split
    · subst q; exact h
    · exact samePath_refl _
  · exact fun h => ⟨h.1, h.2, h.3, h.4, h.5, h.6, h.7, h.8⟩

theorem kept_setLatch (s : State) (bay : Bay) (l : LatchRecord) (sensed : l.sensed = (s.latch bay).sensed)
    (insecure : l.insecure = (s.latch bay).insecure) : Kept s (s.setLatch bay l) := by
  constructor <;> try rfl
  constructor <;> try first | rfl | exact id | exact fun _ => samePath_refl _ | exact ⟨rfl, rfl⟩ | exact fun _ _ _ => rfl | exact List.prefix_rfl | exact fun h => ⟨h.1, h.2, h.3, h.4, h.5, h.6, h.7, h.8⟩
  intro other
  rw [setLatch_latch]
  split
  · subst other; exact ⟨sensed, insecure⟩
  · exact ⟨rfl, rfl⟩

theorem path_eq_of_paths {s : State} {c : Spc} (paths : c.paths = s.spc.paths) (p : Source) :
    State.path { s with spc := c } p = s.path p := by simp [State.path, paths]

/-- An SPC that differs in the switchover record, its timers, the preemption timers and the sole-source flag. -/
theorem calm_spc (s : State) (c : Spc)
    (supply : c =
      { s.spc with
        sw := c.sw, overlapTimer := c.overlapTimer, deadTimer := c.deadTimer, lossTimer := c.lossTimer
        preempt := c.preempt, soleSource := c.soleSource })
    (outcome : c.sw.outcome = s.spc.sw.outcome) : Calm s { s with spc := c } := by
  have paths : c.paths = s.spc.paths := by rw [supply]
  have cap : c.cap = s.spc.cap := by rw [supply]
  constructor
  · constructor
    · constructor <;> try first | rfl | exact id | exact fun _ => ⟨rfl, rfl⟩ | exact fun _ _ _ => rfl | exact List.prefix_rfl | exact ⟨rfl, rfl⟩
      · show c = _
        conv => lhs; rw [supply]
        rw [show c.paths = s.spc.paths from paths, show c.feeding = s.spc.feeding by rw [supply],
          show c.busLow = s.spc.busLow by rw [supply], show c.belowCount = s.spc.belowCount by rw [supply],
          show c.recoveryTimer = s.spc.recoveryTimer by rw [supply], show c.packInfo = s.spc.packInfo by rw [supply],
          show c.situation = s.spc.situation by rw [supply], cap]
      · intro p; rw [path_eq_of_paths paths]; exact samePath_refl _
      · exact fun h => ⟨h.1.trans cap.symm, h.2, h.3, h.4, h.5, h.6, h.7, h.8⟩
    · rfl
    · show c.feeding = _; rw [supply]
    · show c.busLow = _; rw [supply]
    · show c.belowCount = _; rw [supply]
    · show c.recoveryTimer = _; rw [supply]
    · exact outcome
  · rfl
  · rfl
  · rfl
  · show c.packInfo = _; rw [supply]

/-- An SLU that differs in what an event of the supply may change. -/
theorem reported_slu (s : State) (u : Slu)
    (link : u =
      { s.slu with
        fifo := u.fifo, outbox := u.outbox, wake := u.wake, owedSelect := u.owedSelect, owedRelease := u.owedRelease })
    (used : u.fifo.length + u.owedSelect.isSome.toNat + u.owedRelease.isSome.toNat =
      s.slu.fifo.length + s.slu.owedSelect.isSome.toNat + s.slu.owedRelease.isSome.toNat)
    (outbox : (∀ k, s.slu.outbox.get k ≤ Config.maxOccurrences) → ∀ k, u.outbox.get k ≤ Config.maxOccurrences)
    (grows : s.slu.fifo <+: u.fifo)
    (kinds : ∀ k, k ≠ .supplyChange → k ≠ .release → u.outbox.get k = s.slu.outbox.get k) : Reported s { s with slu := u } := by
  have platform : u.platform = s.slu.platform := by rw [link]
  have convert : u.owedConvert = s.slu.owedConvert := by rw [link]
  constructor <;> try first | rfl | assumption | exact ⟨rfl, rfl⟩ | exact fun _ => ⟨rfl, rfl⟩ | exact fun _ _ _ => rfl | exact List.prefix_rfl
  · simp only [reservedSpace, convert]; omega
  · exact fun _ => samePath_refl _
  · exact fun h => ⟨h.1, h.2, h.3, h.4, h.5, h.6, h.7, fun d => h.8 (by rw [← platform]; exact d)⟩

theorem raised_outbox_le (u : Slu) (k : NoticeKind) (h : ∀ x, u.outbox.get x ≤ Config.maxOccurrences) (x : NoticeKind) :
    (u.raised k).outbox.get x ≤ Config.maxOccurrences := by
  unfold Slu.raised
  split
  · simp only [PerNotice.get_set]
    split
    · exact Nat.min_le_left _ _
    · exact h x
  · exact h x

theorem reservedSpace_raise (k : NoticeKind) (s : State) : reservedSpace (raise k s) = reservedSpace s := by
  simp [reservedSpace]

theorem raised_link (u : Slu) (k : NoticeKind) :
    u.raised k = { u with outbox := (u.raised k).outbox, wake := (u.raised k).wake } := by
  unfold Slu.raised; split <;> rfl

theorem raised_other (u : Slu) (k x : NoticeKind) (h : x ≠ k) : (u.raised k).outbox.get x = u.outbox.get x := by
  unfold Slu.raised; split
  · simp [h]
  · rfl

/-- The two kinds that the examination of the triggers and the releases raise. -/
theorem calm_raise (k : NoticeKind) (s : State) (hk : k = .supplyChange ∨ k = .release := by decide) : Calm s (raise k s) := by
  have h := raised_link s.slu k
  refine ⟨⟨reported_slu s (s.slu.raised k) ?_ (by simp) (raised_outbox_le _ k)
    (by simp) (fun x a b => raised_other _ _ _ (by rcases hk with rfl | rfl <;> assumption)), ?_, rfl, rfl, rfl, rfl, rfl⟩, rfl, ?_, ?_, rfl⟩
  · conv => lhs; rw [h]
    simp
  · show (s.slu.raised k).owedSelect = _; simp
  · show (s.slu.raised k).fifo = _; simp
  · show (s.slu.raised k).owedRelease = _; simp

theorem calm_raiseIf (b : Bool) (k : NoticeKind) (s : State) (hk : k = .supplyChange ∨ k = .release := by decide) : Calm s (raiseIf b k s) := by
  unfold raiseIf; split
  · exact calm_raise k s hk
  · exact Calm.refl s

theorem kept_clearOwed (bay : Bay) (s : State) : Kept s (clearOwed bay s) := kept_setLatch s bay _ rfl rfl

theorem kept_answerRelease (bay : Bay) (st : Status) (f : Option FailReason) (s : State) :
    Kept s (answerRelease bay st f s) := by
  unfold answerRelease
  split
  · refine (kept_clearOwed bay s).trans ?_
    dsimp only
    split
    · exact Kept.refl _
    · rename_i h
      refine ⟨reported_slu _ _ rfl ?_ (fun x => x) (List.prefix_append _ _) (fun _ _ _ => rfl), rfl, rfl, rfl, rfl, rfl, rfl⟩
      simp [Slu.pushReply, h]; omega
  · exact Kept.refl s

/-! ### Publishing the situation -/

theorem published_level (l : Lmd) (yc cap : Nat) : (l.published yc cap).a = min l.a cap := by
  unfold Lmd.published; dsimp only; split <;> simp [Lmd.putInForce] <;> omega

theorem published_copies (l : Lmd) (yc cap : Nat) :
    (l.published yc cap).ycCopy = yc ∧ (l.published yc cap).capCopy = cap := by
  unfold Lmd.published; dsimp only; split <;> simp [Lmd.putInForce]

/-- A recomputation that ends in `limit` keeps the lamp law, whatever else of the pipeline it changed. -/
theorem lampOk_withBre (s : State) (c : Spc) (u : Slu) (v : Scv) (e : Bre) (h : LampOk s)
    (platform : u.platform = s.slu.platform) (allowance : e.allowance = c.cap)
    (thermal : e.thermalCap = thermalCapOf e.settings (knownValue v.records.thPanel)) :
    LampOk (State.withBre { s with spc := c, slu := u, scv := v } e.limit) := by
  have hy : e.limit.yc ≤ e.limit.cap := by simp only [Bre.limit]; omega
  have hc := h.capCopy
  have hyc := h.ycCopy
  refine ⟨allowance, thermal, rfl, hy, ?_, ?_, ?_, ?_⟩ <;> simp only [State.withBre] <;> split <;> rename_i g
  · rw [hyc]; exact g.1.symm
  · exact (published_copies _ _ _).1
  · rw [hc]; exact g.2.symm
  · exact (published_copies _ _ _).2
  · exact h.level
  · rw [published_level, (published_copies _ _ _).2]; exact Nat.min_le_right _ _
  · rw [platform]; exact h.dark
  · intro d
    have := h.dark (by rw [← platform]; exact d)
    rw [published_level, this]; omega

theorem published_frame (l : Lmd) (yc cap : Nat) :
    l.published yc cap =
      { l with
        ycCopy := (l.published yc cap).ycCopy, capCopy := (l.published yc cap).capCopy, a := (l.published yc cap).a
        inForce := (l.published yc cap).inForce, staged := (l.published yc cap).staged
        stagedPending := (l.published yc cap).stagedPending, changed := (l.published yc cap).changed } := by
  unfold Lmd.published; dsimp only; split <;> rfl

theorem capFrame_breAllowance (cap : Nat) (s : State) : CapFrame s (breAllowance cap s) := by
  refine ⟨rfl, ?_⟩
  simp only [breAllowance, State.withBre]
  split
  · rfl
  · exact published_frame _ _ _

/-- R100: the SPC writes a situation and a cap, and publishes the cap. -/
theorem calm_publish (s : State) (x : Situation) (cap : Nat) :
    Calm s (breAllowance cap { s with spc := { s.spc with situation := x, cap := cap } }) := by
  have f := capFrame_breAllowance cap { s with spc := { s.spc with situation := x, cap := cap } }
  refine ⟨⟨⟨rfl, rfl, rfl, id, List.prefix_rfl, fun _ _ _ => rfl, rfl, fun _ => ⟨rfl, rfl⟩, rfl, ⟨f.1, f.2⟩, fun _ => samePath_refl _, ?_⟩, rfl, rfl, rfl, rfl, rfl, rfl⟩,
    rfl, rfl, rfl, rfl⟩
  intro h
  exact lampOk_withBre s _ s.slu s.scv _ h rfl rfl h.thermal

theorem calm_publishSituation (s : State) : Calm s (publishSituation s) := by
  unfold publishSituation
  dsimp only
  split
  · exact Calm.refl s
  · unfold raiseIf
    split
    · exact (calm_raise .supplyChange s).trans (calm_publish _ _ _)
    · exact calm_publish _ _ _

/-! ### Orders and starts -/

theorem samePath_close (r : PathRecord) : SamePath r r.closeOrdered := by
  unfold PathRecord.closeOrdered; split
  · exact ⟨rfl, rfl, rfl, rfl, rfl, rfl, rfl, rfl, rfl, rfl⟩
  · exact samePath_refl r

theorem samePath_open (r : PathRecord) : SamePath r r.openOrdered := by
  unfold PathRecord.openOrdered; split <;> exact ⟨rfl, rfl, rfl, rfl, rfl, rfl, rfl, rfl, rfl, rfl⟩

theorem samePath_closedNow (r : PathRecord) : SamePath r r.closedNow := ⟨rfl, rfl, rfl, rfl, rfl, rfl, rfl, rfl, rfl, rfl⟩

theorem calm_closeOrder (p : Source) (s : State) : Calm s (closeOrder p s) := calm_setPath s p _ (samePath_close _)

theorem calm_openOrder (p : Source) (s : State) : Calm s (openOrder p s) := calm_setPath s p _ (samePath_open _)

theorem calm_startSwitchover (reason : SwReason) (f : Option Source) (t : Source) (tried : List Source) (s : State) :
    Calm s (startSwitchover reason f t tried s) := by
  have h : Calm s { s with spc := s.spc.started reason f t tried (chooseMode s f t) } := calm_spc s _ rfl rfl
  unfold startSwitchover
  dsimp only
  split
  · exact h.trans (calm_closeOrder _ _)
  · exact h.trans (calm_openOrder _ _)
  · exact h.trans (calm_closeOrder _ _)

/-! ### The Latch Controller -/

theorem kept_clearPack (bay : Bay) (s : State) : Kept s (clearPack bay s) := by
  refine ⟨⟨rfl, rfl, rfl, id, List.prefix_rfl, fun _ _ _ => rfl, rfl, fun _ => ⟨rfl, rfl⟩, rfl, ⟨rfl, rfl⟩, fun _ => samePath_refl _, ?_⟩, rfl, rfl, rfl, rfl, rfl, rfl⟩
  exact fun h => ⟨h.1, h.2, h.3, h.4, h.5, h.6, h.7, h.8⟩

theorem kept_grantBay (bay : Bay) (s : State) : Kept s (grantBay bay s) :=
  (((kept_setLatch s bay (s.latch bay).grant rfl rfl).trans (kept_clearPack _ _)).trans (kept_answerRelease _ _ _ _)).trans
    (calm_raise _ _).toKept

theorem kept_refuseBay (bay : Bay) (s : State) : Kept s (refuseBay bay s) :=
  ((kept_setLatch s bay ((s.latch bay).endRelease .refused) rfl rfl).trans (kept_answerRelease _ _ _ _)).trans
    (calm_raise _ _).toKept

theorem kept_pendFor (bay : Bay) (c : PendingCause) (s : State) : Kept s (pendFor bay c s) := kept_setLatch s bay _ rfl rfl

theorem kept_askRelease (bay : Bay) (s : State) : Kept s (askRelease bay s) := by
  unfold askRelease; split
  · exact kept_pendFor _ _ _
  · exact kept_grantBay _ _
  · exact kept_refuseBay _ _
  · exact (calm_startSwitchover _ _ _ _ _).toKept.trans (kept_pendFor _ _ _)

theorem kept_evaluate (bay : Bay) (s : State) : Kept s (evaluate bay s) := by
  unfold evaluate; repeat' split
  · exact kept_pendFor _ _ _
  · exact kept_pendFor _ _ _
  · exact kept_pendFor _ _ _
  · exact kept_askRelease _ _

theorem kept_evaluateDue (bay : Bay) (s : State) : Kept s (evaluateDue bay s) := by
  unfold evaluateDue; split
  · exact kept_evaluate _ _
  · exact Kept.refl s

theorem kept_evaluateAll (s : State) : Kept s (evaluateAll s) := (kept_evaluateDue _ _).trans (kept_evaluateDue _ _)

theorem kept_answerAsk (bay : Bay) (m : Bool) (s : State) : Kept s (answerAsk bay m s) := by
  unfold answerAsk; repeat' split
  · exact kept_evaluate _ _
  · exact kept_refuseBay _ _
  · exact Kept.refl s

theorem kept_endWindow (bay : Bay) (e : ReleaseEvent) (s : State) : Kept s (endWindow bay e s) :=
  (kept_setLatch s bay ((s.latch bay).lock.endRelease e) rfl rfl).trans (calm_raise _ _).toKept

theorem kept_revokeBay (bay : Bay) (s : State) : Kept s (revokeBay bay s) := by
  unfold revokeBay; split
  · exact (kept_setLatch s bay (s.latch bay).revoke rfl rfl).trans (calm_raise _ _).toKept
  · exact Kept.refl s

/-! ### The examination of the triggers -/

theorem calm_sole (s : State) (b : Bool) : Calm s { s with spc := { s.spc with soleSource := b } } := calm_spc s _ rfl rfl

theorem calm_examineHeld (s : State) : Calm s (examineHeld s) := by
  unfold examineHeld examineHeldWith; repeat' split
  · exact calm_sole s false
  · exact calm_startSwitchover _ _ _ _ _
  · unfold markSole; split
    · exact Calm.refl s
    · exact (calm_sole s true).trans (calm_raise _ _)
  · exact Calm.refl s

theorem calm_updatePreempt (s : State) : Calm s (updatePreempt s) := calm_spc s _ rfl rfl

theorem calm_examinePreempt (s : State) : Calm s (examinePreempt s) := by
  unfold examinePreempt; repeat' split
  · exact calm_startSwitchover _ _ _ _ _
  · exact Calm.refl s
  · exact Calm.refl s

theorem calm_examineStart (s : State) : Calm s (examineStart s) := by
  unfold examineStart; repeat' split
  · exact calm_startSwitchover _ _ _ _ _
  · exact Calm.refl s
  · exact Calm.refl s

/-- R34, R36, R47, R45: the part of the examination after the PENDING releases. -/
def afterReleases (s : State) : State := publishSituation (updatePreempt (examineStart (examinePreempt (updatePreempt s))))

theorem settle_false (s : State) : settle false s = afterReleases (examineHeld s) := rfl

theorem settle_true (s : State) : settle true s = afterReleases (evaluateAll (examineHeld s)) := rfl

theorem calm_afterReleases (s : State) : Calm s (afterReleases s) :=
  (((((calm_updatePreempt s).trans (calm_examinePreempt _)).trans (calm_examineStart _)).trans (calm_updatePreempt _))).trans
    (calm_publishSituation _)

/-- R32: all that the examination keeps when no release is evaluated. -/
theorem calm_settle (s : State) : Calm s (settle false s) := by
  rw [settle_false]; exact (calm_examineHeld s).trans (calm_afterReleases _)

/-- R32: all that the examination at the end of an event keeps. -/
theorem kept_settle (b : Bool) (s : State) : Kept s (settle b s) := by
  cases b
  · exact (calm_settle s).toKept
  · rw [settle_true]
    exact ((calm_examineHeld s).toKept.trans (kept_evaluateAll _)).trans (calm_afterReleases _).toKept

/-! ### The switchover logic -/

theorem reported_spc (s : State) (c : Spc)
    (supply : c =
      { s.spc with
        feeding := c.feeding, sw := c.sw, overlapTimer := c.overlapTimer, deadTimer := c.deadTimer
        lossTimer := c.lossTimer, preempt := c.preempt, busLow := c.busLow, belowCount := c.belowCount
        recoveryTimer := c.recoveryTimer, soleSource := c.soleSource }) : Reported s { s with spc := c } := by
  have paths : c.paths = s.spc.paths := by rw [supply]
  have pack : c.packInfo = s.spc.packInfo := by rw [supply]
  have situation : c.situation = s.spc.situation := by rw [supply]
  have cap : c.cap = s.spc.cap := by rw [supply]
  constructor <;> try first | rfl | exact id | exact fun _ => ⟨rfl, rfl⟩ | exact fun _ _ _ => rfl | exact List.prefix_rfl | exact ⟨rfl, rfl⟩
  · show c = _
    conv => lhs; rw [supply]
    rw [paths, pack, situation, cap]
  · intro p; rw [path_eq_of_paths paths]; exact samePath_refl _
  · exact fun h => ⟨h.1.trans cap.symm, h.2, h.3, h.4, h.5, h.6, h.7, h.8⟩

theorem reported_answerSelect (st : Status) (f : Option FailReason) (s : State) : Reported s (answerSelect st f s) := by
  unfold answerSelect
  split
  · exact Reported.refl s
  · rename_i tag h
    refine reported_slu _ _ rfl ?_ (fun x => x) (List.prefix_append _ _) (fun _ _ _ => rfl)
    simp [Slu.pushReply, h]

theorem feed_frame (c : Spc) (f : Option Source) :
    c.feed f =
      { c with
        feeding := (c.feed f).feeding, lossTimer := (c.feed f).lossTimer, soleSource := (c.feed f).soleSource
        busLow := (c.feed f).busLow, belowCount := (c.feed f).belowCount
        recoveryTimer := (c.feed f).recoveryTimer } := by
  unfold Spc.feed; split <;> rfl

theorem feed_feeding (c : Spc) (f : Option Source) : (c.feed f).feeding = f := by
  unfold Spc.feed; split
  · rename_i h; exact h.symm
  · rfl

/-- R32, steps 1 and 2: what the end of a switchover writes. -/
theorem ended_frame (c : Spc) (o : SwOutcome) :
    c.ended o =
      { c with
        sw := { c.sw with phase := .idle, tried := [], outcome := o }, overlapTimer := none, deadTimer := none
        feeding := (c.ended o).feeding, lossTimer := (c.ended o).lossTimer, soleSource := (c.ended o).soleSource
        busLow := (c.ended o).busLow, belowCount := (c.ended o).belowCount
        recoveryTimer := (c.ended o).recoveryTimer } := by
  unfold Spc.ended; dsimp only
  split
  · exact feed_frame _ _
  · exact feed_frame _ _
  · rfl
  · rfl

/-- R32, step 2: the feeding source a switchover's end leaves. -/
theorem ended_feeding (c : Spc) (o : SwOutcome) :
    (c.ended o).feeding =
      match o with
      | .completed => some c.sw.toSrc
      | .fellToNone => none
      | .failed => c.feeding
      | .noSwitchover => c.feeding := by
  unfold Spc.ended; dsimp only
  split
  · exact feed_feeding _ _
  · exact feed_feeding _ _
  · rfl
  · rfl

theorem ended_sw (c : Spc) (o : SwOutcome) : (c.ended o).sw = { c.sw with phase := .idle, tried := [], outcome := o } := by
  rw [ended_frame]

theorem reported_answerStarter (reason : SwReason) (f : Option Source) (o : SwOutcome) (fail : FailReason) (s : State) :
    Reported s (answerStarter reason f o fail s) := by
  unfold answerStarter
  repeat' split
  all_goals first
    | exact reported_answerSelect _ _ _
    | exact (kept_answerAsk _ _ _).toReported
    | exact Reported.refl s

theorem calm_retryHeld (reason : SwReason) (p : Source) (o : SwOutcome) (s : State) : Calm s (retryHeld reason p o s) := by
  unfold retryHeld; repeat' split
  · exact calm_startSwitchover _ _ _ _ _
  · exact Calm.refl s
  · exact Calm.refl s

theorem reported_ended (s : State) (o : SwOutcome) : Reported s { s with spc := s.spc.ended o } :=
  reported_spc s _ (by rw [ended_frame])

theorem reported_endSwitchover (o : SwOutcome) (fail : FailReason) (s : State) :
    Reported s (endSwitchover o fail s) := by
  unfold endSwitchover
  dsimp only
  refine Reported.trans ?_ (kept_settle _ _).toReported
  refine Reported.trans ?_ (calm_retryHeld _ _ _ _).toReported
  refine Reported.trans ?_ (reported_answerStarter _ _ _ _ _)
  exact (reported_ended s o).trans (calm_publishSituation _).toReported

theorem reported_pathClosed (p : Source) (s : State) : Reported s (pathClosed p s) := by
  unfold pathClosed; repeat' split
  all_goals first
    | exact reported_spc s _ rfl
    | exact reported_endSwitchover _ _ _

theorem reported_failSelect (f : FailReason) (s : State) : Reported s (failSelect f s) := by
  unfold failSelect; split
  · exact reported_answerSelect _ _ _
  · exact Reported.refl s

theorem reported_retarget (t : Source) (tried : List Source) (s : State) :
    Reported s { s with spc := s.spc.retarget t tried } :=
  reported_spc s (s.spc.retarget t tried) rfl

theorem reported_toFailed (f : FailReason) (s : State) : Reported s (toFailed f s) := by
  unfold toFailed; dsimp only; repeat' split
  · exact (reported_retarget _ _ s).trans (reported_failSelect _ _)
  · exact reported_endSwitchover _ _ _
  · exact reported_endSwitchover _ _ _

theorem reported_fromLost (s : State) : Reported s (fromLost s) := by
  have h : Reported s { s with spc := { s.spc with lossTimer := none, sw := { s.spc.sw with mode := .gap, phase := .gapClose } } } :=
    reported_spc s { s.spc with lossTimer := none, sw := { s.spc.sw with mode := .gap, phase := .gapClose } } rfl
  unfold fromLost; dsimp only; split
  · exact h.trans (reported_endSwitchover _ _ _)
  · exact h

theorem reported_feedingLost (reason : SwReason) (s : State) : Reported s (feedingLost reason s) := by
  unfold feedingLost; split
  · exact (calm_startSwitchover _ _ _ _ _).toReported
  · have h : Reported s { s with spc := { s.spc with lossTimer := none, sw := { s.spc.sw with reason := reason, fromSrc := s.spc.feeding, mode := .gap, tried := [] } } } :=
      reported_spc s { s.spc with lossTimer := none, sw := { s.spc.sw with reason := reason, fromSrc := s.spc.feeding, mode := .gap, tried := [] } } rfl
    exact h.trans (reported_endSwitchover _ _ _)

/-- R38 to R41: all that a report of an opened path keeps. -/
theorem reported_pathDown (p : Source) (r : DownReport) (s : State) : Reported s (pathDown p r s) := by
  unfold pathDown; repeat' split
  · exact reported_toFailed _ _
  · exact reported_fromLost _
  · exact reported_feedingLost _ _
  · exact Reported.refl s

theorem reported_openAndReport (p : Source) (r : DownReport) (s : State) : Reported s (openAndReport p r s) :=
  (calm_openOrder p s).toReported.trans (reported_pathDown _ _ _)

theorem reported_closeTarget (t : Source) (tried : List Source) (s : State) : Reported s (closeTarget t tried s) := by
  have h : Reported s { s with spc := { s.spc with sw := { s.spc.sw with phase := .gapClose, toSrc := t, tried := tried }, deadTimer := none } } :=
    reported_spc s { s.spc with sw := { s.spc.sw with phase := .gapClose, toSrc := t, tried := tried }, deadTimer := none } rfl
  exact h.trans (calm_closeOrder _ _).toReported

theorem reported_deadTimeExpiry (s : State) : Reported s (deadTimeExpiry s) := by
  unfold deadTimeExpiry; dsimp only; repeat' split
  · exact reported_closeTarget _ _ _
  · exact (reported_closeTarget _ _ _).trans (reported_failSelect _ _)
  · exact reported_endSwitchover _ _ _

theorem reported_overlapExpiry (s : State) : Reported s (overlapExpiry s) := by
  unfold overlapExpiry; dsimp only; split
  · exact (calm_openOrder _ _).toReported.trans (reported_endSwitchover _ _ _)
  · exact reported_endSwitchover _ _ _

end Sys2Proof.Machine
end

