-- ==== Sys2Proof/Laws/Requests.lean ====
section
/-! SUPPORT. How a request reaches its block and its reply the transmitter (R167, R169, R173, R176): one lemma each, which the
statements about requests cite. -/

namespace Sys2Proof.Machine

open Sys2Proof.Safety

theorem ofByte_byte (k : ReqKind) : ReqKind.ofByte k.byte = some k := by cases k <;> decide

theorem exec_command (k : ReqKind) (tag : Byte) (p : List Byte) (s : State) :
    exec (command k tag p) s = .next (receiveRequest (requestFrame k tag p) s) := by cases k <;> rfl

/-- R176: a transmitter for which nothing waits stays as it is. -/
theorem arbitrate_idle (s : State) (h : TransmitterOk s) : arbitrate s = s := by
  unfold arbitrate arbitrated
  cases hx : s.slu.tx with
  | some f => rfl
  | none =>
    obtain ⟨hf, ho⟩ := h hx
    have h1 : s.slu.outbox.dropAlert = 0 := ho .dropAlert
    have h2 : firstNotice s.slu.outbox = none := by
      simp only [firstNotice, List.find?_eq_none]
      intro k _
      simp [ho k]
    simp [h1, hf, h2]

theorem transmitterOk_heard (s : State) (h : TransmitterOk s) : TransmitterOk (heard s) := h

@[simp] theorem freeSpace_heard (s : State) : freeSpace (heard s) = freeSpace s := rfl

/-- R167, R169: a request that arrives when none waits and a reply finds room is handled in its own event. -/
theorem receiveRequest_ready (r : Request) (s : State) (h : Ready s) :
    receiveRequest r s = arbitrate (handleRequest r (heard s)) := by
  obtain ⟨hq, hs, ht⟩ := h
  have ho : offerRequest r (heard s) = { heard s with slu := { (heard s).slu with queue := [r] } } := by
    simp [offerRequest, heard, hq, Config.maxQueue]
  have hi : arbitrate { heard s with slu := { (heard s).slu with queue := [r] } } =
      { heard s with slu := { (heard s).slu with queue := [r] } } := arbitrate_idle _ ht
  have hr : dispatchReady { heard s with slu := { (heard s).slu with queue := [r] } } = true := by
    have : freeSpace { heard s with slu := { (heard s).slu with queue := [r] } } = freeSpace s := rfl
    simp [dispatchReady, this, hs]
  have hb : dispatchReady s = false := by simp [dispatchReady, hq]
  have hd : dispatchOne { heard s with slu := { (heard s).slu with queue := [r] } } = handleRequest r (heard s) := by
    simp only [dispatchOne]
    congr 1
    simp only [heard]
    rw [← hq]
  show finishLink s (offerRequest r (heard s)) = _
  simp only [finishLink, ho, hi, hr, hb, hd]
  simp

/-- R169, step 3: the block that owns the kind handles it. -/
theorem exec_ready (k : ReqKind) (tag : Byte) (p : List Byte) (s : State) (h : Ready s) (hl : lengthAllowed k p = true) :
    exec (command k tag p) s = .next (arbitrate (handleOwned k tag p (heard s))) := by
  rw [exec_command, receiveRequest_ready _ _ h]
  simp [handleRequest, requestFrame, ofByte_byte, hl]

/-- R169, step 2: a length that the kind does not allow. -/
theorem exec_badLength (k : ReqKind) (tag : Byte) (p : List Byte) (s : State) (h : Ready s) (hl : lengthAllowed k p = false) :
    exec (command k tag p) s = .next (arbitrate (answerRaw (requestFrame k tag p) .badLength (heard s))) := by
  rw [exec_command, receiveRequest_ready _ _ h]
  simp [handleRequest, requestFrame, ofByte_byte, hl]

/-- R176: a reply is made while no DROP_ALERT waits: it joins the FIFO, or an IDLE transmitter starts it. -/
theorem arbitrate_pushReply (s : State) (r : Reply) (fifo : s.slu.tx = none → s.slu.fifo = [])
    (drop : s.slu.tx = none → s.slu.outbox.dropAlert = 0) :
    arbitrate { s with slu := s.slu.pushReply r } = replied s r := by
  unfold arbitrate arbitrated replied Slu.pushReply
  cases hx : s.slu.tx with
  | some f => simp [← hx]
  | none => simp [fifo hx, drop hx]

/-- R170, R173, R176: an answer made when nothing else waits for the transmitter. -/
theorem arbitrate_answer (k : ReqKind) (tag : Byte) (st : Status) (result : List Byte) (s : State) (h : TransmitterOk s) :
    arbitrate (answer tag k st result s) = replied s (replyOf k tag st result) :=
  arbitrate_pushReply s _ (fun x => (h x).1) (fun x => (h x).2 .dropAlert)

end Sys2Proof.Machine
end

