-- ==== Sys2Proof/Laws/Examined.lean ====
section
/-! SUPPORT. The examination of the triggers at the end of an event (R32): the situation it leaves (R45), the switchover it may
start, and what the transmitter's choice after it leaves. -/

namespace Sys2Proof.Machine

open Sys2Proof.Safety

/-! ### The situation (R45) -/

theorem situationOk_publishSituation (s : State) : SituationOk (publishSituation s) := by
  unfold publishSituation
  dsimp only
  split
  · rename_i h; exact ⟨h.1.symm, by rw [← h.1]; exact h.2.symm⟩
  · unfold raiseIf; split <;> exact ⟨rfl, rfl⟩

theorem situationOk_settle (b : Bool) (s : State) : SituationOk (settle b s) := situationOk_publishSituation _

theorem situationOk_arbitrate (s : State) (h : SituationOk s) : SituationOk (arbitrate s) := ⟨h.1, h.2⟩

theorem situationOk_endSwitchover (o : SwOutcome) (f : FailReason) (s : State) : SituationOk (endSwitchover o f s) :=
  situationOk_settle _ _

/-! ### The start of a switchover -/

/-- No switchover has started: the record, its timers and the paths are the same. -/
structure Same (s t : State) : Prop where
  paths : t.spc.paths = s.spc.paths
  sw : t.spc.sw = s.spc.sw
  overlapTimer : t.spc.overlapTimer = s.spc.overlapTimer
  deadTimer : t.spc.deadTimer = s.spc.deadTimer
  lossTimer : t.spc.lossTimer = s.spc.lossTimer
  feeding : t.spc.feeding = s.spc.feeding
  startUp : t.spc.startUp = s.spc.startUp

/-- A switchover has started from the feeding source, with its first order (R29 to R31). -/
structure Started (s t : State) : Prop where
  before : inFlight s = false
  after : inFlight t = true
  startUp : s.spc.startUp = false
  fromSrc : t.spc.sw.fromSrc = s.spc.feeding
  tried : t.spc.sw.tried = []
  path : ∀ p, t.path p = s.path p ∨ (t.spc.sw.toSrc = p ∧ t.path p = (s.path p).closeOrdered) ∨
    (t.spc.sw.fromSrc = some p ∧ t.path p = (s.path p).openOrdered)

theorem Same.refl (s : State) : Same s s := ⟨rfl, rfl, rfl, rfl, rfl, rfl, rfl⟩

theorem Same.trans {s t u : State} (h : Same s t) (g : Same t u) : Same s u :=
  ⟨g.1.trans h.1, g.2.trans h.2, g.3.trans h.3, g.4.trans h.4, g.5.trans h.5, g.6.trans h.6, g.7.trans h.7⟩

theorem Same.inFlight {s t : State} (h : Same s t) : inFlight t = inFlight s := by simp [Machine.inFlight, h.sw]

theorem Same.path {s t : State} (h : Same s t) (p : Source) : t.path p = s.path p := by simp [State.path, h.paths]

theorem Started.after_same {s t u : State} (h : Started s t) (g : Same t u) : Started s u :=
  ⟨h.before, g.inFlight.trans h.after, h.startUp, by rw [g.sw]; exact h.fromSrc, by rw [g.sw]; exact h.tried,
    fun p => by rw [g.path p, g.sw]; exact h.path p⟩

theorem Same.then_started {s t u : State} (h : Same s t) (g : Started t u) : Started s u :=
  ⟨h.inFlight ▸ g.before, g.after, h.startUp ▸ g.startUp, by rw [g.fromSrc, h.feeding], g.tried,
    fun p => by rw [← h.path p]; exact g.path p⟩

/-- At most one switchover starts. -/
def AtMostOne (s t : State) : Prop := Same s t ∨ Started s t

theorem AtMostOne.trans {s t u : State} (h : AtMostOne s t) (g : AtMostOne t u) : AtMostOne s u := by
  rcases h with h | h <;> rcases g with g | g
  · exact .inl (h.trans g)
  · exact .inr (h.then_started g)
  · exact .inr (h.after_same g)
  · exact absurd h.after (by simp [g.before])

theorem canStart_iff (s : State) : canStart s = true ↔ inFlight s = false ∧ s.spc.startUp = false := by
  simp [canStart]

theorem same_raise (k : NoticeKind) (s : State) : Same s (raise k s) := ⟨rfl, rfl, rfl, rfl, rfl, rfl, rfl⟩

theorem startPhase_ne_idle (m : SwMode) (f : Option Source) : startPhase m f ≠ .idle := by
  cases m <;> cases f <;> simp [startPhase]

/-- R27 to R31: a start from the feeding source. -/
theorem started_startSwitchover (reason : SwReason) (t : Source) (s : State) (h : canStart s = true) :
    Started s (startSwitchover reason s.spc.feeding t [] s) := by
  obtain ⟨h1, h2⟩ := (canStart_iff s).mp h
  have hp : ∀ m, ¬startPhase m s.spc.feeding = .idle := fun m => startPhase_ne_idle m _
  unfold startSwitchover
  dsimp only
  split <;> rename_i hm
  · refine ⟨h1, ?_, h2, rfl, rfl, fun p => ?_⟩
    · simp [inFlight, closeOrder, Spc.started, hp]
    · unfold closeOrder; rw [setPath_path]
      split
      · rename_i e; subst e; exact .inr (.inl ⟨rfl, rfl⟩)
      · exact .inl rfl
  · rename_i f hm2 hf
    refine ⟨h1, ?_, h2, rfl, rfl, fun p => ?_⟩
    · simp [inFlight, openOrder, Spc.started, hp]
    · unfold openOrder; rw [setPath_path]
      split
      · rename_i e; subst e; exact .inr (.inr ⟨‹s.spc.feeding = some _›, rfl⟩)
      · exact .inl rfl
  · refine ⟨h1, ?_, h2, rfl, rfl, fun p => ?_⟩
    · simp [inFlight, closeOrder, Spc.started, hp]
    · unfold closeOrder; rw [setPath_path]
      split
      · rename_i e; subst e; exact .inr (.inl ⟨rfl, rfl⟩)
      · exact .inl rfl

theorem atMostOne_examineHeld (s : State) : AtMostOne s (examineHeld s) := by
  unfold examineHeld examineHeldWith
  split
  · exact .inl ⟨rfl, rfl, rfl, rfl, rfl, rfl, rfl⟩
  · split
    · rename_i h
      split
      · exact .inr (started_startSwitchover _ _ _ h)
      · unfold markSole; split
        · exact .inl (Same.refl s)
        · exact .inl ⟨rfl, rfl, rfl, rfl, rfl, rfl, rfl⟩
    · exact .inl (Same.refl s)

theorem same_updatePreempt (s : State) : Same s (updatePreempt s) := ⟨rfl, rfl, rfl, rfl, rfl, rfl, rfl⟩

theorem atMostOne_examinePreempt (s : State) : AtMostOne s (examinePreempt s) := by
  unfold examinePreempt
  split
  · rename_i h
    split
    · exact .inr (started_startSwitchover _ _ _ h.1)
    · exact .inl (Same.refl s)
  · exact .inl (Same.refl s)

theorem atMostOne_examineStart (s : State) : AtMostOne s (examineStart s) := by
  unfold examineStart
  split
  · rename_i h
    split
    · have := started_startSwitchover .start ‹Source› s h.1
      rw [h.2] at this
      exact .inr this
    · exact .inl (Same.refl s)
  · exact .inl (Same.refl s)

theorem same_publishSituation (s : State) : Same s (publishSituation s) := by
  unfold publishSituation
  dsimp only
  split
  · exact Same.refl s
  · unfold raiseIf; split <;> exact ⟨rfl, rfl, rfl, rfl, rfl, rfl, rfl⟩

theorem atMostOne_afterReleases (s : State) : AtMostOne s (afterReleases s) :=
  ((((AtMostOne.trans (.inl (same_updatePreempt s)) (atMostOne_examinePreempt _)).trans (atMostOne_examineStart _)).trans
    (.inl (same_updatePreempt _)))).trans (.inl (same_publishSituation _))

/-- R32: an examination starts at most one switchover. -/
theorem atMostOne_settle (s : State) : AtMostOne s (settle false s) := by
  rw [settle_false]; exact (atMostOne_examineHeld s).trans (atMostOne_afterReleases _)

/-! ### Availability and the preemption timers across a start (R5, R36) -/

/-- R5: what availability reads. A path counts by being open or by its source feeding. -/
theorem available_imp {v w : State} {x : Source} (volt : ∀ q, (w.path q).voltage = (v.path q).voltage)
    (state : (w.path x).state = .opened ∨ w.spc.feeding = some x → (v.path x).state = .opened ∨ v.spc.feeding = some x)
    (empty : (w.path x).isEmpty = (v.path x).isEmpty) (settings : (w.path x).settings = (v.path x).settings)
    (mode : w.spc.settings = v.spc.settings) (scv : w.scv = v.scv)
    (latch : ∀ bay, sourceBay x = some bay → w.latch bay = v.latch bay) : available w x = true → available v x = true := by
  have pr : ∀ q, present w q = present v q := fun q => by unfold present; rw [volt]
  have no : ∀ q, noOtherPresent w q = noOtherPresent v q := fun q => by unfold noOtherPresent; simp only [pr]
  have ov : overvolt w x = overvolt v x := by cases x <;> unfold overvolt <;> simp only [volt]
  have ht : ∀ bay, hot w (baySource bay) = hot v (baySource bay) := fun bay => by unfold hot bayTemp; rw [scv]
  have ba : ∀ bay, sourceBay x = some bay → bayAvailable w bay = bayAvailable v bay := by
    intro bay h
    have e : baySource bay = x := by cases x <;> cases bay <;> simp [sourceBay, baySource] at h ⊢
    unfold bayAvailable
    rw [latch bay h, ht, no, e, empty]
  unfold available
  rw [pr, ov, mode, settings]
  simp only [Bool.and_eq_true, Bool.or_eq_true, beq_iff_eq]
  rintro ⟨⟨⟨a, b⟩, c⟩, d⟩
  refine ⟨⟨⟨a, state b⟩, ?_⟩, d⟩
  cases h : sourceBay x with
  | none => rfl
  | some bay => simp only [h] at c; exact (ba bay h).symm.trans c

/-- R5: availability reads the voltages, the source's own record and latch, the feeding source, the settings and the channels. -/
theorem available_congr {v w : State} {x : Source} (volt : ∀ q, (w.path q).voltage = (v.path q).voltage)
    (state : (w.path x).state = (v.path x).state) (empty : (w.path x).isEmpty = (v.path x).isEmpty)
    (settings : (w.path x).settings = (v.path x).settings) (feeding : w.spc.feeding = v.spc.feeding)
    (mode : w.spc.settings = v.spc.settings) (scv : w.scv = v.scv)
    (latch : ∀ bay, sourceBay x = some bay → w.latch bay = v.latch bay) : available w x = available v x :=
  Bool.eq_iff_iff.mpr
    ⟨available_imp volt (by rw [state, feeding]; exact id) empty settings mode scv latch,
      available_imp (fun q => (volt q).symm) (by rw [state, feeding]; exact id) empty.symm settings.symm mode.symm scv.symm
        fun bay h => (latch bay h).symm⟩

theorem Calm.settings {s t : State} (c : Calm s t) : t.spc.settings = s.spc.settings := by rw [c.supply]

theorem Calm.scv {s t : State} (c : Calm s t) : t.scv = s.scv := by rw [c.rest]

/-- R36: a start makes no timer run that did not. -/
theorem preemptRuns_of_atMostOne {s t : State} (one : AtMostOne s t) (c : Calm s t) {p : Source}
    (h : preemptRuns t p = true) : preemptRuns s p = true := by
  have st : (t.path p).state = .opened ∨ t.spc.feeding = some p → (s.path p).state = .opened ∨ s.spc.feeding = some p := by
    rintro (x | x)
    · rcases one with g | g
      · exact .inl (by rw [← g.path p]; exact x)
      · rcases g.path p with e | ⟨_, e⟩ | ⟨f, _⟩
        · exact .inl (by rw [← e]; exact x)
        · rw [e] at x
          unfold PathRecord.closeOrdered at x
          split at x
          · cases x
          · exact .inl x
        · exact .inr (g.fromSrc.symm.trans f)
    · exact .inr (c.feeding.symm.trans x)
  simp only [preemptRuns, Bool.and_eq_true] at h ⊢
  refine ⟨⟨by rw [← c.settings]; exact h.1.1, ?_⟩, ?_⟩
  · exact available_imp (fun q => (c.path q).voltage) st (c.path p).isEmpty (c.path p).settings c.settings c.scv
      (fun bay _ => by unfold State.latch; rw [c.ltc]) h.1.2
  · have := h.2
    unfold earlierThanFeeding at this ⊢
    rw [c.feeding, c.settings] at this
    exact this

theorem nextPreempt_get (s : State) (p : Source) :
    (updatePreempt s).spc.preempt.get p = nextPreempt (preemptRuns s p) (s.spc.preempt.get p) := by cases p <;> rfl

theorem startSwitchover_preempt (reason : SwReason) (f : Option Source) (t : Source) (tried : List Source) (s : State) :
    (startSwitchover reason f t tried s).spc.preempt = s.spc.preempt := by
  unfold startSwitchover
  cases chooseMode s f t <;> cases f <;> rfl

theorem publishSituation_spc (s : State) :
    (publishSituation s).spc = { s.spc with situation := (publishSituation s).spc.situation, cap := (publishSituation s).spc.cap } := by
  unfold publishSituation
  dsimp only
  split
  · rfl
  · unfold raiseIf; split <;> rfl

/-- R36: the preemption timers after an examination: each goes on where it runs, from 0 where it did not, and is clear elsewhere. -/
theorem timers_settle (u : State) (p : Source) :
    (settle false u).spc.preempt.get p =
      if preemptRuns (settle false u) p then some ((u.spc.preempt.get p).getD 0) else none := by
  have m : (examineHeld u).spc.preempt = u.spc.preempt := by
    unfold examineHeld examineHeldWith
    repeat' split
    · rfl
    · exact startSwitchover_preempt ..
    · unfold markSole; split <;> rfl
    · rfl
  have mono := preemptRuns_of_atMostOne (atMostOne_afterReleases (examineHeld u)) (calm_afterReleases _) (p := p)
  rw [settle_false]
  generalize examineHeld u = v at m mono ⊢
  have pre : ∀ x : State, (examineStart (examinePreempt x)).spc.preempt = x.spc.preempt := by
    have a : ∀ x : State, (examinePreempt x).spc.preempt = x.spc.preempt := fun x => by
      unfold examinePreempt
      repeat' split
      · exact startSwitchover_preempt ..
      · rfl
      · rfl
    have b : ∀ x : State, (examineStart x).spc.preempt = x.spc.preempt := fun x => by
      unfold examineStart
      repeat' split
      · exact startSwitchover_preempt ..
      · rfl
      · rfl
    exact fun x => (b _).trans (a x)
  have runs : preemptRuns (afterReleases v) p = preemptRuns (examineStart (examinePreempt (updatePreempt v))) p := by
    have q := publishSituation_spc (updatePreempt (examineStart (examinePreempt (updatePreempt v))))
    have k := calm_publishSituation (updatePreempt (examineStart (examinePreempt (updatePreempt v))))
    have e : ∀ x y : State, y.spc = { x.spc with situation := y.spc.situation, cap := y.spc.cap } → Calm x y →
        preemptRuns y p = preemptRuns x p := by
      intro x y hs c
      have pa : ∀ q, y.path q = x.path q := fun q => by unfold State.path; rw [hs]
      unfold preemptRuns earlierThanFeeding
      rw [c.settings, c.feeding, available_congr (fun q => by rw [pa]) (by rw [pa]) (by rw [pa]) (by rw [pa]) c.feeding c.settings
        c.scv (fun bay _ => by unfold State.latch; rw [c.ltc])]
    exact (e _ _ q k).trans rfl
  have fin : (afterReleases v).spc.preempt.get p =
      nextPreempt (preemptRuns (examineStart (examinePreempt (updatePreempt v))) p)
        (nextPreempt (preemptRuns v p) (v.spc.preempt.get p)) := by
    unfold afterReleases
    rw [publishSituation_spc]
    show (updatePreempt _).spc.preempt.get p = _
    rw [nextPreempt_get, pre, nextPreempt_get]
  rw [fin, ← runs, ← m]
  cases h : preemptRuns (afterReleases v) p with
  | false => rfl
  | true => rw [mono h]; rfl

/-! ### What an examination must do (R34, R36, R47) -/

theorem canStart_false_of_started (reason : SwReason) (f : Option Source) (t : Source) (tried : List Source) (s : State) :
    (startSwitchover reason f t tried s).spc.sw =
        { reason := reason, fromSrc := f, toSrc := t, mode := chooseMode s f t, phase := startPhase (chooseMode s f t) f
          tried := tried, outcome := s.spc.sw.outcome } ∧
      (startSwitchover reason f t tried s).spc.soleSource = (s.spc.soleSource && !reason.held) ∧
      canStart (startSwitchover reason f t tried s) = false := by
  unfold startSwitchover
  cases chooseMode s f t <;> cases f <;> exact ⟨rfl, rfl, rfl⟩

theorem publishSituation_supply (s : State) :
    (publishSituation s).spc.sw = s.spc.sw ∧ (publishSituation s).spc.soleSource = s.spc.soleSource := by
  unfold publishSituation
  dsimp only
  split
  · exact ⟨rfl, rfl⟩
  · unfold raiseIf; split <;> exact ⟨rfl, rfl⟩

/-- R32: with a switchover in flight, or in the start-up interval, the later triggers start nothing. -/
theorem afterReleases_waits (s : State) (h : canStart s = false) :
    (afterReleases s).spc.sw = s.spc.sw ∧ (afterReleases s).spc.soleSource = s.spc.soleSource := by
  have c : canStart (updatePreempt s) = false := h
  have e : examinePreempt (updatePreempt s) = updatePreempt s := by simp [examinePreempt, c]
  have f : examineStart (updatePreempt s) = updatePreempt s := by simp [examineStart, c]
  have g := publishSituation_supply (updatePreempt (updatePreempt s))
  unfold afterReleases
  rw [e, f]
  exact g

theorem nextPreempt_due (runs : Bool) (t : Option Nat) :
    (nextPreempt runs t == some Config.preemptTicks) = (runs && t == some 5000) := by
  cases runs <;> cases t <;> simp [nextPreempt, Config.preemptTicks]

theorem preemptTarget_due (s : State) : preemptTarget (updatePreempt s) = preemptDue s := by
  unfold preemptTarget preemptDue
  congr 1
  funext p
  cases p <;> exact nextPreempt_due _ _

/-- R36, R47: the later triggers when no switchover is in flight. -/
theorem afterReleases_starts (s : State) (h : canStart s = true) :
    (afterReleases s).spc.soleSource = s.spc.soleSource ∧
      (∀ q, s.spc.feeding = none → chooseTarget s none [] = some q → (afterReleases s).spc.sw = startedRecord s .start q) ∧
      (∀ q, s.spc.feeding ≠ none → s.ddt.phase = .still → preemptDue s = some q →
        (afterReleases s).spc.sw = startedRecord s .preempt q) ∧
      (s.spc.feeding = none ∧ chooseTarget s none [] = none ∨
        s.spc.feeding ≠ none ∧ (s.ddt.phase ≠ .still ∨ preemptDue s = none) → (afterReleases s).spc.sw = s.spc.sw) := by
  have c : canStart (updatePreempt s) = true := h
  have pub := fun v => publishSituation_supply (updatePreempt v)
  have sw : (afterReleases s).spc.sw = (examineStart (examinePreempt (updatePreempt s))).spc.sw := (pub _).1
  have sole : (afterReleases s).spc.soleSource = (examineStart (examinePreempt (updatePreempt s))).spc.soleSource := (pub _).2
  rw [sw, sole]
  have ch : chooseTarget (updatePreempt s) none [] = chooseTarget s none [] := rfl
  have md : ∀ q, chooseMode (updatePreempt s) s.spc.feeding q = chooseMode s s.spc.feeding q := fun _ => rfl
  cases hf : s.spc.feeding with
  | none =>
    have hf' : (updatePreempt s).spc.feeding = none := hf
    have e : examinePreempt (updatePreempt s) = updatePreempt s := by simp [examinePreempt, hf']
    rw [e]
    unfold examineStart
    simp only [c, hf', and_self, if_true, ch]
    cases ht : chooseTarget s none [] with
    | none =>
      refine ⟨rfl, fun q _ x => by simp at x, fun q x => absurd rfl x, fun _ => rfl⟩
    | some t =>
      have k := canStart_false_of_started .start none t [] (updatePreempt s)
      refine ⟨by rw [k.2.1]; simp [SwReason.held]; rfl, fun q _ x => ?_, fun q x => absurd rfl x, fun x => ?_⟩
      · simp only [Option.some.injEq] at x
        subst x
        rw [k.1, startedRecord, hf]
        rfl
      · simp at x
  | some f =>
    have hf' : (updatePreempt s).spc.feeding = some f := hf
    have hn : ∀ v : State, v.spc.feeding = some f → examineStart v = v := fun v h => by simp [examineStart, h]
    by_cases ph : s.ddt.phase = .still
    · have ph' : (updatePreempt s).ddt.phase = .still := ph
      cases hp : preemptDue s with
      | none =>
        have e : examinePreempt (updatePreempt s) = updatePreempt s := by simp [examinePreempt, preemptTarget_due, hp]
        rw [e, hn _ hf']
        exact ⟨rfl, fun _ x => by simp at x, fun q _ _ x => by simp at x, fun _ => rfl⟩
      | some t =>
        have e : examinePreempt (updatePreempt s) = startSwitchover .preempt (some f) t [] (updatePreempt s) := by
          simp [examinePreempt, preemptTarget_due, hp, c, ph', hf']
        have k := canStart_false_of_started .preempt (some f) t [] (updatePreempt s)
        have l : examineStart (startSwitchover .preempt (some f) t [] (updatePreempt s)) =
            startSwitchover .preempt (some f) t [] (updatePreempt s) := by simp [examineStart, k.2.2]
        rw [e, l]
        refine ⟨by rw [k.2.1]; simp [SwReason.held]; rfl, fun _ x => by simp at x, fun q _ _ x => ?_, fun x => ?_⟩
        · simp only [Option.some.injEq] at x
          subst x
          rw [k.1, startedRecord, hf, ← hf, md, hf]
          cases chooseMode s (some f) t <;> rfl
        · simp [ph] at x
    · have ph' : (updatePreempt s).ddt.phase ≠ .still := ph
      have e : examinePreempt (updatePreempt s) = updatePreempt s := by simp [examinePreempt, ph']
      rw [e, hn _ hf']
      exact ⟨rfl, fun _ x => by simp at x, fun q _ x => absurd x ph, fun _ => rfl⟩

/-- R34: what the examination of EMPTY and HOT does. -/
theorem examineHeld_cases (s : State) :
    (heldCondition s = none → examineHeld s = { s with spc := { s.spc with soleSource := false } }) ∧
    (∀ r, heldCondition s = some r → canStart s = false → examineHeld s = s) ∧
    (∀ r q, heldCondition s = some r → canStart s = true → chooseTarget s s.spc.feeding [] = some q →
      examineHeld s = startSwitchover r s.spc.feeding q [] s) ∧
    (∀ r, heldCondition s = some r → canStart s = true → chooseTarget s s.spc.feeding [] = none →
      examineHeld s = markSole s) := by
  refine ⟨fun h => ?_, fun r h c => ?_, fun r q h c t => ?_, fun r h c t => ?_⟩ <;> simp_all [examineHeld, examineHeldWith]

theorem heldCondition_held {s : State} {r : SwReason} (h : heldCondition s = some r) : r.held = true := by
  unfold heldCondition at h
  split at h
  · simp at h
  · split at h
    · simp only [Option.some.injEq] at h; subst h; rfl
    · split at h
      · simp only [Option.some.injEq] at h; subst h; rfl
      · simp at h

/-! ### SUPPLY_CHANGE at an examination (R34, R46) -/

theorem startSwitchover_quiet (reason : SwReason) (f : Option Source) (t : Source) (tried : List Source) (s : State) :
    (startSwitchover reason f t tried s).slu = s.slu ∧ (startSwitchover reason f t tried s).spc.situation = s.spc.situation := by
  unfold startSwitchover
  cases chooseMode s f t <;> cases f <;> exact ⟨rfl, rfl⟩

theorem laterTriggers_quiet (s : State) :
    (examineStart (examinePreempt (updatePreempt s))).slu = s.slu ∧
      (examineStart (examinePreempt (updatePreempt s))).spc.situation = s.spc.situation := by
  have p : ∀ v : State, (examinePreempt v).slu = v.slu ∧ (examinePreempt v).spc.situation = v.spc.situation := by
    intro v
    unfold examinePreempt
    split
    · split
      · exact startSwitchover_quiet _ _ _ _ _
      · exact ⟨rfl, rfl⟩
    · exact ⟨rfl, rfl⟩
  have q : ∀ v : State, (examineStart v).slu = v.slu ∧ (examineStart v).spc.situation = v.spc.situation := by
    intro v
    unfold examineStart
    split
    · split
      · exact startSwitchover_quiet _ _ _ _ _
      · exact ⟨rfl, rfl⟩
    · exact ⟨rfl, rfl⟩
  exact ⟨(q _).1.trans (p _).1, (q _).2.trans (p _).2⟩

/-- R46: a publication raises SUPPLY_CHANGE when the situation changes, and then alone. -/
theorem publishSituation_raises (s : State) :
    (publishSituation s).slu =
      if (publishSituation s).spc.situation != s.spc.situation then s.slu.raised .supplyChange else s.slu := by
  unfold publishSituation
  dsimp only
  split
  · simp
  · unfold raiseIf
    split <;> rename_i h <;> (simp only [ne_eq, bne, Bool.not_eq_true', beq_eq_false_iff_ne] at h) <;>
      simp [breAllowance, State.withBre, raise, h]

theorem afterReleases_raises (s : State) :
    (afterReleases s).slu =
      if (afterReleases s).spc.situation != s.spc.situation then s.slu.raised .supplyChange else s.slu := by
  have l := laterTriggers_quiet s
  have r := publishSituation_raises (updatePreempt (examineStart (examinePreempt (updatePreempt s))))
  have e : (updatePreempt (examineStart (examinePreempt (updatePreempt s)))).slu = s.slu := l.1
  have f : (updatePreempt (examineStart (examinePreempt (updatePreempt s)))).spc.situation = s.spc.situation := l.2
  rw [e, f] at r
  exact r

theorem raised_supplyChange (u : Slu) (h : inMask u.noticeMask .supplyChange = true) :
    (u.raised .supplyChange).outbox.supplyChange = min 255 (u.outbox.supplyChange + 1) ∧
      (u.raised .supplyChange).noticeMask = u.noticeMask := by
  simp [Slu.raised, h, PerNotice.set, PerNotice.get, Config.maxOccurrences]

/-- R36: a timer runs for a source that is available and does not feed. -/
theorem preemptRuns_available {s : State} {p : Source} (h : preemptRuns s p = true) :
    available s p = true ∧ (s.spc.feeding == some p) = false := by
  simp only [preemptRuns, Bool.and_eq_true] at h
  refine ⟨h.1.2, ?_⟩
  cases hf : s.spc.feeding with
  | none => rfl
  | some f =>
    have e := h.2
    simp only [earlierThanFeeding, hf, List.contains_iff_mem] at e
    have : p ≠ f := by
      intro x
      subst x
      have := List.mem_takeWhile_imp e
      simp at this
    simp only [beq_eq_false_iff_ne, ne_eq, Option.some.injEq]
    exact fun x => this x.symm

/-- R34, R36, R46, R47: an examination does what the triggers ask for, and raises SUPPLY_CHANGE as R34 and R46 say. -/
theorem triggersTaken_settle (u : State) : TriggersTaken u (settle false u) ∧ SupplyRaises u (settle false u) := by
  have hc := examineHeld_cases u
  have noticeOf : ∀ v : State, v = examineHeld u →
      (v.spc.soleSource = true ∧ u.spc.soleSource = false → v.slu = u.slu.raised .supplyChange) →
      (¬(v.spc.soleSource = true ∧ u.spc.soleSource = false) → v.slu = u.slu) → v.spc.situation = u.spc.situation →
      (afterReleases v).spc.soleSource = v.spc.soleSource →
      inMask u.slu.noticeMask .supplyChange = true → u.slu.outbox.supplyChange ≤ 255 →
      (settle false u).slu.outbox.supplyChange =
        min 255
          (u.slu.outbox.supplyChange + ((settle false u).spc.soleSource && !u.spc.soleSource).toNat +
            ((settle false u).spc.situation != u.spc.situation).toNat) := by
    intro v hv up same sit sole m le
    rw [settle_false, ← hv, sole, afterReleases_raises v, sit]
    by_cases n : v.spc.soleSource = true ∧ u.spc.soleSource = false
    · rw [up n]
      have r := raised_supplyChange u.slu m
      have r2 := raised_supplyChange (u.slu.raised .supplyChange) (by rw [r.2]; exact m)
      split <;> rename_i h <;> simp [n.1, n.2, h, r.1, r2.1] <;> omega
    · rw [same n]
      have r := raised_supplyChange u.slu m
      have z : (v.spc.soleSource && !u.spc.soleSource) = false := by
        cases hx : v.spc.soleSource <;> cases hy : u.spc.soleSource <;> simp_all
      split <;> rename_i h <;> simp [z, h, r.1] <;> omega
  cases hh : heldCondition u with
  | none =>
    have e := hc.1 hh
    have c : canStart ({ u with spc := { u.spc with soleSource := false } } : State) = canStart u := rfl
    have sole : (afterReleases { u with spc := { u.spc with soleSource := false } }).spc.soleSource = false := by
      by_cases k : canStart u = true
      · exact (afterReleases_starts _ (c.trans k)).1
      · exact (afterReleases_waits _ (c.trans (by simpa using k))).2
    have st : settle false u = afterReleases { u with spc := { u.spc with soleSource := false } } := by rw [settle_false, e]
    refine ⟨⟨fun r q _ x => by simp [hh] at x, fun r _ x => by simp [hh] at x, fun q k f t => ?_, fun q k _ f p t => ?_,
      fun k _ x => ?_, fun k => ⟨?_, fun x => absurd hh x⟩, fun _ => by rw [st]; exact sole⟩, fun m le => ?_⟩
    · rw [st]; exact (afterReleases_starts _ (c.trans k)).2.1 q f t
    · rw [st]; exact (afterReleases_starts _ (c.trans k)).2.2.1 q f p t
    · rw [st]; exact (afterReleases_starts _ (c.trans k)).2.2.2 x
    · rw [st]; exact (afterReleases_waits _ (c.trans k)).1
    · exact noticeOf _ e.symm (fun x => absurd x.1 (by simp)) (fun _ => rfl) rfl (sole.trans rfl) m le
  | some r =>
    have feeding : u.spc.feeding ≠ none := fun x => by simp [heldCondition, x] at hh
    cases k : canStart u with
    | false =>
      have e := hc.2.1 r hh k
      have w := afterReleases_waits u k
      refine ⟨⟨fun _ _ x => by simp [k] at x, fun _ x => by simp [k] at x, fun _ x => by simp [k] at x,
        fun _ x => by simp [k] at x, fun x => by simp [k] at x, fun _ => ⟨?_, fun _ => ?_⟩, fun x => by simp [hh] at x⟩, fun m le => ?_⟩
      · rw [settle_false, e]; exact w.1
      · rw [settle_false, e]; exact w.2
      · exact noticeOf u e.symm (fun x => absurd (x.1.symm.trans x.2) (by simp)) (fun _ => rfl) rfl w.2 m le
    | true =>
      cases ht : chooseTarget u u.spc.feeding [] with
      | some q =>
        have e := hc.2.2.1 r q hh k ht
        have s := canStart_false_of_started r u.spc.feeding q [] u
        have w := afterReleases_waits _ s.2.2
        have z := startSwitchover_quiet r u.spc.feeding q [] u
        refine ⟨⟨fun r' q' _ x y => ?_, fun _ _ _ y => by simp [ht] at y, fun _ _ f => absurd f feeding,
          fun _ _ x => by simp [hh] at x, fun _ x => by simp [hh] at x, fun x => by simp [k] at x, fun x => by simp [hh] at x⟩, fun m le => ?_⟩
        · rw [hh] at x
          rw [ht] at y
          simp only [Option.some.injEq] at x y
          subst x y
          rw [settle_false, e]
          refine ⟨?_, by rw [w.2, s.2.1, heldCondition_held hh]; simp⟩
          rw [w.1, s.1, startedRecord]
          cases chooseMode u u.spc.feeding q <;> cases u.spc.feeding <;> rfl
        · have sole : (startSwitchover r u.spc.feeding q [] u).spc.soleSource = false := by
            rw [s.2.1, heldCondition_held hh]; simp
          exact noticeOf _ e.symm (fun x => absurd x.1 (by simp [sole])) (fun _ => z.1) z.2 w.2 m le
      | none =>
        have e := hc.2.2.2 r hh k ht
        have ms : (markSole u).spc.soleSource = true ∧ (markSole u).spc.sw = u.spc.sw ∧
            (markSole u).spc.situation = u.spc.situation ∧
            (markSole u).slu = if u.spc.soleSource then u.slu else u.slu.raised .supplyChange := by
          unfold markSole
          split <;> simp_all
        have kept : canStart (markSole u) = canStart u ∧ (markSole u).spc.feeding = u.spc.feeding ∧
            preemptDue (markSole u) = preemptDue u := by
          unfold markSole
          split <;> exact ⟨rfl, rfl, rfl⟩
        have none' : preemptDue u = none := by
          unfold preemptDue
          rw [List.find?_eq_none]
          intro p hp hx
          simp only [chooseTarget, List.find?_eq_none] at ht
          have := ht p hp
          simp only [Bool.and_eq_true] at hx
          have run := preemptRuns_available hx.1
          simp only [beq_eq_false_iff_ne, ne_eq] at run
          simp [run.1, run.2] at this
        have a := afterReleases_starts (markSole u) (kept.1.trans k)
        refine ⟨⟨fun _ _ _ _ y => by simp [ht] at y, fun _ _ _ _ => ?_, fun _ _ f => absurd f feeding,
          fun _ _ x => by simp [hh] at x, fun _ x => by simp [hh] at x, fun x => by simp [k] at x, fun x => by simp [hh] at x⟩, fun m le => ?_⟩
        · rw [settle_false, e]
          exact ⟨(a.2.2.2 (.inr ⟨by rw [kept.2.1]; exact feeding, .inr (kept.2.2.trans none')⟩)).trans ms.2.1, a.1.trans ms.1⟩
        · refine noticeOf _ e.symm (fun x => ?_) (fun x => ?_) ms.2.2.1 a.1 m le
          · rw [ms.2.2.2, x.2]; simp
          · have : u.spc.soleSource = true := by
              cases hx : u.spc.soleSource with
              | true => rfl
              | false => exact absurd ⟨ms.1, hx⟩ x
            rw [ms.2.2.2, this]; simp

/-! ### With the transmitter's choice -/


/-- R176: what the transmitter's choice leaves when no reply waits. -/
theorem arbitrated_link (s : State) (h : s.slu.tx = none → s.slu.fifo = []) :
    (arbitrate s).slu =
        { s.slu with tx := (arbitrate s).slu.tx, outbox := (arbitrate s).slu.outbox } ∧
      (s.slu.tx.isSome = true → (arbitrate s).slu.tx = s.slu.tx) := by
  unfold arbitrate arbitrated
  cases hx : s.slu.tx with
  | some f => exact ⟨by simp, fun _ => by simp [hx]⟩
  | none =>
    rw [h hx]
    dsimp only
    split
    · exact ⟨rfl, fun h => by simp at h⟩
    · split
      · exact ⟨rfl, fun h => by simp at h⟩
      · exact ⟨by simp, fun h => by simp at h⟩

theorem triggersTaken_of {u t v : State} (h : TriggersTaken u t) (spc : v.spc = t.spc) : TriggersTaken u v := by
  constructor
  · rw [spc]; exact h.held
  · rw [spc]; exact h.alone
  · rw [spc]; exact h.start
  · rw [spc]; exact h.preempt
  · rw [spc]; exact h.idle
  · rw [spc]; exact h.waits
  · rw [spc]; exact h.notHeld

theorem triggersTaken_replied {u t : State} (r : Reply) (h : TriggersTaken u t) : TriggersTaken (replied u r) t := by
  unfold replied
  split <;> exact ⟨h.held, h.alone, h.start, h.preempt, h.idle, h.waits, h.notHeld⟩

theorem supplyRaises_replied {u t : State} (r : Reply) (h : SupplyRaises u t) :
    SupplyRaises (replied u r) (replied t r) := by
  unfold replied
  split <;> split <;> exact h

/-- R32, R176: an event that ends in an examination, from the state its own effect leaves. -/
theorem examined_settle (u : State) (h : u.slu.tx = none → u.slu.fifo = []) : Examined u (arbitrate (settle false u)) := by
  have c := calm_settle u
  have one := atMostOne_settle u
  have tx : (settle false u).slu.tx = u.slu.tx := by rw [c.link]
  have a := arbitrated_link (settle false u) (fun x => by rw [c.fifo]; exact h (tx ▸ x))
  constructor
  · have := c.rest
    rw [c.ltc] at this
    have m : ∀ x : Slu, ∀ v : State, v = { u with slu := v.slu, spc := v.spc, bre := v.bre, lmd := v.lmd } →
        ({ v with slu := x } : State) = { u with slu := x, spc := v.spc, bre := v.bre, lmd := v.lmd } :=
      fun x v e => by conv => lhs; rw [e]
    exact m _ _ this
  · rw [a.1, c.link, c.fifo, c.owedSelect, c.owedRelease]
  · exact fun x => (a.2 (by rw [tx]; exact x)).trans tx
  · show (settle false u).spc = _
    have := c.supply
    rw [c.feeding, c.busLow, c.belowCount, c.recoveryTimer, c.packInfo] at this
    exact this
  · exact c.outcome
  · exact ⟨c.caps.bre, c.caps.lmd⟩
  · exact c.path
  · intro x
    have : Same u (settle false u) := by
      rcases one with g | g
      · exact g
      · rcases x with x | x
        · exact absurd x (by simp [g.before])
        · exact absurd (show inFlight (settle false u) = false from x) (by simp [g.after])
    exact ⟨this.paths, this.sw, this.overlapTimer, this.deadTimer, this.lossTimer⟩
  · intro x y
    rcases one with g | g
    · exact absurd (show inFlight (settle false u) = true from y) (by simp [g.inFlight, x])
    · exact ⟨g.startUp, g.fromSrc, g.tried, g.path⟩
  · exact fun p => timers_settle u p
  · exact triggersTaken_of (triggersTaken_settle u).1 rfl
  · intro x
    have o : (arbitrate (settle false u)).slu.outbox = (settle false u).slu.outbox := by
      show (arbitrated (settle false u)).outbox = _
      cases hx : (settle false u).slu.tx with
      | some y => simp [arbitrated, hx]
      | none => exact absurd (tx ▸ hx) x
    intro m le
    rw [o]
    exact (triggersTaken_settle u).2 m le
  · exact situationOk_arbitrate _ (situationOk_settle _ _)

/-- R170, R32, R176: a request whose effect ends in an examination and is then answered. -/
theorem examined_answered (k : ReqKind) (tag : Byte) (st : Status) (result : List Byte) (u : State) (h : TransmitterOk u) :
    Examined (replied u (replyOf k tag st result)) (arbitrate (answer tag k st result (settle false u))) := by
  have c := calm_settle u
  have tx : (settle false u).slu.tx = u.slu.tx := by rw [c.link]
  have e : arbitrate (answer tag k st result (settle false u)) = replied (settle false u) (replyOf k tag st result) :=
    arbitrate_pushReply _ _ (fun x => by rw [c.fifo]; exact (h (tx ▸ x)).1)
      (fun x => (c.kinds .dropAlert (by decide) (by decide)).trans ((h (tx ▸ x)).2 .dropAlert))
  have one := atMostOne_settle u
  rw [e]
  have l := c.link
  rw [c.fifo, c.owedSelect, c.owedRelease] at l
  have f : ∀ a : State, (replied a (replyOf k tag st result)).spc = a.spc ∧
      (replied a (replyOf k tag st result)).bre = a.bre ∧ (replied a (replyOf k tag st result)).lmd = a.lmd ∧
      replied a (replyOf k tag st result) = { a with slu := (replied a (replyOf k tag st result)).slu } := by
    intro a; unfold replied; split <;> exact ⟨rfl, rfl, rfl, rfl⟩
  have fs := f (settle false u)
  have fu := f u
  have path : ∀ a p, (replied a (replyOf k tag st result)).path p = a.path p := fun a p => by
    simp only [State.path, (f a).1]
  have flight : ∀ a, inFlight (replied a (replyOf k tag st result)) = inFlight a := fun a => by
    simp only [inFlight, (f a).1]
  have sit : ∀ a, SituationOk a → SituationOk (replied a (replyOf k tag st result)) := by
    intro a h
    unfold replied
    split
    · exact ⟨h.1, h.2⟩
    · exact ⟨h.1, h.2⟩
  constructor
  · have r := c.rest
    rw [c.ltc] at r
    have m : ∀ x : Slu, ∀ v : State,
        v = { u with slu := v.slu, spc := v.spc, bre := v.bre, lmd := v.lmd } →
        ({ v with slu := x } : State) = { u with slu := x, spc := v.spc, bre := v.bre, lmd := v.lmd } :=
      fun x v e => by conv => lhs; rw [e]
    rw [fs.2.2.2, fu.2.2.2]
    exact m _ _ r
  · unfold replied
    rw [tx]
    cases hx : u.slu.tx with
    | some x => simp only []; rw [l]
    | none => simp only []; rw [l]
  · unfold replied
    rw [tx]
    cases hx : u.slu.tx with
    | some x => intro _; exact tx.trans hx |>.trans hx.symm
    | none => intro _; rfl
  · rw [fs.1, fu.1]
    have := c.supply
    rw [c.feeding, c.busLow, c.belowCount, c.recoveryTimer, c.packInfo] at this
    exact this
  · rw [fs.1, fu.1]; exact c.outcome
  · exact ⟨by rw [fs.2.1, fu.2.1]; exact c.caps.bre, by rw [fs.2.2.1, fu.2.2.1]; exact c.caps.lmd⟩
  · intro p; rw [path, path]; exact c.path p
  · intro x
    rw [flight, flight] at x
    have : Same u (settle false u) := by
      rcases one with g | g
      · exact g
      · rcases x with x | x
        · exact absurd x (by simp [g.before])
        · exact absurd x (by simp [g.after])
    rw [fs.1, fu.1]
    exact ⟨this.paths, this.sw, this.overlapTimer, this.deadTimer, this.lossTimer⟩
  · intro x y
    rw [flight] at x y
    rcases one with g | g
    · exact absurd y (by simp [g.inFlight, x])
    · refine ⟨by rw [fu.1]; exact g.startUp, by rw [fs.1, fu.1]; exact g.fromSrc, by rw [fs.1]; exact g.tried, fun p => ?_⟩
      rw [path, path, fs.1]
      exact g.path p
  · intro p
    have runs : ∀ a, preemptRuns (replied a (replyOf k tag st result)) p = preemptRuns a p := fun a => by
      unfold replied; split <;> rfl
    rw [runs, fs.1, fu.1]
    exact timers_settle u p
  · exact triggersTaken_replied _ (triggersTaken_of (triggersTaken_settle u).1 fs.1)
  · exact fun _ => supplyRaises_replied _ (triggersTaken_settle u).2
  · exact sit _ (situationOk_settle _ _)

end Sys2Proof.Machine
end

