-- ==== Sys2Proof/Laws/Supply.lean ====
section
/-! SUPPORT. The laws of the paths and the latches (R25, R27, R56), operation by operation of the SPC and the LTC. -/

namespace Sys2Proof.Machine

open Sys2Proof.Safety

/-! ### What the laws read -/

/-- `t` agrees with `s` in all that the laws of the supply read. -/
structure Agrees (s t : State) : Prop where
  path : ∀ p, (t.path p).state = (s.path p).state
  feeding : t.spc.feeding = s.spc.feeding
  phase : t.spc.sw.phase = s.spc.sw.phase
  fromSrc : t.spc.sw.fromSrc = s.spc.sw.fromSrc
  toSrc : t.spc.sw.toSrc = s.spc.sw.toSrc
  latch : ∀ bay, (t.latch bay).commanded = (s.latch bay).commanded ∧ (t.latch bay).release = (s.latch bay).release
  motion : t.ddt.phase = s.ddt.phase

theorem gateDriven_eq {s t : State} {p q : Source} (h : (t.path p).state = (s.path q).state) :
    gateDriven t p = gateDriven s q := by simp [gateDriven, h]

theorem pathsOk_of (s t : State) (h : PathsOk s) (path : ∀ p, (t.path p).state = (s.path p).state)
    (feeding : t.spc.feeding = s.spc.feeding) (phase : t.spc.sw.phase = s.spc.sw.phase)
    (fromSrc : t.spc.sw.fromSrc = s.spc.sw.fromSrc) (toSrc : t.spc.sw.toSrc = s.spc.sw.toSrc) : PathsOk t := by
  have f : inFlight t = inFlight s := by simp [inFlight, phase]
  refine ⟨fun p => ?_, ?_, ?_⟩
  · have d : drivenState t p = drivenState s p := by simp [drivenState, phase, feeding, fromSrc, toSrc]
    have := h.path p
    unfold PathOk at *
    rw [d, path p, gateDriven_eq (path p)]; exact this
  · rw [f, feeding, fromSrc]; exact h.feeding
  · rw [f, fromSrc, toSrc]; exact h.apart

theorem latchOk_of (s t : State) (h : ∀ bay, LatchOk s bay)
    (opened : ∀ bay, gateDriven s (baySource bay) = false → gateDriven t (baySource bay) = false)
    (latch : ∀ bay, (t.latch bay).commanded = (s.latch bay).commanded ∧ (t.latch bay).release = (s.latch bay).release)
    (motion : t.ddt.phase = s.ddt.phase) (bay : Bay) : LatchOk t bay := by
  have := h bay
  refine ⟨?_, ?_, ?_, ?_⟩
  · rw [(latch bay).1, (latch bay).2]; exact this.granted
  · rw [(latch bay).1]; exact fun x => opened bay (this.opened x)
  · rw [(latch bay).1, (latch (otherBay bay)).1]; exact this.other
  · rw [(latch bay).1, motion]; exact this.still

theorem supplyOk_agrees {s t : State} (h : SupplyOk s) (a : Agrees s t) : SupplyOk t :=
  ⟨pathsOk_of s t h.paths a.path a.feeding a.phase a.fromSrc a.toSrc,
    latchOk_of s t h.latches (fun bay x => by rw [gateDriven_eq (a.path (baySource bay))]; exact x) a.latch a.motion⟩

theorem Agrees.refl (s : State) : Agrees s s := ⟨fun _ => rfl, rfl, rfl, rfl, rfl, fun _ => ⟨rfl, rfl⟩, rfl⟩

/-- States whose paths, switchover record, feeding source, latches and motion phase are the same. -/
theorem agrees_of {s t : State} (paths : t.spc.paths = s.spc.paths) (feeding : t.spc.feeding = s.spc.feeding)
    (sw : t.spc.sw = s.spc.sw) (latches : t.ltc.latches = s.ltc.latches) (motion : t.ddt = s.ddt) : Agrees s t :=
  ⟨fun p => by simp [State.path, paths], feeding, by rw [sw], by rw [sw], by rw [sw],
    fun bay => by simp [State.latch, latches], by rw [motion]⟩

theorem Agrees.trans {s t u : State} (h : Agrees s t) (g : Agrees t u) : Agrees s u :=
  ⟨fun p => (g.1 p).trans (h.1 p), g.2.trans h.2, g.3.trans h.3, g.4.trans h.4, g.5.trans h.5,
    fun bay => ⟨(g.6 bay).1.trans (h.6 bay).1, (g.6 bay).2.trans (h.6 bay).2⟩, g.7.trans h.7⟩

theorem agrees_raise (k : NoticeKind) (s : State) : Agrees s (raise k s) := agrees_of rfl rfl rfl rfl rfl

theorem agrees_raiseIf (b : Bool) (k : NoticeKind) (s : State) : Agrees s (raiseIf b k s) := by
  unfold raiseIf; split
  · exact agrees_raise k s
  · exact agrees_of rfl rfl rfl rfl rfl

theorem agrees_publishSituation (s : State) : Agrees s (publishSituation s) := by
  unfold publishSituation
  dsimp only
  split
  · exact agrees_of rfl rfl rfl rfl rfl
  · unfold raiseIf; split <;> exact agrees_of rfl rfl rfl rfl rfl

theorem agrees_setLatch (s : State) (bay : Bay) (l : LatchRecord) (c : l.commanded = (s.latch bay).commanded)
    (r : l.release = (s.latch bay).release) : Agrees s (s.setLatch bay l) := by
  refine ⟨fun _ => rfl, rfl, rfl, rfl, rfl, fun other => ?_, rfl⟩
  rw [setLatch_latch]
  split
  · rename_i e; subst e; exact ⟨c, r⟩
  · exact ⟨rfl, rfl⟩

theorem agrees_answerSelect (st : Status) (f : Option FailReason) (s : State) : Agrees s (answerSelect st f s) := by
  unfold answerSelect; split <;> exact agrees_of rfl rfl rfl rfl rfl

theorem agrees_failSelect (f : FailReason) (s : State) : Agrees s (failSelect f s) := by
  unfold failSelect; split
  · exact agrees_answerSelect _ _ _
  · exact agrees_of rfl rfl rfl rfl rfl

theorem agrees_answerRelease (bay : Bay) (st : Status) (f : Option FailReason) (s : State) :
    Agrees s (answerRelease bay st f s) := by
  unfold answerRelease
  split
  · have h : Agrees s (clearOwed bay s) := agrees_setLatch s bay _ rfl rfl
    dsimp only
    split
    · exact h
    · exact h.trans (agrees_of rfl rfl rfl rfl rfl)
  · exact agrees_of rfl rfl rfl rfl rfl

theorem agrees_pendFor (bay : Bay) (c : PendingCause) (s : State) : Agrees s (pendFor bay c s) :=
  agrees_setLatch s bay _ rfl rfl

theorem agrees_updatePreempt (s : State) : Agrees s (updatePreempt s) := agrees_of rfl rfl rfl rfl rfl

theorem agrees_markSole (s : State) : Agrees s (markSole s) := by
  unfold markSole; split <;> exact agrees_of rfl rfl rfl rfl rfl

/-! ### Paths -/

/-- No switchover is in flight, and no gate but the feeding path's is driven. -/
structure Quiet (s : State) : Prop where
  idle : s.spc.sw.phase = .idle
  path : ∀ p, s.spc.feeding = some p ∧ (s.path p).state = .closed ∨ gateDriven s p = false

theorem inFlight_iff (s : State) : inFlight s = true ↔ s.spc.sw.phase ≠ .idle := by simp [inFlight]

theorem quiet_of {s : State} (h : PathsOk s) (f : inFlight s = false) : Quiet s := by
  have hp : s.spc.sw.phase = .idle := by simpa [inFlight] using f
  refine ⟨hp, fun p => ?_⟩
  have := h.path p
  simp only [PathOk, drivenState, hp] at this
  by_cases g : s.spc.feeding = some p
  · rw [if_pos g] at this; exact .inl ⟨g, this⟩
  · rw [if_neg g] at this; exact .inr this

theorem gateDriven_closed {s : State} {p : Source} (h : (s.path p).state = .closed) : gateDriven s p = true := by
  simp [gateDriven, h]

theorem available_opened {s : State} {p : Source} (h : available s p = true) (f : s.spc.feeding ≠ some p) :
    (s.path p).state = .opened := by
  simp only [available, Bool.and_eq_true, Bool.or_eq_true, beq_iff_eq] at h
  rcases h.1.1.2 with g | g
  · exact g
  · exact absurd g f

theorem available_locked {s : State} {bay : Bay} (h : available s (baySource bay) = true) :
    (s.latch bay).commanded = .locked ∧ (s.latch bay).release = .idle := by
  simp only [available, sourceBay_baySource, bayAvailable, Bool.and_eq_true, beq_iff_eq] at h
  exact ⟨h.1.2.1.1.1.1, h.1.2.1.1.1.2⟩

theorem chooseTarget_spec {s : State} {f : Option Source} {tried : List Source} {t : Source}
    (h : chooseTarget s f tried = some t) : available s t = true ∧ f ≠ some t ∧ t ∉ tried := by
  have := List.find?_some h
  simp only [Bool.and_eq_true, bne_iff_ne, ne_eq, Bool.not_eq_true', List.contains_eq_mem, decide_eq_false_iff_not] at this
  exact ⟨this.1.1, this.1.2, this.2⟩

theorem closeOrdered_opened {r : PathRecord} (h : r.state = .opened) : r.closeOrdered.state = .closing := by
  simp [PathRecord.closeOrdered, h]

theorem openOrdered_off (r : PathRecord) : r.openOrdered.state ≠ .closing ∧ r.openOrdered.state ≠ .closed := by
  unfold PathRecord.openOrdered; split <;> simp_all

theorem gate_off {s : State} {p : Source} (h : (s.path p).state ≠ .closing ∧ (s.path p).state ≠ .closed) :
    gateDriven s p = false := by
  unfold gateDriven; split <;> simp_all

/-- R29 to R31: a start from the feeding source keeps the laws. -/
theorem supplyOk_startSwitchover (reason : SwReason) (t : Source) (tried : List Source) (s : State)
    (q : Quiet s) (l : ∀ bay, LatchOk s bay) (a : available s t = true) (f : s.spc.feeding ≠ some t) :
    SupplyOk (startSwitchover reason s.spc.feeding t tried s) := by
  have ho := available_opened a f
  have toOff : ∀ bay, (s.latch bay).commanded = .unlocked → baySource bay ≠ t := by
    rintro bay hb rfl; rw [(available_locked a).1] at hb; cases hb
  unfold startSwitchover
  dsimp only
  split <;> rename_i hm
  · -- overlap
    have hf : ∃ x, s.spc.feeding = some x ∧ (s.path x).state = .closed := by
      unfold chooseMode at hm
      split at hm
      · cases hm
      · rename_i x hx
        split at hm
        · rename_i g; exact ⟨x, hx, g.1⟩
        · cases hm
    obtain ⟨x, hx, hc⟩ := hf
    refine ⟨⟨fun p => ?_, fun _ => rfl, fun _ => f⟩, fun bay => ?_⟩
    · unfold PathOk drivenState
      simp only [closeOrder, setPath_sw, Spc.started, startPhase, hm]
      rw [hx]
      by_cases e : x = p
      · subst e
        have : x ≠ t := fun h => f (h ▸ hx)
        simp only [setPath_path, if_neg this]
        simp [State.path] at hc ⊢; exact hc
      · by_cases e2 : t = p
        · subst e2; simp [e]; exact closeOrdered_opened ho
        · simp only [Option.some.injEq, e, e2, if_false]
          have hp : gateDriven s p = false := by
            rcases q.path p with h | h
            · exact absurd (Option.some.inj (hx.symm.trans h.1)) e
            · exact h
          rw [gateDriven_eq (s := s) (q := p)]
          · exact hp
          · rw [setPath_path, if_neg (fun h => e2 h.symm)]; rfl
    · have hb := l bay
      refine ⟨hb.granted, fun x => ?_, hb.other, hb.still⟩
      have := toOff bay x
      rw [gateDriven_eq (s := s) (q := baySource bay)]
      · exact hb.opened x
      · rw [closeOrder, setPath_path, if_neg this]; rfl
  · rename_i x hmode
    refine ⟨⟨fun p => ?_, fun _ => rfl, fun _ => by simpa [openOrder, Spc.started] using f⟩, fun bay => ?_⟩
    · have : gateDriven (openOrder x { s with spc := s.spc.started reason s.spc.feeding t tried (chooseMode s s.spc.feeding t) }) p = false := by
        by_cases e : p = x
        · subst e; apply gate_off; rw [openOrder, setPath_path, if_pos rfl]; exact openOrdered_off _
        · rw [gateDriven_eq (s := s) (q := p)]
          · rcases q.path p with h | h
            · exact absurd (Option.some.inj (h.1.symm.trans hm)) e
            · exact h
          · rw [openOrder, setPath_path, if_neg e]; rfl
      unfold PathOk
      have d : drivenState (openOrder x { s with spc := s.spc.started reason s.spc.feeding t tried (chooseMode s s.spc.feeding t) }) p = none := by
        simp only [drivenState, openOrder, setPath_sw, Spc.started, hmode]
        simp only [hm, startPhase]
      rw [d]; exact this
    · have hb := l bay
      refine ⟨hb.granted, fun y => ?_, hb.other, hb.still⟩
      by_cases e : baySource bay = x
      · apply gate_off; rw [openOrder, setPath_path, if_pos e]; exact openOrdered_off _
      · rw [gateDriven_eq (s := s) (q := baySource bay)]
        · exact hb.opened y
        · rw [openOrder, setPath_path, if_neg e]; rfl
  · rename_i hmode
    have hx : s.spc.feeding = none := hm
    refine ⟨⟨fun p => ?_, fun _ => rfl, fun _ => by simpa [closeOrder, Spc.started] using f⟩, fun bay => ?_⟩
    · unfold PathOk drivenState
      rw [hx] at hmode
      simp only [closeOrder, setPath_sw, Spc.started, hx, hmode, startPhase]
      by_cases e2 : t = p
      · subst e2; simp; exact closeOrdered_opened ho
      · simp only [e2, if_false]
        rw [gateDriven_eq (s := s) (q := p)]
        · rcases q.path p with h | h
          · rw [hx] at h; cases h.1
          · exact h
        · rw [setPath_path, if_neg (fun h => e2 h.symm)]; rfl
    · have hb := l bay
      refine ⟨hb.granted, fun x => ?_, hb.other, hb.still⟩
      have := toOff bay x
      rw [gateDriven_eq (s := s) (q := baySource bay)]
      · exact hb.opened x
      · rw [closeOrder, setPath_path, if_neg this]; rfl

theorem supplyOk_start (reason : SwReason) (t : Source) (tried : List Source) (s : State) (h : SupplyOk s)
    (i : inFlight s = false) (e : List Source) (g : chooseTarget s s.spc.feeding e = some t) :
    SupplyOk (startSwitchover reason s.spc.feeding t tried s) :=
  supplyOk_startSwitchover reason t tried s (quiet_of h.paths i) h.latches (chooseTarget_spec g).1 (chooseTarget_spec g).2.1

/-! ### Latches -/

/-- A latch that is commanded locked and not GRANTED. -/
theorem supplyOk_lockLatch (s : State) (bay : Bay) (l : LatchRecord) (h : SupplyOk s) (c : l.commanded = .locked)
    (r : l.release ≠ .granted) : SupplyOk (s.setLatch bay l) := by
  refine ⟨pathsOk_of s _ h.paths (fun _ => rfl) rfl rfl rfl rfl, fun other => ?_⟩
  have hb := h.latches other
  by_cases e : other = bay
  · subst e
    have hl : (s.setLatch other l).latch other = l := by simp
    exact ⟨by rw [hl, c]; simp [r], by rw [hl, c]; simp, by rw [hl, c]; simp, by rw [hl, c]; simp⟩
  · have hl : (s.setLatch bay l).latch other = s.latch other := by simp [e]
    refine ⟨by rw [hl]; exact hb.granted, by rw [hl]; exact hb.opened, ?_, by rw [hl]; exact hb.still⟩
    rw [hl]; intro x
    have o : otherBay other = bay := by cases other <;> cases bay <;> simp_all [otherBay]
    rw [setLatch_latch, if_pos o]; exact c

/-- R56: a grant keeps the laws. -/
theorem supplyOk_grantBay (bay : Bay) (s : State) (h : SupplyOk s) (idle : inFlight s = false)
    (other : (s.latch (otherBay bay)).release ≠ .granted) (still : s.ddt.phase = .still)
    (feeding : s.spc.feeding ≠ some (baySource bay)) : SupplyOk (grantBay bay s) := by
  have off : gateDriven s (baySource bay) = false := by
    rcases (quiet_of h.paths idle).path (baySource bay) with g | g
    · exact absurd g.1 feeding
    · exact g
  have otherLocked : (s.latch (otherBay bay)).commanded = .locked := by
    cases hc : (s.latch (otherBay bay)).commanded with
    | locked => rfl
    | unlocked => exact absurd ((h.latches _).granted.mp hc) other
  have first : SupplyOk (s.setLatch bay (s.latch bay).grant) := by
    refine ⟨pathsOk_of s _ h.paths (fun _ => rfl) rfl rfl rfl rfl, fun x => ?_⟩
    have hb := h.latches x
    by_cases e : x = bay
    · subst e
      have hl : (s.setLatch x (s.latch x).grant).latch x = (s.latch x).grant := by simp
      refine ⟨by rw [hl]; simp [LatchRecord.grant], fun _ => off, fun _ => ?_, fun _ => still⟩
      rw [setLatch_latch, if_neg (otherBay_ne x)]; exact otherLocked
    · have hl : (s.setLatch bay (s.latch bay).grant).latch x = s.latch x := by simp [e]
      have o : otherBay bay = x := by cases x <;> cases bay <;> simp_all [otherBay]
      rw [o] at otherLocked
      refine ⟨by rw [hl]; exact hb.granted, ?_, ?_, ?_⟩ <;> rw [hl, otherLocked] <;> simp
  have pack : Agrees (s.setLatch bay (s.latch bay).grant) (clearPack bay (s.setLatch bay (s.latch bay).grant)) :=
    agrees_of rfl rfl rfl rfl rfl
  exact supplyOk_agrees first ((pack.trans (agrees_answerRelease _ _ _ _)).trans (agrees_raise _ _))

theorem pending_locked {s : State} {bay : Bay} (h : SupplyOk s) (r : (s.latch bay).release ≠ .granted) :
    (s.latch bay).commanded = .locked := by
  cases hc : (s.latch bay).commanded with
  | locked => rfl
  | unlocked => exact absurd ((h.latches _).granted.mp hc) r

theorem supplyOk_refuseBay (bay : Bay) (s : State) (h : SupplyOk s) (r : (s.latch bay).release ≠ .granted) :
    SupplyOk (refuseBay bay s) := by
  have first : SupplyOk (s.setLatch bay ((s.latch bay).endRelease .refused)) :=
    supplyOk_lockLatch s bay _ h (pending_locked h r) (by simp [LatchRecord.endRelease])
  exact supplyOk_agrees first ((agrees_answerRelease _ _ _ _).trans (agrees_raise _ _))

/-- R53: the evaluation of a PENDING bay keeps the laws. -/
theorem supplyOk_evaluate (bay : Bay) (s : State) (h : SupplyOk s) (r : (s.latch bay).release = .pending) :
    SupplyOk (evaluate bay s) := by
  unfold evaluate
  split
  · exact supplyOk_agrees h (agrees_pendFor _ _ _)
  · rename_i still
    split
    · exact supplyOk_agrees h (agrees_pendFor _ _ _)
    · rename_i other
      split
      · exact supplyOk_agrees h (agrees_pendFor _ _ _)
      · unfold askRelease askAnswer
        by_cases f : inFlight s = true
        · simp only [f, if_true]; exact supplyOk_agrees h (agrees_pendFor _ _ _)
        · have f : inFlight s = false := by simpa using f
          simp only [f, Bool.false_eq_true, if_false]
          by_cases g : s.spc.feeding = some (baySource bay)
          · simp only [g, ne_eq, not_true, if_false]
            cases c : chooseTarget s (some (baySource bay)) [] with
            | none => exact supplyOk_refuseBay bay s h (by rw [r]; decide)
            | some t =>
              refine supplyOk_agrees ?_ (agrees_pendFor _ _ _)
              rw [← g]; rw [← g] at c
              exact supplyOk_start .release t [] s h f [] c
          · simp only [ne_eq, g, not_false_eq_true, if_true]
            exact supplyOk_grantBay bay s h f other (by simpa using still) g

theorem supplyOk_evaluateDue (bay : Bay) (s : State) (h : SupplyOk s) : SupplyOk (evaluateDue bay s) := by
  unfold evaluateDue; split
  · rename_i g; exact supplyOk_evaluate bay s h g.1
  · exact h

theorem supplyOk_evaluateAll (s : State) (h : SupplyOk s) : SupplyOk (evaluateAll s) :=
  supplyOk_evaluateDue _ _ (supplyOk_evaluateDue _ _ h)

theorem supplyOk_answerAsk (bay : Bay) (m : Bool) (s : State) (h : SupplyOk s) : SupplyOk (answerAsk bay m s) := by
  unfold answerAsk
  split
  · rename_i g
    have r : (s.latch bay).release = .pending := by
      simp only [askRuns, Bool.and_eq_true, beq_iff_eq] at g; exact g.1
    split
    · exact supplyOk_evaluate bay s h r
    · exact supplyOk_refuseBay bay s h (by rw [r]; decide)
  · exact h

theorem supplyOk_endWindow (bay : Bay) (e : ReleaseEvent) (s : State) (h : SupplyOk s) : SupplyOk (endWindow bay e s) :=
  supplyOk_agrees (supplyOk_lockLatch s bay _ h rfl (by simp [LatchRecord.endRelease])) (agrees_raise _ _)

theorem supplyOk_revokeBay (bay : Bay) (s : State) (h : SupplyOk s) : SupplyOk (revokeBay bay s) := by
  unfold revokeBay; split
  · exact supplyOk_agrees (supplyOk_lockLatch s bay _ h rfl (by simp [LatchRecord.revoke])) (agrees_raise _ _)
  · exact h

/-! ### The examination of the triggers -/

theorem canStart_idle {s : State} (h : canStart s = true) : inFlight s = false := by
  simp only [canStart, Bool.and_eq_true, Bool.not_eq_true'] at h; exact h.1

theorem supplyOk_examineHeld (s : State) (h : SupplyOk s) : SupplyOk (examineHeld s) := by
  unfold examineHeld examineHeldWith
  split
  · exact supplyOk_agrees h (agrees_of rfl rfl rfl rfl rfl)
  · split
    · rename_i c
      split
      · rename_i t g; exact supplyOk_start _ t [] s h (canStart_idle c) [] g
      · exact supplyOk_agrees h (agrees_markSole s)
    · exact h

theorem supplyOk_releaseRequest (bay : Bay) (o : Origin) (s : State) (h : SupplyOk s) :
    SupplyOk (releaseRequest bay o s) := by
  have j : ∀ l : LatchRecord, (l.joined o).commanded = l.commanded ∧ (l.joined o).release = l.release := by
    intro l; cases o <;> exact ⟨rfl, rfl⟩
  unfold releaseRequest
  split
  · rename_i r
    have c := pending_locked (bay := bay) h (by rw [r]; decide)
    have p : SupplyOk (pendRelease bay o s) := by
      refine supplyOk_agrees (supplyOk_lockLatch s bay { (s.latch bay).joined o with release := .pending } h ?_ ?_)
        (agrees_of rfl rfl rfl rfl rfl)
      · exact (j _).1.trans c
      · show ReleaseState.pending ≠ .granted; decide
    refine supplyOk_evaluate bay _ (supplyOk_examineHeld _ p) ?_
    rw [State.latch, (calm_examineHeld _).ltc]
    simp [pendRelease, State.setLatch]
  · exact supplyOk_agrees h (agrees_setLatch s bay _ (j _).1 (j _).2)
  · exact supplyOk_agrees h (agrees_setLatch s bay _ (j _).1 (j _).2)

theorem takeWhile_ne (p : Source) (l : List Source) (h : p ∈ l.takeWhile (fun q => q != p)) : False := by
  induction l with
  | nil => cases h
  | cons x l ih =>
    rw [List.takeWhile_cons] at h
    split at h
    · rename_i g
      rcases List.mem_cons.mp h with e | e
      · subst e; simp at g
      · exact ih e
    · cases h

/-- A source whose preemption timer runs is available, and is not the feeding source (R36). -/
theorem preemptRuns_spec {s : State} {p : Source} (h : preemptRuns s p = true) :
    available s p = true ∧ s.spc.feeding ≠ some p := by
  simp only [preemptRuns, Bool.and_eq_true] at h
  refine ⟨h.1.2, fun f => ?_⟩
  have := h.2
  simp only [earlierThanFeeding, f, List.contains_eq_mem, decide_eq_true_eq] at this
  exact takeWhile_ne _ _ this

theorem preemptTarget_runs {s : State} {p : Source} (h : preemptTarget (updatePreempt s) = some p) :
    preemptRuns s p = true := by
  have := List.find?_some h
  simp only [beq_iff_eq] at this
  cases p <;> simp only [updatePreempt, PerSource.get, nextPreempt] at this <;> split at this <;> simp_all

theorem supplyOk_examinePreempt (s : State) (h : SupplyOk s) : SupplyOk (examinePreempt (updatePreempt s)) := by
  have h' := supplyOk_agrees h (agrees_updatePreempt s)
  unfold examinePreempt
  split
  · rename_i c
    split
    · rename_i t g
      obtain ⟨a, f⟩ := preemptRuns_spec (preemptTarget_runs g)
      exact supplyOk_startSwitchover _ t [] _ (quiet_of h'.paths (canStart_idle c.1)) h'.latches a f
    · exact h'
  · exact h'

theorem supplyOk_examineStart (s : State) (h : SupplyOk s) : SupplyOk (examineStart s) := by
  unfold examineStart
  split
  · rename_i c
    split
    · rename_i t g
      rw [← c.2] at g ⊢
      exact supplyOk_start _ t [] s h (canStart_idle c.1) [] g
    · exact h
  · exact h

theorem supplyOk_afterReleases (s : State) (h : SupplyOk s) : SupplyOk (afterReleases s) :=
  supplyOk_agrees (supplyOk_examineStart _ (supplyOk_examinePreempt s h))
    ((agrees_updatePreempt _).trans (agrees_publishSituation _))

/-- R32: the examination at the end of an event keeps the laws. -/
theorem supplyOk_settle (b : Bool) (s : State) (h : SupplyOk s) : SupplyOk (settle b s) := by
  cases b
  · exact supplyOk_afterReleases _ (supplyOk_examineHeld s h)
  · exact supplyOk_afterReleases _ (supplyOk_evaluateAll _ (supplyOk_examineHeld s h))

/-! ### The switchover logic -/

theorem supplyOk_answerStarter (reason : SwReason) (f : Option Source) (o : SwOutcome) (fail : FailReason) (s : State)
    (h : SupplyOk s) : SupplyOk (answerStarter reason f o fail s) := by
  unfold answerStarter
  repeat' split
  all_goals first
    | exact supplyOk_agrees h (agrees_answerSelect _ _ _)
    | exact supplyOk_answerAsk _ _ _ h
    | exact h

theorem supplyOk_retryHeld (reason : SwReason) (p : Source) (o : SwOutcome) (s : State) (h : SupplyOk s) :
    SupplyOk (retryHeld reason p o s) := by
  unfold retryHeld
  split
  · rename_i c
    split
    · rename_i t g; exact supplyOk_start _ t _ s h (canStart_idle c.2.2) _ g
    · exact h
  · exact h

/-- R32: the end of a switchover keeps the laws where its record and feeding source are as they should be. -/
theorem supplyOk_endSwitchover (o : SwOutcome) (fail : FailReason) (s : State)
    (h : SupplyOk { s with spc := s.spc.ended o }) : SupplyOk (endSwitchover o fail s) :=
  supplyOk_settle _ _ (supplyOk_retryHeld _ _ _ _ (supplyOk_answerStarter _ _ _ _ _
    (supplyOk_agrees h (agrees_publishSituation _))))

/-- The paths after the end of a switchover: idle, with the feeding path closed and every other gate off. -/
theorem supplyOk_idle (s : State) (l : ∀ bay, LatchOk s bay) (i : s.spc.sw.phase = .idle)
    (path : ∀ p, if s.spc.feeding = some p then (s.path p).state = .closed else gateDriven s p = false) : SupplyOk s := by
  have f : inFlight s = false := by simp [inFlight, i]
  refine ⟨⟨fun p => ?_, fun h => by simp [f] at h, fun h => by simp [f] at h⟩, l⟩
  have := path p
  unfold PathOk drivenState
  rw [i]
  dsimp only
  split at this
  · rw [if_pos ‹_›]; exact this
  · rw [if_neg ‹_›]; exact this

theorem ended_paths (c : Spc) (o : SwOutcome) : (c.ended o).paths = c.paths := by rw [ended_frame]

theorem path_ended (s : State) (o : SwOutcome) (p : Source) : State.path { s with spc := s.spc.ended o } p = s.path p := by
  simp [State.path, ended_paths]

/-- R32: a switchover ends with the source `f` feeding, the only gate driven. -/
theorem supplyOk_endsWith (o : SwOutcome) (fail : FailReason) (s : State) (l : ∀ bay, LatchOk s bay)
    (path : ∀ p, if (s.spc.ended o).feeding = some p then (s.path p).state = .closed else gateDriven s p = false) :
    SupplyOk (endSwitchover o fail s) := by
  refine supplyOk_endSwitchover o fail s (supplyOk_idle _ ?_ (by rw [ended_sw]) ?_)
  · refine latchOk_of s _ l (fun bay x => ?_) (fun _ => ⟨rfl, rfl⟩) rfl
    rw [gateDriven_eq (s := s) (q := baySource bay) (by rw [path_ended])]; exact x
  · intro p
    have := path p
    rw [gateDriven_eq (s := s) (q := p) (by rw [path_ended])]
    split at this <;> rename_i g
    · rw [if_pos g, path_ended]; exact this
    · rw [if_neg g]; exact this

/-! ### Path reports -/

/-- `t` is `s` with the path `p` opened: its gate is off, and all else that the laws read is the same. -/
structure Opened (p : Source) (s t : State) : Prop where
  off : gateDriven t p = false
  path : ∀ q, q ≠ p → (t.path q).state = (s.path q).state
  feeding : t.spc.feeding = s.spc.feeding
  phase : t.spc.sw.phase = s.spc.sw.phase
  fromSrc : t.spc.sw.fromSrc = s.spc.sw.fromSrc
  toSrc : t.spc.sw.toSrc = s.spc.sw.toSrc
  latch : ∀ bay, (t.latch bay).commanded = (s.latch bay).commanded ∧ (t.latch bay).release = (s.latch bay).release
  motion : t.ddt.phase = s.ddt.phase

theorem opened_latches {p : Source} {s t : State} (h : SupplyOk s) (o : Opened p s t) (bay : Bay) : LatchOk t bay := by
  refine latchOk_of s t h.latches (fun y x => ?_) o.latch o.motion bay
  by_cases e : baySource y = p
  · rw [e]; exact o.off
  · rw [gateDriven_eq (o.path _ e)]; exact x

theorem opened_gate {p q : Source} {s t : State} (o : Opened p s t) (h : q ≠ p → gateDriven s q = false) :
    gateDriven t q = false := by
  by_cases e : q = p
  · rw [e]; exact o.off
  · rw [gateDriven_eq (o.path q e)]; exact h e

/-- With no gate driven a switchover may end with NONE feeding. -/
theorem supplyOk_fell (fail : FailReason) (s : State) (l : ∀ bay, LatchOk s bay) (off : ∀ p, gateDriven s p = false) :
    SupplyOk (endSwitchover .fellToNone fail s) := by
  refine supplyOk_endsWith _ fail s l fun p => ?_
  rw [ended_feeding]; simpa using off p

theorem supplyOk_feedingLost (reason : SwReason) (s : State) (l : ∀ bay, LatchOk s bay) (i : s.spc.sw.phase = .idle)
    (off : ∀ p, gateDriven s p = false) : SupplyOk (feedingLost reason s) := by
  unfold feedingLost
  split
  · rename_i t g
    exact supplyOk_startSwitchover reason t [] s ⟨i, fun p => .inr (off p)⟩ l (chooseTarget_spec g).1 (chooseTarget_spec g).2.1
  · exact supplyOk_fell _ _ (latchOk_of s _ l (fun _ x => x) (fun _ => ⟨rfl, rfl⟩) rfl) off

/-- R38 to R41: the report of a path that was closing or closed and has opened keeps the laws. -/
theorem supplyOk_pathDown (p : Source) (r : DownReport) (s t : State) (h : SupplyOk s) (on : gateDriven s p = true)
    (o : Opened p s t) : SupplyOk (pathDown p r t) := by
  have l := opened_latches h o
  have hp := h.paths.path p
  have hd : ∀ q, drivenState s q = none → gateDriven s q = false := by
    intro q x; have := h.paths.path q; simp only [PathOk, x] at this; exact this
  have hc : ∀ q st, drivenState s q = some st → (s.path q).state = st := by
    intro q st x; have := h.paths.path q; simp only [PathOk, x] at this; exact this
  cases hs : drivenState s p with
  | none => rw [hd p hs] at on; cases on
  | some st =>
    have ph := o.phase
    cases hph : s.spc.sw.phase with
    | idle =>
      rw [hph] at ph
      simp only [drivenState, hph] at hs hd
      have hf : s.spc.feeding = some p := by
        by_cases e : s.spc.feeding = some p
        · exact e
        · rw [if_neg e] at hs; cases hs
      have ft : t.spc.feeding = some p := o.feeding.trans hf
      have : pathDown p r t = feedingLost r.reason t := by
        simp [pathDown, overlapping, inFlight, ph, ft]
      rw [this]
      refine supplyOk_feedingLost _ t l ph fun q => opened_gate o fun e => hd q ?_
      rw [if_neg]; rw [hf]; exact fun x => e (Option.some.inj x).symm
    | gapOpen => simp [drivenState, hph] at hs
    | gapDead => simp [drivenState, hph] at hs
    | gapClose =>
      rw [hph] at ph
      have fl : inFlight s = true := by simp [inFlight, hph]
      simp only [drivenState, hph] at hs hd
      have ht : s.spc.sw.toSrc = p := by
        by_cases e : s.spc.sw.toSrc = p
        · exact e
        · rw [if_neg e] at hs; cases hs
      have off : ∀ q, gateDriven t q = false := fun q => opened_gate o fun e => hd q (if_neg fun x => e (x.symm.trans ht))
      have tt : t.spc.sw.toSrc = p := o.toSrc.trans ht
      have : pathDown p r t = toFailed r.failReason t := by simp [pathDown, ph, tt]
      rw [this]
      unfold toFailed
      rw [if_pos ph]
      dsimp only
      split
      · rename_i x g
        have hx := (chooseTarget_spec g).2.1
        refine supplyOk_agrees (s := { t with spc := t.spc.retarget x (t.spc.sw.tried ++ [t.spc.sw.toSrc]) }) ?_ (agrees_failSelect _ _)
        refine ⟨⟨fun q => ?_, fun _ => ?_, fun _ => hx⟩, latchOk_of t _ l (fun _ y => y) (fun _ => ⟨rfl, rfl⟩) rfl⟩
        · have d : drivenState { t with spc := t.spc.retarget x (t.spc.sw.tried ++ [t.spc.sw.toSrc]) } q = none := by
            simp [drivenState, Spc.retarget]
          unfold PathOk; rw [d]; exact off q
        · show t.spc.feeding = t.spc.sw.fromSrc
          rw [o.feeding, o.fromSrc]; exact h.paths.feeding fl
      · exact supplyOk_fell _ t l off
    | ovlClose =>
      rw [hph] at ph
      have fl : inFlight s = true := by simp [inFlight, hph]
      have ap := h.paths.apart fl
      have fe := h.paths.feeding fl
      simp only [drivenState, hph] at hs hd hc
      by_cases ht : s.spc.sw.toSrc = p
      · have tt : t.spc.sw.toSrc = p := o.toSrc.trans ht
        have : pathDown p r t = toFailed r.failReason t := by simp [pathDown, overlapping, ph, tt]
        rw [this]
        unfold toFailed
        rw [if_neg (by rw [ph]; decide)]
        refine supplyOk_endsWith _ _ t l fun q => ?_
        rw [ended_feeding]
        dsimp only
        rw [o.feeding, fe]
        split
        · rename_i g
          have ne : q ≠ p := fun e => ap (by rw [g, e, ht])
          rw [o.path q ne]; exact hc q _ (if_pos g)
        · rename_i g
          refine opened_gate o fun e => hd q ?_
          rw [if_neg g, if_neg fun x => e (x.symm.trans ht)]
      · have hf : s.spc.sw.fromSrc = some p := by
          by_cases e : s.spc.sw.fromSrc = some p
          · exact e
          · rw [if_neg e, if_neg ht] at hs; cases hs
        have tf : t.spc.sw.fromSrc = some p := o.fromSrc.trans hf
        have tt : t.spc.sw.toSrc ≠ p := o.toSrc ▸ ht
        have : pathDown p r t = fromLost t := by simp [pathDown, overlapping, ph, tt, tf]
        rw [this]
        unfold fromLost
        dsimp only
        rw [if_neg (by rw [ph]; decide)]
        refine ⟨⟨fun q => ?_, fun _ => ?_, fun _ => ?_⟩, latchOk_of t _ l (fun _ y => y) (fun _ => ⟨rfl, rfl⟩) rfl⟩
        · unfold PathOk drivenState
          dsimp only
          by_cases e : t.spc.sw.toSrc = q
          · rw [if_pos e]
            show (t.path q).state = .closing
            have ne : q ≠ p := fun x => tt (e.trans x)
            rw [o.path q ne]
            refine hc q _ ?_
            rw [if_neg (by rw [hf]; exact fun x => ne (Option.some.inj x).symm), if_pos (o.toSrc ▸ e)]
          · rw [if_neg e]
            show gateDriven t q = false
            refine opened_gate o fun x => hd q ?_
            rw [if_neg (by rw [hf]; exact fun y => x (Option.some.inj y).symm), if_neg (o.toSrc ▸ e)]
        · show t.spc.feeding = t.spc.sw.fromSrc
          rw [o.feeding, o.fromSrc]; exact fe
        · show t.spc.sw.fromSrc ≠ some t.spc.sw.toSrc
          rw [o.toSrc, o.fromSrc]; exact ap
    | ovlHold =>
      rw [hph] at ph
      have fl : inFlight s = true := by simp [inFlight, hph]
      have ap := h.paths.apart fl
      have fe := h.paths.feeding fl
      simp only [drivenState, hph] at hs hd hc
      by_cases ht : s.spc.sw.toSrc = p
      · have tt : t.spc.sw.toSrc = p := o.toSrc.trans ht
        have : pathDown p r t = toFailed r.failReason t := by simp [pathDown, overlapping, ph, tt]
        rw [this]
        unfold toFailed
        rw [if_neg (by rw [ph]; decide)]
        refine supplyOk_endsWith _ _ t l fun q => ?_
        rw [ended_feeding]
        dsimp only
        rw [o.feeding, fe]
        split
        · rename_i g
          have ne : q ≠ p := fun e => ap (by rw [g, e, ht])
          rw [o.path q ne]; exact hc q _ (if_pos g)
        · rename_i g
          refine opened_gate o fun e => hd q ?_
          rw [if_neg g, if_neg fun x => e (x.symm.trans ht)]
      · have hf : s.spc.sw.fromSrc = some p := by
          by_cases e : s.spc.sw.fromSrc = some p
          · exact e
          · rw [if_neg e, if_neg ht] at hs; cases hs
        have tf : t.spc.sw.fromSrc = some p := o.fromSrc.trans hf
        have tt : t.spc.sw.toSrc ≠ p := o.toSrc ▸ ht
        have : pathDown p r t = fromLost t := by simp [pathDown, overlapping, ph, tt, tf]
        rw [this]
        unfold fromLost
        dsimp only
        rw [if_pos ph]
        refine supplyOk_endsWith _ _ _ (latchOk_of t _ l (fun _ y => y) (fun _ => ⟨rfl, rfl⟩) rfl) fun q => ?_
        rw [ended_feeding]
        dsimp only
        by_cases e : t.spc.sw.toSrc = q
        · rw [if_pos (by rw [e])]
          show (t.path q).state = .closed
          have ne : q ≠ p := fun x => tt (e.trans x)
          rw [o.path q ne]
          refine hc q _ ?_
          rw [if_neg (by rw [hf]; exact fun x => ne (Option.some.inj x).symm), if_pos (o.toSrc ▸ e)]
        · rw [if_neg fun x => e (Option.some.inj x)]
          show gateDriven t q = false
          refine opened_gate o fun x => hd q ?_
          rw [if_neg (by rw [hf]; exact fun y => x (Option.some.inj y).symm), if_neg (o.toSrc ▸ e)]

theorem opened_setPath (p : Source) (s : State) (r : PathRecord) (h : r.state ≠ .closing ∧ r.state ≠ .closed) :
    Opened p s (s.setPath p r) := by
  refine ⟨gate_off (by simpa using h), fun q e => by simp [e], rfl, rfl, rfl, rfl, fun _ => ⟨rfl, rfl⟩, rfl⟩

theorem supplyOk_openAndReport (p : Source) (r : DownReport) (s : State) (h : SupplyOk s) (on : gateDriven s p = true) :
    SupplyOk (openAndReport p r s) :=
  supplyOk_pathDown p r s _ h on (opened_setPath p s _ (openOrdered_off _))

theorem supplyOk_tripAndReport (p : Source) (c : FaultCause) (s : State) (h : SupplyOk s) (on : gateDriven s p = true) :
    SupplyOk (tripAndReport p c s) := by
  have o : Opened p s (s.setPath p ((s.path p).tripNow c (threshold s p) (derating s p) s.slu.uptime)) := by
    refine opened_setPath p s _ ?_
    simp only [PathRecord.tripNow]
    split <;> simp
  exact supplyOk_pathDown p .tripped s _ h on ⟨o.off, o.path, o.feeding, o.phase, o.fromSrc, o.toSrc, o.latch, o.motion⟩

/-- R8, R30 to R32: a path that closes keeps the laws. -/
theorem supplyOk_closes (p : Source) (s : State) (h : SupplyOk s) (on : (s.path p).state = .closing) :
    SupplyOk (pathClosed p (s.setPath p (s.path p).closedNow)) := by
  have hp := h.paths.path p
  have hd : ∀ q, drivenState s q = none → gateDriven s q = false := by
    intro q x; have := h.paths.path q; simp only [PathOk, x] at this; exact this
  have gate : gateDriven s p = true := by simp [gateDriven, on]
  have l : ∀ bay, LatchOk (s.setPath p (s.path p).closedNow) bay := by
    refine latchOk_of s _ h.latches (fun y x => ?_) (fun _ => ⟨rfl, rfl⟩) rfl
    have ne : baySource y ≠ p := by rintro rfl; rw [gate] at x; cases x
    rw [gateDriven_eq (s := s) (q := baySource y) (by simp [ne])]; exact x
  have closedP : ((s.setPath p (s.path p).closedNow).path p).state = .closed := by simp [PathRecord.closedNow]
  have other : ∀ q, q ≠ p → ((s.setPath p (s.path p).closedNow).path q).state = (s.path q).state := fun q e => by simp [e]
  unfold PathOk at hp
  cases hs : drivenState s p with
  | none => rw [hd p hs] at gate; cases gate
  | some st =>
    rw [hs] at hp
    have hst : st = .closing := hp.symm.trans on
    subst hst
    cases hph : s.spc.sw.phase with
    | idle => simp only [drivenState, hph] at hs; split at hs <;> cases hs
    | gapOpen => simp [drivenState, hph] at hs
    | gapDead => simp [drivenState, hph] at hs
    | ovlHold => simp only [drivenState, hph] at hs; repeat' split at hs
                 all_goals cases hs
    | ovlClose =>
      have fl : inFlight s = true := by simp [inFlight, hph]
      simp only [drivenState, hph] at hs hd
      have nf : s.spc.sw.fromSrc ≠ some p := by intro e; rw [if_pos e] at hs; cases hs
      have ht : s.spc.sw.toSrc = p := by
        by_cases e : s.spc.sw.toSrc = p
        · exact e
        · rw [if_neg nf, if_neg e] at hs; cases hs
      unfold pathClosed
      rw [if_pos (by exact ⟨fl, ht⟩)]
      simp only [setPath_sw, hph]
      refine ⟨⟨fun q => ?_, fun _ => h.paths.feeding fl, fun _ => h.paths.apart fl⟩, latchOk_of _ _ l (fun _ y => y) (fun _ => ⟨rfl, rfl⟩) rfl⟩
      have hq := h.paths.path q
      unfold PathOk drivenState at hq ⊢
      simp only [hph] at hq
      by_cases e : q = p
      · subst e
        simp only [nf, ht, if_false, if_true]
        exact closedP
      · have e2 : s.spc.sw.toSrc ≠ q := fun x => e (x.symm.trans ht)
        simp only [e2, if_false] at hq ⊢
        by_cases g : s.spc.sw.fromSrc = some q
        · simp only [g, if_true] at hq ⊢
          exact (other q e).trans hq
        · simp only [g, if_false] at hq ⊢
          exact (gateDriven_eq (s := s) (q := q) (other q e)).trans hq
    | gapClose =>
      have fl : inFlight s = true := by simp [inFlight, hph]
      simp only [drivenState, hph] at hs hd
      have ht : s.spc.sw.toSrc = p := by
        by_cases e : s.spc.sw.toSrc = p
        · exact e
        · rw [if_neg e] at hs; cases hs
      unfold pathClosed
      rw [if_pos (by exact ⟨fl, ht⟩)]
      simp only [setPath_sw, hph]
      refine supplyOk_endsWith _ _ _ l fun q => ?_
      rw [ended_feeding]
      simp only [setPath_sw, ht, Option.some.injEq]
      by_cases e : p = q
      · rw [if_pos e, ← e]; exact closedP
      · have e' : q ≠ p := fun x => e x.symm
        rw [if_neg e, gateDriven_eq (s := s) (q := q) (other q e')]
        exact hd q (if_neg fun x => e (ht.symm.trans x))

/-- R8: the end of a blanking window keeps the laws. -/
theorem supplyOk_blankingEnd (p : Source) (s : State) (h : SupplyOk s) (on : (s.path p).state = .closing) :
    SupplyOk (blankingEnd p s) := by
  unfold blankingEnd
  split
  · exact supplyOk_tripAndReport p .inrush s h (by simp [gateDriven, on])
  · exact supplyOk_closes p s h on

theorem supplyOk_closeTarget (x : Source) (tried : List Source) (s : State) (h : SupplyOk s) (ph : s.spc.sw.phase = .gapDead)
    (a : available s x = true) (f : s.spc.sw.fromSrc ≠ some x) : SupplyOk (closeTarget x tried s) := by
  have fl : inFlight s = true := by simp [inFlight, ph]
  have off : ∀ q, gateDriven s q = false := by
    intro q; have := h.paths.path q; simp only [PathOk, drivenState, ph] at this; exact this
  have fe := h.paths.feeding fl
  have ho := available_opened a (by rw [fe]; exact f)
  refine ⟨⟨fun q => ?_, fun _ => fe, fun _ => f⟩, fun bay => ?_⟩
  · unfold PathOk drivenState
    simp only [closeTarget, closeOrder, setPath_sw]
    by_cases e : x = q
    · subst e; simp; exact closeOrdered_opened ho
    · simp only [e, if_false]
      rw [gateDriven_eq (s := s) (q := q) (by rw [setPath_path, if_neg fun y => e y.symm]; rfl)]
      exact off q
  · have hb := h.latches bay
    refine ⟨hb.granted, fun y => ?_, hb.other, hb.still⟩
    have ne : baySource bay ≠ x := by
      rintro rfl
      have y : (s.latch bay).commanded = .unlocked := y
      rw [(available_locked a).1] at y; cases y
    rw [gateDriven_eq (s := s) (q := baySource bay) (by rw [closeTarget, closeOrder, setPath_path, if_neg ne]; rfl)]
    exact hb.opened y

/-- R31: the dead time's expiry keeps the laws. -/
theorem supplyOk_deadTimeExpiry (s : State) (h : SupplyOk s) (ph : s.spc.sw.phase = .gapDead) : SupplyOk (deadTimeExpiry s) := by
  have fl : inFlight s = true := by simp [inFlight, ph]
  unfold deadTimeExpiry
  dsimp only
  split
  · rename_i a; exact supplyOk_closeTarget _ _ s h ph a (h.paths.apart fl)
  · split
    · rename_i x g
      exact supplyOk_agrees (supplyOk_closeTarget x _ s h ph (chooseTarget_spec g).1 (chooseTarget_spec g).2.1) (agrees_failSelect _ _)
    · refine supplyOk_fell _ s h.latches fun q => ?_
      have := h.paths.path q; simp only [PathOk, drivenState, ph] at this; exact this

/-- R30: the overlap time's expiry keeps the laws. -/
theorem supplyOk_overlapExpiry (s : State) (h : SupplyOk s) (ph : s.spc.sw.phase = .ovlHold) : SupplyOk (overlapExpiry s) := by
  have fl : inFlight s = true := by simp [inFlight, ph]
  have ap := h.paths.apart fl
  have path : ∀ q, PathOk s q := h.paths.path
  simp only [PathOk, drivenState, ph] at path
  unfold overlapExpiry
  dsimp only
  cases hf : s.spc.sw.fromSrc with
  | none =>
    simp only [hf] at path ⊢
    refine supplyOk_endsWith _ _ s h.latches fun q => ?_
    rw [ended_feeding]
    have := path q
    by_cases e : s.spc.sw.toSrc = q
    · rw [if_pos (by simp [e])]; simpa [e] using this
    · rw [if_neg (by simp [e])]; simpa [e] using this
  | some f =>
    simp only [hf] at path ⊢
    have o := opened_setPath f s (s.path f).openOrdered (openOrdered_off _)
    refine supplyOk_endsWith _ _ (openOrder f s) (opened_latches h o) fun q => ?_
    rw [ended_feeding]
    show if some s.spc.sw.toSrc = some q then _ else _
    have nf : f ≠ s.spc.sw.toSrc := fun x => ap (by rw [hf, x])
    have := path q
    by_cases e : s.spc.sw.toSrc = q
    · rw [if_pos (by simp [e])]
      have ne : q ≠ f := fun x => nf (x.symm.trans e.symm)
      have := o.path q ne
      unfold openOrder
      rw [this]
      have g := path q
      simpa [e, Ne.symm ne] using g
    · rw [if_neg (by simp [e])]
      refine opened_gate o fun x => ?_
      have g := path q
      simpa [e, Ne.symm x] using g

/-! ### A monitor sample -/

theorem supplyOk_overStep (p : Source) (s : State) (h : SupplyOk s) (on : (s.path p).state = .closed) :
    SupplyOk (overStep p s) := by
  have same : ∀ n, Agrees s (s.setPath p { s.path p with overCount := n }) := by
    intro n
    refine ⟨fun q => ?_, rfl, rfl, rfl, rfl, fun _ => ⟨rfl, rfl⟩, rfl⟩
    rw [setPath_path]; split
    · rename_i e; subst e; rfl
    · rfl
  unfold overStep
  dsimp only
  repeat' split
  · exact supplyOk_agrees h (same 1)
  · exact supplyOk_tripAndReport _ _ _ h (gateDriven_closed on)
  · exact supplyOk_agrees h (same 0)

/-- R2, R9, R10, R12: the protection of a path keeps the laws. -/
theorem supplyOk_protect (p : Source) (s : State) (h : SupplyOk s) : SupplyOk (protect p s) := by
  unfold protect
  split <;> rename_i st
  · have on : gateDriven s p = true := by simp [gateDriven, st]
    repeat' split
    · exact supplyOk_openAndReport _ _ _ h on
    · exact supplyOk_tripAndReport _ _ _ h on
    · exact h
  · have on := gateDriven_closed st
    repeat' split
    · exact supplyOk_openAndReport _ _ _ h on
    · exact supplyOk_tripAndReport _ _ _ h on
    · exact supplyOk_overStep p s h st
  · exact h
  · exact h
  · exact h

theorem supplyOk_holdDropout (s : State) (h : SupplyOk s) : SupplyOk (holdDropout s) := by
  unfold holdDropout
  split
  · rename_i g
    refine supplyOk_openAndReport _ _ _ h ?_
    have := h.paths.path s.spc.sw.toSrc
    simp only [PathOk, drivenState, g.1, if_true] at this
    split at this <;> rename_i e
    · split at e <;> cases e <;> exact gateDriven_closed this
    · split at e <;> cases e
  · exact h

theorem supplyOk_lossStep (s : State) (h : SupplyOk s) : SupplyOk (lossStep s) := by
  unfold lossStep
  split
  · rename_i f g
    refine supplyOk_openAndReport _ _ _ h (gateDriven_closed ?_)
    unfold lossHere lossWatched at g
    split at g
    · rename_i x y
      split at g
      · cases g
        split at y
        · split at y
          · cases y; rename_i z; exact z.1
          · cases y
        · cases y
      · cases g
    · cases g
  · split
    · exact supplyOk_agrees h (agrees_of rfl rfl rfl rfl rfl)
    · exact h

theorem supplyOk_busLowStep (s : State) (h : SupplyOk s) : SupplyOk (busLowStep s) := by
  have c : ∀ b : Bool, Agrees s { s with spc := { busLowCounters s with busLow := b } } := by
    intro b
    have : (busLowCounters s).paths = s.spc.paths ∧ (busLowCounters s).feeding = s.spc.feeding ∧ (busLowCounters s).sw = s.spc.sw := by
      unfold busLowCounters; repeat' split
      all_goals exact ⟨rfl, rfl, rfl⟩
    exact agrees_of this.1 this.2.1 this.2.2 rfl rfl
  exact supplyOk_agrees h ((c _).trans (agrees_raiseIf _ _ _))

theorem supplyOk_removeBattery (was : Bool) (bay : Bay) (s : State) (h : SupplyOk s) : SupplyOk (removeBattery was bay s) := by
  unfold removeBattery; split
  · exact supplyOk_endWindow _ _ _ h
  · exact h

theorem agrees_bayConditions (bay : Bay) (s : State) : Agrees s (bayConditions bay s) := by
  have e : ∀ (r : PathRecord) b mv, (r.emptyStep b mv).state = r.state := by
    intro r b mv; unfold PathRecord.emptyStep; split <;> rfl
  have first : Agrees s (s.setPath (baySource bay) ((s.path (baySource bay)).emptyStep (present s (baySource bay)) s.spc.settings.emptyMv)) := by
    refine ⟨fun q => ?_, rfl, rfl, rfl, rfl, fun _ => ⟨rfl, rfl⟩, rfl⟩
    rw [setPath_path]; split
    · rename_i x; subst x; exact e _ _ _
    · rfl
  unfold bayConditions
  dsimp only
  repeat' split
  · exact first.trans (agrees_of rfl rfl rfl rfl rfl)
  · exact first
  · exact first.trans (agrees_of rfl rfl rfl rfl rfl)

theorem agrees_tick (s : State) : Agrees s (tick s) := by
  have l : ∀ bay, ((s.ltc.latches.map LatchRecord.tick).get bay).commanded = (s.latch bay).commanded ∧
      ((s.ltc.latches.map LatchRecord.tick).get bay).release = (s.latch bay).release := fun bay => by
    rw [PerBay.get_map]; exact ⟨rfl, rfl⟩
  have p : ∀ q, ((s.spc.paths.map PathRecord.tick).get q).state = (s.path q).state := fun q => by
    rw [PerSource.get_map]; rfl
  unfold tick
  dsimp only
  split
  · exact ⟨p, rfl, rfl, rfl, rfl, l, rfl⟩
  · exact ⟨p, rfl, rfl, rfl, rfl, fun _ => ⟨rfl, rfl⟩, rfl⟩

theorem agrees_measure (r : Readings) (s : State) : Agrees s (measure r s) :=
  ⟨fun q => by cases q <;> rfl, rfl, rfl, rfl, rfl, fun _ => ⟨rfl, rfl⟩, rfl⟩

theorem agrees_sampled (r : Readings) (s : State) : Agrees s (sampled r s) :=
  (((agrees_tick s).trans (agrees_measure _ _)).trans (agrees_bayConditions _ _)).trans (agrees_bayConditions _ _)

/-- R1: a monitor sample keeps the laws, up to its loss declaration. -/
theorem supplyOk_sampledPaths (r : Readings) (s : State) (h : SupplyOk s) : SupplyOk (sampledPaths r s) :=
  supplyOk_holdDropout _ (supplyOk_protect _ _ (supplyOk_protect _ _ (supplyOk_protect _ _
    (supplyOk_removeBattery _ _ _ (supplyOk_removeBattery _ _ _ (supplyOk_agrees h (agrees_sampled r s)))))))

theorem supplyOk_monitorSample (r : Readings) (s : State) (h : SupplyOk s) : SupplyOk (monitorSample r s) :=
  supplyOk_settle _ _ (supplyOk_busLowStep _ (supplyOk_lossStep _ (supplyOk_sampledPaths r s h)))

end Sys2Proof.Machine
end

