-- ==== Sys2Proof/Laws/Failures.lean ====
section
/-! SUPPORT. Failures inside a switchover (R39 to R41): what the report of a failed path leaves, and what the rest of its event,
which examines the triggers and chooses a frame to send, carries on. -/

namespace Sys2Proof.Machine

open Sys2Proof.Safety

/-- A path that stays off: it is off, and not to be closed. -/
def Shut (s : State) (p : Source) : Prop :=
  gateDriven s p = false ∧ ((s.path p).state ≠ .opened ∨ present s p = false ∨ overvolt s p = true)

/-- What the rest of an event carries on. -/
structure Carries (s t : State) : Prop where
  feeding : t.spc.feeding = s.spc.feeding
  outcome : t.spc.sw.outcome = s.spc.sw.outcome
  owedSelect : t.slu.owedSelect = s.slu.owedSelect
  sending : s.slu.tx ≠ none → t.slu.tx = s.slu.tx ∧ ∀ r ∈ s.slu.fifo, r ∈ t.slu.fifo
  overlap : s.spc.overlapTimer = none → t.spc.overlapTimer = none
  flight : inFlight s = true → t.spc.sw = s.spc.sw ∧ t.spc.deadTimer = s.spc.deadTimer
  loss : inFlight s = true → s.spc.lossTimer = none → t.spc.lossTimer = none
  hold : s.spc.sw.phase ≠ .ovlHold → t.spc.sw.phase ≠ .ovlHold
  shut : ∀ p, Shut s p → Shut t p

theorem Carries.refl (s : State) : Carries s s :=
  ⟨rfl, rfl, rfl, fun _ => ⟨rfl, fun _ => id⟩, id, fun _ => ⟨rfl, rfl⟩, fun _ => id, id, fun _ => id⟩

theorem Carries.trans {s t u : State} (h : Carries s t) (g : Carries t u) : Carries s u := by
  have fl : inFlight s = true → inFlight t = true := fun x => by
    have := (h.flight x).1
    simp only [inFlight] at x ⊢
    rw [this]; exact x
  refine ⟨g.feeding.trans h.feeding, g.outcome.trans h.outcome, g.owedSelect.trans h.owedSelect, fun x => ?_,
    fun x => g.overlap (h.overlap x), fun x => ?_, fun x y => g.loss (fl x) (h.loss x y), fun x => g.hold (h.hold x),
    fun p x => g.shut p (h.shut p x)⟩
  · have a := h.sending x
    have b := g.sending (by rw [a.1]; exact x)
    exact ⟨b.1.trans a.1, fun r m => b.2 r (a.2 r m)⟩
  · have a := h.flight x
    have b := g.flight (fl x)
    exact ⟨b.1.trans a.1, b.2.trans a.2⟩

theorem shut_of {s t : State} {p : Source} (state : (t.path p).state = (s.path p).state)
    (volts : ∀ q, (t.path q).voltage = (s.path q).voltage) (h : Shut s p) : Shut t p := by
  refine ⟨(gateDriven_eq state).trans h.1, ?_⟩
  have a : present t p = present s p := by simp only [present, volts]
  have b : overvolt t p = overvolt s p := by cases p <;> simp only [overvolt, volts]
  rw [state, a, b]
  exact h.2

theorem carries_same {s t : State} (h : Kept s t) (g : Same s t) : Carries s t := by
  refine ⟨h.feeding, h.outcome, h.owedSelect, fun _ => ⟨by rw [h.link], fun r m => h.grows.subset m⟩,
    fun x => g.overlapTimer.trans x, fun _ => ⟨g.sw, g.deadTimer⟩, fun _ x => g.lossTimer.trans x, fun x => by rw [g.sw]; exact x, fun p => ?_⟩
  exact shut_of (by rw [g.path]) (fun q => by rw [g.path])

theorem startSwitchover_path (reason : SwReason) (f : Option Source) (t : Source) (tried : List Source) (s : State) (p : Source) :
    (startSwitchover reason f t tried s).path p = s.path p ∨
      (p = t ∧ (startSwitchover reason f t tried s).path p = (s.path p).closeOrdered) ∨
      (f = some p ∧ (startSwitchover reason f t tried s).path p = (s.path p).openOrdered) := by
  unfold startSwitchover
  dsimp only
  split
  · unfold closeOrder
    rw [setPath_path]
    split
    · rename_i e; subst e; exact .inr (.inl ⟨rfl, rfl⟩)
    · exact .inl rfl
  · unfold openOrder
    rw [setPath_path]
    split
    · rename_i e; subst e; exact .inr (.inr ⟨rfl, rfl⟩)
    · exact .inl rfl
  · unfold closeOrder
    rw [setPath_path]
    split
    · rename_i e; subst e; exact .inr (.inl ⟨rfl, rfl⟩)
    · exact .inl rfl

theorem carries_start (reason : SwReason) (f : Option Source) (t : Source) (tried : List Source) (s : State)
    (idle : inFlight s = false) (can : available s t = true) : Carries s (startSwitchover reason f t tried s) := by
  have c := calm_startSwitchover reason f t tried s
  have sw := (canStart_false_of_started reason f t tried s).1
  refine ⟨c.feeding, c.outcome, c.owedSelect, fun _ => ⟨by rw [c.link], fun r m => c.grows.subset m⟩, fun _ => ?_,
    fun x => by simp [idle] at x, fun x => by simp [idle] at x, fun _ => ?_, fun p h => ?_⟩
  · unfold startSwitchover; dsimp only; split <;> rfl
  · rw [sw]; cases chooseMode s f t <;> cases f <;> simp [startPhase]
  · have v : ∀ q, ((startSwitchover reason f t tried s).path q).voltage = (s.path q).voltage := fun q => (c.path q).voltage
    rcases startSwitchover_path reason f t tried s p with e | ⟨e, g⟩ | ⟨_, g⟩
    · exact shut_of (by rw [e]) v h
    · refine shut_of ?_ v h
      rw [g]
      have : (s.path p).state ≠ .opened := by
        subst e
        simp only [available, Bool.and_eq_true, Bool.not_eq_true'] at can
        rcases h.2 with x | x | x
        · exact x
        · simp [x] at can
        · simp [x] at can
      simp [PathRecord.closeOrdered, this]
    · refine shut_of ?_ v h
      rw [g]
      have := h.1
      unfold gateDriven at this
      unfold PathRecord.openOrdered
      cases hs : (s.path p).state <;> simp [hs] at this ⊢

theorem chooseTarget_available {s : State} {f : Option Source} {tried : List Source} {t : Source}
    (h : chooseTarget s f tried = some t) : available s t = true := (chooseTarget_spec h).1

theorem canStart_inFlight {s : State} (h : canStart s = true) : inFlight s = false := ((canStart_iff s).mp h).1

theorem carries_examineHeld (s : State) : Carries s (examineHeld s) := by
  have k := (calm_examineHeld s).toKept
  unfold examineHeld examineHeldWith at k ⊢
  split
  · exact carries_same (by simpa [*] using k) ⟨rfl, rfl, rfl, rfl, rfl, rfl, rfl⟩
  · split
    · rename_i h
      split
      · rename_i e
        exact carries_start _ _ _ _ _ (canStart_inFlight h) (chooseTarget_available e)
      · rename_i e
        unfold markSole at k ⊢
        split
        · exact Carries.refl s
        · exact carries_same (by simpa [*] using k) ⟨rfl, rfl, rfl, rfl, rfl, rfl, rfl⟩
    · exact Carries.refl s

theorem carries_updatePreempt (s : State) : Carries s (updatePreempt s) :=
  carries_same (calm_updatePreempt s).toKept (same_updatePreempt s)

theorem carries_examinePreempt (s : State) (h : ∀ p, s.spc.preempt.get p = some 5000 → available s p = true) :
    Carries s (examinePreempt s) := by
  unfold examinePreempt
  split
  · rename_i g
    split
    · rename_i t e
      refine carries_start _ _ _ _ _ (canStart_inFlight g.1) (h t ?_)
      have := List.find?_some e
      simpa [Config.preemptTicks] using this
    · exact Carries.refl s
  · exact Carries.refl s

theorem carries_examineStart (s : State) : Carries s (examineStart s) := by
  unfold examineStart
  split
  · rename_i g
    split
    · rename_i e
      exact carries_start _ _ _ _ _ (canStart_inFlight g.1) (chooseTarget_available e)
    · exact Carries.refl s
  · exact Carries.refl s

theorem carries_publishSituation (s : State) : Carries s (publishSituation s) :=
  carries_same (calm_publishSituation s).toKept (same_publishSituation s)

theorem updatePreempt_due {s : State} {p : Source} (h : (updatePreempt s).spc.preempt.get p = some 5000) :
    available (updatePreempt s) p = true := by
  have e : (updatePreempt s).spc.preempt.get p = nextPreempt (preemptRuns s p) (s.spc.preempt.get p) := by cases p <;> rfl
  have r : preemptRuns s p = true := by
    rw [e, nextPreempt] at h
    split at h
    · assumption
    · simp at h
  exact (preemptRuns_available r).1

theorem carries_afterReleases (s : State) : Carries s (afterReleases s) :=
  ((((carries_updatePreempt s).trans (carries_examinePreempt _ fun _ => updatePreempt_due)).trans
    (carries_examineStart _)).trans (carries_updatePreempt _)).trans (carries_publishSituation _)

theorem same_setLatch (s : State) (bay : Bay) (l : LatchRecord) : Same s (s.setLatch bay l) := ⟨rfl, rfl, rfl, rfl, rfl, rfl, rfl⟩

theorem answerRelease_spc (bay : Bay) (st : Status) (f : Option FailReason) (s : State) :
    (answerRelease bay st f s).spc = s.spc := by
  unfold answerRelease
  split
  · dsimp only
    split <;> rfl
  · rfl

theorem same_spc {s t : State} (h : t.spc = s.spc) : Same s t := by
  constructor <;> rw [h]

theorem same_answerRelease (bay : Bay) (st : Status) (f : Option FailReason) (s : State) :
    Same s (answerRelease bay st f s) := same_spc (answerRelease_spc bay st f s)

theorem same_grantBay (bay : Bay) (s : State) : Same s (grantBay bay s) :=
  have h : Same s (clearPack bay (s.setLatch bay (s.latch bay).grant)) := ⟨rfl, rfl, rfl, rfl, rfl, rfl, rfl⟩
  (h.trans (same_answerRelease bay .ok none _)).trans (same_raise _ _)

theorem same_refuseBay (bay : Bay) (s : State) : Same s (refuseBay bay s) :=
  ((same_setLatch s bay _).trans (same_answerRelease bay .failed (some .soleSource) _)).trans (same_raise _ _)

theorem carries_evaluate (bay : Bay) (s : State) : Carries s (evaluate bay s) := by
  have pend : ∀ c t, Carries t (pendFor bay c t) := fun c t => carries_same (kept_pendFor bay c t) (same_setLatch t bay _)
  unfold evaluate
  split
  · exact pend _ _
  · split
    · exact pend _ _
    · split
      · exact pend _ _
      · unfold askRelease
        cases h : askAnswer s bay with
        | wait => exact pend _ _
        | moved => exact carries_same (kept_grantBay bay s) (same_grantBay bay s)
        | noTarget => exact carries_same (kept_refuseBay bay s) (same_refuseBay bay s)
        | started t =>
          unfold askAnswer at h
          split at h
          · simp at h
          · rename_i i
            split at h
            · simp at h
            · split at h
              · simp at h
              · rename_i q e
                simp only [AskAnswer.started.injEq] at h
                subst h
                exact (carries_start _ _ _ _ _ (by simpa using i) (chooseTarget_available e)).trans (pend _ _)

theorem carries_evaluateDue (bay : Bay) (s : State) : Carries s (evaluateDue bay s) := by
  unfold evaluateDue; split
  · exact carries_evaluate bay s
  · exact Carries.refl s

/-- R32: the examination of the triggers carries the event's result on. -/
theorem carries_settle (b : Bool) (s : State) : Carries s (settle b s) := by
  cases b
  · rw [settle_false]; exact (carries_examineHeld s).trans (carries_afterReleases _)
  · rw [settle_true]
    exact ((carries_examineHeld s).trans ((carries_evaluateDue _ _).trans (carries_evaluateDue _ _))).trans
      (carries_afterReleases _)

/-- R176: so does the transmitter's choice. -/
theorem carries_arbitrate (s : State) : Carries s (arbitrate s) := by
  have o : (arbitrated s).owedSelect = s.slu.owedSelect := by
    unfold arbitrated
    repeat' split
    all_goals rfl
  refine ⟨rfl, rfl, o, fun x => ?_, id, fun _ => ⟨rfl, rfl⟩, fun _ => id, id, fun _ => id⟩
  cases h : s.slu.tx with
  | none => exact absurd h x
  | some f => simp [arbitrated, h]

/-! ### The reports of R39 to R41 -/

/-- What the choice of a target reads. -/
structure SameChoice (s t : State) : Prop where
  available : ∀ p, available t p = available s p
  order : t.spc.settings.order = s.spc.settings.order

theorem SameChoice.target {s t : State} (h : SameChoice s t) (f : Option Source) (tried : List Source) :
    chooseTarget t f tried = chooseTarget s f tried := by
  unfold chooseTarget
  rw [h.order]
  congr 1
  funext p
  rw [h.available p]

theorem sameChoice_publishSituation (s : State) : SameChoice s (publishSituation s) := by
  unfold publishSituation
  dsimp only
  split
  · exact ⟨fun _ => rfl, rfl⟩
  · unfold raiseIf; split <;> exact ⟨fun _ => rfl, rfl⟩

/-- R32, steps 1 to 3: the state that a switchover's end leaves before its starter is answered. -/
def endedState (o : SwOutcome) (s : State) : State := publishSituation { s with spc := s.spc.ended o }

theorem endedState_slu (o : SwOutcome) (s : State) :
    (endedState o s).slu.owedSelect = s.slu.owedSelect ∧ (endedState o s).slu.fifo = s.slu.fifo ∧
      (endedState o s).slu.tx = s.slu.tx := by
  have c := calm_publishSituation { s with spc := s.spc.ended o }
  exact ⟨c.owedSelect, c.fifo, by unfold endedState; rw [c.link]⟩

theorem endedState_spc (o : SwOutcome) (s : State) :
    (endedState o s).spc.sw = { s.spc.sw with phase := .idle, tried := [], outcome := o } ∧
      (endedState o s).spc.feeding = (s.spc.ended o).feeding ∧ (endedState o s).spc.overlapTimer = none ∧
      (endedState o s).spc.startUp = s.spc.startUp := by
  have c := same_publishSituation { s with spc := s.spc.ended o }
  refine ⟨c.sw.trans (ended_sw _ _), c.feeding, c.overlapTimer.trans ?_, c.startUp.trans ?_⟩
  · show (s.spc.ended o).overlapTimer = _
    rw [ended_frame]
  · show (s.spc.ended o).startUp = _
    rw [ended_frame]

/-- R32, step 4: a starter other than SELECT_SOURCE. -/
theorem carries_answerStarter (reason : SwReason) (f : Option Source) (o : SwOutcome) (fail : FailReason) (s : State)
    (h : reason ≠ .hostSelect) : Carries s (answerStarter reason f o fail s) := by
  unfold answerStarter
  cases reason with
  | hostSelect => exact absurd rfl h
  | release =>
    dsimp only
    split
    · unfold answerAsk
      split
      · split
        · exact carries_evaluate _ _
        · exact carries_same (kept_refuseBay _ _) (same_refuseBay _ _)
      · exact Carries.refl s
    · exact Carries.refl s
  | _ => exact Carries.refl s

theorem carries_retryHeld (reason : SwReason) (p : Source) (o : SwOutcome) (s : State) :
    Carries s (retryHeld reason p o s) := by
  unfold retryHeld
  split
  · rename_i g
    split
    · rename_i e
      exact carries_start _ _ _ _ _ (canStart_inFlight g.2.2) (chooseTarget_available e)
    · exact Carries.refl s
  · exact Carries.refl s

theorem answerSelect_some (st : Status) (f : Option FailReason) (s : State) (tag : Byte) (h : s.slu.owedSelect = some tag) :
    (answerSelect st f s).slu.owedSelect = none ∧ (answerSelect st f s).spc = s.spc ∧
      (answerSelect st f s).slu.tx = s.slu.tx ∧
      { tag := tag, payload := replyPayload (ReqKind.byte .selectSource) st f (selectBytes s) } ∈
        (answerSelect st f s).slu.fifo := by
  unfold answerSelect
  simp [h, Slu.pushReply]

theorem answerSelect_spc (st : Status) (f : Option FailReason) (s : State) :
    (answerSelect st f s).spc = s.spc ∧ (answerSelect st f s).slu.tx = s.slu.tx ∧
      (∀ p, (answerSelect st f s).path p = s.path p) := by
  unfold answerSelect
  split <;> exact ⟨rfl, rfl, fun _ => rfl⟩

/-- R32: what the end of a switchover leaves, whoever started it. -/
structure Ended (o : SwOutcome) (s t : State) : Prop where
  feeding : t.spc.feeding = (s.spc.ended o).feeding
  outcome : t.spc.sw.outcome = o
  overlapTimer : t.spc.overlapTimer = none
  sending : s.slu.tx ≠ none → t.slu.tx = s.slu.tx
  shut : ∀ p, Shut s p → Shut t p
  hold : t.spc.sw.phase ≠ .ovlHold

/-- R32, R48: a SELECT_SOURCE that started the switchover is answered. -/
def SelectAnswered (o : SwOutcome) (fail : FailReason) (s t : State) : Prop :=
  ∀ tag, s.spc.sw.reason = .hostSelect → s.slu.owedSelect = some tag →
    t.slu.owedSelect = none ∧
      Joins s t
        { tag := tag
          payload :=
            replyPayload (ReqKind.byte .selectSource) (if o = .completed then .ok else .failed)
              (if o = .completed then none else some fail)
              (u8 (sourceCode (s.spc.ended o).feeding) ++
                switchoverBytes { s.spc.sw with phase := .idle, tried := [], outcome := o }) }

theorem ended_endSwitchover (o : SwOutcome) (fail : FailReason) (s : State) :
    Ended o s (endSwitchover o fail s) ∧ SelectAnswered o fail s (endSwitchover o fail s) := by
  have u := endedState_slu o s
  have c := endedState_spc o s
  have sh : ∀ p, Shut s p → Shut (endedState o s) p := fun p h => by
    have w := same_publishSituation { s with spc := s.spc.ended o }
    have e : ∀ q, (endedState o s).path q = s.path q := fun q => (w.path q).trans (path_ended s o q)
    exact shut_of (by rw [e]) (fun q => by rw [e]) h
  have rest : ∀ v : State, v.spc.sw = (endedState o s).spc.sw →
      Carries v (settle true (retryHeld s.spc.sw.reason s.spc.sw.toSrc o v)) := fun v _ =>
    (carries_retryHeld _ _ _ _).trans (carries_settle _ _)
  have e : endSwitchover o fail s =
      settle true
        (retryHeld s.spc.sw.reason s.spc.sw.toSrc o
          (answerStarter s.spc.sw.reason s.spc.sw.fromSrc o fail (endedState o s))) := rfl
  have hold : (endedState o s).spc.sw.phase ≠ .ovlHold := by rw [c.1]; simp
  have out : (endedState o s).spc.sw.outcome = o := by rw [c.1]
  by_cases h : s.spc.sw.reason = .hostSelect
  · rw [e]
    have a : answerStarter s.spc.sw.reason s.spc.sw.fromSrc o fail (endedState o s) =
        answerSelect (if o = .completed then .ok else .failed) (if o = .completed then none else some fail)
          (endedState o s) := by
      simp only [answerStarter, h]; split <;> rfl
    rw [a]
    have b := answerSelect_spc (if o = .completed then .ok else .failed) (if o = .completed then none else some fail) (endedState o s)
    have k := rest (answerSelect (if o = .completed then .ok else .failed) (if o = .completed then none else some fail)
      (endedState o s)) (by rw [b.1])
    refine ⟨⟨?_, ?_, k.overlap ?_, fun x => ?_, fun p x => k.shut p ?_, k.hold ?_⟩, fun tag _ owed => ?_⟩
    · rw [k.feeding, b.1]; exact c.2.1
    · rw [k.outcome, b.1]; exact out
    · rw [b.1]; exact c.2.2.1
    · exact (k.sending (by rw [b.2.1, u.2.2]; exact x)).1.trans (b.2.1.trans u.2.2)
    · exact shut_of (by rw [b.2.2]) (fun q => by rw [b.2.2]) (sh p x)
    · rw [b.1]; exact hold
    · have g := answerSelect_some (if o = .completed then .ok else .failed) (if o = .completed then none else some fail)
        (endedState o s) tag (u.1.trans owed)
      refine ⟨k.owedSelect.trans g.1, fun x => ?_⟩
      have m := (k.sending (by rw [g.2.2.1, u.2.2]; exact x)).2 _ g.2.2.2
      simpa only [selectBytes, c.1, c.2.1] using m
  · rw [e]
    have a := carries_answerStarter s.spc.sw.reason s.spc.sw.fromSrc o fail (endedState o s) h
    have k := a.trans ((carries_retryHeld s.spc.sw.reason s.spc.sw.toSrc o _).trans (carries_settle true _))
    refine ⟨⟨?_, ?_, k.overlap c.2.2.1, fun x => ?_, fun p x => k.shut p (sh p x), k.hold hold⟩, fun tag x => absurd x h⟩
    · rw [k.feeding]; exact c.2.1
    · rw [k.outcome]; exact out
    · exact (k.sending (by rw [u.2.2]; exact x)).1.trans u.2.2

/-- R39: the report of a failed to path of an OVERLAP switchover. -/
theorem toPathFailed_toFailed (fail : FailReason) (w : State) (h : w.spc.sw.phase ≠ .gapClose) :
    ToPathFailed (BitVec.ofNat 8 fail.code) w (toFailed fail w) := by
  have e : toFailed fail w = endSwitchover .failed fail w := by simp [toFailed, h]
  obtain ⟨a, b⟩ := ended_endSwitchover .failed fail w
  rw [e]
  have f := ended_feeding w.spc .failed
  refine ⟨a.feeding.trans f, a.outcome, a.overlapTimer, fun q held su t => ?_, fun tag r owed => ?_⟩
  · have c := endedState_spc .failed w
    have sc : SameChoice w (endedState .failed w) := by
      have x : SameChoice w { w with spc := w.spc.ended .failed } := ⟨fun _ => rfl, rfl⟩
      have y := sameChoice_publishSituation { w with spc := w.spc.ended .failed }
      exact ⟨fun p => (y.available p).trans (x.available p), y.order.trans x.order⟩
    have cs : canStart (endedState .failed w) = true := by
      rw [canStart_iff]
      exact ⟨by simp [inFlight, c.1], by rw [c.2.2.2]; exact su⟩
    have an : answerStarter w.spc.sw.reason w.spc.sw.fromSrc .failed fail (endedState .failed w) = endedState .failed w := by
      rcases held with x | x <;> rw [x] <;> rfl
    have hd : w.spc.sw.reason.held = true := by rcases held with x | x <;> rw [x] <;> rfl
    have fe : (endedState .failed w).spc.feeding = w.spc.feeding := c.2.1.trans f
    have rt : retryHeld w.spc.sw.reason w.spc.sw.toSrc .failed (endedState .failed w) =
        startSwitchover w.spc.sw.reason w.spc.feeding q [w.spc.sw.toSrc] (endedState .failed w) := by
      have t' : chooseTarget (endedState .failed w) w.spc.feeding [w.spc.sw.toSrc] = some q := (sc.target _ _).trans t
      simp only [retryHeld, hd, cs, fe, t', and_self, if_true]
    have st := canStart_false_of_started w.spc.sw.reason w.spc.feeding q [w.spc.sw.toSrc] (endedState .failed w)
    have fl : inFlight (startSwitchover w.spc.sw.reason w.spc.feeding q [w.spc.sw.toSrc] (endedState .failed w)) = true := by
      simp only [inFlight, st.1]
      cases chooseMode (endedState .failed w) w.spc.feeding q <;> cases w.spc.feeding <;> rfl
    have es : endSwitchover .failed fail w =
        settle true (startSwitchover w.spc.sw.reason w.spc.feeding q [w.spc.sw.toSrc] (endedState .failed w)) := by
      show settle true (retryHeld w.spc.sw.reason w.spc.sw.toSrc .failed
        (answerStarter w.spc.sw.reason w.spc.sw.fromSrc .failed fail (endedState .failed w))) = _
      rw [an, rt]
    have k := (carries_settle true (startSwitchover w.spc.sw.reason w.spc.feeding q [w.spc.sw.toSrc] (endedState .failed w))).flight fl
    rw [es]
    refine ⟨?_, ?_, ?_, ?_, ?_⟩
    · rw [k.1, st.1]
    · rw [k.1, st.1]
    · rw [k.1, st.1]
    · rw [k.1, st.1]
    · unfold inFlight at fl ⊢; rw [k.1]; exact fl
  · have x := b tag r owed
    rw [f] at x
    exact x

/-- R41: the report of a failed to path of a GAP switchover. -/
theorem gapTargetFailed_toFailed (fail : FailReason) (w : State) (h : w.spc.sw.phase = .gapClose) :
    GapTargetFailed (BitVec.ofNat 8 fail.code) w (toFailed fail w) := by
  refine ⟨fun q t => ?_, fun t => ?_⟩
  · have e : toFailed fail w = failSelect fail { w with spc := w.spc.retarget q (w.spc.sw.tried ++ [w.spc.sw.toSrc]) } := by
      simp only [toFailed, h, if_true, t]
    rw [e]
    unfold failSelect
    by_cases r : w.spc.sw.reason = .hostSelect
    · have r' : (w.spc.retarget q (w.spc.sw.tried ++ [w.spc.sw.toSrc])).sw.reason = .hostSelect := r
      simp only [r', if_true]
      have a := answerSelect_spc .failed (some fail) { w with spc := w.spc.retarget q (w.spc.sw.tried ++ [w.spc.sw.toSrc]) }
      rw [a.1]
      refine ⟨rfl, rfl, rfl, fun tag _ owed => ?_⟩
      have g := answerSelect_some .failed (some fail) { w with spc := w.spc.retarget q (w.spc.sw.tried ++ [w.spc.sw.toSrc]) } tag owed
      exact ⟨g.1, fun _ => g.2.2.2⟩
    · have r' : ¬(w.spc.retarget q (w.spc.sw.tried ++ [w.spc.sw.toSrc])).sw.reason = .hostSelect := r
      simp only [r', if_false]
      exact ⟨rfl, rfl, rfl, fun tag x => absurd x r⟩
  · have e : toFailed fail w = endSwitchover .fellToNone fail w := by
      simp only [toFailed, h, if_true, t]
    obtain ⟨a, b⟩ := ended_endSwitchover .fellToNone fail w
    have f := ended_feeding w.spc .fellToNone
    rw [e]
    refine ⟨a.feeding.trans f, a.outcome, fun tag r owed => ?_⟩
    have x := b tag r owed
    rw [f] at x
    exact x

/-- R40: the report of a lost from path of an OVERLAP switchover. -/
theorem fromPathLost_fromLost (w : State) : FromPathLost w (fromLost w) := by
  unfold fromLost
  refine ⟨fun h => ?_, fun h => ?_⟩
  · simp [h]
  · simp only [h, if_true]
    obtain ⟨a, b⟩ := ended_endSwitchover .completed .targetTripped
      { w with spc := { w.spc with lossTimer := none, sw := { w.spc.sw with mode := .gap, phase := .gapClose } } }
    have f := ended_feeding { w.spc with lossTimer := none, sw := { w.spc.sw with mode := .gap, phase := .gapClose } } .completed
    refine ⟨a.feeding.trans f, a.outcome, a.overlapTimer, fun tag r owed => ?_⟩
    have x := b tag r owed
    rw [f] at x
    exact x

/-! ### The rest of the event -/

theorem toPathFailed_carried {reason : Byte} {w s t : State} (h : ToPathFailed reason w s) (tx : w.slu.tx ≠ none → s.slu.tx ≠ none)
    (c : Carries s t) : ToPathFailed reason w t := by
  refine ⟨c.feeding.trans h.feeding, c.outcome.trans h.outcome, c.overlap h.overlapTimer, fun q a b d => ?_, fun tag a b => ?_⟩
  · have g := h.again q a b d
    have f := c.flight g.2.2.2.2
    rw [f.1]
    exact ⟨g.1, g.2.1, g.2.2.1, g.2.2.2.1, by have y := g.2.2.2.2; unfold inFlight at y ⊢; rw [f.1]; exact y⟩
  · have g := h.answered tag a b
    exact ⟨c.owedSelect.trans g.1, fun x => (c.sending (tx x)).2 _ (g.2 x)⟩

theorem gapTargetFailed_carried {reason : Byte} {w s t : State} (h : GapTargetFailed reason w s)
    (tx : w.slu.tx ≠ none → s.slu.tx ≠ none) (c : Carries s t) : GapTargetFailed reason w t := by
  refine ⟨fun q a => ?_, fun a => ?_⟩
  · have g := h.next q a
    have f := c.flight (by simp [inFlight, g.1])
    rw [f.1, f.2, c.feeding]
    refine ⟨g.1, g.2.1, g.2.2.1, fun tag r o => ?_⟩
    have m := g.2.2.2 tag r o
    exact ⟨c.owedSelect.trans m.1, fun x => (c.sending (tx x)).2 _ (m.2 x)⟩
  · have g := h.none a
    refine ⟨c.feeding.trans g.1, c.outcome.trans g.2.1, fun tag r o => ?_⟩
    have m := g.2.2 tag r o
    exact ⟨c.owedSelect.trans m.1, fun x => (c.sending (tx x)).2 _ (m.2 x)⟩

theorem fromPathLost_carried {w s t : State} (h : FromPathLost w s) (tx : w.slu.tx ≠ none → s.slu.tx ≠ none)
    (c : Carries s t) : FromPathLost w t := by
  refine ⟨fun a => ?_, fun a => ?_⟩
  · have g := h.closing a
    have fl : inFlight s = true := by simp [inFlight, g.1]
    have f := c.flight fl
    exact ⟨f.1.trans g.1, c.feeding.trans g.2.1, c.loss fl g.2.2⟩
  · have g := h.completes a
    refine ⟨c.feeding.trans g.1, c.outcome.trans g.2.1, c.overlap g.2.2.1, fun tag r o => ?_⟩
    have m := g.2.2.2 tag r o
    exact ⟨c.owedSelect.trans m.1, fun x => (c.sending (tx x)).2 _ (m.2 x)⟩

end Sys2Proof.Machine
end

