-- ==== Sys2Proof/Laws/Calm.lean ====
section
/-! SUPPORT. A monitor sample (R1): what it stores, and that a source it shows present, below the voltage limit and at most at the
threshold in force has nothing happen to its path but the over count (R2, R9, R10, R12). -/

namespace Sys2Proof.Machine

open Sys2Proof.Safety

/-! ### What a sample stores -/

theorem emptyStep_kept (r : PathRecord) (b : Bool) (mv : Nat) :
    (r.emptyStep b mv).voltage = r.voltage ∧ (r.emptyStep b mv).current = r.current ∧
      (r.emptyStep b mv).settings = r.settings ∧ (r.emptyStep b mv).state = r.state ∧
      (r.emptyStep b mv).overCount = r.overCount := by
  unfold PathRecord.emptyStep; split <;> exact ⟨rfl, rfl, rfl, rfl, rfl⟩

/-- What the conditions of a bay at a sample change: its EMPTY state, its pack info and its low state. -/
theorem bayConditions_path (bay : Bay) (s : State) (p : Source) :
    (bayConditions bay s).path p =
      if p = baySource bay then (s.path p).emptyStep (present s p) s.spc.settings.emptyMv else s.path p := by
  unfold bayConditions
  dsimp only
  split
  · split
    · show (s.setPath _ _).path p = _
      rw [setPath_path]; split
      · rename_i e; rw [e]
      · rfl
    · rw [setPath_path]; split
      · rename_i e; rw [e]
      · rfl
  · show (s.setPath _ _).path p = _
    rw [setPath_path]; split
    · rename_i e; rw [e]
    · rfl

theorem bayConditions_frame (bay : Bay) (s : State) :
    bayConditions bay s =
      { s with
        spc :=
          { s.spc with
            paths := (bayConditions bay s).spc.paths, packInfo := (bayConditions bay s).spc.packInfo
            low := (bayConditions bay s).spc.low } } := by
  unfold bayConditions
  dsimp only
  repeat' split
  all_goals rfl

theorem tick_frame (s : State) :
    tick s =
      { s with
        slu := { s.slu with uptime := (tick s).slu.uptime, subMs := (tick s).slu.subMs }
        spc := { s.spc with paths := s.spc.paths.map PathRecord.tick, preempt := s.spc.preempt.map tickPreempt }
        ltc := (tick s).ltc
        scv := { s.scv with records := (tick s).scv.records } } := by
  unfold tick msTick
  dsimp only
  split <;> rfl

theorem tick_record (s : State) (c : Channel) :
    (tick s).scv.records.get c = { s.scv.records.get c with age := ((tick s).scv.records.get c).age } := by
  unfold tick msTick
  dsimp only
  split
  · cases c <;> rfl
  · rfl

theorem tick_latch (s : State) (bay : Bay) :
    (tick s).latch bay =
      { s.latch bay with
        faultTimer := ((tick s).latch bay).faultTimer, stuckTimer := ((tick s).latch bay).stuckTimer
        windowMs := ((tick s).latch bay).windowMs } := by
  unfold tick msTick
  dsimp only
  split
  · cases bay <;> rfl
  · rfl

/-- R1: what a sample stores, and what it leaves for the protection to judge. -/
structure Stored (r : Readings) (s t : State) : Prop where
  voltage : ∀ p, (t.path p).voltage = min 65535 (volts r p)
  current : ∀ p, (t.path p).current = max (-32768) (min 32767 (amps r p))
  state : ∀ p, (t.path p).state = (s.path p).state
  count : ∀ p, (t.path p).overCount = (s.path p).overCount
  pathSettings : ∀ p, (t.path p).settings = (s.path p).settings
  bus : t.spc.busVoltage = min 65535 r.vBus
  supply : t.spc =
    { s.spc with
      paths := t.spc.paths, busVoltage := t.spc.busVoltage, preempt := t.spc.preempt, packInfo := t.spc.packInfo
      low := t.spc.low }
  link : t.slu = { s.slu with uptime := t.slu.uptime, subMs := t.slu.subMs }
  sense : t.scv = { s.scv with records := t.scv.records }
  record : ∀ c, t.scv.records.get c = { s.scv.records.get c with age := (t.scv.records.get c).age }
  latch : ∀ bay, t.latch bay =
    { s.latch bay with
      faultTimer := (t.latch bay).faultTimer, stuckTimer := (t.latch bay).stuckTimer, windowMs := (t.latch bay).windowMs }
  rest : t.bre = s.bre ∧ t.lmd = s.lmd ∧ t.mpt = s.mpt ∧ t.ddt = s.ddt

theorem stored_sampled (r : Readings) (s : State) : Stored r s (sampled r s) := by
  have b1 := bayConditions_frame .a (measure r (tick s))
  have b2 := bayConditions_frame .b (bayConditions .a (measure r (tick s)))
  have t := tick_frame s
  have path : ∀ p, ∃ x mv, (sampled r s).path p = ((measure r (tick s)).path p).emptyStep x mv ∨
      (sampled r s).path p = (measure r (tick s)).path p := by
    intro p
    unfold sampled
    simp only [bayConditions_path]
    cases p
    · exact ⟨true, 0, .inr rfl⟩
    · exact ⟨_, _, .inl rfl⟩
    · exact ⟨_, _, .inl rfl⟩
  have ts : (tick s).spc = { s.spc with paths := s.spc.paths.map PathRecord.tick, preempt := s.spc.preempt.map tickPreempt } := by
    rw [t]
  have one : ∀ p, (measure r (tick s)).path p = (s.path p).tick.measured (volts r p) (amps r p) (tick s).slu.uptime := by
    intro p
    cases p <;> simp only [measure, State.path, PerSource.get, ts, PerSource.map, volts, amps]
  have base : ∀ p, ((measure r (tick s)).path p).voltage = min 65535 (volts r p) ∧
      ((measure r (tick s)).path p).current = max (-32768) (min 32767 (amps r p)) ∧
      ((measure r (tick s)).path p).state = (s.path p).state ∧
      ((measure r (tick s)).path p).overCount = (s.path p).overCount ∧
      ((measure r (tick s)).path p).settings = (s.path p).settings := by
    intro p
    rw [one p]
    exact ⟨rfl, rfl, rfl, rfl, rfl⟩
  have both : ∀ p, ((sampled r s).path p).voltage = min 65535 (volts r p) ∧
      ((sampled r s).path p).current = max (-32768) (min 32767 (amps r p)) ∧
      ((sampled r s).path p).state = (s.path p).state ∧ ((sampled r s).path p).overCount = (s.path p).overCount ∧
      ((sampled r s).path p).settings = (s.path p).settings := by
    intro p
    obtain ⟨x, mv, h | h⟩ := path p
    · have k := emptyStep_kept ((measure r (tick s)).path p) x mv
      have m := base p
      rw [h]
      exact ⟨k.1.trans m.1, k.2.1.trans m.2.1, k.2.2.2.1.trans m.2.2.1, k.2.2.2.2.trans m.2.2.2.1, k.2.2.1.trans m.2.2.2.2⟩
    · rw [h]; exact base p
  have ltc : (sampled r s).ltc = (tick s).ltc := by
    show (bayConditions .b (bayConditions .a (measure r (tick s)))).ltc = _
    rw [b2]; show (bayConditions .a (measure r (tick s))).ltc = _; rw [b1]; rfl
  have scv : (sampled r s).scv = (tick s).scv := by
    show (bayConditions .b (bayConditions .a (measure r (tick s)))).scv = _
    rw [b2]; show (bayConditions .a (measure r (tick s))).scv = _; rw [b1]; rfl
  have slu : (sampled r s).slu = (tick s).slu := by
    show (bayConditions .b (bayConditions .a (measure r (tick s)))).slu = _
    rw [b2]; show (bayConditions .a (measure r (tick s))).slu = _; rw [b1]; rfl
  have spc : ∃ a p q l, (sampled r s).spc =
      { (measure r (tick s)).spc with paths := a, packInfo := p, low := l, preempt := q } := by
    have c1 := congrArg State.spc b1
    have c2 := congrArg State.spc b2
    refine ⟨(sampled r s).spc.paths, (sampled r s).spc.packInfo, (tick s).spc.preempt, (sampled r s).spc.low, ?_⟩
    refine c2.trans ?_
    dsimp only
    have m : ∀ v : Spc, v = { (measure r (tick s)).spc with paths := v.paths, packInfo := v.packInfo, low := v.low } →
        ({ v with paths := (sampled r s).spc.paths, packInfo := (sampled r s).spc.packInfo, low := (sampled r s).spc.low } : Spc) =
          { (measure r (tick s)).spc with
            paths := (sampled r s).spc.paths, packInfo := (sampled r s).spc.packInfo, low := (sampled r s).spc.low
            preempt := (tick s).spc.preempt } := by
      intro v e
      rw [e]; rfl
    exact m _ c1
  obtain ⟨a, p, q, l, hs⟩ := spc
  refine ⟨fun p => (both p).1, fun p => (both p).2.1, fun p => (both p).2.2.1, fun p => (both p).2.2.2.1,
    fun p => (both p).2.2.2.2, ?_, ?_, ?_, ?_, ?_, ?_, ?_⟩
  · rw [hs]; rfl
  · rw [hs]; simp only [measure]; rw [ts]
  · rw [slu]; rw [t]
  · rw [scv]; rw [t]
  · rw [scv]; exact tick_record s
  · intro bay
    have : (sampled r s).latch bay = (tick s).latch bay := by unfold State.latch; rw [ltc]
    rw [this]; exact tick_latch s bay
  · unfold sampled
    rw [b2]; refine ⟨?_, ?_, ?_, ?_⟩
    · show (bayConditions .a (measure r (tick s))).bre = _; rw [b1]; show (tick s).bre = _; rw [t]
    · show (bayConditions .a (measure r (tick s))).lmd = _; rw [b1]; show (tick s).lmd = _; rw [t]
    · show (bayConditions .a (measure r (tick s))).mpt = _; rw [b1]; show (tick s).mpt = _; rw [t]
    · show (bayConditions .a (measure r (tick s))).ddt = _; rw [b1]; show (tick s).ddt = _; rw [t]

/-! ### A source with nothing to protect from -/

/-- A path whose protection has nothing to do at a sample (R2, R9, R10, R12). -/
structure CalmAt (s : State) (x : Source) : Prop where
  present : present s x = true
  volts : overvolt s x = false
  amps : (s.path x).current ≤ (threshold s x : Int)

theorem threshold_of {s t : State} {p : Source} (settings : (t.path p).settings = (s.path p).settings)
    (temp : ∀ bay, bayTemp t bay = bayTemp s bay) : threshold t p = threshold s p := by
  have d : derating t p = derating s p := by
    unfold derating
    rw [settings]
    split
    · rfl
    · rw [temp]
  unfold threshold
  rw [settings, d]

theorem bayTemp_stored {r : Readings} {s t : State} (h : Stored r s t) (bay : Bay) : bayTemp t bay = bayTemp s bay := by
  unfold bayTemp knownValue
  rw [h.record]

theorem calmAt_stored {r : Readings} {s t : State} {x : Source} (h : Stored r s t) (c : CalmSource r s x) : CalmAt t x := by
  refine ⟨?_, ?_, ?_⟩
  · unfold Machine.present; rw [h.voltage]; exact c.present
  · cases x with
    | dcIn =>
      unfold overvolt
      rw [h.voltage]
      have := c.volts rfl
      exact decide_eq_false (by omega)
    | bayA => rfl
    | bayB => rfl
  · rw [h.current, threshold_of (h.pathSettings x) (bayTemp_stored h)]; exact c.amps

theorem calmAt_of {s t : State} {x : Source} (voltage : (t.path x).voltage = (s.path x).voltage)
    (current : (t.path x).current = (s.path x).current) (settings : (t.path x).settings = (s.path x).settings)
    (scv : t.scv = s.scv) (c : CalmAt s x) : CalmAt t x := by
  refine ⟨?_, ?_, ?_⟩
  · unfold Machine.present; rw [voltage]; exact c.present
  · have := c.volts
    cases x with
    | dcIn => unfold overvolt at this ⊢; rw [voltage]; exact this
    | bayA => rfl
    | bayB => rfl
  · rw [current, threshold_of settings (fun bay => by unfold bayTemp; rw [scv])]; exact c.amps

theorem calmAt_reported {s t : State} {x : Source} (h : Reported s t) (c : CalmAt s x) : CalmAt t x :=
  calmAt_of (h.path x).voltage (h.path x).current (h.path x).settings (by rw [h.rest]) c

theorem setPath_self (s : State) (p : Source) : s.setPath p (s.path p) = s := by cases p <;> rfl

/-- R2, R9, R10, R12: a calm source has its over count cleared while its path is CLOSED, and nothing else. -/
theorem protect_calm {s : State} {x : Source} (c : CalmAt s x) :
    protect x s = s.setPath x { s.path x with overCount := if (s.path x).state = .closed then 0 else (s.path x).overCount } := by
  have short : ¬(shortLimit s x : Int) < (s.path x).current := by
    have := c.amps
    unfold shortLimit
    push_cast
    omega
  have ov : ¬(threshold s x : Int) < (s.path x).current := by have := c.amps; omega
  unfold protect
  cases h : (s.path x).state with
  | closing =>
    simp only [c.present, c.volts, short, if_false, Bool.true_eq_false, Bool.false_eq_true, or_self, reduceCtorEq]
    exact (setPath_self s x).symm
  | closed => simp only [c.volts, short, if_false, Bool.false_eq_true, overStep, ov, if_true]
  | opened => simp only [reduceCtorEq, if_false]; exact (setPath_self s x).symm
  | tripped => simp only [reduceCtorEq, if_false]; exact (setPath_self s x).symm
  | lockedOut => simp only [reduceCtorEq, if_false]; exact (setPath_self s x).symm

/-- A state whose paths alone may have changed, and of them the over counts alone. -/
structure Counted (s t : State) : Prop where
  rest : t = { s with spc := { s.spc with paths := t.spc.paths } }
  path : ∀ p, t.path p = { s.path p with overCount := (t.path p).overCount }

theorem Counted.refl (s : State) : Counted s s := ⟨rfl, fun _ => rfl⟩

theorem Counted.trans {s t u : State} (h : Counted s t) (g : Counted t u) : Counted s u := by
  refine ⟨?_, fun p => ?_⟩
  · have a := h.rest
    have b := g.rest
    rw [a] at b
    exact b
  · rw [g.path p, h.path p]

theorem counted_protect {s : State} {x : Source} (c : CalmAt s x) : Counted s (protect x s) := by
  rw [protect_calm c]
  refine ⟨rfl, fun p => ?_⟩
  rw [setPath_path]
  split
  · rename_i e; rw [e]
  · rfl

theorem Counted.calmAt {s t : State} {x : Source} (h : Counted s t) (c : CalmAt s x) : CalmAt t x :=
  calmAt_of (by rw [h.path]) (by rw [h.path]) (by rw [h.path]) (by rw [h.rest]) c

theorem removeBattery_present (was : Bool) (bay : Bay) (s : State) (h : present s (baySource bay) = true) :
    removeBattery was bay s = s := by
  simp [removeBattery, removed, h]

/-- A sample in which every source is calm, up to the loss declaration. -/
theorem counted_sampledPaths (r : Readings) (s : State) (c : ∀ x, CalmSource r s x) :
    Counted (sampled r s) (sampledPaths r s) := by
  have st := stored_sampled r s
  have k : ∀ x, CalmAt (sampled r s) x := fun x => calmAt_stored st (c x)
  unfold sampledPaths
  dsimp only
  rw [removeBattery_present _ .a _ (k _).present, removeBattery_present _ .b _ (k _).present]
  have a := counted_protect (k .dcIn)
  have b := a.trans (counted_protect (a.calmAt (k .bayA)))
  have d := b.trans (counted_protect (b.calmAt (k .bayB)))
  have p : ∀ x, present (protect .bayB (protect .bayA (protect .dcIn (sampled r s)))) x = true := fun x =>
    (d.calmAt (k x)).present
  unfold holdDropout
  rw [if_neg (by simp [p])]
  exact d

/-- R33: with every closed path's source present no loss is declared: the timer of the watched path clears. -/
theorem lossStep_present (s : State) (h : ∀ x, (s.path x).state = .closed → present s x = true) :
    lossHere s = none ∧
      lossStep s = { s with spc := { s.spc with lossTimer := if (lossWatched s).isSome then none else s.spc.lossTimer } } := by
  have w : ∀ f, lossWatched s = some f → present s f = true := by
    intro f e
    unfold lossWatched at e
    split at e
    · split at e
      · rename_i g
        simp only [Option.some.injEq] at e
        subst e
        exact h _ g.1
      · simp at e
    · simp at e
  have n : lossHere s = none := by
    unfold lossHere
    split
    · rename_i f e
      simp [w f e]
    · rfl
  refine ⟨n, ?_⟩
  unfold lossStep
  rw [n]
  cases e : lossWatched s with
  | some f => simp [w f e]
  | none => simp

/-! ### Bus-low (R42) -/

theorem busLowStep_spc (s : State) :
    (busLowStep s).spc = { busLowCounters s with busLow := s.spc.busLow || busLowHere s } := by
  unfold busLowStep raiseIf
  dsimp only
  split <;> rfl

/-- R42: bus-low after a sample in which every source is calm. -/
theorem busLow_monitorSample (r : Readings) (s : State) (c : ∀ x, CalmSource r s x) :
    ∃ v : State, lossStep (sampledPaths r s) = v ∧ v.spc.feeding = s.spc.feeding ∧ v.spc.busLow = s.spc.busLow ∧
      v.spc.settings = s.spc.settings ∧ v.spc.belowCount = s.spc.belowCount ∧ v.spc.recoveryTimer = s.spc.recoveryTimer ∧
      v.spc.busVoltage = min 65535 r.vBus ∧
      (monitorSample r s).spc.busLow = (busLowStep v).spc.busLow ∧
      (monitorSample r s).spc.belowCount = (busLowStep v).spc.belowCount ∧
      (monitorSample r s).spc.recoveryTimer = (busLowStep v).spc.recoveryTimer := by
  have st := stored_sampled r s
  have ct := counted_sampledPaths r s c
  have pr : ∀ x, present (sampledPaths r s) x = true := fun x => (ct.calmAt (calmAt_stored st (c x))).present
  have l := (lossStep_present (sampledPaths r s) (fun x _ => pr x)).2
  have k := kept_settle (removesBattery s (sampled r s)) (busLowStep (lossStep (sampledPaths r s)))
  have m1 : (sampledPaths r s).spc = _ := congrArg State.spc ct.rest
  refine ⟨lossStep (sampledPaths r s), rfl, ?_, ?_, ?_, ?_, ?_, ?_, k.busLow, k.belowCount, k.recoveryTimer⟩
  · rw [l]; show (sampledPaths r s).spc.feeding = _; rw [m1]; show (sampled r s).spc.feeding = _; rw [st.supply]
  · rw [l]; show (sampledPaths r s).spc.busLow = _; rw [m1]; show (sampled r s).spc.busLow = _; rw [st.supply]
  · rw [l]; show (sampledPaths r s).spc.settings = _; rw [m1]; show (sampled r s).spc.settings = _; rw [st.supply]
  · rw [l]; show (sampledPaths r s).spc.belowCount = _; rw [m1]; show (sampled r s).spc.belowCount = _; rw [st.supply]
  · rw [l]; show (sampledPaths r s).spc.recoveryTimer = _; rw [m1]; show (sampled r s).spc.recoveryTimer = _; rw [st.supply]
  · rw [l]; show (sampledPaths r s).spc.busVoltage = _; rw [m1]; exact st.bus

end Sys2Proof.Machine
end

