-- ==== Sys2Proof/Laws/Choices.lean ====
section
/-! SUPPORT. What the decisions of the supply logic are (R1 to R5, R28, R29, R34, R36): one lemma for each definition. -/

namespace Sys2Proof.Machine

open Sys2Proof.Safety

/-- R1: a source is present at its voltage. -/
theorem present_iff (s : State) (x) : present s x = true ↔ (if x = .dcIn then 17000 else 6000) ≤ (s.path x).voltage := by
  cases x <;> exact decide_eq_true_iff

/-- R2: DC_IN is over its voltage limit. -/
theorem overvolt_dcIn (s : State) : overvolt s .dcIn = false ↔ (s.path .dcIn).voltage < 22000 :=
  decide_eq_false_iff_not.trans Nat.not_le

/-- R5: the conditions of availability. -/
theorem available_iff (s : State) (q : Source) : (available s q = true ↔
      present s q = true ∧ (q = .dcIn → (s.path q).voltage < 22000) ∧
        ((s.path q).state = .opened ∨ s.spc.feeding = some q) ∧
        (s.spc.settings.mode = .manual ∨ (s.path q).settings.autoEligible = true) ∧
        ∀ bay, baySource bay = q →
          (s.latch bay).commanded = .locked ∧ (s.latch bay).release = .idle ∧ hot s q = false ∧ (s.path q).isEmpty = false ∧
            ((s.latch bay).insecure = false ∨ ∀ x, x ≠ q → present s x = false)) := by
  have all : ∀ z, noOtherPresent s z = true ↔ ∀ x, x ≠ z → present s x = false := by
    intro z
    simp only [noOtherPresent, List.all_cons, List.all_nil, Bool.and_true, Bool.and_eq_true, Bool.or_eq_true, beq_iff_eq,
      Bool.not_eq_true']
    constructor
    · rintro ⟨a, b, c⟩ x hx
      cases x
      · exact a.resolve_left (fun e => hx e)
      · exact b.resolve_left (fun e => hx e)
      · exact c.resolve_left (fun e => hx e)
    · intro h
      refine ⟨?_, ?_, ?_⟩
      · by_cases e : Source.dcIn = z; exact .inl e; exact .inr (h _ e)
      · by_cases e : Source.bayA = z; exact .inl e; exact .inr (h _ e)
      · by_cases e : Source.bayB = z; exact .inl e; exact .inr (h _ e)
  cases q with
  | dcIn =>
    have no : ∀ P : Bay → Prop, (∀ bay, baySource bay = Source.dcIn → P bay) ↔ True := fun P =>
      ⟨fun _ => trivial, fun _ bay e => by cases bay <;> cases e⟩
    rw [no]
    simp only [available, sourceBay, Bool.and_eq_true, Bool.not_eq_true', overvolt_dcIn, Bool.or_eq_true, beq_iff_eq, and_assoc,
      forall_const, true_and, and_true]
  | bayA =>
    have : ∀ P : Bay → Prop, (∀ bay, baySource bay = Source.bayA → P bay) ↔ P .a := fun P =>
      ⟨fun h => h .a rfl, fun h bay e => by cases bay; exact h; simp [baySource] at e⟩
    rw [this]
    simp [available, overvolt, sourceBay, bayAvailable, all, baySource, and_assoc]
    tauto
  | bayB =>
    have : ∀ P : Bay → Prop, (∀ bay, baySource bay = Source.bayB → P bay) ↔ P .b := fun P =>
      ⟨fun h => h .b rfl, fun h bay e => by cases bay; simp [baySource] at e; exact h⟩
    rw [this]
    simp [available, overvolt, sourceBay, bayAvailable, all, baySource, and_assoc]
    tauto

/-- R28: the target choice is the first of the preference order that can be a target. -/
theorem chooseTarget_eq (s : State) (q) (f : Option Source) (tried : List Source) :
      let can := fun x => available s x = true ∧ f ≠ some x ∧ x ∉ tried
      (chooseTarget s f tried = some q ↔
        ∃ before after, s.spc.settings.order = before ++ q :: after ∧ can q ∧ ∀ x ∈ before, ¬can x) ∧
      (chooseTarget s f tried = none ↔ ∀ x ∈ s.spc.settings.order, ¬can x) := by
  have e : ∀ x, (available s x && f != some x && !tried.contains x) = true ↔ (available s x = true ∧ f ≠ some x ∧ x ∉ tried) := by
    intro x; simp [and_assoc]
  refine ⟨?_, ?_⟩
  · unfold chooseTarget
    rw [List.find?_eq_some_iff_append]
    constructor
    · rintro ⟨a, as, bs, h, g⟩
      exact ⟨as, bs, h, (e q).mp a, fun x hx y => by have := g x hx; rw [(e x).mpr y] at this; simp at this⟩
    · rintro ⟨as, bs, h, a, g⟩
      exact ⟨(e q).mpr a, as, bs, h, fun x hx => by
        have := mt (e x).mp (g x hx); simpa only [Bool.not_eq_true, Bool.not_eq_true'] using this⟩
  · unfold chooseTarget
    rw [List.find?_eq_none]
    exact forall_congr' fun x => forall_congr' fun _ => not_congr (e x)

/-- R29: OVERLAP is chosen from a healthy CLOSED from path within the parallel window, and GAP otherwise. -/
theorem chooseMode_overlap (s : State) (q) (f : Option Source) : chooseMode s f q = .overlap ↔
      ∃ x, f = some x ∧ (s.path x).state = .closed ∧ present s x = true ∧ s.spc.lossTimer = none ∧
        (x = .dcIn → (s.path x).voltage < 22000) ∧
        (s.path x).voltage ≤ (s.path q).voltage + s.spc.settings.parallelMv ∧
        (s.path q).voltage ≤ (s.path x).voltage + s.spc.settings.parallelMv := by
  unfold chooseMode
  cases f with
  | none => simp
  | some x =>
    have d : distance (s.path x).voltage (s.path q).voltage ≤ s.spc.settings.parallelMv ↔
       (s.path x).voltage ≤ (s.path q).voltage + s.spc.settings.parallelMv ∧
        (s.path q).voltage ≤ (s.path x).voltage + s.spc.settings.parallelMv := by unfold distance; omega
    have h : healthy s x = true ↔ present s x = true ∧ s.spc.lossTimer = none ∧ (x = .dcIn → (s.path x).voltage < 22000) := by
      cases x <;> simp [healthy, overvolt_dcIn, and_assoc] <;> simp [overvolt]
    simp only [Option.some.injEq, exists_eq_left', d, h]
    split
    · simp only [true_iff]; tauto
    · simp only [reduceCtorEq, false_iff]; tauto

/-- R3: HOT. -/
theorem hot_spec (s : State) : hot s .dcIn = false ∧ (∀ bay, hot s (baySource bay) = true ↔
      let r := s.scv.records.get (if bay = .a then .thBayA else .thBayB)
      r.valid = true ∧ r.stale = false ∧ 700 ≤ r.value) := by
  refine ⟨rfl, fun bay => ?_⟩
  have : bayChannel bay = if bay = .a then .thBayA else .thBayB := by cases bay <;> rfl
  simp only [hot, sourceBay_baySource, Option.bind_some, bayTemp, ← this]
  generalize s.scv.records.get (bayChannel bay) = r
  unfold knownValue
  cases r.valid <;> cases r.stale <;> first | exact decide_eq_true_iff.trans (by simp [Config.hotTemp]) | simp

/-- R34: the held conditions of the feeding bay, EMPTY before HOT. -/
theorem heldCondition_spec (s : State) :
    (heldCondition s = some .empty ↔
      ∃ bay, s.spc.feeding = some (baySource bay) ∧ (s.path (baySource bay)).isEmpty = true) ∧
    (heldCondition s = some .hot ↔
      ∃ bay, s.spc.feeding = some (baySource bay) ∧ (s.path (baySource bay)).isEmpty = false ∧
        hot s (baySource bay) = true) ∧
    (∀ r, heldCondition s = some r → r = .empty ∨ r = .hot) := by
  have ex : ∀ P : Bay → Prop, (∃ bay, P bay) ↔ P .a ∨ P .b := fun P =>
    ⟨fun ⟨b, h⟩ => by cases b; exact .inl h; exact .inr h, fun h => h.elim (⟨_, ·⟩) (⟨_, ·⟩)⟩
  unfold heldCondition
  rw [ex, ex]
  rcases s.spc.feeding with _ | f
  · simp
  · cases f <;> simp [sourceBay, baySource, (hot_spec s).1] <;> (try refine ⟨?_, ?_⟩) <;> (try intro r) <;> split <;> simp_all

/-- R36: when a preemption timer runs. -/
theorem preemptRuns_iff (s : State) (p) : (preemptRuns s p = true ↔
      s.spc.settings.mode = .auto ∧ available s p = true ∧
        ∃ before after, s.spc.settings.order = before ++ p :: after ∧
          ∀ f, s.spc.feeding = some f → f ∉ before ∧ f ≠ p) := by
  have tw : ∀ (l : List Source) f, p ∈ l.takeWhile (fun q => q != f) ↔ ∃ a b, l = a ++ p :: b ∧ f ∉ a ∧ f ≠ p := by
    intro l f
    induction l with
    | nil => simp
    | cons x l ih =>
      rw [List.takeWhile_cons]
      by_cases h : x = f
      · subst h
        simp only [bne_self_eq_false, Bool.false_eq_true, if_false, List.not_mem_nil, false_iff]
        rintro ⟨a, b, e, n, m⟩
        cases a with
        | nil => simp only [List.nil_append, List.cons.injEq] at e; exact m e.1
        | cons y a => simp only [List.cons_append, List.cons.injEq] at e; exact n (by rw [e.1]; simp)
      · have h' : (x != f) = true := by simpa using h
        rw [if_pos h', List.mem_cons, ih]
        constructor
        · rintro (rfl | ⟨a, b, e, n, m⟩)
          · exact ⟨[], l, rfl, by simp, fun e => h e.symm⟩
          · exact ⟨x :: a, b, by rw [e]; rfl, by simp [n, Ne.symm h], m⟩
        · rintro ⟨a, b, e, n, m⟩
          cases a with
          | nil => simp only [List.nil_append, List.cons.injEq] at e; exact .inl e.1.symm
          | cons y a => simp only [List.cons_append, List.cons.injEq] at e; exact .inr ⟨a, b, e.2, fun z => n (by simp [z]), m⟩
  simp only [preemptRuns, Bool.and_eq_true, beq_iff_eq, and_assoc]
  refine and_congr_right fun _ => and_congr_right fun _ => ?_
  unfold earlierThanFeeding
  rcases s.spc.feeding with _ | f
  · simp only [List.contains_iff_mem]
    rw [List.mem_iff_append]
    simp
  · simp only [List.contains_iff_mem, tw, Option.some.injEq, forall_eq']

/-- R45: the feeding battery is low. -/
theorem bayLow_iff (s : State) (bay : Bay) : bayLow s bay = true ↔
    (∀ n, s.spc.packInfo.get bay = some n → n < s.spc.settings.lowPercent) ∧
      (s.spc.packInfo.get bay = none → s.spc.low.get bay = true) := by
  unfold bayLow
  cases s.spc.packInfo.get bay <;> simp

/-- R45: the situation, row by row. -/
theorem situationOf_spec (s : State) :
    let shed := s.spc.busLow = true ∧ s.spc.settings.busLowAction = .shed ∨
      s.spc.sw.phase = .gapOpen ∨ s.spc.sw.phase = .gapDead ∨ s.spc.sw.phase = .gapClose ∨ s.spc.feeding = none
    let low := ∃ bay, s.spc.feeding = some (baySource bay) ∧
      (∀ n, s.spc.packInfo.get bay = some n → n < s.spc.settings.lowPercent) ∧
      (s.spc.packInfo.get bay = none → s.spc.low.get bay = true)
    let pair := ∀ bay, present s (baySource bay) = true ∧
      (s.spc.feeding = some (baySource bay) ∨ available s (baySource bay) = true)
    (situationOf s = .shed ↔ shed) ∧
    (situationOf s = .dc ↔ ¬shed ∧ s.spc.feeding = some .dcIn) ∧
    (situationOf s = .low ↔ ¬shed ∧ low) ∧
    (situationOf s = .pair ↔ ¬shed ∧ s.spc.feeding ≠ some .dcIn ∧ ¬low ∧ pair) ∧
    (situationOf s = .single ↔ ¬shed ∧ s.spc.feeding ≠ some .dcIn ∧ ¬low ∧ ¬pair) := by
  intro shed low pair
  have hs : shed ↔ ((s.spc.busLow && s.spc.settings.busLowAction == .shed) || gapRunning s || s.spc.feeding.isNone) = true := by
    simp only [shed, gapRunning]
    cases s.spc.sw.phase <;> simp
  have hl : low ↔ (s.spc.feeding.bind sourceBay).any (bayLow s) = true := by
    simp only [low, ← bayLow_iff]
    rcases s.spc.feeding with _ | f
    · simp
    · constructor
      · rintro ⟨bay, e, h⟩
        cases e
        simpa [sourceBay_baySource] using h
      · cases f with
        | dcIn => simp [sourceBay]
        | bayA => exact fun h => ⟨.a, rfl, by simpa [sourceBay] using h⟩
        | bayB => exact fun h => ⟨.b, rfl, by simpa [sourceBay] using h⟩
  have hp : pair ↔ (bayCounts s .a && bayCounts s .b) = true := by
    simp only [pair, bayCounts, Bool.and_eq_true, Bool.or_eq_true, beq_iff_eq]
    exact ⟨fun h => ⟨h .a, h .b⟩, fun h bay => by cases bay; exact h.1; exact h.2⟩
  have hd : s.spc.feeding = some .dcIn → ¬low := by
    rintro h ⟨bay, e, -⟩
    rw [h] at e
    cases bay <;> cases e
  rw [hs, hl, hp] at *
  unfold situationOf
  split
  · simp_all
  · split
    · simp_all
    · split
      · simp_all
      · split <;> simp_all

end Sys2Proof.Machine
end

