-- ==== Sys2Proof/Laws/Tail.lean ====
section
/-! SUPPORT. A path that fails at a monitor sample (R39 to R41): the sample up to its turn, the report, and the rest of the
sample, which carries what the report leaves to the end of the event. -/

namespace Sys2Proof.Machine

open Sys2Proof.Safety

/-! ### The rest of a sample after a failure -/

/-- After a path's failure at a sample: the path stays off, and the other sources are calm. -/
structure Tail (p : Source) (s : State) : Prop where
  shut : Shut s p
  calm : ∀ x, x ≠ p → CalmAt s x
  hold : s.spc.sw.phase ≠ .ovlHold

theorem protect_off {s : State} {p : Source} (h : gateDriven s p = false) : protect p s = s := by
  unfold gateDriven at h
  unfold protect
  cases e : (s.path p).state <;> simp [e] at h ⊢

theorem carries_counted {s t : State} (h : Counted s t) : Carries s t := by
  have r := h.rest
  refine ⟨by rw [r], by rw [r], by rw [r], fun _ => ⟨by rw [r], fun _ => by rw [r]; exact id⟩, fun x => by rw [r]; exact x,
    fun _ => ⟨by rw [r], by rw [r]⟩, fun _ x => by rw [r]; exact x, fun x => by rw [r]; exact x, fun p x => ?_⟩
  exact shut_of (by rw [h.path]) (fun q => by rw [h.path]) x

theorem tail_protect {p : Source} {s : State} (h : Tail p s) (x : Source) :
    Carries s (protect x s) ∧ Tail p (protect x s) := by
  by_cases e : x = p
  · subst e
    rw [protect_off h.shut.1]
    exact ⟨Carries.refl s, h⟩
  · have c := counted_protect (h.calm x e)
    have k := carries_counted c
    exact ⟨k, k.shut p h.shut, fun y hy => c.calmAt (h.calm y hy), k.hold h.hold⟩

theorem tail_hold {p : Source} {s : State} (h : Tail p s) : holdDropout s = s := by
  unfold holdDropout
  rw [if_neg (fun x => h.hold x.1)]

theorem carries_lossTimer (s : State) (o : Option Nat) (h : s.spc.lossTimer = none → o = none) :
    Carries s { s with spc := { s.spc with lossTimer := o } } :=
  ⟨rfl, rfl, rfl, fun _ => ⟨rfl, fun _ => id⟩, id, fun _ => ⟨rfl, rfl⟩, fun _ => h, id, fun _ x => shut_of rfl (fun _ => rfl) x⟩

theorem busLowCounters_frame (s : State) :
    busLowCounters s =
      { s.spc with belowCount := (busLowCounters s).belowCount, recoveryTimer := (busLowCounters s).recoveryTimer } := by
  unfold busLowCounters
  repeat' split
  all_goals rfl

theorem carries_busLowStep (s : State) : Carries s (busLowStep s) := by
  have f := busLowCounters_frame s
  have a : Carries s { s with spc := { busLowCounters s with busLow := s.spc.busLow || busLowHere s } } := by
    rw [f]
    exact ⟨rfl, rfl, rfl, fun _ => ⟨rfl, fun _ => id⟩, id, fun _ => ⟨rfl, rfl⟩, fun _ => id, id, fun _ x => shut_of rfl (fun _ => rfl) x⟩
  refine a.trans ?_
  unfold busLowStep raiseIf
  dsimp only
  split
  · refine ⟨rfl, rfl, raised_owedSelect _ _, fun _ => ⟨raised_tx _ _, fun r m => ?_⟩, id, fun _ => ⟨rfl, rfl⟩, fun _ => id, id, fun _ x => shut_of rfl (fun _ => rfl) x⟩
    rw [raise_slu, raised_fifo]; exact m
  · exact Carries.refl _

/-- The rest of a sample carries a failure's result to the end of the event. -/
theorem tail_rest {p : Source} {s : State} (h : Tail p s) (b : Bool) :
    Carries s (arbitrate (settle b (busLowStep (lossStep s)))) := by
  have pr : ∀ x, (s.path x).state = .closed → present s x = true := by
    intro x hx
    refine (h.calm x fun e => ?_).present
    subst e
    have := h.shut.1
    simp [gateDriven, hx] at this
  have l := (lossStep_present s pr).2
  have a : Carries s (lossStep s) := by
    rw [l]
    refine carries_lossTimer s _ fun x => ?_
    split
    · rfl
    · exact x
  exact ((a.trans (carries_busLowStep _)).trans (carries_settle b _)).trans (carries_arbitrate _)

theorem gateDrive_off {s : State} {p : Source} (h : gateDriven s p = false) : gateDrive s p = .off := by
  unfold gateDriven at h
  unfold gateDrive
  cases e : (s.path p).state <;> simp [e] at h ⊢

/-! ### The sample up to the failure -/

/-- Before a path's failure at a sample: the state is as the sample has stored it, but for over counts and a removed battery. -/
structure Before (p : Source) (v w : State) : Prop where
  choice : present v p = false → SameChoice (openOrder p v) (openOrder p w)
  spc : w.spc = { v.spc with paths := w.spc.paths }
  tx : w.slu.tx = v.slu.tx
  owed : w.slu.owedSelect = v.slu.owedSelect
  path : w.path p = { v.path p with overCount := (w.path p).overCount }
  calm : ∀ x, x ≠ p → CalmAt w x
  scv : w.scv = v.scv

theorem openOrder_path (p : Source) (s : State) (x : Source) :
    (openOrder p s).path x = if x = p then (s.path p).openOrdered else s.path x := setPath_path s p _ x

theorem openOrdered_samePath (r : PathRecord) : r.openOrdered.settings = r.settings ∧ r.openOrdered.voltage = r.voltage ∧ r.openOrdered.isEmpty = r.isEmpty := by
  unfold PathRecord.openOrdered; split <;> exact ⟨rfl, rfl, rfl⟩

/-- What availability reads. -/
theorem available_absent {v : State} {x : Source} (h : present v x = false) : available v x = false := by
  unfold available; simp [h]

theorem before_refl {p : Source} {v : State} (c : ∀ x, x ≠ p → CalmAt v x) : Before p v v :=
  ⟨fun _ => ⟨fun _ => rfl, rfl⟩, rfl, rfl, rfl, rfl, c, rfl⟩

theorem Before.counted {p : Source} {v w z : State} (h : Before p v w) (c : Counted w z) : Before p v z := by
  have r := c.rest
  have slu : z.slu = w.slu := by rw [r]
  have pp := c.path p
  have oo : ∀ q, ((openOrder p z).path q).voltage = ((openOrder p w).path q).voltage ∧
      ((openOrder p z).path q).state = ((openOrder p w).path q).state ∧
      ((openOrder p z).path q).isEmpty = ((openOrder p w).path q).isEmpty ∧
      ((openOrder p z).path q).settings = ((openOrder p w).path q).settings := by
    intro q
    rw [openOrder_path, openOrder_path]
    split
    · rw [pp]; unfold PathRecord.openOrdered; dsimp only; split <;> exact ⟨rfl, rfl, rfl, rfl⟩
    · rw [c.path]; exact ⟨rfl, rfl, rfl, rfl⟩
  refine ⟨fun a => ?_, ?_, by rw [slu]; exact h.tx, by rw [slu]; exact h.owed, by rw [pp, h.path],
    fun y hy => c.calmAt (h.calm y hy), by rw [r]; exact h.scv⟩
  · have k := h.choice a
    refine ⟨fun y => (available_congr (fun q => (oo q).1) (oo y).2.1 (oo y).2.2.1 (oo y).2.2.2 ?_ ?_ ?_ (fun bay _ => ?_)).trans (k.available y), ?_⟩
    · show z.spc.feeding = w.spc.feeding; rw [r]
    · show z.spc.settings = w.spc.settings; rw [r]
    · show z.scv = w.scv; rw [r]
    · show z.latch bay = w.latch bay; unfold State.latch; rw [r]
    · rw [← k.order]; show z.spc.settings.order = w.spc.settings.order; rw [r]
  · have a := congrArg State.spc r
    have b := h.spc
    rw [b] at a
    exact a

theorem Before.removal {p : Source} {v w : State} (h : Before p v w) (was : Bool) (bay : Bay) : Before p v (removeBattery was bay w) := by
  by_cases e : baySource bay = p
  · unfold removeBattery
    split
    · refine ⟨fun a => ?_, h.spc, (raised_tx _ _).trans h.tx, (raised_owedSelect _ _).trans h.owed, h.path,
        fun x hx => calmAt_of (s := w) rfl rfl rfl rfl (h.calm x hx), h.scv⟩
      have k := h.choice a
      · have pr : ∀ z : State, z.spc = (openOrder p w).spc → present z p = false := by
          intro z hz
          unfold present State.path
          rw [hz]
          have : ((openOrder p w).path p).voltage = (v.path p).voltage := by
            rw [openOrder_path, if_pos rfl, (openOrdered_samePath _).2.1, h.path]
          show presentAt p ((openOrder p w).path p).voltage = false
          rw [this]; exact a
        refine ⟨fun y => ?_, k.order⟩
        by_cases hy : y = p
        · subst hy
          rw [← k.available y]
          exact (available_absent (pr (openOrder y (endWindow bay .removed w)) rfl)).trans (available_absent (pr (openOrder y w) rfl)).symm
        · refine (available_congr (v := openOrder p w) (w := openOrder p (endWindow bay .removed w)) (fun q => rfl) rfl rfl rfl rfl rfl rfl (fun z hb => ?_)).trans (k.available y)
          show (endWindow bay .removed w).latch z = w.latch z
          unfold endWindow
          rw [raise_latch, setLatch_latch, if_neg]
          intro eb
          subst eb
          apply hy
          rw [← e]
          cases y <;> cases z <;> simp [sourceBay, baySource] at hb ⊢
    · exact h
  · rw [removeBattery_present was bay w (h.calm _ e).present]; exact h

/-! ### The failures -/

theorem toPathFailed_agree {reason : Byte} {v w t : State} (h : ToPathFailed reason w t) (choice : SameChoice v w)
    (feeding : w.spc.feeding = v.spc.feeding) (sw : w.spc.sw = v.spc.sw) (startUp : w.spc.startUp = v.spc.startUp)
    (tx : w.slu.tx = v.slu.tx) (owed : w.slu.owedSelect = v.slu.owedSelect) : ToPathFailed reason v t := by
  refine ⟨h.feeding.trans feeding, h.outcome, h.overlapTimer, fun q a b c => ?_, fun tag a b => ?_⟩
  · have := h.again q (by rw [sw]; exact a) (startUp.trans b) (by rw [choice.target, feeding, sw]; exact c)
    rw [sw, feeding] at this
    exact this
  · have := h.answered tag (by rw [sw]; exact a) (owed.trans b)
    unfold Joins at this ⊢
    rw [tx, feeding, sw] at this
    exact this

theorem gapTargetFailed_agree {reason : Byte} {v w t : State} (h : GapTargetFailed reason w t) (choice : SameChoice v w)
    (feeding : w.spc.feeding = v.spc.feeding) (sw : w.spc.sw = v.spc.sw) (settings : w.spc.settings = v.spc.settings)
    (tx : w.slu.tx = v.slu.tx) (owed : w.slu.owedSelect = v.slu.owedSelect) : GapTargetFailed reason v t := by
  refine ⟨fun q a => ?_, fun a => ?_⟩
  · have := h.next q (by rw [choice.target, sw]; exact a)
    unfold Joins at this ⊢
    rw [sw, settings, feeding, tx, owed] at this
    exact this
  · have := h.none (by rw [choice.target, sw]; exact a)
    unfold Joins at this ⊢
    rw [sw, tx, owed] at this
    exact this

theorem fromPathLost_agree {v w t : State} (h : FromPathLost w t) 
    (feeding : w.spc.feeding = v.spc.feeding) (sw : w.spc.sw = v.spc.sw)
    (tx : w.slu.tx = v.slu.tx) (owed : w.slu.owedSelect = v.slu.owedSelect) : FromPathLost v t := by
  refine ⟨fun a => ?_, fun a => ?_⟩
  · have := h.closing (by rw [sw]; exact a)
    rw [sw, feeding] at this
    exact this
  · have := h.completes (by rw [sw]; exact a)
    unfold Joins at this ⊢
    rw [sw, tx, owed] at this
    exact this

/-- R2, R9: the to path's source is gone while it closes. -/
theorem protect_dropped {p : Source} {w : State} (st : (w.path p).state = .closing) (gone : present w p = false) :
    protect p w = pathDown p .dropped (openOrder p w) := by
  unfold protect
  simp only [st, gone, true_or, if_true]
  rfl

theorem shut_opened {p : Source} {w : State} (gone : present w p = false) : Shut (openOrder p w) p := by
  have e : (openOrder p w).path p = (w.path p).openOrdered := by rw [openOrder_path, if_pos rfl]
  have o := openOrdered_off (w.path p)
  refine ⟨gate_off (by rw [e]; exact o), .inr (.inl ?_)⟩
  unfold present at gone ⊢
  rw [e, (openOrdered_samePath _).2.1]; exact gone

/-- What a failed to path's report leaves, of the path itself and of the others. -/
theorem tail_toFailed (fail : FailReason) {p : Source} {w : State} (h : Shut w p) (c : ∀ x, x ≠ p → CalmAt w x)
   : Tail p (toFailed fail w) ∧ (w.slu.tx ≠ none → (toFailed fail w).slu.tx ≠ none) := by
  have r := reported_toFailed fail w
  refine ⟨⟨?_, fun x hx => calmAt_reported r (c x hx), ?_⟩, fun x => by rw [r.link]; exact x⟩
  · unfold toFailed
    dsimp only
    split
    · split
      · unfold failSelect
        split
        · exact shut_of (by rw [(answerSelect_spc _ _ _).2.2]; rfl) (fun q => by rw [(answerSelect_spc _ _ _).2.2]; rfl) h
        · exact shut_of rfl (fun _ => rfl) h
      · exact (ended_endSwitchover _ _ _).1.shut p h
    · exact (ended_endSwitchover _ _ _).1.shut p h
  · unfold toFailed
    dsimp only
    split
    · split
      · unfold failSelect
        split
        · rw [(answerSelect_spc _ _ _).1]; simp [Spc.retarget]
        · simp [Spc.retarget]
      · exact (ended_endSwitchover _ _ _).1.hold
    · exact (ended_endSwitchover _ _ _).1.hold

theorem beforeSample (r : Readings) (s : State) (p : Source) (c : ∀ x, x ≠ p → CalmSource r s x) :
    Before p (sampled r s) (removeBattery (present s .bayB) .b (removeBattery (present s .bayA) .a (sampled r s))) :=
  ((before_refl fun x hx => calmAt_stored (stored_sampled r s) (c x hx)).removal _ .a).removal _ .b

/-- A failure at a path's own turn in a sample is carried to its end. -/
theorem failure_carried (r : Readings) (s : State) (p : Source) (c : ∀ x, x ≠ p → CalmSource r s x) :
    ∃ w, Before p (sampled r s) w ∧
      (Tail p (protect p w) → Carries (protect p w) (arbitrate (monitorSample r s))) := by
  have b := beforeSample r s p c
  unfold monitorSample sampledPaths
  dsimp only
  cases p with
  | dcIn =>
    refine ⟨_, b, fun h => ?_⟩
    have a := tail_protect h .bayA
    have d := tail_protect a.2 .bayB
    rw [tail_hold d.2]
    exact (a.1.trans d.1).trans (tail_rest d.2 _)
  | bayA =>
    refine ⟨_, b.counted (counted_protect (b.calm .dcIn (by decide))), fun h => ?_⟩
    have d := tail_protect h .bayB
    rw [tail_hold d.2]
    exact d.1.trans (tail_rest d.2 _)
  | bayB =>
    have b1 := b.counted (counted_protect (b.calm .dcIn (by decide)))
    refine ⟨_, b1.counted (counted_protect (b1.calm .bayA (by decide))), fun h => ?_⟩
    rw [tail_hold h]
    exact tail_rest h _

/-- R39: so is the dropout of a closed to path. -/
theorem dropout_carried (r : Readings) (s : State) (p : Source) (c : ∀ x, x ≠ p → CalmSource r s x)
    (quiet : ∀ w, Before p (sampled r s) w → Counted w (protect p w)) :
    ∃ w, Before p (sampled r s) w ∧
      (Tail p (holdDropout w) → Carries (holdDropout w) (arbitrate (monitorSample r s))) := by
  have b := beforeSample r s p c
  have one : ∀ w x, Before p (sampled r s) w → Before p (sampled r s) (protect x w) := by
    intro w x h
    by_cases e : x = p
    · subst e; exact h.counted (quiet w h)
    · exact h.counted (counted_protect (h.calm x e))
  unfold monitorSample sampledPaths
  dsimp only
  exact ⟨_, one _ .bayB (one _ .bayA (one _ .dcIn b)), fun h => tail_rest h _⟩

end Sys2Proof.Machine
end

