-- ==== Sys2Proof/Laws/Ran.lean ====
section
/-! SUPPORT. What a monitor sample makes of the bay latch records, of the timers that a path record holds, and of a DC_IN path that is
off over the voltage limit: one lemma for each operation of the sample (R4, R18, R44, R45, R53, R56 to R60, R66), up to the whole of
it. -/

namespace Sys2Proof.Machine

open Sys2Proof.Safety

/-! ### What the operations may do -/

/-- A bay latch record after operations that evaluate releases (R53, R55, R56): unchanged, or of a PENDING bay that waits for another
cause, is granted or is refused. -/
def Evaluated (l m : LatchRecord) : Prop :=
  m = l ∨ l.release = .pending ∧
    (m = { l with cause := m.cause } ∨ m = { l.grant with hostOwed := m.hostOwed } ∨
      m = { l.endRelease .refused with hostOwed := m.hostOwed })

theorem Evaluated.trans {l m n : LatchRecord} (h : Evaluated l m) (g : Evaluated m n) : Evaluated l n := by
  rcases h with h | ⟨p, h⟩
  · rw [h] at g; exact g
  · rcases g with g | ⟨q, g⟩
    · rw [g]; exact .inr ⟨p, h⟩
    · rcases h with h | h | h
      · refine .inr ⟨p, ?_⟩
        rcases g with g | g | g
        · exact .inl (by rw [g, h])
        · exact .inr (.inl (by rw [g, h]; rfl))
        · exact .inr (.inr (by rw [g, h]; rfl))
      · rw [h] at q; simp [LatchRecord.grant] at q
      · rw [h] at q; simp [LatchRecord.endRelease] at q

/-- A path record whose voltage and EMPTY state stay, and whose closed time does while it is CLOSED. -/
structure PathRan (r t : PathRecord) : Prop where
  voltage : t.voltage = r.voltage
  isEmpty : t.isEmpty = r.isEmpty
  emptyTimer : t.emptyTimer = r.emptyTimer
  closed : t.state = .closed → r.state = .closed ∧ t.closedTime = r.closedTime

theorem PathRan.refl (r : PathRecord) : PathRan r r := ⟨rfl, rfl, rfl, fun h => ⟨h, rfl⟩⟩

theorem PathRan.trans {r t u : PathRecord} (h : PathRan r t) (g : PathRan t u) : PathRan r u :=
  ⟨g.voltage.trans h.voltage, g.isEmpty.trans h.isEmpty, g.emptyTimer.trans h.emptyTimer, fun c =>
    ⟨(h.closed (g.closed c).1).1, (g.closed c).2.trans (h.closed (g.closed c).1).2⟩⟩

/-- DC_IN is off, and over the voltage limit: it is not to be closed (R5). -/
def OffOver (s : State) : Prop := overvolt s .dcIn = true ∧ gateDriven s .dcIn = false

/-- What the operations of a sample make of the latches, the path records, pack info, the low state and the channels. -/
structure Ran (s t : State) : Prop where
  path : ∀ p, PathRan (s.path p) (t.path p)
  latch : ∀ bay, Evaluated (s.latch bay) (t.latch bay)
  pack : ∀ bay, s.spc.packInfo.get bay = none → t.spc.packInfo.get bay = none
  low : t.spc.low = s.spc.low
  scv : t.scv = s.scv
  off : OffOver s → t.path .dcIn = s.path .dcIn
  tx : t.slu.tx = s.slu.tx
  counts : ∀ k n, n ≤ 255 → n ≤ s.slu.outbox.get k → n ≤ t.slu.outbox.get k

theorem Ran.offOver {s t : State} (h : Ran s t) (g : OffOver s) : OffOver t := by
  have e := h.off g
  have a := g.1
  have b := g.2
  unfold OffOver overvolt gateDriven at *
  rw [e]; exact ⟨a, b⟩

theorem Ran.trans {s t u : State} (h : Ran s t) (g : Ran t u) : Ran s u :=
  ⟨fun p => (h.path p).trans (g.path p), fun bay => (h.latch bay).trans (g.latch bay), fun bay x => g.pack bay (h.pack bay x),
    g.low.trans h.low, g.scv.trans h.scv, fun x => (g.off (h.offOver x)).trans (h.off x),
    g.tx.trans h.tx, fun k n x y => g.counts k n x (h.counts k n x y)⟩

/-- Operations on other state. -/
theorem ran_of {s t : State} (path : ∀ p, t.path p = s.path p) (latch : ∀ bay, t.latch bay = s.latch bay)
    (pack : t.spc.packInfo = s.spc.packInfo) (low : t.spc.low = s.spc.low) (scv : t.scv = s.scv)
    (slu : t.slu.tx = s.slu.tx ∧ t.slu.outbox = s.slu.outbox := by exact ⟨rfl, rfl⟩) : Ran s t :=
  ⟨fun p => by rw [path]; exact PathRan.refl _, fun bay => .inl (latch bay), fun bay x => by rw [pack]; exact x, low, scv,
    fun _ => path _, slu.1, fun k n _ y => by rw [slu.2]; exact y⟩

theorem Ran.refl (s : State) : Ran s s := ran_of (fun _ => rfl) (fun _ => rfl) rfl rfl rfl

theorem raised_counts (u : Slu) (k x : NoticeKind) (n : Nat) (h : n ≤ 255) (g : n ≤ u.outbox.get x) :
    n ≤ (u.raised k).outbox.get x := by
  unfold Slu.raised
  split
  · show n ≤ (u.outbox.set k _).get x
    rw [PerNotice.get_set]
    split
    · rename_i e
      rw [e] at g
      exact Nat.le_min.mpr ⟨h, Nat.le_succ_of_le g⟩
    · exact g
  · exact g

theorem ran_raise (k : NoticeKind) (s : State) : Ran s (raise k s) :=
  ⟨fun _ => PathRan.refl _, fun _ => .inl rfl, fun _ => id, rfl, rfl, fun _ => rfl, raised_tx _ _,
    fun x n h g => raised_counts s.slu k x n h g⟩

theorem ran_publishSituation (s : State) : Ran s (publishSituation s) := by
  have a : ∀ x c, Ran s { s with spc := { s.spc with situation := x, cap := c } } := fun _ _ =>
    ran_of (fun _ => rfl) (fun _ => rfl) rfl rfl rfl
  have b : ∀ c v, Ran v (breAllowance c v) := fun _ _ => ran_of (fun _ => rfl) (fun _ => rfl) rfl rfl rfl
  unfold publishSituation
  dsimp only
  split
  · exact Ran.refl s
  · unfold raiseIf
    split
    · exact ((a _ _).trans (ran_raise _ _)).trans (b _ _)
    · exact (a _ _).trans (b _ _)

theorem ran_updatePreempt (s : State) : Ran s (updatePreempt s) := ran_of (fun _ => rfl) (fun _ => rfl) rfl rfl rfl

theorem ran_answerSelect (st : Status) (f : Option FailReason) (s : State) : Ran s (answerSelect st f s) := by
  unfold answerSelect; split <;> exact ran_of (fun _ => rfl) (fun _ => rfl) rfl rfl rfl

theorem ran_failSelect (f : FailReason) (s : State) : Ran s (failSelect f s) := by
  unfold failSelect; split
  · exact ran_answerSelect _ _ _
  · exact Ran.refl s

/-! ### Paths -/

theorem pathRan_closeOrdered (r : PathRecord) : PathRan r r.closeOrdered := by
  unfold PathRecord.closeOrdered
  split
  · exact ⟨rfl, rfl, rfl, fun h => by simp at h⟩
  · exact PathRan.refl r

theorem pathRan_openOrdered (r : PathRecord) : PathRan r r.openOrdered := by
  unfold PathRecord.openOrdered
  cases h : r.state <;> first | exact PathRan.refl r | exact ⟨rfl, rfl, rfl, fun h => by simp at h⟩

theorem openOrdered_same {s : State} {p : Source} (h : gateDriven s p = false) : (s.path p).openOrdered = s.path p := by
  unfold gateDriven at h
  unfold PathRecord.openOrdered
  cases e : (s.path p).state <;> simp [e] at h ⊢

theorem ran_setPath (s : State) (p : Source) (r : PathRecord) (h : PathRan (s.path p) r)
    (off : OffOver s → p = .dcIn → r = s.path .dcIn) : Ran s (s.setPath p r) := by
  refine ⟨fun q => ?_, fun _ => .inl rfl, fun _ => id, rfl, rfl, fun o => ?_, rfl, fun _ _ _ => id⟩
  · rw [setPath_path]; split
    · rename_i e; rw [e]; exact h
    · exact PathRan.refl _
  · rw [setPath_path]; split
    · rename_i e; exact off o e.symm
    · rfl

theorem ran_openOrder (p : Source) (s : State) : Ran s (openOrder p s) :=
  ran_setPath s p _ (pathRan_openOrdered _) fun o e => by subst e; exact openOrdered_same o.2

theorem available_not_over {s : State} {t : Source} (can : available s t = true) (o : OffOver s) : t ≠ .dcIn := by
  intro e
  subst e
  simp [available, o.1] at can

theorem ran_closeOrder (t : Source) (s : State) (can : available s t = true) : Ran s (closeOrder t s) :=
  ran_setPath s t _ (pathRan_closeOrdered _) fun o e => absurd e (available_not_over can o)

/-- R29 to R31: a start. -/
theorem ran_start (reason : SwReason) (f : Option Source) (t : Source) (tried : List Source) (s : State)
    (can : available s t = true) : Ran s (startSwitchover reason f t tried s) := by
  have path := startSwitchover_path reason f t tried s
  have other : (startSwitchover reason f t tried s).ltc = s.ltc ∧
      (startSwitchover reason f t tried s).spc.packInfo = s.spc.packInfo ∧
      (startSwitchover reason f t tried s).spc.low = s.spc.low ∧ (startSwitchover reason f t tried s).scv = s.scv ∧
      (startSwitchover reason f t tried s).slu = s.slu := by
    unfold startSwitchover; dsimp only; split <;> exact ⟨rfl, rfl, rfl, rfl, rfl⟩
  refine ⟨fun p => ?_, fun bay => .inl (by unfold State.latch; rw [other.1]), fun bay x => by rw [other.2.1]; exact x,
    other.2.2.1, other.2.2.2.1, fun o => ?_, by rw [other.2.2.2.2], fun _ _ _ y => by rw [other.2.2.2.2]; exact y⟩
  · rcases path p with e | ⟨_, e⟩ | ⟨_, e⟩
    · rw [e]; exact PathRan.refl _
    · rw [e]; exact pathRan_closeOrdered _
    · rw [e]; exact pathRan_openOrdered _
  · rcases path .dcIn with e | ⟨a, _⟩ | ⟨_, e⟩
    · exact e
    · exact absurd a.symm (available_not_over can o)
    · rw [e]; exact openOrdered_same o.2

/-! ### Releases -/

theorem ran_setLatch (s : State) (bay : Bay) (l : LatchRecord) (h : Evaluated (s.latch bay) l) : Ran s (s.setLatch bay l) := by
  refine ⟨fun _ => PathRan.refl _, fun x => ?_, fun _ => id, rfl, rfl, fun _ => rfl, rfl, fun _ _ _ => id⟩
  rw [setLatch_latch]; split
  · rename_i e; rw [e]; exact h
  · exact .inl rfl

theorem answerRelease_latch (bay : Bay) (st : Status) (f : Option FailReason) (s : State) (x : Bay) :
    (answerRelease bay st f s).latch x = if x = bay then { s.latch bay with hostOwed := false } else s.latch x := by
  have c : (clearOwed bay s).latch x = if x = bay then { s.latch bay with hostOwed := false } else s.latch x :=
    setLatch_latch ..
  unfold answerRelease
  split
  · dsimp only; split <;> exact c
  · rename_i h
    split
    · rename_i e
      subst e
      have h : (s.latch x).hostOwed = false := by simpa using h
      rw [← h]
    · rfl

theorem answerRelease_slu (bay : Bay) (st : Status) (f : Option FailReason) (s : State) :
    (answerRelease bay st f s).slu.tx = s.slu.tx ∧ (answerRelease bay st f s).slu.outbox = s.slu.outbox := by
  unfold answerRelease
  split
  · dsimp only; split <;> exact ⟨rfl, rfl⟩
  · exact ⟨rfl, rfl⟩

theorem ran_grantBay (bay : Bay) (s : State) (h : (s.latch bay).release = .pending) : Ran s (grantBay bay s) := by
  have spc : (grantBay bay s).spc = { s.spc with packInfo := s.spc.packInfo.set bay none } := answerRelease_spc ..
  have scv : (grantBay bay s).scv = s.scv := by
    unfold grantBay answerRelease; dsimp only [raise_scv]; split
    · split <;> rfl
    · rfl
  have slu := answerRelease_slu bay .ok none (clearPack bay (s.setLatch bay (s.latch bay).grant))
  refine ⟨fun p => ?_, fun x => ?_, fun x n => ?_, by rw [spc], scv, fun _ => ?_, (raised_tx _ _).trans slu.1,
    fun x n a b => raised_counts _ .release x n a (by rw [slu.2]; exact b)⟩
  · unfold State.path; rw [spc]; exact PathRan.refl _
  · unfold grantBay
    rw [raise_latch, answerRelease_latch]
    split
    · rename_i e
      subst e
      refine .inr ⟨h, .inr (.inl ?_)⟩
      show { ((s.setLatch x (s.latch x).grant).latch x) with hostOwed := false } = _
      rw [setLatch_latch, if_pos rfl]
    · rename_i e
      show Evaluated _ ((s.setLatch bay (s.latch bay).grant).latch x)
      rw [setLatch_latch, if_neg e]; exact .inl rfl
  · rw [spc, PerBay.get_set]; split
    · rfl
    · exact n
  · unfold State.path; rw [spc]

theorem ran_refuseBay (bay : Bay) (s : State) (h : (s.latch bay).release = .pending) : Ran s (refuseBay bay s) := by
  have spc : (refuseBay bay s).spc = s.spc := answerRelease_spc ..
  have scv : (refuseBay bay s).scv = s.scv := by
    unfold refuseBay answerRelease; dsimp only [raise_scv]; split
    · split <;> rfl
    · rfl
  have slu := answerRelease_slu bay .failed (some .soleSource) (s.setLatch bay ((s.latch bay).endRelease .refused))
  refine ⟨fun p => ?_, fun x => ?_, fun x n => by rw [spc]; exact n, by rw [spc], scv, fun _ => ?_,
    (raised_tx _ _).trans slu.1, fun x n a b => raised_counts _ .release x n a (by rw [slu.2]; exact b)⟩
  · unfold State.path; rw [spc]; exact PathRan.refl _
  · unfold refuseBay
    rw [raise_latch, answerRelease_latch]
    split
    · rename_i e
      subst e
      refine .inr ⟨h, .inr (.inr ?_)⟩
      rw [setLatch_latch, if_pos rfl]
    · rename_i e
      rw [setLatch_latch, if_neg e]; exact .inl rfl
  · unfold State.path; rw [spc]

theorem ran_pendFor (bay : Bay) (c : PendingCause) (s : State) (h : (s.latch bay).release = .pending) :
    Ran s (pendFor bay c s) := ran_setLatch s bay _ (.inr ⟨h, .inl rfl⟩)

theorem ran_evaluate (bay : Bay) (s : State) (h : (s.latch bay).release = .pending) : Ran s (evaluate bay s) := by
  unfold evaluate
  split
  · exact ran_pendFor _ _ _ h
  · split
    · exact ran_pendFor _ _ _ h
    · split
      · exact ran_pendFor _ _ _ h
      · unfold askRelease
        cases a : askAnswer s bay with
        | wait => exact ran_pendFor _ _ _ h
        | moved => exact ran_grantBay _ _ h
        | noTarget => exact ran_refuseBay _ _ h
        | started t =>
          have e : available s t = true := by
            unfold askAnswer at a
            split at a
            · simp at a
            · split at a
              · simp at a
              · split at a
                · simp at a
                · rename_i e
                  simp only [AskAnswer.started.injEq] at a
                  subst a
                  exact chooseTarget_available e
          have l : ((startSwitchover .release s.spc.feeding t [] s).latch bay).release = .pending := by
            unfold startSwitchover; dsimp only; split <;> exact h
          exact (ran_start _ _ _ _ _ e).trans (ran_pendFor _ _ _ l)

theorem ran_evaluateDue (bay : Bay) (s : State) : Ran s (evaluateDue bay s) := by
  unfold evaluateDue; split
  · rename_i h; exact ran_evaluate bay s h.1
  · exact Ran.refl s

theorem ran_answerAsk (bay : Bay) (moved : Bool) (s : State) : Ran s (answerAsk bay moved s) := by
  unfold answerAsk
  split
  · rename_i h
    have p : (s.latch bay).release = .pending := by
      simp only [askRuns, Bool.and_eq_true, beq_iff_eq] at h; exact h.1
    split
    · exact ran_evaluate bay s p
    · exact ran_refuseBay bay s p
  · exact Ran.refl s

/-! ### The examination of the triggers and the end of a switchover -/

theorem ran_examineHeld (s : State) : Ran s (examineHeld s) := by
  unfold examineHeld examineHeldWith
  split
  · exact ran_of (fun _ => rfl) (fun _ => rfl) rfl rfl rfl
  · split
    · split
      · rename_i e; exact ran_start _ _ _ _ _ (chooseTarget_available e)
      · unfold markSole
        split
        · exact Ran.refl s
        · have a : Ran s { s with spc := { s.spc with soleSource := true } } := ran_of (fun _ => rfl) (fun _ => rfl) rfl rfl rfl
          exact a.trans (ran_raise _ _)
    · exact Ran.refl s

theorem ran_examinePreempt (s : State) (h : ∀ p, s.spc.preempt.get p = some 5000 → available s p = true) :
    Ran s (examinePreempt s) := by
  unfold examinePreempt
  split
  · split
    · rename_i t e
      refine ran_start _ _ _ _ _ (h t ?_)
      have := List.find?_some e
      simpa [Config.preemptTicks] using this
    · exact Ran.refl s
  · exact Ran.refl s

theorem ran_examineStart (s : State) : Ran s (examineStart s) := by
  unfold examineStart
  split
  · split
    · rename_i e; exact ran_start _ _ _ _ _ (chooseTarget_available e)
    · exact Ran.refl s
  · exact Ran.refl s

theorem ran_afterReleases (s : State) : Ran s (afterReleases s) :=
  ((((ran_updatePreempt s).trans (ran_examinePreempt _ fun _ => updatePreempt_due)).trans (ran_examineStart _)).trans
    (ran_updatePreempt _)).trans (ran_publishSituation _)

theorem ran_settle (b : Bool) (s : State) : Ran s (settle b s) := by
  cases b
  · rw [settle_false]; exact (ran_examineHeld s).trans (ran_afterReleases _)
  · rw [settle_true]
    exact ((ran_examineHeld s).trans ((ran_evaluateDue _ _).trans (ran_evaluateDue _ _))).trans (ran_afterReleases _)

theorem ran_ended (o : SwOutcome) (s : State) : Ran s { s with spc := s.spc.ended o } := by
  refine ran_of (path_ended s o) (fun _ => rfl) ?_ ?_ rfl
  · show (s.spc.ended o).packInfo = _; rw [ended_frame]
  · show (s.spc.ended o).low = _; rw [ended_frame]

theorem ran_endSwitchover (o : SwOutcome) (fail : FailReason) (s : State) : Ran s (endSwitchover o fail s) := by
  have answered : ∀ r f v, Ran v (answerStarter r f o fail v) := by
    intro r f v
    unfold answerStarter
    cases r <;> try exact Ran.refl v
    · dsimp only; split <;> exact ran_answerSelect _ _ _
    · dsimp only; split
      · exact ran_answerAsk _ _ _
      · exact Ran.refl v
  have retried : ∀ r p v, Ran v (retryHeld r p o v) := by
    intro r p v
    unfold retryHeld
    split
    · split
      · rename_i e; exact ran_start _ _ _ _ _ (chooseTarget_available e)
      · exact Ran.refl v
    · exact Ran.refl v
  unfold endSwitchover
  exact ((((ran_ended o s).trans (ran_publishSituation _)).trans (answered _ _ _)).trans (retried _ _ _)).trans (ran_settle _ _)

/-! ### Path reports -/

theorem ran_toFailed (f : FailReason) (s : State) : Ran s (toFailed f s) := by
  unfold toFailed
  dsimp only
  split
  · split
    · rename_i t _
      have a : Ran s { s with spc := s.spc.retarget t (s.spc.sw.tried ++ [s.spc.sw.toSrc]) } :=
        ran_of (fun _ => rfl) (fun _ => rfl) rfl rfl rfl
      exact a.trans (ran_failSelect _ _)
    · exact ran_endSwitchover _ _ _
  · exact ran_endSwitchover _ _ _

theorem ran_fromLost (s : State) : Ran s (fromLost s) := by
  have a : Ran s { s with spc := { s.spc with lossTimer := none, sw := { s.spc.sw with mode := .gap, phase := .gapClose } } } :=
    ran_of (fun _ => rfl) (fun _ => rfl) rfl rfl rfl
  unfold fromLost
  dsimp only
  split
  · exact a.trans (ran_endSwitchover _ _ _)
  · exact a

theorem ran_feedingLost (reason : SwReason) (s : State) : Ran s (feedingLost reason s) := by
  unfold feedingLost
  split
  · rename_i e; exact ran_start _ _ _ _ _ (chooseTarget_available e)
  · have a : Ran s
        { s with
          spc :=
            { s.spc with
              lossTimer := none
              sw := { s.spc.sw with reason := reason, fromSrc := s.spc.feeding, mode := .gap, tried := [] } } } :=
      ran_of (fun _ => rfl) (fun _ => rfl) rfl rfl rfl
    exact a.trans (ran_endSwitchover _ _ _)

theorem ran_pathDown (p : Source) (r : DownReport) (s : State) : Ran s (pathDown p r s) := by
  unfold pathDown
  split
  · exact ran_toFailed _ _
  · split
    · exact ran_fromLost _
    · split
      · exact ran_feedingLost _ _
      · exact Ran.refl s

theorem ran_openAndReport (p : Source) (r : DownReport) (s : State) : Ran s (openAndReport p r s) :=
  (ran_openOrder p s).trans (ran_pathDown p r _)

theorem ran_tripAndReport (p : Source) (c : FaultCause) (s : State) (on : gateDriven s p = true) :
    Ran s (tripAndReport p c s) := by
  have a : Ran s (s.setPath p ((s.path p).tripNow c (threshold s p) (derating s p) s.slu.uptime)) := by
    refine ran_setPath s p _ ⟨rfl, rfl, rfl, fun h => ?_⟩ fun o e => ?_
    · unfold PathRecord.tripNow at h
      dsimp only at h
      split at h <;> simp at h
    · subst e; rw [o.2] at on; simp at on
  exact (a.trans (ran_raise .pathFault _)).trans (ran_pathDown p .tripped _)

/-! ### The sample -/

theorem ran_protect (p : Source) (s : State) : Ran s (protect p s) := by
  unfold protect
  cases h : (s.path p).state with
  | closing =>
    have on : gateDriven s p = true := by simp [gateDriven, h]
    dsimp only
    split
    · exact ran_openAndReport _ _ _
    · split
      · exact ran_tripAndReport _ _ _ on
      · exact Ran.refl s
  | closed =>
    have on : gateDriven s p = true := by simp [gateDriven, h]
    have count : ∀ n, Ran s (s.setPath p { s.path p with overCount := n }) := fun n =>
      ran_setPath s p _ ⟨rfl, rfl, rfl, fun h => ⟨h, rfl⟩⟩ fun o e => by subst e; rw [o.2] at on; simp at on
    dsimp only
    split
    · exact ran_openAndReport _ _ _
    · split
      · exact ran_tripAndReport _ _ _ on
      · unfold overStep
        dsimp only
        split
        · split
          · exact count 1
          · exact ran_tripAndReport _ _ _ on
        · exact count 0
  | opened => exact Ran.refl s
  | tripped => exact Ran.refl s
  | lockedOut => exact Ran.refl s

theorem ran_holdDropout (s : State) : Ran s (holdDropout s) := by
  unfold holdDropout; split
  · exact ran_openAndReport _ _ _
  · exact Ran.refl s

theorem ran_lossStep (s : State) : Ran s (lossStep s) := by
  unfold lossStep
  split
  · exact ran_openAndReport _ _ _
  · split
    · exact ran_of (fun _ => rfl) (fun _ => rfl) rfl rfl rfl
    · exact Ran.refl s

theorem ran_busLowStep (s : State) : Ran s (busLowStep s) := by
  have f := busLowCounters_frame s
  have a : Ran s { s with spc := { busLowCounters s with busLow := s.spc.busLow || busLowHere s } } := by
    rw [f]; exact ran_of (fun _ => rfl) (fun _ => rfl) rfl rfl rfl
  refine a.trans ?_
  unfold busLowStep raiseIf
  dsimp only
  split
  · exact ran_raise _ _
  · exact Ran.refl _

/-- R1: the sample from the end of its removals on. -/
theorem ran_monitorSample (r : Readings) (s : State) :
    Ran (removeBattery (present s .bayB) .b (removeBattery (present s .bayA) .a (sampled r s))) (monitorSample r s) :=
  ((((((ran_protect .dcIn _).trans (ran_protect .bayA _)).trans (ran_protect .bayB _)).trans (ran_holdDropout _)).trans
    (ran_lossStep _)).trans (ran_busLowStep _)).trans (ran_settle _ _)

/-! ### What the sample stores first -/

theorem tick_latches (s : State) (bay : Bay) : (tick s).latch bay = aged (decide (10 ≤ s.slu.subMs + 1)) (s.latch bay) := by
  have f : ∀ l : LatchRecord, faultTimerRuns l = true ↔
      l.commanded = .locked ∧ l.sensed = (if l.insecure then .locked else .unlocked) := by
    intro l; simp [faultTimerRuns]
  have k : ∀ l : LatchRecord, stuckTimerRuns l = true ↔ l.commanded = .unlocked ∧ l.sensed = .locked := by
    intro l; simp [stuckTimerRuns]
  have t : ∀ l : LatchRecord, stuckTaken l = true ↔ l.stuck = true ∧ l.stuckTimer = 200 := by
    intro l; simp [stuckTaken, Config.latchTimerMs]
  have one : ∀ l : LatchRecord, l.tick = aged true l := by
    intro l
    simp only [LatchRecord.tick, aged, if_true, countTo, Config.latchTimerMs, f, k]
    congr 1
    by_cases g : l.commanded = .unlocked ∧ l.sensed = .locked
    · simp only [g, if_true, and_self]
      by_cases h : l.stuck = true ∧ l.stuckTimer = 200
      · rw [if_pos ((t l).mpr h), if_pos h, h.2]
      · rw [if_neg (fun x => h ((t l).mp x)), if_neg h]
    · simp only [g, if_false]
  unfold tick
  dsimp only
  by_cases h : 10 ≤ s.slu.subMs + 1
  · rw [if_pos (show Config.samplesPerMs ≤ s.slu.subMs + 1 from h), decide_eq_true h, ← one]
    exact PerBay.get_map ..
  · rw [if_neg (show ¬Config.samplesPerMs ≤ s.slu.subMs + 1 from h), decide_eq_false h]
    rfl

theorem sampled_latch (r : Readings) (s : State) (bay : Bay) :
    (sampled r s).latch bay = aged (decide (10 ≤ s.slu.subMs + 1)) (s.latch bay) := by
  rw [← tick_latches]
  unfold State.latch sampled
  rw [bayConditions_frame .b, bayConditions_frame .a]
  rfl

theorem sampled_ages (r : Readings) (s : State) (c : Channel) :
    ((sampled r s).scv.records.get c).age =
      if 10 ≤ s.slu.subMs + 1 ∧ (s.scv.records.get c).valid = true then
        (if (s.scv.records.get c).stale then min 65535 ((s.scv.records.get c).age + 1)
         else min 2000 ((s.scv.records.get c).age + 1))
      else (s.scv.records.get c).age := by
  have e : (sampled r s).scv = (tick s).scv := by
    unfold sampled
    rw [bayConditions_frame .b, bayConditions_frame .a]
    rfl
  rw [e]
  unfold tick
  dsimp only
  by_cases h : 10 ≤ s.slu.subMs + 1
  · rw [if_pos (show Config.samplesPerMs ≤ s.slu.subMs + 1 from h)]
    show ((s.scv.records.map ChannelRecord.tick).get c).age = _
    rw [PerChannel.get_map]
    simp only [ChannelRecord.tick, h, true_and, Config.maxAgeMs, Config.staleMs]
  · rw [if_neg (show ¬Config.samplesPerMs ≤ s.slu.subMs + 1 from h), if_neg (fun x => h x.1)]

theorem measured_path (r : Readings) (s : State) (p : Source) :
    (measure r (tick s)).path p = (s.path p).tick.measured (volts r p) (amps r p) (tick s).slu.uptime := by
  have ts : (tick s).spc = { s.spc with paths := s.spc.paths.map PathRecord.tick, preempt := s.spc.preempt.map tickPreempt } := by
    rw [tick_frame s]
  cases p <;> simp only [measure, State.path, PerSource.get, ts, PerSource.map, volts, amps]

theorem measured_present (r : Readings) (s : State) (p : Source) :
    present (measure r (tick s)) p = presentAt p (min 65535 (volts r p)) := by
  unfold present; rw [measured_path]; rfl

theorem sampled_present (r : Readings) (s : State) (p : Source) :
    present (sampled r s) p = presentAt p (min 65535 (volts r p)) := by
  unfold present; rw [(stored_sampled r s).voltage]

theorem presentAt_bay (bay : Bay) (v : Nat) : presentAt (baySource bay) (min 65535 v) = decide (6000 ≤ v) := by
  cases bay <;> simp only [baySource, presentAt, Config.bayPresentMv] <;> congr 1 <;> exact propext (by omega)

/-- R4: a bay's path record after the sample has stored its readings. -/
theorem sampled_bayPath (r : Readings) (s : State) (bay : Bay) :
    (sampled r s).path (baySource bay) =
      ((measure r (tick s)).path (baySource bay)).emptyStep (decide (6000 ≤ volts r (baySource bay))) s.spc.settings.emptyMv := by
  have set : ∀ x, (bayConditions x (measure r (tick s))).spc.settings = s.spc.settings := by
    intro x
    rw [bayConditions_frame]
    show (tick s).spc.settings = _
    rw [tick_frame]
  have set' : (measure r (tick s)).spc.settings = s.spc.settings := by
    show (tick s).spc.settings = _
    rw [tick_frame]
  unfold sampled
  rw [bayConditions_path, bayConditions_path]
  cases bay
  · rw [if_neg (by decide), if_pos rfl, measured_present, set', presentAt_bay]
  · have e : (bayConditions .a (measure r (tick s))).path (baySource .b) = (measure r (tick s)).path (baySource .b) := by
      rw [bayConditions_path, if_neg (by decide)]
    rw [if_pos rfl, if_neg (by decide), set]
    have p : present (bayConditions .a (measure r (tick s))) (baySource .b) = decide (6000 ≤ volts r (baySource .b)) := by
      unfold present; rw [e, ← presentAt_bay]; exact measured_present r s _
    rw [p]

theorem bayConditions_low (bay : Bay) (v : State) (x : Bay) :
    ((bayConditions bay v).spc.low.get x =
      if x = bay then
        (if present v (baySource bay) then
          (if v.spc.feeding = some (baySource bay) ∧ v.spc.packInfo.get bay = none then
            lowStep v.spc.settings (v.path (baySource bay)).voltage (v.spc.low.get bay) else v.spc.low.get bay)
         else false)
      else v.spc.low.get x) ∧
    ((bayConditions bay v).spc.packInfo.get x =
      if x = bay then (if present v (baySource bay) then v.spc.packInfo.get bay else none) else v.spc.packInfo.get x) := by
  have pr : ∀ w, present (v.setPath (baySource bay) ((v.path (baySource bay)).emptyStep w v.spc.settings.emptyMv)) (baySource bay) =
      present v (baySource bay) := by
    intro w
    unfold present
    rw [setPath_path, if_pos rfl, (emptyStep_kept _ _ _).1]
  unfold bayConditions
  dsimp only
  rw [pr]
  by_cases h : present v (baySource bay) = true
  · simp only [h, if_true]
    by_cases g : v.spc.feeding = some (baySource bay) ∧ v.spc.packInfo.get bay = none
    · have g' : (v.setPath (baySource bay) ((v.path (baySource bay)).emptyStep true v.spc.settings.emptyMv)).spc.feeding =
          some (baySource bay) ∧
          ((v.setPath (baySource bay) ((v.path (baySource bay)).emptyStep true v.spc.settings.emptyMv)).spc.packInfo.get bay).isNone =
            true := ⟨g.1, by show (v.spc.packInfo.get bay).isNone = true; rw [g.2]; rfl⟩
      rw [if_pos g']
      refine ⟨?_, ?_⟩
      · show (v.spc.low.set bay _).get x = _
        rw [PerBay.get_set, setPath_path, if_pos rfl, (emptyStep_kept _ _ _).1, if_pos g]
        rfl
      · show v.spc.packInfo.get x = _
        split
        · rename_i e; rw [e]
        · rfl
    · have g' : ¬((v.setPath (baySource bay) ((v.path (baySource bay)).emptyStep true v.spc.settings.emptyMv)).spc.feeding =
          some (baySource bay) ∧
          ((v.setPath (baySource bay) ((v.path (baySource bay)).emptyStep true v.spc.settings.emptyMv)).spc.packInfo.get bay).isNone =
            true) := fun x => g ⟨x.1, Option.isNone_iff_eq_none.mp x.2⟩
      rw [if_neg g', if_neg g]
      refine ⟨?_, ?_⟩
      · show v.spc.low.get x = _
        split
        · rename_i e; rw [e]
        · rfl
      · show v.spc.packInfo.get x = _
        split
        · rename_i e; rw [e]
        · rfl
  · have h : present v (baySource bay) = false := by simpa using h
    simp only [h, Bool.false_eq_true, if_false]
    exact ⟨PerBay.get_set .., PerBay.get_set ..⟩

/-- R44, R45: pack info and the low state after the sample has stored its readings. -/
theorem sampled_low (r : Readings) (s : State) (bay : Bay) :
    ((sampled r s).spc.low.get bay =
      if 6000 ≤ volts r (baySource bay) then
        (if s.spc.feeding = some (baySource bay) ∧ s.spc.packInfo.get bay = none then
          lowStep s.spc.settings (min 65535 (volts r (baySource bay))) (s.spc.low.get bay) else s.spc.low.get bay)
      else false) ∧
    (volts r (baySource bay) < 6000 → (sampled r s).spc.packInfo.get bay = none) := by
  have m : (measure r (tick s)).spc.settings = s.spc.settings ∧ (measure r (tick s)).spc.feeding = s.spc.feeding ∧
      (measure r (tick s)).spc.low = s.spc.low ∧ (measure r (tick s)).spc.packInfo = s.spc.packInfo := by
    show (tick s).spc.settings = _ ∧ (tick s).spc.feeding = _ ∧ (tick s).spc.low = _ ∧ (tick s).spc.packInfo = _
    rw [tick_frame]; exact ⟨rfl, rfl, rfl, rfl⟩
  have v : ((measure r (tick s)).path (baySource bay)).voltage = min 65535 (volts r (baySource bay)) := by
    rw [measured_path]; rfl
  have p : present (measure r (tick s)) (baySource bay) = decide (6000 ≤ volts r (baySource bay)) := by
    rw [measured_present, presentAt_bay]
  have one := bayConditions_low bay (measure r (tick s)) bay
  rw [if_pos rfl, if_pos rfl, p, v, m.1, m.2.1, m.2.2.1, m.2.2.2] at one
  simp only [decide_eq_true_eq] at one
  unfold sampled
  cases bay with
  | a =>
    have two := bayConditions_low .b (bayConditions .a (measure r (tick s))) .a
    rw [if_neg (by decide), if_neg (by decide)] at two
    rw [two.1, two.2, one.1, one.2]
    exact ⟨rfl, fun h => if_neg (by omega)⟩
  | b =>
    have f := bayConditions_frame .a (measure r (tick s))
    have two := bayConditions_low .b (bayConditions .a (measure r (tick s))) .b
    have q := bayConditions_low .a (measure r (tick s)) .b
    rw [if_neg (by decide), if_neg (by decide)] at q
    have e : (bayConditions .a (measure r (tick s))).path (baySource .b) = (measure r (tick s)).path (baySource .b) := by
      rw [bayConditions_path, if_neg (by decide)]
    have p' : present (bayConditions .a (measure r (tick s))) (baySource .b) = decide (6000 ≤ volts r (baySource .b)) := by
      unfold present; rw [e]; exact p
    have g : (bayConditions .a (measure r (tick s))).spc.settings = s.spc.settings ∧
        (bayConditions .a (measure r (tick s))).spc.feeding = s.spc.feeding := by rw [f]; exact ⟨m.1, m.2.1⟩
    rw [if_pos rfl, if_pos rfl, p', e, v, q.1, q.2, g.1, g.2, m.2.2.1, m.2.2.2] at two
    simp only [decide_eq_true_eq] at two
    rw [two.1, two.2]
    exact ⟨rfl, fun h => if_neg (by omega)⟩

/-! ### Removal (R57) -/

theorem removed_iff (r : Readings) (s : State) (bay : Bay) (v : State) (path : ∀ p, v.path p = (sampled r s).path p)
    (latch : (v.latch bay).release = (s.latch bay).release) :
    removed (present s (baySource bay)) v bay = true ↔ Removed r s bay := by
  have p : present v (baySource bay) = decide (6000 ≤ volts r (baySource bay)) := by
    unfold present; rw [path, ← presentAt_bay]; exact sampled_present r s _
  unfold removed Removed
  rw [p, latch]
  simp only [Bool.and_eq_true, Bool.not_eq_true', decide_eq_false_iff_not, beq_iff_eq, Nat.not_le]
  exact ⟨fun h => ⟨h.2, h.1.1, h.1.2⟩, fun h => ⟨⟨h.2.1, h.2.2⟩, h.1⟩⟩

theorem aged_release (ms : Bool) (l : LatchRecord) : (aged ms l).release = l.release := by
  unfold aged; split <;> rfl

/-- The sample up to the end of its removals. -/
def sampledRemoved (r : Readings) (s : State) : State :=
  removeBattery (present s .bayB) .b (removeBattery (present s .bayA) .a (sampled r s))

theorem removeBattery_frame (was : Bool) (bay : Bay) (v : State) :
    (removeBattery was bay v).spc = v.spc ∧ (removeBattery was bay v).scv = v.scv ∧ (removeBattery was bay v).slu.tx = v.slu.tx ∧
      (removeBattery was bay v).slu.noticeMask = v.slu.noticeMask ∧
      (∀ k n, n ≤ 255 → n ≤ v.slu.outbox.get k → n ≤ (removeBattery was bay v).slu.outbox.get k) ∧
      (∀ x, x ≠ bay → (removeBattery was bay v).latch x = v.latch x) ∧
      (removed was v bay = false → removeBattery was bay v = v) ∧
      (removed was v bay = true → (removeBattery was bay v).latch bay = (v.latch bay).lock.endRelease .removed ∧
        (inMask v.slu.noticeMask .release = true →
          (removeBattery was bay v).slu.outbox.release = min 255 (v.slu.outbox.release + 1))) := by
  unfold removeBattery
  cases h : removed was v bay with
  | false => simp
  | true =>
    simp only [if_true]
    refine ⟨rfl, rfl, raised_tx _ _, raised_noticeMask _ _, fun k n a b => raised_counts _ .release k n a b, fun x hx => ?_,
      fun x => by simp at x, fun _ => ⟨?_, fun m => ?_⟩⟩
    · exact (setLatch_latch v bay _ x).trans (if_neg hx)
    · exact (setLatch_latch v bay _ bay).trans (if_pos rfl)
    · show (v.slu.raised .release).outbox.release = _
      rw [Slu.raised, if_pos m]
      rfl

theorem sampledRemoved_spec (r : Readings) (s : State) :
    (sampledRemoved r s).spc = (sampled r s).spc ∧ (sampledRemoved r s).scv = (sampled r s).scv ∧
      (sampledRemoved r s).slu.tx = s.slu.tx ∧
      (∀ bay, ¬Removed r s bay → (sampledRemoved r s).latch bay = (sampled r s).latch bay) ∧
      (∀ bay, Removed r s bay →
        (sampledRemoved r s).latch bay = ((sampled r s).latch bay).lock.endRelease .removed ∧
        (inMask s.slu.noticeMask .release = true →
          min 255 (s.slu.outbox.release + 1) ≤ (sampledRemoved r s).slu.outbox.release)) := by
  have fa := removeBattery_frame (present s .bayA) .a (sampled r s)
  have fb := removeBattery_frame (present s .bayB) .b (removeBattery (present s .bayA) .a (sampled r s))
  have link := (stored_sampled r s).link
  have rel : ∀ bay, ((sampled r s).latch bay).release = (s.latch bay).release := fun bay => by
    rw [sampled_latch, aged_release]
  have ra : removed (present s (baySource .a)) (sampled r s) .a = true ↔ Removed r s .a :=
    removed_iff r s .a _ (fun _ => rfl) (rel .a)
  have rb : removed (present s (baySource .b)) (removeBattery (present s .bayA) .a (sampled r s)) .b = true ↔ Removed r s .b := by
    refine removed_iff r s .b _ (fun p => ?_) ?_
    · unfold State.path; rw [fa.1]
    · rw [fa.2.2.2.2.2.1 .b (by decide)]; exact rel .b
  have mask : (sampled r s).slu.noticeMask = s.slu.noticeMask := by rw [link]
  have box : (sampled r s).slu.outbox = s.slu.outbox := by rw [link]
  refine ⟨fb.1.trans fa.1, fb.2.1.trans fa.2.1, (fb.2.2.1.trans fa.2.2.1).trans (by rw [link]), fun bay h => ?_, fun bay h => ?_⟩
  · cases bay with
    | a =>
      refine (fb.2.2.2.2.2.1 .a (by decide)).trans ?_
      rw [fa.2.2.2.2.2.2.1 (Bool.eq_false_iff.mpr fun x => h (ra.mp x))]
    | b =>
      show (removeBattery _ _ _).latch .b = _
      rw [fb.2.2.2.2.2.2.1 (Bool.eq_false_iff.mpr fun x => h (rb.mp x))]
      exact fa.2.2.2.2.2.1 .b (by decide)
  · cases bay with
    | a =>
      have g := fa.2.2.2.2.2.2.2 (ra.mpr h)
      refine ⟨(fb.2.2.2.2.2.1 .a (by decide)).trans g.1, fun m => ?_⟩
      refine fb.2.2.2.2.1 .release _ (Nat.min_le_left _ _) ?_
      have := g.2 (by rw [mask]; exact m)
      rw [box] at this
      exact Nat.le_of_eq this.symm
    | b =>
      have g := fb.2.2.2.2.2.2.2 (rb.mpr h)
      refine ⟨g.1.trans ?_, fun m => ?_⟩
      · rw [fa.2.2.2.2.2.1 .b (by decide)]
      · have := g.2 (by rw [fa.2.2.2.1, mask]; exact m)
        show _ ≤ (removeBattery _ _ _).slu.outbox.release
        rw [this]
        have c := fa.2.2.2.2.1 .release (min 255 s.slu.outbox.release) (Nat.min_le_left _ _)
          (by rw [box]; exact Nat.min_le_right _ _)
        have c : min 255 s.slu.outbox.release ≤ (removeBattery (present s .bayA) .a (sampled r s)).slu.outbox.release := c
        omega

/-! ### The whole sample -/

/-- R45: the low state after a sample. -/
theorem low_monitorSample (r : Readings) (s : State) (bay : Bay) :
    (monitorSample r s).spc.low.get bay =
      if 6000 ≤ volts r (baySource bay) then
        (if s.spc.feeding = some (baySource bay) ∧ s.spc.packInfo.get bay = none then
          lowStep s.spc.settings (min 65535 (volts r (baySource bay))) (s.spc.low.get bay) else s.spc.low.get bay)
      else false := by
  have n : Ran (sampledRemoved r s) (monitorSample r s) := ran_monitorSample r s
  rw [n.low, (sampledRemoved_spec r s).1]
  exact (sampled_low r s bay).1

/-- R44, R45, R53, R56 to R60: what a sample makes of a bay. -/
theorem sampledBay_monitorSample (r : Readings) (s : State) (bay : Bay) : SampledBay r s (arbitrate (monitorSample r s)) bay := by
  have n : Ran (sampledRemoved r s) (monitorSample r s) := ran_monitorSample r s
  have w := sampledRemoved_spec r s
  have v := n.latch bay
  have a := sampled_latch r s bay
  have notRemoved : (s.latch bay).release = .pending → ¬Removed r s bay := fun p x => by rw [x.1] at p; simp at p
  constructor
  · intro p h
    rw [w.2.2.2.1 bay h, a] at v
    rcases v with v | ⟨x, _⟩
    · exact v
    · rw [aged_release] at x; exact absurd x p
  · intro h
    have g := w.2.2.2.2 bay h
    refine ⟨?_, fun tx m => ?_⟩
    · rw [g.1, a] at v
      rcases v with v | ⟨x, _⟩
      · refine v.trans ?_
        unfold aged
        split <;> rfl
      · simp [LatchRecord.endRelease] at x
    · have c := n.counts .release _ (Nat.min_le_left _ _) (g.2 m)
      have t : (monitorSample r s).slu.tx ≠ none := by rw [n.tx, w.2.2.1]; exact tx
      show _ ≤ (arbitrated (monitorSample r s)).outbox.release
      unfold arbitrated
      cases e : (monitorSample r s).slu.tx with
      | none => exact absurd e t
      | some f => exact c
  · intro p
    rw [w.2.2.2.1 bay (notRemoved p), a] at v
    dsimp only
    rcases v with v | ⟨_, v | v | v⟩
    · refine .inl ?_
      show (monitorSample r s).latch bay = _
      have e : (arbitrate (monitorSample r s)).latch bay = (monitorSample r s).latch bay := rfl
      rw [e, v]
    · exact .inl v
    · exact .inr (.inl v)
    · exact .inr (.inr v)
  · intro h
    rw [arbitrate_spc]
    refine ⟨n.pack bay ?_, ?_⟩
    · rw [w.1]; exact (sampled_low r s bay).2 h
    · rw [low_monitorSample, if_neg (Nat.not_le_of_lt h)]
  · intro h
    rw [arbitrate_spc, low_monitorSample, if_pos h]
    rfl

/-- R4, R18, R66: the times that a sample advances. -/
theorem sampledTimes_monitorSample (r : Readings) (s : State) : SampledTimes r s (arbitrate (monitorSample r s)) := by
  have n : Ran (sampledRemoved r s) (monitorSample r s) := ran_monitorSample r s
  have w := sampledRemoved_spec r s
  have path : ∀ p, (sampledRemoved r s).path p = (sampled r s).path p := fun p => by unfold State.path; rw [w.1]
  have pm : ∀ bay, (measure r (tick s)).path (baySource bay) =
      (s.path (baySource bay)).tick.measured (volts r (baySource bay)) (amps r (baySource bay)) (tick s).slu.uptime := fun bay =>
    measured_path r s _
  constructor
  · intro p h
    have c := (n.path p).closed h
    rw [path] at c
    have st : ((sampled r s).path p).closedTime = (s.path p).tick.closedTime := by
      have m : ((measure r (tick s)).path p).closedTime = (s.path p).tick.closedTime := by rw [measured_path]; rfl
      have e : ∀ (x : PathRecord) b mv, (x.emptyStep b mv).closedTime = x.closedTime := by
        intro x b mv; unfold PathRecord.emptyStep; split <;> rfl
      rw [← m]
      cases p with
      | dcIn => unfold sampled; rw [bayConditions_path, if_neg (by decide), bayConditions_path, if_neg (by decide)]
      | bayA => exact (congrArg PathRecord.closedTime (sampled_bayPath r s .a)).trans (e _ _ _)
      | bayB => exact (congrArg PathRecord.closedTime (sampled_bayPath r s .b)).trans (e _ _ _)
    have cl : (s.path p).state = .closed := by rw [← (stored_sampled r s).state p]; exact c.1
    refine ⟨cl, c.2.trans (st.trans ?_)⟩
    simp only [PathRecord.tick, cl, true_and, Config.goodCloseTicks, countTo]
    by_cases g : (s.path p).closedTime = 100000
    · simp [g]
    · simp [g]
  · intro bay h
    have q := n.path (baySource bay)
    have e := sampled_bayPath r s bay
    rw [decide_eq_true h] at e
    refine ⟨?_, ?_⟩
    · refine q.isEmpty.trans ?_
      rw [path, e, pm]
      rfl
    · refine q.emptyTimer.trans ?_
      rw [path, e, pm]
      simp only [PathRecord.emptyStep, if_true]
      have ea : (((s.path (baySource bay)).tick.measured (volts r (baySource bay)) (amps r (baySource bay))
          (tick s).slu.uptime).emptyAdvances s.spc.settings.emptyMv) =
          (if (s.path (baySource bay)).isEmpty then
            decide (s.spc.settings.emptyMv + 300 ≤ min 65535 (volts r (baySource bay)))
          else decide (min 65535 (volts r (baySource bay)) < s.spc.settings.emptyMv)) := rfl
      rw [ea]
      have ad : ∀ t : Option Nat, advance Config.emptyTicks t = some (t.elim 0 (fun n => min 9999 (n + 1))) := by
        intro t; cases t <;> rfl
      rw [ad]
      rfl
  · intro bay h
    have q := n.path (baySource bay)
    have e := sampled_bayPath r s bay
    rw [decide_eq_false (by omega)] at e
    refine ⟨?_, ?_⟩
    · refine q.isEmpty.trans ?_
      rw [path, e]; rfl
    · refine q.emptyTimer.trans ?_
      rw [path, e]; rfl
  · intro c
    show ((monitorSample r s).scv.records.get c).age = _
    rw [n.scv, w.2.1, sampled_ages]

/-- R2: DC_IN over the voltage limit at a sample opens its path, and no switchover closes it again. -/
theorem overvolt_monitorSample (r : Readings) (s : State) (on : gateDriven s .dcIn = true) (high : 22000 ≤ r.vDc) :
    (arbitrate (monitorSample r s)).path .dcIn = ((sampled r s).path .dcIn).openOrdered := by
  have st := stored_sampled r s
  have w := sampledRemoved_spec r s
  have path : ∀ p, (sampledRemoved r s).path p = (sampled r s).path p := fun p => by unfold State.path; rw [w.1]
  have ov : overvolt (sampledRemoved r s) .dcIn = true := by
    simp only [overvolt, path, st.voltage, volts, Config.dcOvervoltMv, decide_eq_true_eq]; omega
  have state : ((sampledRemoved r s).path .dcIn).state = (s.path .dcIn).state := by rw [path]; exact st.state _
  have e : ∃ d, protect .dcIn (sampledRemoved r s) = pathDown .dcIn d (openOrder .dcIn (sampledRemoved r s)) := by
    unfold gateDriven at on
    unfold protect
    rw [state]
    cases h : (s.path .dcIn).state <;> rw [h] at on
    · simp at on
    · exact ⟨.dropped, by simp only [ov, or_true, if_true]; rfl⟩
    · exact ⟨.overvolt, by simp only [ov, if_true]; rfl⟩
    · simp at on
    · simp at on
  obtain ⟨d, e⟩ := e
  have p : (openOrder .dcIn (sampledRemoved r s)).path .dcIn = ((sampled r s).path .dcIn).openOrdered := by
    rw [openOrder_path, if_pos rfl, path]
  have off : OffOver (openOrder .dcIn (sampledRemoved r s)) := by
    refine ⟨?_, gate_off (by rw [p]; exact openOrdered_off _)⟩
    simp only [overvolt, p, (openOrdered_samePath _).2.1, st.voltage, volts, Config.dcOvervoltMv, decide_eq_true_eq]; omega
  have rest : Ran (protect .dcIn (sampledRemoved r s)) (monitorSample r s) :=
    (((((ran_protect .bayA _).trans (ran_protect .bayB _)).trans (ran_holdDropout _)).trans (ran_lossStep _)).trans
      (ran_busLowStep _)).trans (ran_settle _ _)
  rw [e] at rest
  exact (((ran_pathDown .dcIn d _).trans rest).off off).trans p

/-- R33, R35: the feeding path has opened outside a switchover: what is left is carried to the end of the event. -/
theorem feedingLost_spec (reason : SwReason) (f : Source) (v : State) (feeding : v.spc.feeding = some f)
    (idle : inFlight v = false) (gap : ∀ q, chooseMode v (some f) q = .gap) (sh : Shut v f) :
    Shut (feedingLost reason v) f ∧ (feedingLost reason v).spc.sw.phase ≠ .ovlHold ∧
      (∀ q, chooseTarget v (some f) [] = some q →
        (feedingLost reason v).spc.sw =
          { reason := reason, fromSrc := some f, toSrc := q, mode := .gap, phase := .gapDead, tried := []
            outcome := v.spc.sw.outcome } ∧
        (feedingLost reason v).spc.deadTimer = some v.spc.settings.deadUs ∧
        (feedingLost reason v).spc.feeding = some f) ∧
      (chooseTarget v (some f) [] = none →
        (feedingLost reason v).spc.feeding = none ∧ (feedingLost reason v).spc.sw.outcome = .fellToNone) := by
  unfold feedingLost
  rw [feeding]
  cases h : chooseTarget v (some f) [] with
  | some q =>
    have c := carries_start reason (some f) q [] v idle (chooseTarget_available h)
    have e : startSwitchover reason (some f) q [] v =
        openOrder f { v with spc := v.spc.started reason (some f) q [] .gap } := by
      unfold startSwitchover; dsimp only; rw [gap q]
    refine ⟨c.shut f sh, ?_, fun x hx => ?_, fun x => by simp at x⟩
    · dsimp only; rw [e]; show startPhase .gap (some f) ≠ .ovlHold; simp [startPhase]
    · simp only [Option.some.injEq] at hx
      subst hx
      dsimp only
      rw [e]
      exact ⟨rfl, rfl, feeding⟩
  | none =>
    have a := (ended_endSwitchover .fellToNone .targetUnavailable
      { v with
        spc := { v.spc with lossTimer := none, sw := { v.spc.sw with reason := reason, fromSrc := some f, mode := .gap, tried := [] } } }).1
    refine ⟨a.shut f (shut_of rfl (fun _ => rfl) sh), a.hold, fun x hx => by simp at hx, fun _ => ⟨?_, a.outcome⟩⟩
    exact a.feeding.trans (ended_feeding _ .fellToNone)

/-- R2, R35: DC_IN feeds over the voltage limit, with both bays calm: an OVERVOLT switchover, or NONE. -/
theorem overvolt_feeding (r : Readings) (s : State) (feeding : s.spc.feeding = some .dcIn) (idle : s.spc.sw.phase = .idle)
    (closed : (s.path .dcIn).state = .closed) (high : 22000 ≤ r.vDc) (ca : CalmSource r s .bayA) (cb : CalmSource r s .bayB) :
    (∀ q, chooseTarget (openOrder .dcIn (sampled r s)) (some .dcIn) [] = some q →
      (arbitrate (monitorSample r s)).spc.sw =
        { reason := .overvolt, fromSrc := some .dcIn, toSrc := q, mode := .gap, phase := .gapDead, tried := []
          outcome := s.spc.sw.outcome } ∧
      (arbitrate (monitorSample r s)).spc.deadTimer = some s.spc.settings.deadUs ∧
      (arbitrate (monitorSample r s)).spc.feeding = some .dcIn) ∧
    (chooseTarget (openOrder .dcIn (sampled r s)) (some .dcIn) [] = none →
      (arbitrate (monitorSample r s)).spc.feeding = none ∧
        (arbitrate (monitorSample r s)).spc.sw.outcome = .fellToNone) := by
  have st := stored_sampled r s
  have c : ∀ x, x ≠ .dcIn → CalmAt (sampled r s) x := by
    intro x hx
    cases x
    · exact absurd rfl hx
    · exact calmAt_stored st ca
    · exact calmAt_stored st cb
  have ov : overvolt (sampled r s) .dcIn = true := by
    simp only [overvolt, st.voltage, volts, Config.dcOvervoltMv, decide_eq_true_eq]; omega
  have spc : ∀ u : State, u = sampled r s → u.spc.feeding = some .dcIn ∧ u.spc.sw = s.spc.sw ∧ u.spc.settings = s.spc.settings := by
    intro u e; rw [e, st.supply]; exact ⟨feeding, rfl, rfl⟩
  have sp := spc _ rfl
  have state : ((sampled r s).path .dcIn).state = .closed := (st.state _).trans closed
  have p : (openOrder .dcIn (sampled r s)).path .dcIn = ((sampled r s).path .dcIn).openOrdered := by
    rw [openOrder_path, if_pos rfl]
  have po : ((openOrder .dcIn (sampled r s)).path .dcIn).state = .opened := by
    rw [p]; simp only [PathRecord.openOrdered, state]
  have fl : inFlight (openOrder .dcIn (sampled r s)) = false := by
    show inFlight (sampled r s) = false
    simp [inFlight, sp.2.1, idle]
  have sh : Shut (openOrder .dcIn (sampled r s)) .dcIn := by
    refine ⟨gate_off (by rw [p]; exact openOrdered_off _), .inr (.inr ?_)⟩
    simp only [overvolt, p, (openOrdered_samePath _).2.1, st.voltage, volts, Config.dcOvervoltMv, decide_eq_true_eq]; omega
  have e : protect .dcIn (sampled r s) = feedingLost .overvolt (openOrder .dcIn (sampled r s)) := by
    unfold protect
    simp only [state, ov, if_true]
    unfold openAndReport pathDown
    have i : ((openOrder .dcIn (sampled r s)).spc.sw.phase) = .idle := by
      show (sampled r s).spc.sw.phase = .idle; rw [sp.2.1]; exact idle
    have g : (openOrder .dcIn (sampled r s)).spc.feeding = some .dcIn := sp.1
    rw [if_neg (by simp [overlapping, i]), if_neg (by simp [overlapping, i]), if_pos ⟨fl, g⟩]
    rfl
  have gap : ∀ q, chooseMode (openOrder .dcIn (sampled r s)) (some .dcIn) q = .gap := by
    intro q
    unfold chooseMode
    simp [po]
  have l := feedingLost_spec .overvolt .dcIn (openOrder .dcIn (sampled r s)) sp.1 fl gap sh
  have rep := reported_feedingLost .overvolt (openOrder .dcIn (sampled r s))
  have ct : ∀ x, x ≠ .dcIn → CalmAt (openOrder .dcIn (sampled r s)) x := by
    intro x hx
    have e : (openOrder .dcIn (sampled r s)).path x = (sampled r s).path x := by rw [openOrder_path, if_neg hx]
    exact calmAt_of (s := sampled r s) (by rw [e]) (by rw [e]) (by rw [e]) rfl (c x hx)
  have tl : Tail .dcIn (protect .dcIn (sampled r s)) := by
    rw [e]
    exact ⟨l.1, fun x hx => calmAt_reported rep (ct x hx), l.2.1⟩
  have k : Carries (protect .dcIn (sampled r s)) (arbitrate (monitorSample r s)) := by
    have a := tail_protect tl .bayA
    have d := tail_protect a.2 .bayB
    unfold monitorSample sampledPaths
    dsimp only
    rw [removeBattery_present _ .a _ (c .bayA (by decide)).present, removeBattery_present _ .b _ (c .bayB (by decide)).present,
      tail_hold d.2]
    exact (a.1.trans d.1).trans (tail_rest d.2 _)
  rw [e] at k
  refine ⟨fun q h => ?_, fun h => ?_⟩
  · have g := l.2.2.1 q h
    have f := k.flight (by simp [inFlight, g.1])
    refine ⟨f.1.trans (g.1.trans ?_), f.2.trans (g.2.1.trans ?_), k.feeding.trans g.2.2⟩
    · show ({ reason := _, fromSrc := _, toSrc := q, mode := _, phase := _, tried := [], outcome := (sampled r s).spc.sw.outcome } : Switchover) = _
      rw [sp.2.1]
    · show some (sampled r s).spc.settings.deadUs = _
      rw [sp.2.2]
  · have g := l.2.2.2 h
    exact ⟨k.feeding.trans g.1, k.outcome.trans g.2⟩

/-- R36: the preemption timers after a sample in which every source is calm. -/
theorem preempt_monitorSample (r : Readings) (s : State) (c : ∀ x, CalmSource r s x) (p : Source) :
    (arbitrate (monitorSample r s)).spc.preempt.get p =
      if preemptRuns (arbitrate (monitorSample r s)) p then
        some (((s.spc.preempt.get p).map (fun n => if n = 5000 then 5000 else min 4999 (n + 1))).getD 0)
      else none := by
  have st := stored_sampled r s
  have ct := counted_sampledPaths r s c
  have k : ∀ x, CalmAt (sampled r s) x := fun x => calmAt_stored st (c x)
  have none : removesBattery s (sampled r s) = false := by
    have a := (k .bayA).present
    have b := (k .bayB).present
    simp [removesBattery, removed, baySource, a, b]
  have tick : (sampled r s).spc.preempt = s.spc.preempt.map tickPreempt := by
    unfold sampled
    rw [bayConditions_frame .b, bayConditions_frame .a]
    show (tick s).spc.preempt = _
    rw [tick_frame]
  have l := (lossStep_present (sampledPaths r s) fun x _ => (ct.calmAt (k x)).present).2
  have u : (busLowStep (lossStep (sampledPaths r s))).spc.preempt = s.spc.preempt.map tickPreempt := by
    rw [busLowStep_spc, busLowCounters_frame, l, ct.rest]
    exact tick
  have m : monitorSample r s = settle false (busLowStep (lossStep (sampledPaths r s))) := by
    unfold monitorSample; rw [none]
  have t := timers_settle (busLowStep (lossStep (sampledPaths r s))) p
  show (monitorSample r s).spc.preempt.get p = if preemptRuns (monitorSample r s) p then _ else _
  rw [m, t, u, PerSource.get_map]
  have e : tickPreempt (s.spc.preempt.get p) =
      (s.spc.preempt.get p).map (fun n => if n = 5000 then 5000 else min 4999 (n + 1)) := by
    unfold tickPreempt
    congr 1
    funext n
    by_cases h : n = 5000 <;> simp [h, Config.preemptTicks, countTo]
  rw [e]

end Sys2Proof.Machine
end

