-- ==== Sys2Proof/Laws/Release.lean ====
section
/-! SUPPORT. What a release request on an IDLE bay leaves (R32, R37, R53, R56): one lemma for what begins before the ask, one for
a request that waits, and one for what the ask's answer does. -/

namespace Sys2Proof.Machine

open Sys2Proof.Safety

variable (bay : Bay) (o : Origin) (s : State)

theorem pendRelease_latch : (pendRelease bay o s).latch bay = { (s.latch bay).joined o with release := .pending } := by
  cases bay <;> rfl

theorem pendRelease_other : (pendRelease bay o s).latch (otherBay bay) = s.latch (otherBay bay) := by cases bay <;> rfl

theorem not_available_pending {s : State} {bay : Bay} (h : (s.latch bay).release = .pending) :
    available s (baySource bay) = false := by
  simp only [available, sourceBay_baySource, bayAvailable, h]
  simp

theorem available_pendRelease (x : Source) : available (pendRelease bay o s) x = (available s x && x != baySource bay) := by
  by_cases e : x = baySource bay
  · subst e
    rw [not_available_pending (by rw [pendRelease_latch])]; simp
  · have n : (x != baySource bay) = true := by simpa using e
    rw [n, Bool.and_true]
    cases bay <;> cases x <;> first | rfl | exact absurd rfl e

/-- R28, R53: the bay of a release request is no target. -/
theorem chooseTarget_pendRelease (f : Option Source) :
    chooseTarget (pendRelease bay o s) f [] = chooseTarget s f [baySource bay] := by
  unfold chooseTarget
  refine congrArg (fun g => List.find? g s.spc.settings.order) (funext fun x => ?_)
  rw [available_pendRelease]
  simp only [List.contains_nil, Bool.not_false, Bool.and_true, List.contains_cons, List.contains_nil, Bool.or_false]
  rw [Bool.and_right_comm]; rfl

theorem startedRecord_phase (u : State) (r : SwReason) (q : Source) :
    startedRecord u r q =
      { reason := r, fromSrc := u.spc.feeding, toSrc := q, mode := chooseMode u u.spc.feeding q
        phase := startPhase (chooseMode u u.spc.feeding q) u.spc.feeding, tried := [], outcome := u.spc.sw.outcome } := by
  unfold startedRecord
  generalize chooseMode u u.spc.feeding q = m
  cases m <;> cases u.spc.feeding <;> rfl

/-- What an examination of EMPTY and HOT that starts nothing may change. -/
structure Noted (u v : State) : Prop where
  eq : v = { u with slu := v.slu, spc := { u.spc with soleSource := v.spc.soleSource } }

/-- R28: the from source is no target, tried or not. -/
theorem chooseTarget_from (f : Source) : chooseTarget s (some f) [f] = chooseTarget s (some f) [] := by
  unfold chooseTarget
  refine congrArg (fun g => List.find? g s.spc.settings.order) (funext fun y => ?_)
  by_cases q : f = y
  · subst q; simp
  · simp only [List.contains_cons, List.contains_nil, Bool.or_false, beq_eq_false_iff_ne.mpr (Ne.symm q)]

/-- R32, R34: what begins before the ask. -/
theorem examineHeld_pendRelease :
    (∀ r x, HeldFirst s bay r x →
      examineHeld (pendRelease bay o s) = startSwitchover r s.spc.feeding x [] (pendRelease bay o s)) ∧
    ((∀ r x, ¬HeldFirst s bay r x) → Noted (pendRelease bay o s) (examineHeld (pendRelease bay o s))) := by
  have c := examineHeld_cases (pendRelease bay o s)
  have t := chooseTarget_pendRelease bay o s s.spc.feeding
  refine ⟨fun r x h => c.2.2.1 r x h.2.1 h.1 (t.trans h.2.2), fun h => ?_⟩
  cases hc : heldCondition (pendRelease bay o s) with
  | none => rw [c.1 hc]; exact ⟨rfl⟩
  | some r =>
    cases cs : canStart (pendRelease bay o s) with
    | false => rw [c.2.1 r hc cs]; exact ⟨rfl⟩
    | true =>
      cases ht : chooseTarget (pendRelease bay o s) s.spc.feeding [] with
      | some x => exact absurd ⟨cs, hc, t.symm.trans ht⟩ (h r x)
      | none =>
        rw [c.2.2.2 r hc cs ht]
        unfold markSole
        split
        · exact ⟨rfl⟩
        · exact ⟨rfl⟩

theorem examineHeld_pend_latch (x : Bay) : (examineHeld (pendRelease bay o s)).latch x = (pendRelease bay o s).latch x := by
  rw [State.latch, (calm_examineHeld _).ltc]; rfl

theorem examineHeld_pend_ddt : (examineHeld (pendRelease bay o s)).ddt = s.ddt := by
  rw [(calm_examineHeld _).rest]; rfl

theorem examineHeld_pend_feeding : (examineHeld (pendRelease bay o s)).spc.feeding = s.spc.feeding := (calm_examineHeld _).feeding

theorem pendFor_latch (c : PendingCause) (v : State) : (pendFor bay c v).latch bay = { v.latch bay with cause := c } := by
  cases bay <;> rfl

/-- R32, R37, R53: a release request on an IDLE bay that asks for nothing, or waits for what is in flight. -/
theorem startRelease_waits :
    (∀ r x, HeldFirst s bay r x → (startRelease bay o s).spc.sw = startedRecord s r x) ∧
    (s.ddt.phase ≠ .still →
      (startRelease bay o s).latch bay = { (s.latch bay).joined o with release := .pending, cause := .motion }) ∧
    (s.ddt.phase = .still → (s.latch (otherBay bay)).release = .granted →
      (startRelease bay o s).latch bay = { (s.latch bay).joined o with release := .pending, cause := .otherGrant }) ∧
    (s.ddt.phase = .still → (s.latch (otherBay bay)).release ≠ .granted →
      inFlight s = true ∨ askRuns s (otherBay bay) = true ∨ (∃ r x, HeldFirst s bay r x) →
      (startRelease bay o s).latch bay = { (s.latch bay).joined o with release := .pending, cause := .supplyBusy }) := by
  have fl : ∀ r x, HeldFirst s bay r x → (examineHeld (pendRelease bay o s)).spc.sw = startedRecord s r x ∧
      inFlight (examineHeld (pendRelease bay o s)) = true := by
    intro r x h
    rw [(examineHeld_pendRelease bay o s).1 r x h]
    have k := canStart_false_of_started r s.spc.feeding x [] (pendRelease bay o s)
    have e : (startSwitchover r s.spc.feeding x [] (pendRelease bay o s)).spc.sw = startedRecord s r x := by
      rw [k.1, startedRecord_phase]; rfl
    refine ⟨e, ?_⟩
    unfold inFlight; rw [k.1]
    cases chooseMode (pendRelease bay o s) s.spc.feeding x <;> cases s.spc.feeding <;> rfl
  have ph := examineHeld_pend_ddt bay o s
  have lt := examineHeld_pend_latch bay o s
  have wait : inFlight (examineHeld (pendRelease bay o s)) = true →
      askRelease bay (examineHeld (pendRelease bay o s)) = pendFor bay .supplyBusy (examineHeld (pendRelease bay o s)) := by
    intro h; simp only [askRelease, askAnswer, h, if_true]
  have cause : ∀ c, (pendFor bay c (examineHeld (pendRelease bay o s))).latch bay =
      { (s.latch bay).joined o with release := .pending, cause := c } := by
    intro c; rw [pendFor_latch, lt, pendRelease_latch]
  have og : ((examineHeld (pendRelease bay o s)).latch (otherBay bay)) = s.latch (otherBay bay) := by
    rw [lt, pendRelease_other]
  have ar : askRuns (examineHeld (pendRelease bay o s)) (otherBay bay) = askRuns s (otherBay bay) := by
    unfold askRuns; rw [og]
  unfold startRelease evaluate
  rw [ph, og, ar]
  refine ⟨fun r x h => ?_, fun h => ?_, fun h g => ?_, fun h g w => ?_⟩
  · have f := fl r x h
    split
    · exact f.1
    · split
      · exact f.1
      · split
        · exact f.1
        · rw [wait f.2]; exact f.1
  · rw [if_pos h]; exact cause _
  · rw [if_neg (by simp [h]), if_pos g]; exact cause _
  · rw [if_neg (by simp [h]), if_neg g]
    split
    · exact cause _
    · rename_i a
      rw [wait]; exact cause _
      rcases w with w | w | ⟨r, x, w⟩
      · by_cases q : ∃ r x, HeldFirst s bay r x
        · obtain ⟨r, x, q⟩ := q; exact (fl r x q).2
        · have n := (examineHeld_pendRelease bay o s).2 (fun r x y => q ⟨r, x, y⟩)
          rw [n.eq]; exact w
      · exact absurd w a
      · exact (fl r x w).2

/-- R37, R53, R56: a release request on an IDLE bay whose ask is taken with no switchover in flight. -/
theorem startRelease_asks (still : s.ddt.phase = .still) (other : (s.latch (otherBay bay)).release ≠ .granted)
    (idle : inFlight s = false) (asks : askRuns s (otherBay bay) = false) (none : ∀ r x, ¬HeldFirst s bay r x) :
    ∃ v, Noted (pendRelease bay o s) v ∧
      (s.spc.feeding ≠ some (baySource bay) → startRelease bay o s = grantBay bay v) ∧
      (s.spc.feeding = some (baySource bay) →
        (∀ x, chooseTarget s s.spc.feeding [] = some x →
          startRelease bay o s = pendFor bay .switchover (startSwitchover .release s.spc.feeding x [] v)) ∧
        (chooseTarget s s.spc.feeding [] = .none → startRelease bay o s = refuseBay bay v)) := by
  have n := (examineHeld_pendRelease bay o s).2 none
  have ev : startRelease bay o s = askRelease bay (examineHeld (pendRelease bay o s)) := by
    unfold startRelease evaluate
    rw [examineHeld_pend_ddt, examineHeld_pend_latch, pendRelease_other, if_neg (by simp [still]), if_neg other, if_neg]
    unfold askRuns at asks ⊢
    rw [examineHeld_pend_latch, pendRelease_other, asks]; simp
  refine ⟨_, n, ?_⟩
  rw [ev]
  generalize examineHeld (pendRelease bay o s) = v at n
  have fl : inFlight v = false := by rw [n.eq]; exact idle
  have fe : v.spc.feeding = s.spc.feeding := by rw [n.eq]; rfl
  have ct : chooseTarget v s.spc.feeding [] = chooseTarget s s.spc.feeding [baySource bay] := by
    rw [← chooseTarget_pendRelease bay o s, n.eq]; rfl
  refine ⟨fun f => ?_, fun f => ⟨fun x h => ?_, fun h => ?_⟩⟩
  · simp [askRelease, askAnswer, fl, fe, f]
  · have e : chooseTarget s s.spc.feeding [baySource bay] = some x := by
      rw [← h, f]; exact chooseTarget_from s _
    simp only [askRelease, askAnswer, fl, fe, f, Bool.false_eq_true, if_false, ne_eq, not_true_eq_false] at ct ⊢
    rw [← f] at ct ⊢
    rw [ct, e]
  · have e : chooseTarget s s.spc.feeding [baySource bay] = .none := by
      rw [← h, f]; exact chooseTarget_from s _
    simp only [askRelease, askAnswer, fl, fe, f, Bool.false_eq_true, if_false, ne_eq, not_true_eq_false] at ct ⊢
    rw [← f] at ct ⊢
    rw [ct, e]

/-! ### The examination that ends the event -/

/-- R32: with a switchover in flight the examination starts nothing. -/
theorem settle_sw (h : inFlight s = true) : (settle false s).spc.sw = s.spc.sw := by
  have c : canStart s = false := by simp [canStart, h]
  have e : (examineHeld s).spc.sw = s.spc.sw ∧ canStart (examineHeld s) = false := by
    have k := examineHeld_cases s
    cases hc : heldCondition s with
    | none => rw [k.1 hc]; exact ⟨rfl, c⟩
    | some r => rw [k.2.1 r hc c]; exact ⟨rfl, c⟩
  rw [settle_false, (afterReleases_waits _ e.2).1, e.1]

theorem settle_latch (x : Bay) : (settle false s).latch x = s.latch x := by
  rw [State.latch, settle_false, (calm_afterReleases _).ltc, (calm_examineHeld _).ltc]; rfl

end Sys2Proof.Machine
end

