-- ==== Sys2Proof/Laws/Motion.lean ====
section
/-! SUPPORT. What one frame does to the port's bounds (R132, R133, R135) and what one sample does to the record table and the record
in progress (R142 to R154). -/

namespace Sys2Proof.Machine

open Sys2Proof.Safety

/-! ### The Motion Port -/

theorem pushHistory_length (h : List Bool) (b : Bool) (len : h.length = Config.historyLength) :
    (pushHistory h b).length = Config.historyLength := by
  simp only [pushHistory, List.length_drop, List.length_append, List.length_cons, List.length_nil, len, Config.historyLength]

theorem pushSample_length (ring : List Sample) (e : Sample) : (pushSample ring e).length ≤ Config.ringSize :=
  List.length_take_le _ _

theorem portOk_frameTaken (m : Mpt) (f : AccelFrame) (h : PortOk m) : PortOk (m.frameTaken f) := by
  refine ⟨?_, pushHistory_length _ _ h.history, ?_, ?_⟩
  · show ((producedSample m f).elim m.ring (pushSample m.ring)).length ≤ _
    cases producedSample m f with
    | none => exact h.ring
    | some e => exact pushSample_length _ _
  · show nextRejectedRun m _ ≤ _
    unfold nextRejectedRun
    split
    · exact Nat.min_le_left _ _
    · exact Nat.zero_le _
  · show nextRecoveryRun m _ ≤ _
    have := h.recoveryRun
    unfold nextRecoveryRun
    repeat' split
    all_goals first | exact Nat.zero_le _ | exact Nat.min_le_left _ _ | exact this

theorem portOk_rateChanged (m : Mpt) (r : SampleRate) : PortOk (m.rateChanged r) :=
  ⟨Nat.zero_le _, rfl, Nat.zero_le _, Nat.zero_le _⟩

theorem portOk_reset (m : Mpt) (h : PortOk m) : PortOk m.reset := by
  unfold Mpt.reset; split
  · exact h
  · exact ⟨h.1, h.2, h.3, h.4⟩

/-! ### The Drop Detector -/

/-- What a sample, a link state or a request keeps of the DDT, but for the phase (R148, R154). -/
structure TableOk (d : Ddt) : Prop where
  count : d.table.length ≤ Config.maxRecords
  ascending : (d.table.map (fun r => r.core.sequence)).Pairwise (· < ·)
  closed : ∀ r ∈ d.table, r.core.sequence < d.nextSequence
  inProgress : ∀ o, d.record = some o → o.sequence < d.nextSequence ∧ ∀ r ∈ d.table, r.core.sequence < o.sequence

theorem tableOk_of (d : Ddt) (h : RecordsOk d) : TableOk d := ⟨h.1, h.2, h.3, h.4⟩

theorem recordsOk_of (d : Ddt) (h : TableOk d) (still : d.phase = .still → d.record = none) : RecordsOk d :=
  ⟨h.1, h.2, h.3, h.4, still⟩

/-- Nothing that the table's law speaks of has changed, but for a record in progress with the same sequence number. -/
theorem tableOk_same {d e : Ddt} (h : TableOk d) (table : e.table = d.table) (next : e.nextSequence = d.nextSequence)
    (record : e.record.map (·.sequence) = d.record.map (·.sequence)) : TableOk e := by
  refine ⟨table ▸ h.1, table ▸ h.2, ?_, ?_⟩
  · rw [table, next]; exact h.3
  · intro o ho
    rw [ho] at record
    cases hd : d.record with
    | none => simp [hd] at record
    | some x =>
      have e : o.sequence = x.sequence := by simpa [hd] using record
      rw [table, next, e]; exact h.4 x hd

theorem tableOk_onRecord (d : Ddt) (f : OpenRecord → OpenRecord) (h : TableOk d) (hf : ∀ o, (f o).sequence = o.sequence) :
    TableOk (d.onRecord f) := by
  refine tableOk_same h rfl rfl ?_
  show (d.record.map f).map _ = _
  cases d.record with
  | none => rfl
  | some o => simp [hf]

theorem tableOk_enter (d : Ddt) (p : MotionPhase) (h : TableOk d) : TableOk (d.enter p) := tableOk_same h rfl rfl rfl

theorem tableOk_openRecord (d : Ddt) (c : MotionContext) (k : Option DropKind) (a : Option Attitude) (e : Sample)
    (h : TableOk d) : TableOk (d.openRecord c k a e) := by
  unfold Ddt.openRecord
  split
  · refine ⟨h.1, h.2, fun r hr => Nat.lt_succ_of_lt (h.3 r hr), fun o ho => ?_⟩
    have : o = openedRecord c d.nextSequence k a e := by simpa using ho.symm
    subst this
    exact ⟨Nat.lt_succ_self _, h.3⟩
  · exact h

theorem tableOk_endFall (d : Ddt) (r : SampleRate) (n : Nat) (k : DropKind) (h : TableOk d) : TableOk (d.endFall r n k) :=
  tableOk_onRecord d _ h fun _ => rfl

theorem offer_sequence (o : OpenRecord) (m2 : Nat) (e : Sample) : (o.offer m2 e).sequence = o.sequence := by
  unfold OpenRecord.offer; dsimp only; split <;> rfl

theorem counted_sequence (o : OpenRecord) (ring : List Sample) (e : Sample) :
    (o.counted ring e).sequence = o.sequence := by
  unfold OpenRecord.counted; dsimp only; split
  · rfl
  · split <;> rfl

theorem reclassified_sequence (o : OpenRecord) : o.reclassified.sequence = o.sequence := by
  unfold OpenRecord.reclassified; split <;> rfl

theorem tableOk_enterImpact (d : Ddt) (m2 : Nat) (e : Sample) (h : TableOk d) : TableOk (d.enterImpact m2 e) :=
  tableOk_onRecord _ _ (tableOk_enter d .impact h) fun o => offer_sequence o m2 e

/-- R154: the table with a record appended. -/
theorem appendRecord_ok (d : Ddt) (o : OpenRecord) (h : TableOk d) (ho : d.record = some o) :
    (appendRecord d.table o).length ≤ Config.maxRecords ∧
      ((appendRecord d.table o).map (fun r => r.core.sequence)).Pairwise (· < ·) ∧
      ∀ r ∈ appendRecord d.table o, r.core.sequence < d.nextSequence := by
  obtain ⟨h1, h2⟩ := h.inProgress o ho
  unfold appendRecord
  split
  · rename_i hl
    refine ⟨by simp only [List.length_append, List.length_cons, List.length_nil]; omega, ?_, ?_⟩
    · rw [List.map_append, List.pairwise_append]
      refine ⟨h.ascending, by simp, fun a ha b hb => ?_⟩
      obtain ⟨r, hr, rfl⟩ := List.mem_map.mp ha
      have : b = o.sequence := by simpa using hb
      subst this; exact h2 r hr
    · intro r hr
      rcases List.mem_append.mp hr with hr | hr
      · exact h.closed r hr
      · have : r = { core := o, read := false, displaced := false } := by simpa using hr
        subst this; exact h1
  · rename_i hl
    have := h.count
    refine ⟨?_, ?_, ?_⟩
    · simp only [List.length_append, List.length_drop, List.length_cons, List.length_nil]
      simp only [Config.maxRecords] at *; omega
    · rw [List.map_append, List.map_drop, List.pairwise_append]
      refine ⟨h.ascending.sublist (List.drop_sublist _ _), by simp, fun a ha b hb => ?_⟩
      obtain ⟨r, hr, rfl⟩ := List.mem_map.mp (List.mem_of_mem_drop ha)
      have : b = o.sequence := by simpa using hb
      subst this; exact h2 r hr
    · intro r hr
      rcases List.mem_append.mp hr with hr | hr
      · exact h.closed r (List.mem_of_mem_drop hr)
      · have : r = { core := o, read := false, displaced := d.table.head?.any (fun x => !x.read) } := by simpa using hr
        subst this; exact h1

/-- R153: after a close no record is in progress, and the phase is STILL. -/
theorem recordsOk_close (d : Ddt) (h : TableOk d) : RecordsOk d.close := by
  cases ho : d.record with
  | none =>
    have e : d.close.table = d.table := by simp [Ddt.close, ho]
    have n : d.close.nextSequence = d.nextSequence := rfl
    refine ⟨?_, ?_, ?_, fun o x => (by simp [Ddt.close] at x), fun _ => rfl⟩
    · rw [e]; exact h.1
    · rw [e]; exact h.2
    · rw [e, n]; exact h.3
  | some o =>
    have e : d.close.table = appendRecord d.table o := by simp [Ddt.close, ho]
    have n : d.close.nextSequence = d.nextSequence := rfl
    obtain ⟨a, b, c⟩ := appendRecord_ok d o h ho
    refine ⟨?_, ?_, ?_, fun o x => (by simp [Ddt.close] at x), fun _ => rfl⟩
    · rw [e]; exact a
    · rw [e]; exact b
    · rw [e, n]; exact c

/-- A phase that is not STILL: the table's law is all. -/
theorem recordsOk_moving {d : Ddt} (h : TableOk d) (p : d.phase ≠ .still) : RecordsOk d :=
  recordsOk_of d h fun x => absurd x p

/-- R142 to R146: the phase rows keep the records' law. -/
theorem recordsOk_phaseStep (c : MotionContext) (m2 : Nat) (e : Sample) (d : Ddt) (h : RecordsOk d) :
    RecordsOk (phaseStep c m2 e d).1 := by
  have t := tableOk_of d h
  unfold phaseStep
  split <;> rename_i hp
  · unfold stillStep
    dsimp only
    repeat' split
    · exact h
    · exact recordsOk_moving (tableOk_enterImpact _ _ _ (tableOk_openRecord _ _ _ _ _ t)) (by simp [Ddt.enterImpact, Ddt.onRecord, Ddt.enter])
    · exact recordsOk_moving (tableOk_same (tableOk_openRecord d c none _ e t) rfl rfl rfl) (by simp [Ddt.enter])
    · exact recordsOk_of _ (tableOk_same t rfl rfl rfl) h.still
    · exact recordsOk_of _ (tableOk_same t rfl rfl rfl) h.still
  · have on : ∀ g : Ddt, TableOk g → g.phase ≠ .still → RecordsOk (fallOn c g).1 := by
      intro g hg hn
      unfold fallOn
      split
      · exact recordsOk_moving (tableOk_enter _ _ (tableOk_endFall _ _ _ _ hg)) (by simp [Ddt.enter])
      · exact recordsOk_moving (tableOk_same hg rfl rfl rfl) hn
    unfold fallingStep
    dsimp only
    repeat' split
    · refine recordsOk_moving (tableOk_enterImpact _ _ _ (tableOk_onRecord _ _ (tableOk_endFall _ _ _ _ (tableOk_same t rfl rfl rfl)) fun _ => rfl)) ?_
      simp [Ddt.enterImpact, Ddt.onRecord, Ddt.enter]
    · exact on _ (tableOk_same t rfl rfl rfl) (by simp [hp])
    · exact recordsOk_moving (tableOk_enter _ _ (tableOk_endFall _ _ _ _ (tableOk_same t rfl rfl rfl))) (by simp [Ddt.enter])
    · exact on _ (tableOk_same t rfl rfl rfl) (by simp [hp])
  · have o := tableOk_onRecord d (fun r => r.offer m2 e) t fun r => offer_sequence r m2 e
    unfold impactStep
    dsimp only
    repeat' split
    · exact recordsOk_moving (tableOk_same o rfl rfl rfl) (by simp [Ddt.onRecord, hp])
    · exact recordsOk_moving (tableOk_enter _ _ o) (by simp [Ddt.enter])
    · exact recordsOk_moving (tableOk_same o rfl rfl rfl) (by simp [Ddt.onRecord, hp])
  · split
    · unfold blindStep
      split
      · exact recordsOk_close _ (tableOk_onRecord _ _ t fun _ => rfl)
      · exact recordsOk_moving (tableOk_same t rfl rfl rfl) (by simp [hp])
    · unfold settlingStep
      dsimp only
      repeat' split
      · refine recordsOk_moving (tableOk_enterImpact _ _ _ (tableOk_onRecord _ _ t fun r => reclassified_sequence r.struck)) ?_
        simp [Ddt.enterImpact, Ddt.onRecord, Ddt.enter]
      all_goals first
        | exact recordsOk_close _ t
        | exact recordsOk_close _ (tableOk_onRecord _ _ t fun _ => rfl)
        | exact recordsOk_moving (tableOk_same t rfl rfl rfl) (by simp [hp])

/-- R139 to R146: a sample keeps the records' law. -/
theorem recordsOk_takeSample (c : MotionContext) (e : Sample) (d : Ddt) (h : RecordsOk d) :
    RecordsOk (takeSample c e d).1 := by
  have t := tableOk_onRecord d (fun r => r.counted c.ring e) (tableOk_of d h) fun r => counted_sequence r c.ring e
  refine recordsOk_phaseStep _ _ _ _ (recordsOk_of _ (tableOk_same t rfl rfl rfl) fun hs => ?_)
  show (d.record.map _) = none
  rw [h.still hs]; rfl

/-- R146: the link state after a sample keeps the records' law. -/
theorem recordsOk_linkStep (c : MotionContext) (d : Ddt) (h : RecordsOk d) : RecordsOk (linkStep c d) := by
  unfold linkStep
  split
  · have t := tableOk_of d h
    have g : TableOk (if d.phase = .falling then d.endFall c.rate d.fallIntervals .drop else d) := by
      split
      · exact tableOk_endFall _ _ _ _ t
      · exact t
    have o := tableOk_onRecord _ (fun r => { r with blind := true }) g fun _ => rfl
    exact recordsOk_moving (tableOk_same o rfl rfl rfl) (by simp [Ddt.enterBlind, Ddt.enter])
  · exact h

/-- R130, step 4: a frame end keeps the records' law. -/
theorem recordsOk_ddtStep (c : MotionContext) (e : Option Sample) (d : Ddt) (h : RecordsOk d) :
    RecordsOk (ddtStep c e d).1 := by
  unfold ddtStep
  cases e with
  | none => exact recordsOk_linkStep c d h
  | some e => exact recordsOk_linkStep c _ (recordsOk_takeSample c e d h)

theorem markRead_sequences (n : Nat) (t : List DropRecord) :
    (markRead n t).map (fun r => r.core.sequence) = t.map (fun r => r.core.sequence) := by
  simp only [markRead, List.map_map]
  congr 1
  funext r
  simp only [Function.comp]
  split <;> rfl

end Sys2Proof.Machine
end

