-- ==== Sys2Proof/Laws/Sample.lean ====
section
/-! SUPPORT. What the DDT does with a sample, in the terms of the statements (R139 to R154): one lemma for each phase's rows, for
the link's and for the events. -/

namespace Sys2Proof.Machine

open Sys2Proof.Safety

theorem sampleM2_magnitude (d : Ddt) (e : Sample) : sampleM2 d.lastM2 e = magnitude d e := rfl

theorem belowFall_iff (d : Ddt) (m2 : Nat) : belowFall d.settings m2 = true ↔ below d m2 := decide_eq_true_iff

theorem aboveImpact_iff (d : Ddt) (m2 : Nat) : aboveImpact d.settings m2 = true ↔ above d m2 := decide_eq_true_iff

theorem counted_noted (ring : List Sample) (e : Sample) (o : OpenRecord) : o.counted ring e = noted ring e o := by
  unfold OpenRecord.counted noted
  cases h : o.traceCount with
  | none => simp
  | some n =>
    simp only [Option.bind_some, Option.any_some, decide_eq_true_iff, Config.traceAfter]
    by_cases g : 23 ≤ n + 1
    · simp only [g, if_true, if_neg (Nat.not_lt.mpr g)]; rfl
    · simp only [g, if_false, if_pos (Nat.not_le.mp g)]

theorem offer_offered (o : OpenRecord) (m2 : Nat) (e : Sample) : o.offer m2 e = offered m2 e o := by
  unfold OpenRecord.offer offered
  by_cases g : o.peak.all (fun p => decide (p.m2 < m2)) = true <;> simp [g]

theorem attitudeOf_attitude (ring : List Sample) (q : Nat) : attitudeOf ring q = attitude ring q := by
  unfold attitudeOf attitude
  simp only [Config.attitudeSamples, List.isEmpty_iff, meanOf]

theorem seen_noted (c : MotionContext) (e : Sample) (d : Ddt) :
    { d.onRecord (fun r => r.counted c.ring e) with lastM2 := sampleM2 d.lastM2 e } = seen c e d := by
  simp only [Ddt.onRecord, seen, sampleM2_magnitude, funext (counted_noted c.ring e)]

theorem close_closing (d : Ddt) : d.close = closing d := by
  unfold Ddt.close closing
  cases h : d.record with
  | none => simp [Ddt.enter, atPhase]
  | some o =>
    by_cases g : d.table.length < 8
    · simp [appendRecord, Config.maxRecords, g, Ddt.enter, atPhase, Nat.not_le.mpr g]
    · simp [appendRecord, Config.maxRecords, g, Ddt.enter, atPhase, Nat.not_lt.mp g]

theorem openRecord_opening (d : Ddt) (c : MotionContext) (k : Option DropKind) (n : Nat) (a : Option Attitude) (e : Sample)
    (hn : n = if k = some .shock then 1 else 0) :
    d.openRecord c k a e = { d with record := opening c d e k n a, nextSequence := nextAfterOpening d } := by
  subst hn
  unfold Ddt.openRecord opening nextAfterOpening
  by_cases g : d.nextSequence ≤ 4294967295 <;> simp [Config.lastSequence, g, openedRecord, Bool.toNat, cond_eq_ite]

/-! ### Rows -/

theorem stillRows_stillStep (c : MotionContext) (m2 : Nat) (e : Sample) (d : Ddt) : StillRows c m2 e d (stillStep c m2 e d).1 := by
  have ha := aboveImpact_iff d m2
  have hb := belowFall_iff d m2
  constructor
  · intro h l
    simp [stillStep, h, l]
  · intro h a
    simp only [stillStep, h, if_false, ha.mpr a, if_true, openRecord_opening d c (some .shock) 1 none e rfl, Ddt.enterImpact,
      Ddt.onRecord, Ddt.enter, atPhase, offer_offered]
  · intro h a b q
    have ha' : aboveImpact d.settings m2 = false := Bool.eq_false_iff.mpr (fun x => a (ha.mp x))
    have hq : sampleCount c.rate d.settings.qualifyMs ≤ d.fallRun + 1 := q
    simp only [stillStep, h, if_false, ha', Bool.false_eq_true, hb.mpr b, if_true, hq,
      openRecord_opening d c none 0 _ e rfl, Ddt.enter, atPhase, attitudeOf_attitude]
    rfl
  · intro h a b q
    have ha' : aboveImpact d.settings m2 = false := Bool.eq_false_iff.mpr (fun x => a (ha.mp x))
    have hq : ¬sampleCount c.rate d.settings.qualifyMs ≤ d.fallRun + 1 := Nat.not_le.mpr q
    simp only [stillStep, h, if_false, ha', Bool.false_eq_true, hb.mpr b, if_true, hq, Ddt.runOn]
  · intro h a b
    have ha' : aboveImpact d.settings m2 = false := Bool.eq_false_iff.mpr (fun x => a (ha.mp x))
    have hb' : belowFall d.settings m2 = false := Bool.eq_false_iff.mpr (fun x => b (hb.mp x))
    simp only [stillStep, h, if_false, ha', Bool.false_eq_true, hb', Ddt.runBroken]

theorem fallingRows_fallingStep (c : MotionContext) (m2 : Nat) (e : Sample) (d : Ddt) :
    FallingRows c m2 e d (fallingStep c m2 e d).1 := by
  have ha := aboveImpact_iff d m2
  have hb := belowFall_iff d m2
  constructor
  · intro a
    simp only [fallingStep, ha.mpr a, if_true, Ddt.enterImpact, Ddt.endFall, Ddt.onRecord, Ddt.enter, atPhase,
      offer_offered, Option.map_map]
    rfl
  · intro a b l
    have ha' : aboveImpact d.settings m2 = false := Bool.eq_false_iff.mpr (fun x => a (ha.mp x))
    have hb' : belowFall d.settings m2 = false := Bool.eq_false_iff.mpr (fun x => b (hb.mp x))
    have hl : Config.landingSamples ≤ d.landingRun + 1 := l
    simp only [fallingStep, ha', hb', Bool.false_eq_true, if_false, hl, if_true, Ddt.endFall, Ddt.onRecord, Ddt.enter, atPhase]
  · intro a b q
    have ha' : aboveImpact d.settings m2 = false := Bool.eq_false_iff.mpr (fun x => a (ha.mp x))
    have hq : sampleCount c.rate Config.maxFallMs ≤ d.fallingCount + 1 := q
    by_cases g : below d m2
    · simp only [fallingStep, ha', Bool.false_eq_true, if_false, hb.mpr g, if_true, fallOn, hq, Ddt.endFall, Ddt.onRecord,
        Ddt.enter, atPhase]
    · have hb' : belowFall d.settings m2 = false := Bool.eq_false_iff.mpr (fun x => g (hb.mp x))
      have hl : ¬Config.landingSamples ≤ d.landingRun + 1 := Nat.not_le.mpr (b.resolve_left g)
      simp only [fallingStep, ha', Bool.false_eq_true, if_false, hb', hl, if_true, fallOn, hq, Ddt.endFall, Ddt.onRecord,
        Ddt.enter, atPhase]
  · intro a b q
    have ha' : aboveImpact d.settings m2 = false := Bool.eq_false_iff.mpr (fun x => a (ha.mp x))
    have hq : ¬sampleCount c.rate Config.maxFallMs ≤ d.fallingCount + 1 := Nat.not_le.mpr q
    refine ⟨fun g => ?_, fun g => ?_⟩
    · simp only [fallingStep, ha', Bool.false_eq_true, if_false, hb.mpr g, if_true, fallOn, hq]
    · have hb' : belowFall d.settings m2 = false := Bool.eq_false_iff.mpr (fun x => g (hb.mp x))
      have hl : ¬Config.landingSamples ≤ d.landingRun + 1 := Nat.not_le.mpr (b.resolve_left g)
      simp only [fallingStep, ha', Bool.false_eq_true, if_false, hb', hl, fallOn, hq]

theorem impactRows_impactStep (c : MotionContext) (m2 : Nat) (e : Sample) (d : Ddt) :
    ImpactRows c m2 e d (impactStep c m2 e d).1 := by
  have ha := aboveImpact_iff d m2
  have ho : (d.onRecord fun r => r.offer m2 e) = { d with record := d.record.map (offered m2 e) } := by
    simp only [Ddt.onRecord, offer_offered]
  constructor
  · intro a
    simp only [impactStep, ho, ha.mpr a, if_true]
  · intro a q
    have ha' : aboveImpact d.settings m2 = false := Bool.eq_false_iff.mpr (fun x => a (ha.mp x))
    have hq : sampleCount c.rate Config.impactExitMs ≤ d.exitCount + 1 := q
    simp only [impactStep, ho, ha', Bool.false_eq_true, if_false, hq, if_true, Ddt.enter, atPhase]
  · intro a q
    have ha' : aboveImpact d.settings m2 = false := Bool.eq_false_iff.mpr (fun x => a (ha.mp x))
    have hq : ¬sampleCount c.rate Config.impactExitMs ≤ d.exitCount + 1 := Nat.not_le.mpr q
    simp only [impactStep, ho, ha', Bool.false_eq_true, if_false, hq]

theorem settleRun_after (d : Ddt) (m2 : Nat) : (if inBand m2 then d.settleRun + 1 else 0) = settleRunAfter d m2 := by
  have h : inBand m2 = true ↔ 2359296 ≤ m2 ∧ m2 ≤ 6553600 := by
    rw [inBand, Bool.and_eq_true, decide_eq_true_iff, decide_eq_true_iff]; rfl
  simp only [settleRunAfter, h]

theorem reclassified_kind (o : OpenRecord) : o.reclassified =
    { o with kind := if o.kind = some .softLanding ∨ o.kind = some .fallTimeout then some .drop else o.kind } := by
  unfold OpenRecord.reclassified
  obtain ⟨_, k, _, _, _, _, _, _, _, _, _, _, _, _, _, _, _⟩ := o
  rcases k with _ | k
  · rfl
  · cases k <;> rfl

theorem settlingRows_settlingStep (c : MotionContext) (m2 : Nat) (e : Sample) (d : Ddt) :
    SettlingRows c m2 e d (settlingStep c m2 e d).1 := by
  have ha := aboveImpact_iff d m2
  constructor
  · intro a
    simp only [settlingStep, ha.mpr a, if_true, Ddt.enterImpact, Ddt.onRecord, Ddt.enter, atPhase, offer_offered,
      reclassified_kind, OpenRecord.struck, Option.map_map]
    rfl
  · intro a q
    have ha' : aboveImpact d.settings m2 = false := Bool.eq_false_iff.mpr (fun x => a (ha.mp x))
    have hq : sampleCount c.rate d.settings.settleMs ≤ settleRunAfter d m2 := q
    simp only [settlingStep, ha', Bool.false_eq_true, if_false, settleRun_after, hq, if_true, close_closing]
  · intro a q r
    have ha' : aboveImpact d.settings m2 = false := Bool.eq_false_iff.mpr (fun x => a (ha.mp x))
    have hq : ¬sampleCount c.rate d.settings.settleMs ≤ settleRunAfter d m2 := Nat.not_le.mpr q
    have hr : sampleCount c.rate Config.maxSettleMs ≤ d.settleLimit + 1 := r
    simp only [settlingStep, ha', Bool.false_eq_true, if_false, settleRun_after, hq, hr, if_true, close_closing, Ddt.onRecord]
  · intro a q r
    have ha' : aboveImpact d.settings m2 = false := Bool.eq_false_iff.mpr (fun x => a (ha.mp x))
    have hq : ¬sampleCount c.rate d.settings.settleMs ≤ settleRunAfter d m2 := Nat.not_le.mpr q
    have hr : ¬sampleCount c.rate Config.maxSettleMs ≤ d.settleLimit + 1 := Nat.not_le.mpr r
    simp only [settlingStep, ha', Bool.false_eq_true, if_false, settleRun_after, hq, hr]

theorem blindRows_blindStep (c : MotionContext) (d : Ddt) : BlindRows c d (blindStep c d).1 := by
  constructor
  · intro q
    have hq : sampleCount c.rate Config.blindHoldMs ≤ d.blindCount + 1 := q
    simp only [blindStep, hq, if_true, close_closing, Ddt.onRecord]
    rfl
  · intro q
    have hq : ¬sampleCount c.rate Config.blindHoldMs ≤ d.blindCount + 1 := Nat.not_le.mpr q
    simp only [blindStep, hq, if_false]

/-- R139 to R146: the DDT takes a sample as the rows say. -/
theorem sampleTaken_takeSample (c : MotionContext) (e : Sample) (d : Ddt) : SampleTaken c e d (takeSample c e d).1 := by
  have h : (takeSample c e d).1 = (phaseStep c (magnitude d e) e (seen c e d)).1 := by
    rw [← seen_noted]; rfl
  rw [h]
  constructor
  · intro p
    have p' : (seen c e d).phase = .still := p
    simp only [phaseStep, p']; exact stillRows_stillStep ..
  · intro p
    have p' : (seen c e d).phase = .falling := p
    simp only [phaseStep, p']; exact fallingRows_fallingStep ..
  · intro p
    have p' : (seen c e d).phase = .impact := p
    simp only [phaseStep, p']; exact impactRows_impactStep ..
  · intro p b
    have p' : (seen c e d).phase = .settling := p
    have b' : (seen c e d).blind = false := b
    simp only [phaseStep, p', b', Bool.false_eq_true, if_false]; exact settlingRows_settlingStep ..
  · intro p b
    have p' : (seen c e d).phase = .settling := p
    have b' : (seen c e d).blind = true := b
    simp only [phaseStep, p', b', if_true]; exact blindRows_blindStep ..

/-- R146: the link state is seen after the sample. -/
theorem linkSeen_linkStep (c : MotionContext) (d : Ddt) : LinkSeen c d (linkStep c d) := by
  constructor
  · intro l p b
    have h : c.link = .lost ∧ d.phase ≠ .still ∧ d.blind = false := ⟨l, p, b⟩
    rw [linkStep, if_pos h, Ddt.enterBlind]
    by_cases f : d.phase = .falling
    · simp only [f, if_true, Ddt.endFall, Ddt.onRecord, Ddt.enter, atPhase, Option.map_map]
      rfl
    · simp only [f, if_false, Ddt.onRecord, Ddt.enter, atPhase]
  · intro h
    have : ¬(c.link = .lost ∧ d.phase ≠ .still ∧ d.blind = false) := by
      rintro ⟨l, p, b⟩
      rcases h with h | h | h
      · exact h l
      · exact p h
      · rw [b] at h; exact absurd h (by decide)
    simp only [linkStep, this, if_false]

/-! ### Events -/

theorem above_false {d : Ddt} {m2 : Nat} (h : ¬above d m2) : aboveImpact d.settings m2 = false :=
  Bool.eq_false_iff.mpr (fun x => h ((aboveImpact_iff d m2).mp x))

theorem below_false {d : Ddt} {m2 : Nat} (h : ¬below d m2) : belowFall d.settings m2 = false :=
  Bool.eq_false_iff.mpr (fun x => h ((belowFall_iff d m2).mp x))

theorem stillStep_events (c : MotionContext) (m2 : Nat) (e : Sample) (d : Ddt) (ev : MotionEvent) :
    (stillStep c m2 e d).2.contains ev = true ↔
      ev = .fallQualified ∧ ¬(e.held = true ∧ c.link = .lost) ∧ ¬above d m2 ∧ below d m2 ∧
        inSamples c d.settings.qualifyMs ≤ d.fallRun + 1 := by
  have q : sampleCount c.rate d.settings.qualifyMs = inSamples c d.settings.qualifyMs := rfl
  unfold stillStep
  rw [q]
  by_cases h : e.held = true ∧ c.link = .lost
  · simp [h]
  · by_cases a : above d m2
    · simp [h, a, (aboveImpact_iff d m2).mpr a]
    · by_cases b : below d m2
      · by_cases g : inSamples c d.settings.qualifyMs ≤ d.fallRun + 1
        · simp only [h, a, b, g, above_false a, (belowFall_iff d m2).mpr b, if_false, if_true, Bool.false_eq_true]; simp
        · simp only [h, a, b, g, above_false a, (belowFall_iff d m2).mpr b, if_false, if_true, Bool.false_eq_true]; simp
      · simp only [h, a, b, above_false a, below_false b, if_false, Bool.false_eq_true]; simp

theorem fallingStep_events (c : MotionContext) (m2 : Nat) (e : Sample) (d : Ddt) (ev : MotionEvent) :
    (fallingStep c m2 e d).2.contains ev = true ↔
      (ev = .softLanding ∧ ¬above d m2 ∧ ¬below d m2 ∧ 3 ≤ d.landingRun + 1) ∨
      (ev = .fallTimeout ∧ ¬above d m2 ∧ (below d m2 ∨ d.landingRun + 1 < 3) ∧ inSamples c 2000 ≤ d.fallingCount + 1) := by
  have q : sampleCount c.rate Config.maxFallMs = inSamples c 2000 := rfl
  unfold fallingStep fallOn
  rw [q]
  by_cases a : above d m2
  · simp only [a, (aboveImpact_iff d m2).mpr a, if_true]; simp
  · by_cases b : below d m2
    · by_cases g : inSamples c 2000 ≤ d.fallingCount + 1
      · simp only [a, b, g, above_false a, (belowFall_iff d m2).mpr b, if_false, if_true, Bool.false_eq_true]; simp
      · simp only [a, b, g, above_false a, (belowFall_iff d m2).mpr b, if_false, if_true, Bool.false_eq_true]; simp
    · by_cases l : 3 ≤ d.landingRun + 1
      · simp only [a, b, above_false a, below_false b, if_false, Bool.false_eq_true, Config.landingSamples, l, if_true]
        simp [Nat.not_lt.mpr l]
      · by_cases g : inSamples c 2000 ≤ d.fallingCount + 1
        · simp only [a, b, g, above_false a, below_false b, if_false, Bool.false_eq_true, Config.landingSamples, l, if_true]
          simp [Nat.not_le.mp l]
        · simp only [a, b, g, above_false a, below_false b, if_false, Bool.false_eq_true, Config.landingSamples, l]; simp

theorem impactStep_events (c : MotionContext) (m2 : Nat) (e : Sample) (d : Ddt) (ev : MotionEvent) :
    (impactStep c m2 e d).2.contains ev = true ↔
      ev = .impactExit ∧ ¬above d m2 ∧ inSamples c 20 ≤ d.exitCount + 1 := by
  have q : sampleCount c.rate Config.impactExitMs = inSamples c 20 := rfl
  unfold impactStep Ddt.onRecord
  rw [q]
  by_cases a : above d m2
  · simp only [a, (aboveImpact_iff d m2).mpr a, if_true]; simp
  · by_cases g : inSamples c 20 ≤ d.exitCount + 1
    · simp only [a, g, above_false a, if_true, if_false, Bool.false_eq_true]; simp
    · simp only [a, g, above_false a, if_false, Bool.false_eq_true]; simp

theorem closeEvents_contains (d : Ddt) (x ev : MotionEvent) :
    (closeEvents d x).contains ev = true ↔ ev = x ∨ (ev = .recordClosed ∧ d.record ≠ none) := by
  unfold closeEvents
  cases h : d.record <;> simp

theorem settlingStep_events (c : MotionContext) (m2 : Nat) (e : Sample) (d : Ddt) (ev : MotionEvent) :
    (settlingStep c m2 e d).2.contains ev = true ↔
      ((ev = .settled ∨ ev = .recordClosed ∧ d.record ≠ none) ∧ ¬above d m2 ∧
          inSamples c d.settings.settleMs ≤ settleRunAfter d m2) ∨
      ((ev = .settleTimeout ∨ ev = .recordClosed ∧ d.record ≠ none) ∧ ¬above d m2 ∧
          settleRunAfter d m2 < inSamples c d.settings.settleMs ∧ inSamples c 10000 ≤ d.settleLimit + 1) := by
  have q : sampleCount c.rate d.settings.settleMs = inSamples c d.settings.settleMs := rfl
  have q' : sampleCount c.rate Config.maxSettleMs = inSamples c 10000 := rfl
  unfold settlingStep
  simp only [settleRun_after, q, q']
  by_cases a : above d m2
  · simp only [a, (aboveImpact_iff d m2).mpr a, if_true]; simp
  · by_cases g : inSamples c d.settings.settleMs ≤ settleRunAfter d m2
    · simp only [a, g, above_false a, if_true, if_false, Bool.false_eq_true, closeEvents_contains, Nat.not_lt.mpr g]; simp
    · by_cases l : inSamples c 10000 ≤ d.settleLimit + 1
      · simp only [a, g, l, above_false a, if_true, if_false, Bool.false_eq_true, closeEvents_contains, Nat.not_le.mp g]; simp
      · simp only [a, g, l, above_false a, if_false, Bool.false_eq_true]; simp

theorem blindStep_events (c : MotionContext) (d : Ddt) (ev : MotionEvent) :
    (blindStep c d).2.contains ev = true ↔
      (ev = .blindHoldEnd ∨ ev = .recordClosed ∧ d.record ≠ none) ∧ inSamples c 2000 ≤ d.blindCount + 1 := by
  have q : sampleCount c.rate Config.blindHoldMs = inSamples c 2000 := rfl
  unfold blindStep
  rw [q]
  by_cases g : inSamples c 2000 ≤ d.blindCount + 1
  · simp only [g, if_true, closeEvents_contains]; simp
  · simp only [g, if_false]; simp

theorem freezesTrace_iff (d : Ddt) :
    freezesTrace d = true ↔ ∃ o n, d.record = some o ∧ o.traceCount = some n ∧ 23 ≤ n + 1 := by
  unfold freezesTrace
  rcases h : d.record with _ | o
  · simp
  · rcases g : o.traceCount with _ | n
    · simp [g]
    · simp [g, Config.traceAfter]

theorem takeSample_events (c : MotionContext) (e : Sample) (d : Ddt) (ev : MotionEvent) :
    (takeSample c e d).2.contains ev = true ↔
      (ev = .traceFrozen ∧ freezesTrace d = true) ∨
        (phaseStep c (magnitude d e) e (seen c e d)).2.contains ev = true := by
  have h : (takeSample c e d).2 =
      (if freezesTrace d then [MotionEvent.traceFrozen] else []) ++ (phaseStep c (magnitude d e) e (seen c e d)).2 := by
    rw [← seen_noted]; rfl
  rw [h]
  by_cases g : freezesTrace d = true <;> simp [g]

/-- R142 to R146, R152, R153: when a sample brings each event about. -/
theorem eventsAre_takeSample (c : MotionContext) (e : Sample) (d : Ddt) : EventsAre c e d (takeSample c e d).2 := by
  have hr : (seen c e d).record ≠ none ↔ d.record ≠ none := by
    unfold seen; cases d.record <;> simp
  rcases p : d.phase with _ | _ | _ | _
  · have ps : (phaseStep c (magnitude d e) e (seen c e d)) = stillStep c (magnitude d e) e (seen c e d) := by
      have p' : (seen c e d).phase = .still := p
      simp only [phaseStep, p']
    constructor <;> simp only [takeSample_events, ps, stillStep_events, p] <;> simp [freezesTrace_iff] <;>
      first | rfl | exact fun _ => Iff.rfl
  · have ps : (phaseStep c (magnitude d e) e (seen c e d)) = fallingStep c (magnitude d e) e (seen c e d) := by
      have p' : (seen c e d).phase = .falling := p
      simp only [phaseStep, p']
    constructor <;> simp only [takeSample_events, ps, fallingStep_events, p] <;> simp [freezesTrace_iff] <;> rfl
  · have ps : (phaseStep c (magnitude d e) e (seen c e d)) = impactStep c (magnitude d e) e (seen c e d) := by
      have p' : (seen c e d).phase = .impact := p
      simp only [phaseStep, p']
    constructor <;> simp only [takeSample_events, ps, impactStep_events, p] <;> simp [freezesTrace_iff] <;> rfl
  · rcases b : d.blind with _ | _
    · have ps : (phaseStep c (magnitude d e) e (seen c e d)) = settlingStep c (magnitude d e) e (seen c e d) := by
        have p' : (seen c e d).phase = .settling := p
        have b' : (seen c e d).blind = false := b
        simp only [phaseStep, p', b', Bool.false_eq_true, if_false]
      constructor <;> simp only [takeSample_events, ps, settlingStep_events, p, b, hr] <;> simp [freezesTrace_iff] <;>
        first | rfl | exact and_or_left.symm
    · have ps : (phaseStep c (magnitude d e) e (seen c e d)) = blindStep c (seen c e d) := by
        have p' : (seen c e d).phase = .settling := p
        have b' : (seen c e d).blind = true := b
        simp only [phaseStep, p', b', if_true]
      constructor <;> simp only [takeSample_events, ps, blindStep_events, p, b, hr] <;> simp [freezesTrace_iff] <;> rfl

/-! ### Frames and the port (R127 to R129, R133) -/

theorem judge_accepted (m : Mpt) (f : AccelFrame) :
    FrameAccepted m f ↔ ∃ j, judge m.lastCount f = .accepted j := by
  constructor
  · rintro ⟨a, b, c, d, h⟩
    have a' : ¬f.check ≠ frameCheck f := fun x => x a
    simp only [judge, if_neg a', b, flagSet, c, d, Bool.or_self, Bool.false_eq_true, if_false]
    cases hl : m.lastCount with
    | none => exact ⟨false, rfl⟩
    | some n =>
      have k : ¬frameCount f = n := fun x => h (by rw [hl, ← x]; rfl)
      exact ⟨frameCount f != (n + 1) % 16, by simp only [if_neg k]⟩
  · rintro ⟨j, h⟩
    unfold judge at h
    split at h
    · exact Verdict.noConfusion h
    · rename_i a
      split at h
      · exact Verdict.noConfusion h
      · rename_i b
        split at h
        · exact Verdict.noConfusion h
        · rename_i g
          simp only [flagSet, Bool.or_eq_true, not_or, Bool.not_eq_true] at g
          refine ⟨not_not.mp a, Bool.eq_false_iff.mpr b, g.2, g.1, fun l => ?_⟩
          rw [l] at h
          simp only [frameCount, if_true] at h
          exact Verdict.noConfusion h

/-- R128, R129: the sample a frame produces. -/
theorem sampleOf_producedSample (m : Mpt) (f : AccelFrame) : SampleOf m f (producedSample m f) := by
  constructor
  · intro h
    obtain ⟨j, h⟩ := (judge_accepted m f).mp h
    exact ⟨j, by simp only [producedSample, h]; rfl⟩
  · intro h
    have g : ∀ j, judge m.lastCount f ≠ .accepted j := fun j x => h ((judge_accepted m f).mpr ⟨j, x⟩)
    unfold producedSample
    cases hj : judge m.lastCount f with
    | accepted j => exact absurd hj (g j)
    | checkFailed => rfl
    | mbzFailed => rfl
    | flagged => rfl
    | duplicate => rfl

/-! ### The square root (R150) -/

theorem isqrtFrom_spec (k : Nat) : ∀ acc n : Nat, acc ^ 2 ≤ n → n < (acc + 2 ^ k) ^ 2 →
    (isqrtFrom k acc n) ^ 2 ≤ n ∧ n < (isqrtFrom k acc n + 1) ^ 2 := by
  induction k with
  | zero => intro acc n h g; exact ⟨h, g⟩
  | succ k ih =>
    intro acc n h g
    unfold isqrtFrom
    by_cases c : (acc + 2 ^ k) ^ 2 ≤ n
    · simp only [c, if_true]
      exact ih _ n c (by rw [Nat.add_assoc, ← Nat.two_mul, ← Nat.pow_succ']; exact g)
    · simp only [c, if_false]
      exact ih acc n h (Nat.not_le.mp c)

/-- The square root is the largest integer whose square does not exceed the number. -/
theorem isqrt_spec (n : Nat) : isqrt n ^ 2 ≤ n ∧ n < (isqrt n + 1) ^ 2 := by
  refine isqrtFrom_spec _ 0 n (Nat.zero_le _) ?_
  rw [Nat.zero_add, ← Nat.pow_mul]
  exact Nat.lt_of_lt_of_le Nat.lt_log2_self (Nat.pow_le_pow_right (by decide) (by omega))

theorem isqrt_unique (n r : Nat) (h : r ^ 2 ≤ n) (g : n < (r + 1) ^ 2) : isqrt n = r := by
  obtain ⟨a, b⟩ := isqrt_spec n
  have x : isqrt n < r + 1 := lt_of_pow_lt_pow_left₀ 2 (Nat.zero_le _) (Nat.lt_of_le_of_lt a g)
  have y : r < isqrt n + 1 := lt_of_pow_lt_pow_left₀ 2 (Nat.zero_le _) (Nat.lt_of_le_of_lt h b)
  omega

/-! ### A frame end (R130): the port and the detector, and the events -/

theorem settle_motion (b : Bool) (s : State) : (settle b s).mpt = s.mpt ∧ (settle b s).ddt = s.ddt := by
  have r := (kept_settle b s).rest
  rw [r]; exact ⟨rfl, rfl⟩

theorem revokeBay_motion (bay : Bay) (s : State) : (revokeBay bay s).mpt = s.mpt ∧ (revokeBay bay s).ddt = s.ddt := by
  unfold revokeBay; split <;> exact ⟨rfl, rfl⟩

theorem publishPhase_motion (p q : MotionPhase) (s : State) : (publishPhase p q s).mpt = s.mpt ∧ (publishPhase p q s).ddt = s.ddt := by
  unfold publishPhase motionLeft motionReturned
  split
  · rw [(settle_motion _ _).1, (settle_motion _ _).2]
    constructor <;> simp only [breMotion, revokeBay_motion]
  · split
    · rw [(settle_motion _ _).1, (settle_motion _ _).2]
      exact ⟨rfl, rfl⟩
    · exact ⟨rfl, rfl⟩

theorem raiseMotion_motion (es : List MotionEvent) (s : State) : (raiseMotion es s).mpt = s.mpt ∧ (raiseMotion es s).ddt = s.ddt := by
  unfold raiseMotion raiseIf; split <;> split <;> split <;> exact ⟨rfl, rfl⟩

/-- R130: the port and the detector after a frame. -/
theorem frameTaken_motion (f : AccelFrame) (s : State) :
    (frameTaken f s).mpt = s.mpt.frameTaken f ∧ (frameTaken f s).ddt = (ddtAfter f s).1 := by
  unfold frameTaken
  simp only [publishPhase_motion, raiseMotion_motion]
  trivial

/-- R139 to R146: no event of the detector is one of the link's. -/
theorem takeSample_link (c : MotionContext) (e : Sample) (d : Ddt) (x : MotionEvent)
    (h : (takeSample c e d).2.contains x = true) : x ≠ .linkLost ∧ x ≠ .linkRecovered := by
  rw [takeSample_events] at h
  rcases h with h | h
  · rw [h.1]; decide
  · rcases p : d.phase with _ | _ | _ | _
    · have ps : (phaseStep c (magnitude d e) e (seen c e d)) = stillStep c (magnitude d e) e (seen c e d) := by
        have p' : (seen c e d).phase = .still := p
        simp only [phaseStep, p']
      rw [ps, stillStep_events] at h; rw [h.1]; decide
    · have ps : (phaseStep c (magnitude d e) e (seen c e d)) = fallingStep c (magnitude d e) e (seen c e d) := by
        have p' : (seen c e d).phase = .falling := p
        simp only [phaseStep, p']
      rw [ps, fallingStep_events] at h; rcases h with h | h <;> rw [h.1] <;> decide
    · have ps : (phaseStep c (magnitude d e) e (seen c e d)) = impactStep c (magnitude d e) e (seen c e d) := by
        have p' : (seen c e d).phase = .impact := p
        simp only [phaseStep, p']
      rw [ps, impactStep_events] at h; rw [h.1]; decide
    · rcases b : d.blind with _ | _
      · have ps : (phaseStep c (magnitude d e) e (seen c e d)) = settlingStep c (magnitude d e) e (seen c e d) := by
          have p' : (seen c e d).phase = .settling := p
          have b' : (seen c e d).blind = false := b
          simp only [phaseStep, p', b', Bool.false_eq_true, if_false]
        rw [ps, settlingStep_events] at h
        rcases h with ⟨h | h, _⟩ | ⟨h | h, _⟩ <;> first | (rw [h]; decide) | (rw [h.1]; decide)
      · have ps : (phaseStep c (magnitude d e) e (seen c e d)) = blindStep c (seen c e d) := by
          have p' : (seen c e d).phase = .settling := p
          have b' : (seen c e d).blind = true := b
          simp only [phaseStep, p', b', if_true]
        rw [ps, blindStep_events] at h
        rcases h with ⟨h | h, _⟩ <;> first | (rw [h]; decide) | (rw [h.1]; decide)

/-- The link's events of a frame, and the detector's. -/
theorem frameEvents_contains (f : AccelFrame) (s : State) (x : MotionEvent) :
    (frameEvents f s).contains x = true ↔
      (x = .linkLost ∧ losesLink s.mpt (judge s.mpt.lastCount f) = true) ∨
        (x = .linkRecovered ∧ recoversLink s.mpt (judge s.mpt.lastCount f) = true) ∨ (ddtAfter f s).2.contains x = true := by
  unfold frameEvents
  cases losesLink s.mpt (judge s.mpt.lastCount f) <;> cases recoversLink s.mpt (judge s.mpt.lastCount f) <;> simp

/-- The detector's events of a frame that has a sample. -/
theorem ddtAfter_some (f : AccelFrame) (s : State) (e : Sample) (h : producedSample s.mpt f = some e) :
    ddtAfter f s =
      (linkStep (motionContext s (s.mpt.frameTaken f)) (takeSample (motionContext s (s.mpt.frameTaken f)) e s.ddt).1,
        (takeSample (motionContext s (s.mpt.frameTaken f)) e s.ddt).2) := by
  simp only [ddtAfter, h, ddtStep]

theorem ddtAfter_none (f : AccelFrame) (s : State) (h : producedSample s.mpt f = none) :
    ddtAfter f s = (linkStep (motionContext s (s.mpt.frameTaken f)) s.ddt, []) := by
  simp only [ddtAfter, h, ddtStep]

/-- R142 to R146, R152, R153: the detector's events among a frame's. -/
theorem eventsAre_frameEvents (f : AccelFrame) (s : State) (e : Sample) (h : producedSample s.mpt f = some e) :
    EventsAre (motionContext s (s.mpt.frameTaken f)) e s.ddt (frameEvents f s) := by
  have a := eventsAre_takeSample (motionContext s (s.mpt.frameTaken f)) e s.ddt
  have g : ∀ x, x ≠ .linkLost → x ≠ .linkRecovered → ((frameEvents f s).contains x = true ↔
      (takeSample (motionContext s (s.mpt.frameTaken f)) e s.ddt).2.contains x = true) := by
    intro x p q
    rw [frameEvents_contains, ddtAfter_some f s e h]
    simp [p, q]
  refine ⟨?_, ?_, ?_, ?_, ?_, ?_, ?_, ?_, ?_⟩ <;> rw [g _ (by simp) (by simp)]
  · exact a.fallQualified
  · exact a.softLanding
  · exact a.fallTimeout
  · exact a.impactExit
  · exact a.settled
  · exact a.settleTimeout
  · exact a.blindHoldEnd
  · simp only [g .settled (by simp) (by simp), g .settleTimeout (by simp) (by simp), g .blindHoldEnd (by simp) (by simp)]
    exact a.recordClosed
  · exact a.traceFrozen

theorem ddtAfter_link (f : AccelFrame) (s : State) (x : MotionEvent) (h : (ddtAfter f s).2.contains x = true) :
    x ≠ .linkLost ∧ x ≠ .linkRecovered := by
  cases g : producedSample s.mpt f with
  | none => rw [ddtAfter_none f s g] at h; simp at h
  | some e => rw [ddtAfter_some f s e g] at h; exact takeSample_link _ _ _ _ h

/-- R133: a frame loses the link at the eighth rejected frame in a row. -/
theorem linkLost_iff (f : AccelFrame) (s : State) :
    (frameEvents f s).contains .linkLost = true ↔
      s.mpt.link ≠ .lost ∧ (judge s.mpt.lastCount f).rejected = true ∧ 8 ≤ s.mpt.rejectedRun + 1 := by
  have n : ¬(ddtAfter f s).2.contains .linkLost = true := fun h => (ddtAfter_link f s _ h).1 rfl
  rw [frameEvents_contains]
  simp only [n, reduceCtorEq, false_and, or_false, true_and, losesLink, Bool.and_eq_true, bne_iff_ne, nextRejectedRun, Config.lostRun]
  by_cases hj : (judge s.mpt.lastCount f).rejected = true
  · simp only [hj, if_true, true_and, decide_eq_true_eq]
    exact and_congr_right fun _ => by omega
  · simp [hj]

/-- R133: an accepted frame recovers a LOST link at the end of the recovery run. -/
theorem linkRecovered_iff (f : AccelFrame) (s : State) (h : s.mpt.recoveryRun < 16) :
    (frameEvents f s).contains .linkRecovered = true ↔
      s.mpt.link = .lost ∧ FrameAccepted s.mpt f ∧ 16 ≤ s.mpt.recoveryRun + 1 := by
  have n : ¬(ddtAfter f s).2.contains .linkRecovered = true := fun h => (ddtAfter_link f s _ h).2 rfl
  rw [frameEvents_contains, judge_accepted]
  simp only [n, reduceCtorEq, false_and, or_false, false_or, true_and, recoversLink, Bool.and_eq_true, beq_iff_eq, Config.recoveryRun]
  refine and_congr_right fun l => ?_
  have lose : losesLink s.mpt (judge s.mpt.lastCount f) = false := by simp [losesLink, l]
  simp only [nextRecoveryRun, lose, Bool.false_eq_true, if_false, l, if_true, Config.recoveryRun]
  cases judge s.mpt.lastCount f <;> simp [Verdict.rejected, Verdict.isAccepted] <;> omega

theorem judge_rejected (m : Mpt) (f : AccelFrame) :
    (judge m.lastCount f).rejected = true ↔
      f.check ≠ f.status ^^^ f.xHi ^^^ f.xLo ^^^ f.yHi ^^^ f.yLo ^^^ f.zHi ^^^ f.zLo ^^^ 0xFF ∨ f.status.getLsbD 0 = true := by
  have e : (f.check ≠ frameCheck f) = (f.check ≠ f.status ^^^ f.xHi ^^^ f.xLo ^^^ f.yHi ^^^ f.yLo ^^^ f.zHi ^^^ f.zLo ^^^ 0xFF) := rfl
  rw [← e]
  unfold judge
  by_cases a : f.check ≠ frameCheck f
  · simp [a, Verdict.rejected]
  · by_cases b : f.status.getLsbD 0 = true
    · simp only [a, b, if_true, if_false]; simp [Verdict.rejected]
    · simp only [a, b, if_false, Bool.false_eq_true, or_self, iff_false, Bool.not_eq_true]
      cases flagSet f
      · cases m.lastCount with
        | none => simp [Verdict.rejected]
        | some n => by_cases g : frameCount f = n <;> simp [g, Verdict.rejected]
      · simp [Verdict.rejected]

end Sys2Proof.Machine
end

