-- ==== Sys2Proof/Laws/Ended.lean ====
section
/-! SUPPORT. Releases as an event ends: what the LTC makes of the answer to the ask that started a RELEASE switchover (R55), of the
PENDING bays that an event evaluates (R54), and of a phase that leaves STILL or returns (R58). -/

namespace Sys2Proof.Machine

open Sys2Proof.Safety

/-! ### What the rest of the event keeps -/

/-- A reply owed to no request stays so (R172). -/
theorem answerRelease_owed (bay : Bay) (st : Status) (f : Option FailReason) (s : State) (h : s.slu.owedRelease = none) :
    (answerRelease bay st f s).slu.owedRelease = none := by
  unfold answerRelease
  split
  · dsimp only
    have e : (clearOwed bay s).slu.owedRelease = none := h
    rw [e]
    exact h
  · exact h

theorem startSwitchover_ltc (reason : SwReason) (f : Option Source) (t : Source) (tried : List Source) (s : State) :
    (startSwitchover reason f t tried s).ltc = s.ltc ∧ (startSwitchover reason f t tried s).slu = s.slu ∧
      (startSwitchover reason f t tried s).ddt = s.ddt := by
  unfold startSwitchover; dsimp only; split <;> exact ⟨rfl, rfl, rfl⟩

theorem evaluate_owed (bay : Bay) (s : State) (h : s.slu.owedRelease = none) : (evaluate bay s).slu.owedRelease = none := by
  unfold evaluate askRelease
  repeat' split
  · exact h
  · exact h
  · exact h
  · exact h
  · unfold grantBay
    rw [raise_slu, raised_owedRelease]; exact answerRelease_owed _ _ _ _ h
  · unfold refuseBay
    rw [raise_slu, raised_owedRelease]; exact answerRelease_owed _ _ _ _ h
  · show (startSwitchover _ _ _ _ _).slu.owedRelease = none
    rw [(startSwitchover_ltc _ _ _ _ _).2.1]; exact h

theorem evaluateDue_owed (bay : Bay) (s : State) (h : s.slu.owedRelease = none) : (evaluateDue bay s).slu.owedRelease = none := by
  unfold evaluateDue; split
  · exact evaluate_owed _ _ h
  · exact h

theorem settle_owed (b : Bool) (s : State) (h : s.slu.owedRelease = none) : (settle b s).slu.owedRelease = none := by
  have g : (examineHeld s).slu.owedRelease = none := (calm_examineHeld s).owedRelease.trans h
  cases b
  · rw [settle_false]; exact (calm_afterReleases _).owedRelease.trans g
  · rw [settle_true]
    exact (calm_afterReleases _).owedRelease.trans (evaluateDue_owed _ _ (evaluateDue_owed _ _ g))

/-- A release that is not PENDING is not evaluated. -/
theorem settle_latch_kept (b : Bool) (s : State) (bay : Bay) (h : (s.latch bay).release ≠ .pending) :
    (settle b s).latch bay = s.latch bay :=
  ((ran_settle b s).latch bay).resolve_right fun x => h x.1

/-- Outside STILL an evaluation leaves the bay PENDING for the motion phase (R53). -/
theorem evaluateDue_motion (x : Bay) (s : State) (m : s.ddt.phase ≠ .still) (bay : Bay)
    (p : s.latch bay = { s.latch bay with release := .pending, cause := .motion }) :
    (evaluateDue x s).latch bay = s.latch bay ∧ (evaluateDue x s).ddt = s.ddt := by
  unfold evaluateDue
  split
  · unfold evaluate
    rw [if_pos m]
    unfold pendFor
    refine ⟨?_, rfl⟩
    rw [setLatch_latch]
    split
    · rename_i e
      subst e
      rw [p]
    · rfl
  · exact ⟨rfl, rfl⟩

theorem settle_latch_motion (b : Bool) (s : State) (m : s.ddt.phase ≠ .still) (bay : Bay)
    (p : s.latch bay = { s.latch bay with release := .pending, cause := .motion }) : (settle b s).latch bay = s.latch bay := by
  have l : ∀ v w : State, w.ltc = v.ltc → w.latch bay = v.latch bay := fun v w e => by unfold State.latch; rw [e]
  have a := calm_examineHeld s
  have e1 := l _ _ a.ltc
  have d1 : (examineHeld s).ddt = s.ddt := by rw [a.rest]
  cases b
  · rw [settle_false]; exact (l _ _ (calm_afterReleases _).ltc).trans e1
  · rw [settle_true]
    refine (l _ _ (calm_afterReleases _).ltc).trans ?_
    have one := evaluateDue_motion (examineHeld s).ltc.older (examineHeld s) (by rw [d1]; exact m) bay (by rw [e1]; exact p)
    have two := evaluateDue_motion (otherBay (examineHeld s).ltc.older) (evaluateDue (examineHeld s).ltc.older (examineHeld s))
      (by rw [one.2, d1]; exact m) bay (by rw [one.1, e1]; exact p)
    exact (two.1.trans one.1).trans e1

/-! ### The grant and the refusal -/

theorem answerRelease_some (bay : Bay) (st : Status) (f : Option FailReason) (s : State) (tag : Byte)
    (h : (s.latch bay).hostOwed = true) (o : s.slu.owedRelease = some tag) :
    (answerRelease bay st f s).slu =
      { s.slu with
        owedRelease := none
        fifo := s.slu.fifo ++
          [{ tag := tag
             payload := replyPayload (ReqKind.byte .releaseBay) st f (latchBytes (answerRelease bay st f s) bay) }] } := by
  unfold answerRelease
  rw [if_pos h]
  dsimp only
  have e : (clearOwed bay s).slu.owedRelease = some tag := o
  rw [e]
  rfl

theorem grantBay_latch (bay : Bay) (s : State) :
    (grantBay bay s).latch bay = { (s.latch bay).grant with hostOwed := false } := by
  unfold grantBay
  rw [raise_latch, answerRelease_latch, if_pos rfl]
  show ({ ((s.setLatch bay (s.latch bay).grant).latch bay) with hostOwed := false } : LatchRecord) = _
  rw [setLatch_latch, if_pos rfl]

theorem refuseBay_latch (bay : Bay) (s : State) :
    (refuseBay bay s).latch bay = { (s.latch bay).endRelease .refused with hostOwed := false } := by
  unfold refuseBay
  rw [raise_latch, answerRelease_latch, if_pos rfl, setLatch_latch, if_pos rfl]

theorem raised_release_le (u : Slu) (h : inMask u.noticeMask .release = true) :
    (u.raised .release).outbox.release = min 255 (u.outbox.release + 1) := by
  unfold Slu.raised; rw [if_pos h]; rfl

/-- What the rest of an event does after an evaluation of a bay. -/
structure RestOf (s t : State) : Prop where
  ran : Ran s t
  carries : Carries s t
  owed : s.slu.owedRelease = none → t.slu.owedRelease = none

theorem RestOf.trans {s t u : State} (h : RestOf s t) (g : RestOf t u) : RestOf s u :=
  ⟨h.ran.trans g.ran, h.carries.trans g.carries, fun x => g.owed (h.owed x)⟩

theorem RestOf.refl (s : State) : RestOf s s := ⟨Ran.refl s, Carries.refl s, id⟩

theorem restOf_settle (b : Bool) (s : State) : RestOf s (settle b s) := ⟨ran_settle b s, carries_settle b s, settle_owed b s⟩

theorem restOf_afterReleases (s : State) : RestOf s (afterReleases s) :=
  ⟨ran_afterReleases s, carries_afterReleases s, fun h => (calm_afterReleases s).owedRelease.trans h⟩

theorem restOf_evaluateDue (bay : Bay) (s : State) : RestOf s (evaluateDue bay s) :=
  ⟨ran_evaluateDue bay s, carries_evaluateDue bay s, evaluateDue_owed bay s⟩

/-- What an evaluation of a bay needs of the state before its event's operations. -/
structure Waiting (bay : Bay) (w v : State) : Prop where
  latch : v.latch bay = w.latch bay
  tx : v.slu.tx = w.slu.tx
  mask : v.slu.noticeMask = w.slu.noticeMask
  owed : v.slu.owedRelease = w.slu.owedRelease
  notices : min 255 w.slu.outbox.release ≤ v.slu.outbox.release

/-- The record, the pack info, the notice and the reply that a grant leaves, carried to the end of its event. -/
theorem bayGranted_of (bay : Bay) (w v t : State) (from_ : Waiting bay w v) (rest : RestOf (grantBay bay v) t) :
    BayGranted (Joins w t) bay w t := by
  obtain ⟨lat, tx, mask, owed, out⟩ := from_
  have r := rest.ran
  have c := rest.carries
  have l : t.latch bay = (grantBay bay v).latch bay :=
    (r.latch bay).resolve_right fun x => by rw [grantBay_latch] at x; simp [LatchRecord.grant] at x
  have slu : (grantBay bay v).slu = (answerRelease bay .ok none (clearPack bay (v.setLatch bay (v.latch bay).grant))).slu.raised .release := rfl
  have arl := answerRelease_slu bay .ok none (clearPack bay (v.setLatch bay (v.latch bay).grant))
  have gtx : (grantBay bay v).slu.tx = w.slu.tx := by
    rw [slu, raised_tx, arl.1]; exact tx
  refine ⟨?_, ?_, fun x m => ?_, fun tag ho o => ?_⟩
  · rw [l, grantBay_latch, lat]; rfl
  · refine r.pack bay ?_
    show (answerRelease _ _ _ _).spc.packInfo.get bay = none
    rw [answerRelease_spc]
    show (v.spc.packInfo.set bay none).get bay = none
    simp
  · refine r.counts .release _ (Nat.min_le_left _ _) ?_
    rw [slu]
    show _ ≤ (Slu.raised _ .release).outbox.release
    have ms : (answerRelease bay .ok none (clearPack bay (v.setLatch bay (v.latch bay).grant))).slu.noticeMask = w.slu.noticeMask := by
      have k := (kept_answerRelease bay .ok none (clearPack bay (v.setLatch bay (v.latch bay).grant))).link
      rw [k]; exact mask
    rw [raised_release_le _ (by rw [ms]; exact m), arl.2]
    show _ ≤ min 255 (v.slu.outbox.release + 1)
    omega
  · have y := answerRelease_some bay .ok none (clearPack bay (v.setLatch bay (v.latch bay).grant)) tag
      (by
        show ((v.setLatch bay (v.latch bay).grant).latch bay).hostOwed = true
        rw [setLatch_latch, if_pos rfl, lat]; exact ho)
      (by show v.slu.owedRelease = _; rw [owed]; exact o)
    refine ⟨rest.owed ?_, fun x => (c.sending (by rw [gtx]; exact x)).2 _ ?_⟩
    · rw [slu, raised_owedRelease, y]
    · rw [slu, raised_fifo, y]
      refine List.mem_append_right _ (List.mem_singleton.mpr ?_)
      have e : latchBytes t bay = latchBytes (answerRelease bay .ok none (clearPack bay (v.setLatch bay (v.latch bay).grant))) bay := by
        unfold latchBytes
        rw [l]; rfl
      rw [e]
      rfl

/-- The record, the notice and the reply that a refusal leaves, carried to the end of its event. -/
theorem bayRefused_of (bay : Bay) (w v t : State) (from_ : Waiting bay w v) (rest : RestOf (refuseBay bay v) t) :
    BayRefused (Joins w t) bay w t := by
  obtain ⟨lat, tx, mask, owed, out⟩ := from_
  have r := rest.ran
  have c := rest.carries
  have l : t.latch bay = (refuseBay bay v).latch bay :=
    (r.latch bay).resolve_right fun x => by rw [refuseBay_latch] at x; simp [LatchRecord.endRelease] at x
  have slu : (refuseBay bay v).slu =
      (answerRelease bay .failed (some .soleSource) (v.setLatch bay ((v.latch bay).endRelease .refused))).slu.raised .release := rfl
  have arl := answerRelease_slu bay .failed (some .soleSource) (v.setLatch bay ((v.latch bay).endRelease .refused))
  have gtx : (refuseBay bay v).slu.tx = w.slu.tx := by
    rw [slu, raised_tx, arl.1]; exact tx
  refine ⟨?_, fun x m => ?_, fun tag ho o => ?_⟩
  · rw [l, refuseBay_latch, lat]; rfl
  · refine r.counts .release _ (Nat.min_le_left _ _) ?_
    rw [slu]
    show _ ≤ (Slu.raised _ .release).outbox.release
    have ms : (answerRelease bay .failed (some .soleSource) (v.setLatch bay ((v.latch bay).endRelease .refused))).slu.noticeMask =
        w.slu.noticeMask := by
      have k := (kept_answerRelease bay .failed (some .soleSource) (v.setLatch bay ((v.latch bay).endRelease .refused))).link
      rw [k]; exact mask
    rw [raised_release_le _ (by rw [ms]; exact m), arl.2]
    show _ ≤ min 255 (v.slu.outbox.release + 1)
    omega
  · have y := answerRelease_some bay .failed (some .soleSource) (v.setLatch bay ((v.latch bay).endRelease .refused)) tag
      (by rw [setLatch_latch, if_pos rfl, lat]; exact ho)
      (by show v.slu.owedRelease = _; rw [owed]; exact o)
    refine ⟨rest.owed ?_, fun x => (c.sending (by rw [gtx]; exact x)).2 _ ?_⟩
    · rw [slu, raised_owedRelease, y]
    · rw [slu, raised_fifo, y]
      refine List.mem_append_right _ (List.mem_singleton.mpr ?_)
      have e : latchBytes t bay =
          latchBytes (answerRelease bay .failed (some .soleSource) (v.setLatch bay ((v.latch bay).endRelease .refused))) bay := by
        unfold latchBytes
        rw [l]; rfl
      rw [e]
      rfl

/-! ### The end of the switchover -/

/-- R32, R55: the end of the switchover that a bay's ask has started. -/
theorem endSwitchover_ask (o : SwOutcome) (fail : FailReason) (bay : Bay) (s : State) (h : AskInFlight bay s) :
    endSwitchover o fail s =
      settle true
        (if o = .failed then refuseBay bay (endedState o s) else evaluate bay (endedState o s)) := by
  have c := calm_publishSituation { s with spc := s.spc.ended o }
  have e : (endedState o s).latch bay = s.latch bay := by
    unfold State.latch endedState; rw [c.ltc]
  have k : askRuns (endedState o s) bay = true := by
    unfold askRuns
    rw [e, h.pending, h.cause]; rfl
  have a : endSwitchover o fail s =
      settle true
        (retryHeld s.spc.sw.reason s.spc.sw.toSrc o
          (answerStarter s.spc.sw.reason s.spc.sw.fromSrc o fail (endedState o s))) := rfl
  rw [a, h.reason, h.source]
  have n : ∀ p v, retryHeld .release p o v = v := fun p v => by
    unfold retryHeld; simp [SwReason.held]
  rw [n]
  simp only [answerStarter, Option.bind_some, sourceBay_baySource, answerAsk, k, if_true]
  cases o <;> rfl

theorem endedState_kept (o : SwOutcome) (s : State) :
    (∀ x, (endedState o s).latch x = s.latch x) ∧ (endedState o s).slu.noticeMask = s.slu.noticeMask ∧
      (endedState o s).slu.owedRelease = s.slu.owedRelease ∧ min 255 s.slu.outbox.release ≤ (endedState o s).slu.outbox.release ∧
      (endedState o s).ddt = s.ddt := by
  have c := calm_publishSituation { s with spc := s.spc.ended o }
  have r := ran_publishSituation { s with spc := s.spc.ended o }
  refine ⟨fun x => ?_, ?_, c.owedRelease, r.counts .release _ (Nat.min_le_left _ _) (Nat.min_le_right _ _), ?_⟩
  · unfold State.latch endedState; rw [c.ltc]
  · unfold endedState; rw [c.link]
  · unfold endedState; rw [c.rest]

/-- R55: the answer FAILED. -/
theorem bayRefused_endSwitchover (fail : FailReason) (bay : Bay) (s : State) (h : AskInFlight bay s) :
    BayRefused (Joins s (endSwitchover .failed fail s)) bay s (endSwitchover .failed fail s) := by
  have k := endedState_kept .failed s
  rw [endSwitchover_ask .failed fail bay s h, if_pos rfl]
  exact bayRefused_of bay s _ _ ⟨k.1 bay, (endedState_slu .failed s).2.2, k.2.1, k.2.2.1, k.2.2.2.1⟩ (restOf_settle true _)

/-- R55: the answer MOVED. -/
theorem askMoved_endSwitchover (o : SwOutcome) (fail : FailReason) (bay : Bay) (s : State) (h : AskInFlight bay s)
    (ne : o ≠ .failed) (off : (s.spc.ended o).feeding ≠ some (baySource bay)) :
    AskMoved (Joins s (endSwitchover o fail s)) bay s (endSwitchover o fail s) := by
  have k := endedState_kept o s
  have c := endedState_spc o s
  rw [endSwitchover_ask o fail bay s h, if_neg ne]
  refine ⟨fun m => ?_, fun st og oa => ?_⟩
  · have e : evaluate bay (endedState o s) = pendFor bay .motion (endedState o s) := by
      unfold evaluate; rw [if_pos (by rw [k.2.2.2.2]; exact m)]
    have l : (pendFor bay .motion (endedState o s)).latch bay = { s.latch bay with cause := .motion } := by
      unfold pendFor
      rw [setLatch_latch, if_pos rfl, k.1]
    rw [e]
    refine (settle_latch_motion true _ (by show (endedState o s).ddt.phase ≠ _; rw [k.2.2.2.2]; exact m) bay ?_).trans l
    rw [l, ← h.pending]
  · have e : evaluate bay (endedState o s) = grantBay bay (endedState o s) := by
      unfold evaluate
      rw [if_neg (by rw [k.2.2.2.2]; exact fun x => x st), k.1, if_neg og]
      have ar : askRuns (endedState o s) (otherBay bay) = false := by
        unfold askRuns at oa ⊢; rw [k.1]; exact oa
      rw [if_neg (by rw [ar]; simp)]
      have aa : askAnswer (endedState o s) bay = .moved := by
        unfold askAnswer
        rw [if_neg (by simp [inFlight, c.1]), if_pos (by rw [c.2.1]; exact off)]
      unfold askRelease
      rw [aa]
    rw [e]
    exact bayGranted_of bay s _ _ ⟨k.1 bay, (endedState_slu o s).2.2, k.2.1, k.2.2.1, k.2.2.2.1⟩ (restOf_settle true _)

/-! ### The evaluation of the PENDING bays (R54) -/

theorem latch_of_ltc {s t : State} (h : t.ltc = s.ltc) (x : Bay) : t.latch x = s.latch x := by unfold State.latch; rw [h]

theorem evaluate_other (x y : Bay) (h : y ≠ x) (s : State) : (evaluate x s).latch y = s.latch y := by
  have p : ∀ c v, (pendFor x c v).latch y = v.latch y := fun c v => by unfold pendFor; rw [setLatch_latch, if_neg h]
  unfold evaluate askRelease
  repeat' split
  · exact p _ _
  · exact p _ _
  · exact p _ _
  · exact p _ _
  · unfold grantBay
    rw [raise_latch, answerRelease_latch, if_neg h]
    show (s.setLatch x _).latch y = _
    rw [setLatch_latch, if_neg h]
  · unfold refuseBay
    rw [raise_latch, answerRelease_latch, if_neg h, setLatch_latch, if_neg h]
  · rw [p]; exact latch_of_ltc (startSwitchover_ltc _ _ _ _ _).1 y

theorem evaluateDue_other (x y : Bay) (h : y ≠ x) (s : State) : (evaluateDue x s).latch y = s.latch y := by
  unfold evaluateDue; split
  · exact evaluate_other x y h s
  · rfl

theorem evaluateDue_due {x : Bay} {s : State} (h : Due s x) : evaluateDue x s = evaluate x s := by
  unfold evaluateDue; exact if_pos h

theorem evaluateDue_notDue {x : Bay} {s : State} (h : ¬Due s x) : evaluateDue x s = s := by
  unfold evaluateDue; exact if_neg h

theorem due_of_latch {s t : State} {x : Bay} (h : t.latch x = s.latch x) : Due t x ↔ Due s x := by unfold Due; rw [h]

theorem waiting_examineHeld (bay : Bay) (u : State) : Waiting bay u (examineHeld u) := by
  have c := calm_examineHeld u
  exact ⟨latch_of_ltc c.ltc _, by rw [c.link], by rw [c.link], c.owedRelease,
    (ran_examineHeld u).counts .release _ (Nat.min_le_left _ _) (Nat.min_le_right _ _)⟩

theorem heldStarts_inFlight {u : State} (h : HeldStarts u) : inFlight (examineHeld u) = true := by
  obtain ⟨c, e, t⟩ := h
  obtain ⟨r, e⟩ := Option.ne_none_iff_exists'.mp e
  obtain ⟨x, t⟩ := Option.ne_none_iff_exists'.mp t
  rw [(examineHeld_cases u).2.2.1 r x e c t]
  have k := canStart_false_of_started r u.spc.feeding x [] u
  unfold inFlight; rw [k.1]
  cases chooseMode u u.spc.feeding x <;> cases u.spc.feeding <;> rfl

theorem noted_examineHeld {u : State} (h : ¬HeldStarts u) : Noted u (examineHeld u) := by
  have c := examineHeld_cases u
  cases hc : heldCondition u with
  | none => rw [c.1 hc]; exact ⟨rfl⟩
  | some r =>
    cases cs : canStart u with
    | false => rw [c.2.1 r hc cs]; exact ⟨rfl⟩
    | true =>
      cases ht : chooseTarget u u.spc.feeding [] with
      | some x => exact absurd ⟨cs, by simp [hc], by simp [ht]⟩ h
      | none =>
        rw [c.2.2.2 r hc cs ht]
        unfold markSole
        split
        · exact ⟨rfl⟩
        · exact ⟨rfl⟩

theorem examineHeld_inFlight {u : State} (h : inFlight u = true) : inFlight (examineHeld u) = true := by
  by_cases g : HeldStarts u
  · exact heldStarts_inFlight g
  · rw [(noted_examineHeld g).eq]; exact h

/-- The bay that asks first is evaluated on the state that the examination of EMPTY and HOT leaves. -/
theorem asksFirst_settle {u : State} {bay : Bay} (h : AsksFirst u bay) :
    RestOf (evaluate bay (examineHeld u)) (settle true u) ∧
      (settle true u).latch bay = (evaluate bay (examineHeld u)).latch bay := by
  have c := calm_examineHeld u
  have d : ∀ x, Due (examineHeld u) x ↔ Due u x := fun x => due_of_latch (latch_of_ltc c.ltc x)
  have ol : (examineHeld u).ltc.older = u.ltc.older := by rw [c.ltc]
  have fin : ∀ v, (afterReleases v).latch bay = v.latch bay := fun v => latch_of_ltc (calm_afterReleases v).ltc bay
  rw [settle_true]
  unfold evaluateAll
  rw [ol]
  by_cases o : u.ltc.older = bay
  · rw [o, evaluateDue_due ((d bay).mpr h.due)]
    refine ⟨(restOf_evaluateDue _ _).trans (restOf_afterReleases _), ?_⟩
    rw [fin, evaluateDue_other _ _ (ne_otherBay bay)]
  · have o' : u.ltc.older = otherBay bay := by
      cases bay <;> cases e : u.ltc.older <;> first | rfl | exact absurd e o
    have nd : ¬Due u (otherBay bay) := fun x => o (h.older x)
    rw [o', otherBay_otherBay, evaluateDue_notDue (fun x => nd ((d _).mp x)), evaluateDue_due ((d bay).mpr h.due)]
    exact ⟨restOf_afterReleases _, fin _⟩

theorem evaluate_asks {v : State} {bay : Bay} (still : v.ddt.phase = .still) (other : (v.latch (otherBay bay)).release ≠ .granted) :
    evaluate bay v = if askRuns v (otherBay bay) = true then pendFor bay .supplyBusy v else askRelease bay v := by
  unfold evaluate
  rw [if_neg (fun x => x still), if_neg other]

theorem askRuns_latch {s t : State} {x : Bay} (h : t.latch x = s.latch x) : askRuns t x = askRuns s x := by
  unfold askRuns; rw [h]

/-- R53: an ask with a switchover in flight. -/
theorem askRelease_wait {v : State} (bay : Bay) (h : inFlight v = true) : askRelease bay v = pendFor bay .supplyBusy v := by
  simp only [askRelease, askAnswer, h, if_true]

theorem askRelease_moved {v : State} {bay : Bay} (h : inFlight v = false) (f : v.spc.feeding ≠ some (baySource bay)) :
    askRelease bay v = grantBay bay v := by
  simp [askRelease, askAnswer, h, f]

theorem askRelease_feeds {v : State} {bay : Bay} (h : inFlight v = false) (f : v.spc.feeding = some (baySource bay)) :
    (∀ x, chooseTarget v v.spc.feeding [] = some x →
      askRelease bay v = pendFor bay .switchover (startSwitchover .release v.spc.feeding x [] v)) ∧
    (chooseTarget v v.spc.feeding [] = none → askRelease bay v = refuseBay bay v) := by
  refine ⟨fun x e => ?_, fun e => ?_⟩ <;> unfold askRelease askAnswer <;> simp only [h, f] at e ⊢ <;> simp [e]

/-- What the first bay's ask makes of it. -/
theorem asksFirst_cases {u : State} {bay : Bay} (h : AsksFirst u bay) :
    (inFlight u = true ∨ askRuns u (otherBay bay) = true ∨ HeldStarts u →
      evaluate bay (examineHeld u) = pendFor bay .supplyBusy (examineHeld u)) ∧
    (inFlight u = false → askRuns u (otherBay bay) = false → ¬HeldStarts u →
      (u.spc.feeding ≠ some (baySource bay) → evaluate bay (examineHeld u) = grantBay bay (examineHeld u)) ∧
      (u.spc.feeding = some (baySource bay) →
        (∀ x, chooseTarget u u.spc.feeding [] = some x → evaluate bay (examineHeld u) =
          pendFor bay .switchover (startSwitchover .release u.spc.feeding x [] (examineHeld u))) ∧
        (chooseTarget u u.spc.feeding [] = none → evaluate bay (examineHeld u) = refuseBay bay (examineHeld u)))) := by
  have c := calm_examineHeld u
  have l := fun x => latch_of_ltc c.ltc x
  have ev := evaluate_asks (v := examineHeld u) (bay := bay) (by rw [c.rest]; exact h.still) (by rw [l]; exact h.other)
  rw [askRuns_latch (l (otherBay bay))] at ev
  rw [ev]
  refine ⟨fun w => ?_, fun fl ar nh => ?_⟩
  · split
    · rfl
    · rename_i n
      refine askRelease_wait bay ?_
      rcases w with w | w | w
      · exact examineHeld_inFlight w
      · exact absurd w n
      · exact heldStarts_inFlight w
  · have nt := noted_examineHeld nh
    have fl' : inFlight (examineHeld u) = false := by rw [nt.eq]; exact fl
    have fe : (examineHeld u).spc.feeding = u.spc.feeding := by rw [nt.eq]
    have ct : chooseTarget (examineHeld u) u.spc.feeding [] = chooseTarget u u.spc.feeding [] := by rw [nt.eq]; rfl
    rw [if_neg (by rw [ar]; simp)]
    refine ⟨fun f => askRelease_moved fl' (by rw [fe]; exact f), fun f => ?_⟩
    have k := askRelease_feeds (bay := bay) fl' (by rw [fe]; exact f)
    rw [fe, ct] at k
    exact k

theorem pendFor_record {bay : Bay} {u v : State} (h : v.latch bay = u.latch bay) (c : PendingCause) :
    (pendFor bay c v).latch bay = { u.latch bay with cause := c } := by rw [pendFor_latch, h]

/-- R54: an event that calls for the evaluation of the PENDING bays. -/
theorem pendingEvaluated_settle (u : State) (bay : Bay) : PendingEvaluated u (settle true u) bay := by
  have c := calm_examineHeld u
  have l := fun x => latch_of_ltc c.ltc x
  have ph : (examineHeld u).ddt = u.ddt := by rw [c.rest]
  have d : ∀ x, Due (examineHeld u) x ↔ Due u x := fun x => due_of_latch (l x)
  have ol : (examineHeld u).ltc.older = u.ltc.older := by rw [c.ltc]
  have fin : ∀ v x, (afterReleases v).latch x = v.latch x := fun v x => latch_of_ltc (calm_afterReleases v).ltc x
  have st := settle_true u
  -- one evaluation that leaves a cause, whatever the other bay's
  have ea : ∀ x, (evaluateAll x) = evaluateDue (otherBay x.ltc.older) (evaluateDue x.ltc.older x) := fun _ => rfl
  refine ⟨fun n => ?_, fun du m => ?_, fun du s g => ?_, fun a w => ?_, fun a fl ar nh f => ?_, fun a fl ar nh f x t => ?_,
    fun a fl ar nh f t => ?_, fun du a o => ?_⟩
  · rw [st, fin, ea, ol]
    by_cases o : u.ltc.older = bay
    · rw [o, evaluateDue_notDue (fun x => n ((d _).mp x)), evaluateDue_other _ _ (ne_otherBay bay), l]
    · have o' : otherBay u.ltc.older = bay := by cases bay <;> cases e : u.ltc.older <;> first | rfl | exact absurd e o
      have e : (evaluateDue u.ltc.older (examineHeld u)).latch bay = u.latch bay := by
        rw [evaluateDue_other _ _ (fun x => o x.symm), l]
      rw [o', evaluateDue_notDue (fun x => n ((due_of_latch e).mp x)), e]
  · have one : ∀ v : State, v.latch bay = u.latch bay → v.ddt = u.ddt → (evaluateDue bay v).latch bay = { u.latch bay with cause := .motion } := by
      intro v e dd
      rw [evaluateDue_due ((due_of_latch e).mpr du)]
      unfold evaluate
      rw [if_pos (by rw [dd]; exact m)]
      exact pendFor_record e _
    rw [st, fin, ea, ol]
    by_cases o : u.ltc.older = bay
    · rw [o, evaluateDue_other _ _ (ne_otherBay bay)]; exact one _ (l _) ph
    · have o' : otherBay u.ltc.older = bay := by cases bay <;> cases e : u.ltc.older <;> first | rfl | exact absurd e o
      rw [o']
      exact one _ (by rw [evaluateDue_other _ _ (fun x => o x.symm), l]) (by
        have k := (kept_evaluateDue u.ltc.older (examineHeld u)).rest
        rw [k]; exact ph)
  · have ndo : ¬Due u (otherBay bay) := fun x => by rw [x.1] at g; simp at g
    have one : (evaluateDue bay (examineHeld u)).latch bay = { u.latch bay with cause := .otherGrant } := by
      rw [evaluateDue_due ((d _).mpr du)]
      unfold evaluate
      rw [if_neg (by rw [ph]; exact fun x => x s), if_pos (by rw [l]; exact g)]
      exact pendFor_record (l _) _
    rw [st, fin, ea, ol]
    by_cases o : u.ltc.older = bay
    · rw [o, evaluateDue_other _ _ (ne_otherBay bay)]; exact one
    · have o' : u.ltc.older = otherBay bay := by cases bay <;> cases e : u.ltc.older <;> first | rfl | exact absurd e o
      rw [o', otherBay_otherBay, evaluateDue_notDue (fun x => ndo ((d _).mp x))]; exact one
  · rw [(asksFirst_settle a).2, (asksFirst_cases a).1 w]; exact pendFor_record (l _) _
  · have k := (asksFirst_settle a).1
    rw [((asksFirst_cases a).2 fl ar nh).1 f] at k
    exact bayGranted_of bay u _ _ (waiting_examineHeld bay u) k
  · have e := (((asksFirst_cases a).2 fl ar nh).2 f).1 x t
    have k := asksFirst_settle a
    rw [e] at k
    have nt := noted_examineHeld nh
    have sl := startSwitchover_ltc .release u.spc.feeding x [] (examineHeld u)
    refine ⟨k.2.trans (pendFor_record ((latch_of_ltc sl.1 bay).trans (l _)) _), ?_⟩
    have ss := canStart_false_of_started .release u.spc.feeding x [] (examineHeld u)
    have sw : (startSwitchover .release u.spc.feeding x [] (examineHeld u)).spc.sw = startedRecord u .release x := by
      rw [ss.1, startedRecord_phase, nt.eq]; rfl
    have fl2 : inFlight (pendFor bay .switchover (startSwitchover .release u.spc.feeding x [] (examineHeld u))) = true := by
      show inFlight (startSwitchover .release u.spc.feeding x [] (examineHeld u)) = true
      unfold inFlight
      rw [ss.1]
      cases chooseMode (examineHeld u) u.spc.feeding x <;> cases u.spc.feeding <;> rfl
    exact (k.1.carries.flight fl2).1.trans sw
  · have k := (asksFirst_settle a).1
    rw [(((asksFirst_cases a).2 fl ar nh).2 f).2 t] at k
    exact bayRefused_of bay u _ _ (waiting_examineHeld bay u) k
  · -- the younger bay, evaluated on the state that the older's evaluation leaves
    have od := a.due
    have e1 : evaluateAll (examineHeld u) = evaluateDue bay (evaluate (otherBay bay) (examineHeld u)) := by
      rw [ea, ol, o, otherBay_otherBay, evaluateDue_due ((d _).mpr od)]
    have lb : (evaluate (otherBay bay) (examineHeld u)).latch bay = u.latch bay := by
      rw [evaluate_other _ _ (ne_otherBay bay), l]
    have tb : (settle true u).latch bay = (evaluate bay (evaluate (otherBay bay) (examineHeld u))).latch bay := by
      rw [st, fin, e1, evaluateDue_due ((due_of_latch lb).mpr du)]
    have to_ : (settle true u).latch (otherBay bay) = (evaluate (otherBay bay) (examineHeld u)).latch (otherBay bay) :=
      (asksFirst_settle a).2
    generalize hw : evaluate (otherBay bay) (examineHeld u) = w at *
    have wp : w.ddt.phase = .still := by
      have k := (kept_evaluate (otherBay bay) (examineHeld u)).rest
      rw [hw] at k
      rw [k]; show (examineHeld u).ddt.phase = _; rw [ph]; exact a.still
    have cs := asksFirst_cases a
    rw [hw, otherBay_otherBay] at cs
    have arb : askRuns u bay = false := by
      unfold askRuns
      have := du.2
      simp [this]
    rw [tb, to_]
    by_cases busy : inFlight u = true ∨ askRuns u bay = true ∨ HeldStarts u
    · have ew := cs.1 busy
      have lo : w.latch (otherBay bay) = { u.latch (otherBay bay) with cause := .supplyBusy } := by rw [ew]; exact pendFor_record (l _) _
      have fl : inFlight w = true := by
        rw [ew]
        show inFlight (examineHeld u) = true
        rcases busy with b | b | b
        · exact examineHeld_inFlight b
        · rw [arb] at b; simp at b
        · exact heldStarts_inFlight b
      have rl : (w.latch (otherBay bay)).release = .pending := by rw [lo]; exact od.1
      refine ⟨fun g => by rw [rl] at g; simp at g, fun _ => ?_, fun g => by rw [rl] at g; simp at g⟩
      rw [evaluate_asks wp (by rw [rl]; simp), askRelease_wait bay fl]
      split <;> exact pendFor_record lb _
    · have nf : inFlight u = false := by cases q : inFlight u; rfl; exact absurd (.inl q) busy
      have nh : ¬HeldStarts u := fun x => busy (.inr (.inr x))
      have k := cs.2 nf arb nh
      have nt := noted_examineHeld nh
      by_cases f : u.spc.feeding = some (baySource (otherBay bay))
      · cases t : chooseTarget u u.spc.feeding [] with
        | some x =>
          have ew := (k.2 f).1 x t
          have sl := startSwitchover_ltc .release u.spc.feeding x [] (examineHeld u)
          have lo : w.latch (otherBay bay) = { u.latch (otherBay bay) with cause := .switchover } := by
            rw [ew]; exact pendFor_record ((latch_of_ltc sl.1 _).trans (l _)) _
          have rl : (w.latch (otherBay bay)).release = .pending := by rw [lo]; exact od.1
          refine ⟨fun g => by rw [rl] at g; simp at g, fun _ => ?_, fun g => by rw [rl] at g; simp at g⟩
          rw [evaluate_asks wp (by rw [rl]; simp), if_pos (by unfold askRuns; rw [lo]; simp [od.1])]
          exact pendFor_record lb _
        | none =>
          have ew := (k.2 f).2 t
          have rl : (w.latch (otherBay bay)).release = .idle := by rw [ew, refuseBay_latch]; rfl
          refine ⟨fun g => by rw [rl] at g; simp at g, fun g => by rw [rl] at g; simp at g, fun _ => ?_⟩
          have ws : w.spc = (examineHeld u).spc := by rw [ew]; exact answerRelease_spc ..
          rw [evaluate_asks wp (by rw [rl]; simp), if_neg (by unfold askRuns; rw [rl]; simp),
            askRelease_moved (by unfold inFlight; rw [ws, nt.eq]; exact nf)
              (by rw [ws, nt.eq]; show u.spc.feeding ≠ _; rw [f]; simp), grantBay_latch, lb]
          rfl
      · have ew := k.1 f
        have rl : (w.latch (otherBay bay)).release = .granted := by rw [ew, grantBay_latch]; rfl
        refine ⟨fun _ => ?_, fun g => by rw [rl] at g; simp at g, fun g => by rw [rl] at g; simp at g⟩
        unfold evaluate
        rw [if_neg (fun x => x wp), if_pos rl]
        exact pendFor_record lb _

/-! ### The motion phase leaves STILL or returns (R58) -/

theorem evaluateDue_motion_slu (x : Bay) (s : State) (m : s.ddt.phase ≠ .still) : (evaluateDue x s).slu = s.slu := by
  unfold evaluateDue
  split
  · unfold evaluate
    rw [if_pos m]; rfl
  · rfl

/-- Outside STILL no evaluation makes a reply. -/
theorem settle_motion_replies (b : Bool) (s : State) (m : s.ddt.phase ≠ .still) :
    (settle b s).slu.fifo = s.slu.fifo ∧ (settle b s).slu.owedRelease = s.slu.owedRelease := by
  have c := calm_examineHeld s
  have d : (examineHeld s).ddt = s.ddt := by rw [c.rest]
  cases b
  · have k := calm_settle s; exact ⟨k.fifo, k.owedRelease⟩
  · rw [settle_true]
    have a := calm_afterReleases (evaluateAll (examineHeld s))
    have e : (evaluateAll (examineHeld s)).slu = (examineHeld s).slu := by
      unfold evaluateAll
      rw [evaluateDue_motion_slu _ _ (by
        have k := (kept_evaluateDue (examineHeld s).ltc.older (examineHeld s)).rest
        rw [k]; show (examineHeld s).ddt.phase ≠ _; rw [d]; exact m), evaluateDue_motion_slu _ _ (by rw [d]; exact m)]
    exact ⟨a.fifo.trans (by rw [e]; exact c.fifo), a.owedRelease.trans (by rw [e]; exact c.owedRelease)⟩

theorem revokeBay_latch (x y : Bay) (s : State) :
    (revokeBay x s).latch y = if y = x ∧ (s.latch x).release = .granted then (s.latch x).revoke else s.latch y := by
  unfold revokeBay
  split
  · rename_i g
    rw [raise_latch, setLatch_latch]
    simp [g]
  · rename_i g
    rw [if_neg (fun h => g h.2)]

theorem revokeBay_slu (x : Bay) (s : State) :
    (revokeBay x s).slu = if (s.latch x).release = .granted then s.slu.raised .release else s.slu := by
  unfold revokeBay; split <;> rfl

/-- Both bays as the phase leaves STILL. -/
theorem revoked_latch (s : State) (bay : Bay) :
    (revokeBay .b (revokeBay .a s)).latch bay = if (s.latch bay).release = .granted then (s.latch bay).revoke else s.latch bay := by
  rw [revokeBay_latch, revokeBay_latch, revokeBay_latch]
  cases bay <;> simp

theorem revoked_slu (s : State) (bay : Bay) (g : (s.latch bay).release = .granted) (m : inMask s.slu.noticeMask .release = true) :
    min 255 (s.slu.outbox.release + 1) ≤ (revokeBay .b (revokeBay .a s)).slu.outbox.release := by
  have one := raised_release_le s.slu m
  have q : (if Bay.b = Bay.a ∧ (s.latch .a).release = .granted then (s.latch .a).revoke else s.latch .b) = s.latch .b :=
    if_neg (fun x => by simp at x)
  have two := raised_release_le (s.slu.raised .release) (by simpa using m)
  rw [revokeBay_slu, revokeBay_slu, revokeBay_latch, q]
  by_cases a : (s.latch .a).release = .granted <;> by_cases b : (s.latch .b).release = .granted <;> simp only [a, b, if_true, if_false, reduceCtorEq]
  · rw [two, one]; omega
  · rw [one]
  · rw [one]
  · cases bay
    · exact absurd g a
    · exact absurd g b

theorem revoked_tx (s : State) :
    (revokeBay .b (revokeBay .a s)).slu.tx = s.slu.tx ∧ (revokeBay .b (revokeBay .a s)).slu.fifo = s.slu.fifo ∧
      (revokeBay .b (revokeBay .a s)).slu.owedRelease = s.slu.owedRelease := by
  rw [revokeBay_slu, revokeBay_slu]
  split <;> split <;> simp

/-- R58: the phase has left STILL. -/
theorem revoked_motionLeft (s : State) (m : s.ddt.phase ≠ .still) (bay : Bay) : Revoked s (motionLeft s) bay := by
  unfold motionLeft
  generalize hr : breMotion true (revokeBay .b (revokeBay .a s)) = r
  have lat : r.latch bay = if (s.latch bay).release = .granted then (s.latch bay).revoke else s.latch bay := by
    rw [← hr]; exact revoked_latch s bay
  have slu : r.slu = (revokeBay .b (revokeBay .a s)).slu := by rw [← hr]; rfl
  have ph : r.ddt.phase ≠ .still := by
    rw [← hr]; show (revokeBay .b (revokeBay .a s)).ddt.phase ≠ _
    rw [(revokeBay_motion _ _).2, (revokeBay_motion _ _).2]; exact m
  have tx := revoked_tx s
  refine ⟨fun g => ⟨?_, fun _ mk => ?_⟩, fun p => ?_, fun i => ?_, ?_⟩
  · rw [if_pos g] at lat
    rw [settle_latch_motion _ r ph bay (by rw [lat]; rfl), lat]; rfl
  · refine (ran_settle (anyGranted s) r).counts .release _ (Nat.min_le_left _ _) ?_
    rw [slu]; exact revoked_slu s bay g mk
  · rw [if_neg (by rw [p]; simp)] at lat
    by_cases og : (s.latch (otherBay bay)).release = .granted
    · have ag : anyGranted s = true := by unfold anyGranted; cases bay <;> simp_all [otherBay]
      rw [ag]
      have k := pendingEvaluated_settle r bay
      by_cases c : (s.latch bay).cause = .switchover
      · rw [k.notDue (by unfold Due; rw [lat]; exact fun x => x.2 c), lat, if_neg (fun x => x.2 c)]
      · rw [k.motion (by unfold Due; rw [lat]; exact ⟨p, c⟩) ph, lat, if_pos ⟨og, c⟩]
    · have ag : anyGranted s = false := by unfold anyGranted; cases bay <;> simp_all [otherBay]
      rw [ag, if_neg (fun x => og x.1), settle_latch, lat]
  · rw [if_neg (by rw [i]; simp)] at lat
    rw [settle_latch_kept _ r bay (by rw [lat, i]; simp), lat]
  · have k := settle_motion_replies (anyGranted s) r ph
    exact ⟨k.2.trans (by rw [slu]; exact tx.2.2), fun _ => k.1.trans (by rw [slu]; exact tx.2.1)⟩

theorem raiseMotion_slu (es : List MotionEvent) (s : State) :
    ∃ o w, raiseMotion es s = { s with slu := { s.slu with outbox := o, wake := w } } ∧ o.release = s.slu.outbox.release := by
  have one : ∀ (b : Bool) k v, k ≠ .release → ∃ o w, raiseIf b k v = { v with slu := { v.slu with outbox := o, wake := w } } ∧
      o.release = v.slu.outbox.release := by
    intro b k v hk
    unfold raiseIf
    split
    · refine ⟨(v.slu.raised k).outbox, (v.slu.raised k).wake, ?_, raised_other v.slu k .release hk.symm⟩
      unfold raise
      rw [← raised_link]
    · exact ⟨_, _, rfl, rfl⟩
  unfold raiseMotion
  obtain ⟨o1, w1, e1, h1⟩ := one (es.contains .linkLost || es.contains .linkRecovered) .motionLink s (by simp)
  rw [e1]
  obtain ⟨o2, w2, e2, h2⟩ := one (es.contains .fallQualified) .dropAlert { s with slu := { s.slu with outbox := o1, wake := w1 } } (by simp)
  rw [e2]
  obtain ⟨o3, w3, e3, h3⟩ := one (es.contains .recordClosed) .dropRecord
    { s with slu := { s.slu with outbox := o2, wake := w2 } } (by simp)
  exact ⟨o3, w3, e3, h3.trans (h2.trans h1)⟩

/-- A transmitter that is busy sends on: its choice changes nothing (R176). -/
theorem arbitrate_busy {s : State} (h : s.slu.tx ≠ none) : arbitrate s = s := by
  unfold arbitrate arbitrated
  cases e : s.slu.tx with
  | none => exact absurd e h
  | some x => rfl

theorem arbitrate_owed (s : State) : (arbitrate s).slu.owedRelease = s.slu.owedRelease := by
  rw [arbitrate_slu]
  unfold arbitrated noticeSent
  repeat' split
  all_goals rfl

/-- What the transmitter's choice keeps of a grant. -/
theorem bayGranted_arbitrate {bay : Bay} {w t : State} (tx : t.slu.tx = w.slu.tx) (h : BayGranted (Joins w t) bay w t) :
    BayGranted (Joins w (arbitrate t)) bay w (arbitrate t) := by
  refine ⟨h.record, h.pack, fun x m => ?_, fun tag ho o => ?_⟩
  · rw [arbitrate_busy (by rw [tx]; exact x)]; exact h.notice x m
  · have k := h.answered tag ho o
    refine ⟨(arbitrate_owed t).trans k.1, fun x => ?_⟩
    have e := arbitrate_busy (s := t) (by rw [tx]; exact x)
    have y := k.2 x
    rw [e]; exact y

theorem bayRefused_arbitrate {bay : Bay} {w t : State} (tx : t.slu.tx = w.slu.tx) (h : BayRefused (Joins w t) bay w t) :
    BayRefused (Joins w (arbitrate t)) bay w (arbitrate t) := by
  refine ⟨h.record, fun x m => ?_, fun tag ho o => ?_⟩
  · rw [arbitrate_busy (by rw [tx]; exact x)]; exact h.notice x m
  · have k := h.answered tag ho o
    refine ⟨(arbitrate_owed t).trans k.1, fun x => ?_⟩
    have e := arbitrate_busy (s := t) (by rw [tx]; exact x)
    have y := k.2 x
    rw [e]; exact y

theorem pendingEvaluated_arbitrate {bay : Bay} {u t : State} (tx : t.slu.tx = u.slu.tx) (h : PendingEvaluated u t bay) :
    PendingEvaluated u (arbitrate t) bay :=
  ⟨h.notDue, h.motion, h.otherGrant, h.busy, fun a b c d e => bayGranted_arbitrate tx (h.moved a b c d e), h.starts,
    fun a b c d e f => bayRefused_arbitrate tx (h.refused a b c d e f), h.younger⟩

theorem settle_tx (b : Bool) (s : State) : (settle b s).slu.tx = s.slu.tx := by rw [(kept_settle b s).link]

/-- R58, R54: what a frame end makes of the bays, by the phase that it leaves and that it publishes. -/
theorem frameEnd_bays (f : AccelFrame) (s : State) (h : s.mpt.transfer = .inFlight) (bay : Bay) :
    (s.ddt.phase = .still → (frameEnd f s).ddt.phase ≠ .still → Revoked s (frameEnd f s) bay) ∧
    (s.ddt.phase ≠ .still → (frameEnd f s).ddt.phase = .still →
      PendingEvaluated { s with ddt := (frameEnd f s).ddt } (frameEnd f s) bay) ∧
    ((s.ddt.phase = .still ↔ (frameEnd f s).ddt.phase = .still) →
      (frameEnd f s).ltc = s.ltc ∧ (frameEnd f s).spc = s.spc ∧ (frameEnd f s).bre = s.bre) := by
  have e : frameEnd f s = arbitrate (frameTaken f s) := by simp [frameEnd, h]
  have d : (frameEnd f s).ddt = (ddtAfter f s).1 := by rw [e]; exact (frameTaken_motion f s).2
  obtain ⟨o, w, ev, eo⟩ := raiseMotion_slu (frameEvents f s) { s with mpt := s.mpt.frameTaken f, ddt := (ddtAfter f s).1 }
  have ft : frameTaken f s = publishPhase s.ddt.phase (ddtAfter f s).1.phase
      { s with mpt := s.mpt.frameTaken f, ddt := (ddtAfter f s).1, slu := { s.slu with outbox := o, wake := w } } := by
    unfold frameTaken; dsimp only; rw [ev]
  refine ⟨fun st lv => ?_, fun ns rt => ?_, fun same => ?_⟩
  · rw [d] at lv
    have k := revoked_motionLeft
      { s with mpt := s.mpt.frameTaken f, ddt := (ddtAfter f s).1, slu := { s.slu with outbox := o, wake := w } } lv bay
    rw [e, ft]
    unfold publishPhase
    rw [if_pos ⟨st, lv⟩]
    have tx : (motionLeft { s with mpt := s.mpt.frameTaken f, ddt := (ddtAfter f s).1, slu := { s.slu with outbox := o, wake := w } }).slu.tx =
        s.slu.tx := by
      unfold motionLeft
      rw [settle_tx]
      exact (revoked_tx _).1
    refine ⟨fun g => ⟨(k.granted g).1, fun x m => ?_⟩, k.pending, k.idle, (arbitrate_owed _).trans k.owed.1, fun x => ?_⟩
    · rw [arbitrate_busy (by rw [tx]; exact x)]
      have y := (k.granted g).2 x m
      rw [show ({ s with mpt := s.mpt.frameTaken f, ddt := (ddtAfter f s).1, slu := { s.slu with outbox := o, wake := w } } : State).slu.outbox.release = s.slu.outbox.release from eo] at y
      exact y
    · rw [arbitrate_busy (by rw [tx]; exact x)]; exact k.owed.2 x
  · have rt' := rt
    rw [d] at rt
    rw [d, e, ft]
    unfold publishPhase
    rw [if_neg (fun x => ns x.1), if_pos ⟨ns, rt⟩]
    unfold motionReturned
    have k := pendingEvaluated_settle (breMotion false
      { s with mpt := s.mpt.frameTaken f, ddt := (ddtAfter f s).1, slu := { s.slu with outbox := o, wake := w } }) bay
    refine pendingEvaluated_arbitrate (settle_tx _ _) ?_
    have rr : ∀ t, RaisedRelease (breMotion false
        { s with mpt := s.mpt.frameTaken f, ddt := (ddtAfter f s).1, slu := { s.slu with outbox := o, wake := w } }) t →
        RaisedRelease { s with ddt := (ddtAfter f s).1 } t := by
      intro t y x m
      have z := y x m
      rw [show (breMotion false ({ s with mpt := s.mpt.frameTaken f, ddt := (ddtAfter f s).1, slu := { s.slu with outbox := o, wake := w } } : State)).slu.outbox.release = s.slu.outbox.release from eo] at z
      exact z
    exact ⟨k.notDue, k.motion, k.otherGrant,
      fun a => k.busy ⟨a.due, a.still, a.other, a.older⟩,
      fun a b c g i => have y := k.moved ⟨a.due, a.still, a.other, a.older⟩ b c g i; ⟨y.record, y.pack, rr _ y.notice, y.answered⟩,
      fun a => k.starts ⟨a.due, a.still, a.other, a.older⟩,
      fun a b c g i j => have y := k.refused ⟨a.due, a.still, a.other, a.older⟩ b c g i j; ⟨y.record, rr _ y.notice, y.answered⟩,
      fun a b => k.younger a ⟨b.due, b.still, b.other, b.older⟩⟩
  · rw [d] at same
    rw [e, ft]
    unfold publishPhase
    rw [if_neg (fun x => x.2 (same.mp x.1)), if_neg (fun x => x.1 (same.mpr x.2))]
    exact ⟨rfl, rfl, rfl⟩

end Sys2Proof.Machine
end

