-- ==== Sys2Proof/Laws/Converted.lean ====
section
/-! SUPPORT. What the end of a thermistor conversion leaves (R64, R65, R78, R79): the record stored and published, HOT examined,
the one-shot answered, and the next conversion started. -/

namespace Sys2Proof.Machine

open Sys2Proof.Safety

theorem raised_senseFault (u : Slu) (h : inMask u.noticeMask .senseFault = true) :
    (u.raised .senseFault).outbox.senseFault = min 255 (u.outbox.senseFault + 1) := by
  unfold Slu.raised; rw [if_pos h]; rfl

/-- R45: the situation is computed from the supply, the latches and the channel records. -/
theorem situationOf_congr {s t : State} (spc : t.spc = s.spc) (ltc : t.ltc = s.ltc) (scv : t.scv.records = s.scv.records) :
    situationOf t = situationOf s := by
  have p : ∀ x, t.path x = s.path x := fun x => by unfold State.path; rw [spc]
  have l : ∀ x, t.latch x = s.latch x := fun x => by unfold State.latch; rw [ltc]
  have h : ∀ x, hot t x = hot s x := fun x => by 
    unfold hot; rw [show bayTemp t = bayTemp s from funext fun y => by unfold bayTemp; rw [scv]]
  have a : ∀ x, available t x = available s x := fun x => by
    unfold available bayAvailable present overvolt noOtherPresent present
    simp only [p, l, h, spc]
  unfold situationOf bayCounts gapRunning bayLow present
  simp only [p, a, spc]

/-- R3, R34, R65: the examination that takes a bay's temperature. -/
theorem bayTempTaken_settle (c : Channel) (v : State) (u : State) (x : Slu) (hv : v = { u with slu := x })
    (t : State) (spc : t.spc = (settle false v).spc) (ltc : t.ltc = (settle false v).ltc) (rec : t.scv.records = u.scv.records) :
    BayTempTaken c u t := by
  have tt : TriggersTaken u t := by
    have a := triggersTaken_of (triggersTaken_settle v).1 spc
    subst hv
    exact ⟨a.held, a.alone, a.start, a.preempt, a.idle, a.waits, a.notHeld⟩
  have k := calm_settle v
  have so := situationOk_settle false v
  have hs : ∀ b, hot t (baySource b) = hot u (baySource b) := by
    intro bay; simp only [hot, sourceBay_baySource, Option.bind_some, bayTemp, rec]
  refine ⟨tt, ?_, fun b hc => ?_⟩
  · have sp : situationOf t = situationOf (settle false v) := situationOf_congr spc ltc (by rw [rec, k.rest, hv])
    exact ⟨by rw [spc, so.1, ← sp], by rw [spc]; exact so.2⟩
  · have bb : bayChannel b = c := by rw [← hc]; cases b <;> rfl
    refine ⟨?_, fun h f e cs => ⟨fun q hq => ?_, fun hq => ?_⟩⟩
    · rw [hs, (hot_spec u).2 b, hc]
    · rw [hs] at h
      have hh := (heldCondition_spec u).2.1.mpr ⟨b, f, e, h⟩
      exact (tt.held .hot q cs hh hq).1
    · rw [hs] at h
      have hh := (heldCondition_spec u).2.1.mpr ⟨b, f, e, h⟩
      exact tt.alone .hot cs hh hq

/-- R64, R65, R78, R79: the end of a thermistor conversion that is not discarded. -/
theorem conversionTaken (c : Channel) (hc : c = .thBayA ∨ c = .thBayB ∨ c = .thPanel) (stored : Bool) (r : ChannelRecord) (s : State)
   (act : s.scv.activity = .oneShot c ∨ (∃ i, s.scv.activity = .walk i c) ∧ s.scv.enable.get c = true)
   (hf : r.fault = .none ∨ r.fault = .short ∨ r.fault = .openCircuit) : 
   ConversionTaken c r s (arbitrate (conversionEnd c stored r s)) := by
  have nd : discards s.scv = false := by
    unfold discards
    rcases act with a | ⟨⟨i, a⟩, e⟩
    · rw [a]
    · rw [a]; simp [e]
  have ce : conversionEnd c stored r s = startNextConversion (finishOneShot c (storeResult c stored r s)) := by
    unfold conversionEnd; rw [nd]; rfl
  have nf : newFault (s.scv.records.get c).fault r.fault = decide (r.fault ≠ .none ∧ r.fault ≠ (s.scv.records.get c).fault) := by
    rcases hf with h | h | h <;> rw [h] <;> cases (s.scv.records.get c).fault <;> rfl
  have w1 : ∃ x, storeResult c stored r s = publishChannel c stored { s.setChannel c r with slu := x } ∧
      x.tx = s.slu.tx ∧ x.fifo = s.slu.fifo ∧ x.owedConvert = s.slu.owedConvert ∧ x.queue = s.slu.queue ∧ x.platform = s.slu.platform ∧
      (inMask s.slu.noticeMask .senseFault = true → x.outbox.senseFault = if decide (r.fault ≠ .none ∧ r.fault ≠ (s.scv.records.get c).fault) then min 255 (s.slu.outbox.senseFault + 1) else s.slu.outbox.senseFault) := by
    unfold storeResult raiseIf
    rw [nf]
    split
    · exact ⟨_, rfl, raised_tx _ _, by simp [raise], by simp, by simp, by simp, fun m => raised_senseFault _ m⟩
    · exact ⟨s.slu, rfl, rfl, rfl, rfl, rfl, rfl, fun m => rfl⟩
  obtain ⟨x, e, xt, xf, xo, xq, xp, xs⟩ := w1
  generalize hv : ({ s.setChannel c r with slu := x } : State) = v at e
  have vs : v.slu = x := by rw [← hv]
  have vv : v.scv = { s.scv with records := s.scv.records.set c r } := by rw [← hv]; rfl
  generalize hw : publishChannel c stored v = w at e
  have W : w.scv = v.scv ∧ w.ltc = s.ltc ∧ w.mpt = s.mpt ∧ w.ddt = s.ddt ∧ w.pending = s.pending ∧ w.spc.settings = s.spc.settings ∧
      w.bre.settings = s.bre.settings ∧ w.lmd.settings = s.lmd.settings ∧ w.slu.queue = s.slu.queue ∧ w.slu.platform = s.slu.platform ∧
      w.slu.tx = s.slu.tx ∧ w.slu.fifo = s.slu.fifo ∧ w.slu.owedConvert = s.slu.owedConvert ∧ w.slu.outbox.senseFault = x.outbox.senseFault ∧
      (c = .thPanel → PanelTaken r s w) ∧ (c ≠ .thPanel → w = settle false v) := by
    by_cases p : c = .thPanel
    · subst p
      have : w = brePanel v := hw.symm
      have rv : v.scv.records.thPanel = r := by rw [vv]; rfl
      have pt : panelTemp v = if r.valid && !r.stale then some r.value else none := by
        unfold panelTemp knownValue; rw [rv]
      have ls : w.lmd.settings = s.lmd.settings := by
        rw [this]; unfold brePanel State.withBre; dsimp only
        split
        · rw [← hv]; rfl
        · rw [show ∀ (l : Lmd) a b, (l.published a b).settings = l.settings from fun l a b => by rw [published_frame]]; rw [← hv]; rfl
      refine ⟨by rw [this]; rfl, by rw [this, ← hv]; rfl, by rw [this, ← hv]; rfl, by rw [this, ← hv]; rfl, by rw [this, ← hv]; rfl, by rw [this, ← hv]; rfl, by rw [this, ← hv]; rfl, ls, ?_, ?_, ?_, ?_, ?_, ?_, fun _ => ⟨by rw [this, ← hv]; rfl, ?_, ?_, ?_, ?_⟩, fun h => absurd rfl h⟩
      · rw [this]; show v.slu.queue = _; rw [vs, xq]
      · rw [this]; show v.slu.platform = _; rw [vs, xp]
      · rw [this]; show v.slu.tx = _; rw [vs, xt]
      · rw [this]; show v.slu.fifo = _; rw [vs, xf]
      · rw [this]; show v.slu.owedConvert = _; rw [vs, xo]
      · rw [this]; show v.slu.outbox.senseFault = _; rw [vs]
      · rw [this]; show (panelTemp v).isSome = _; rw [pt]; split <;> simp_all
      · rw [this]; show thermalCapOf v.bre.settings (panelTemp v) = _; rw [pt, ← hv]; rfl
      · rw [this, ← hv]; rfl
      · rw [this, ← hv]; rfl
    · have : w = settle false v := by
        rw [← hw]
        rcases hc with h | h | h
        · rw [h]; rfl
        · rw [h]; rfl
        · exact absurd h p
      have k := calm_settle v
      have l := k.link
      rw [this]
      have hr := k.rest
      rw [← hv] at hr ⊢ 
      have cb := (calm_settle v).caps
      rw [← hv] at cb k l 
      refine ⟨by rw [hr], k.ltc, by rw [hr]; rfl, by rw [hr]; rfl, by rw [hr]; rfl, by rw [k.supply]; rfl, by rw [cb.bre]; rfl, by rw [cb.lmd]; rfl, ?_, ?_, ?_, ?_, ?_, ?_, fun h => absurd h p, fun _ => rfl⟩
      · rw [l]; exact xq
      · rw [l]; exact xp
      · rw [l]; exact xt
      · rw [k.fifo]; exact xf
      · rw [l]; exact xo
      · exact k.kinds .senseFault (by decide) (by decide)
  obtain ⟨wscv, wl, wm, wd, wp, wse, wbs, wls, wq, wpl, wtx, wfi, wow, wsf, wpan, wbay⟩ := W
  generalize hy : finishOneShot c w = y
  have wact : w.scv.activity = s.scv.activity := by rw [wscv, vv]
  have Y : y.spc = w.spc ∧ y.ltc = w.ltc ∧ y.bre = w.bre ∧ y.lmd = w.lmd ∧ y.mpt = w.mpt ∧ y.ddt = w.ddt ∧ y.pending = w.pending ∧
     y.slu.tx = w.slu.tx ∧ y.slu.outbox = w.slu.outbox ∧ y.slu.queue = w.slu.queue ∧ y.slu.platform = w.slu.platform ∧
     y.scv = { w.scv with oneShot := if s.scv.activity = Activity.oneShot c then none else w.scv.oneShot } ∧
     (∀ tag, s.scv.activity = .oneShot c → w.slu.owedConvert = some tag → y.slu.owedConvert = none ∧ replyOf .convertNow tag .ok (channelBytes (w.scv.records.get c)) ∈ y.slu.fifo) := by
    rw [← hy]
    unfold finishOneShot
    rw [wact]
    rcases act with a | ⟨⟨i, a⟩, e⟩
    · rw [a]
      dsimp only
      unfold answerConvert
      dsimp only
      cases ho : w.slu.owedConvert with
      | none => exact ⟨rfl, rfl, rfl, rfl, rfl, rfl, rfl, rfl, rfl, rfl, rfl, by simp, fun tag _ h => by simp at h⟩
      | some t0 => exact ⟨rfl, rfl, rfl, rfl, rfl, rfl, rfl, rfl, rfl, rfl, rfl, by simp, fun tag _ h => by
          simp only [Option.some.injEq] at h; subst h; exact ⟨rfl, by simp [Slu.pushReply, replyOf]⟩⟩
    · rw [a]
      exact ⟨rfl, rfl, rfl, rfl, rfl, rfl, rfl, rfl, rfl, rfl, rfl, by simp, fun tag h => by simp at h⟩
  obtain ⟨yspc, yltc, ybre, ylmd, ympt, yddt, ypen, ytx, yout, yq, ypl, yscv, yans⟩ := Y
  have fin : arbitrate (conversionEnd c stored r s) = arbitrate (startNextConversion y) := by rw [ce, e, hy]
  rw [fin]
  have hrec : w.scv.records.get c = r := by rw [wscv, vv]; simp
  have busy : s.slu.tx ≠ none → arbitrate (startNextConversion y) = startNextConversion y := fun h => arbitrate_busy (by show y.slu.tx ≠ none; rw [ytx, wtx]; exact h)
  have aq : ∀ v : State, (arbitrate v).slu.queue = v.slu.queue ∧ (arbitrate v).slu.platform = v.slu.platform ∧ (arbitrate v).slu.owedConvert = v.slu.owedConvert := by
    intro v
    rw [arbitrate_slu]
    unfold arbitrated noticeSent
    repeat' split
    all_goals exact ⟨rfl, rfl, rfl⟩
  have sc : (arbitrate (startNextConversion y)).scv = (({ s.scv with records := s.scv.records.set c r, oneShot := if s.scv.activity = Activity.oneShot c then none else s.scv.oneShot } : Scv)).startNext s.slu.platform := by
    show y.scv.startNext y.slu.platform = _
    rw [yscv, ypl, wpl, wscv, vv]
  have sr : ∀ (a : Scv) p, (a.startNext p).records = a.records := by
    intro a p
    unfold Scv.startNext Scv.startWalk
    split
    · rfl
    · split <;> rfl
  refine ⟨⟨?_, ?_, ?_, ?_, ?_, ?_, ?_, ?_, ?_⟩, sc, fun h m => ?_, fun tag a o => ?_, fun p => ?_, fun p => ?_⟩
  · show y.ltc = _; rw [yltc, wl]
  · show y.mpt = _; rw [ympt, wm]
  · show y.ddt = _; rw [yddt, wd]
  · show y.pending = _; rw [ypen, wp]
  · show y.spc.settings = _; rw [yspc, wse]
  · show y.bre.settings = _; rw [ybre, wbs]
  · show y.lmd.settings = _; rw [ylmd, wls]
  · rw [(aq _).1]; show y.slu.queue = _; rw [yq, wq]
  · rw [(aq _).2.1]; show y.slu.platform = _; rw [ypl, wpl]
  · rw [busy h]; show y.slu.outbox.senseFault = _; rw [yout, wsf, xs m]
  · have z := yans tag a (wow.trans o)
    rw [hrec] at z
    refine ⟨by rw [(aq _).2.2]; exact z.1, fun h => ?_⟩
    rw [busy h]; exact z.2
  · have k := wpan p
    exact ⟨yspc.trans k.supply, by show y.bre.panelKnown = _; rw [ybre]; exact k.known, by show y.bre.thermalCap = _; rw [ybre]; exact k.thermal,
      by show y.bre.cap = min _ y.bre.thermalCap; rw [ybre]; exact k.cap, by show y.bre.yc = min _ y.bre.cap; rw [ybre]; exact k.yc⟩
  · have k := wbay p
    refine bayTempTaken_settle c v (s.setChannel c r) x hv.symm _ ?_ ?_ ?_
    · show y.spc = _; rw [yspc, k]
    · show y.ltc = _; rw [yltc, k]
    · rw [sc, sr]; rfl
end Sys2Proof.Machine
end

