-- ==== Sys2Proof/Laws/Lamp.lean ====
section
/-! SUPPORT. The law of the light side (R83, R99 to R101, R106, R107), operation by operation of the LMD, the BRE and the SCV. -/

namespace Sys2Proof.Machine

open Sys2Proof.Safety

/-! ### The Lamp Driver -/

/-- An LMD whose copies are the same, with a level that the law allows. -/
theorem lampOk_lmd (s : State) (l : Lmd) (h : LampOk s) (yc : l.ycCopy = s.lmd.ycCopy) (cap : l.capCopy = s.lmd.capCopy)
    (level : l.a ≤ l.capCopy) (dark : s.slu.platform ≠ .run → l.a = 0) : LampOk { s with lmd := l } :=
  ⟨h.1, h.2, h.3, h.4, yc.trans h.5, cap.trans h.6, level, dark⟩

/-- What an event of the period or the frame lock leaves: the copies, and the level but for a dimming update. -/
structure LevelKept (platform : Platform) (l m : Lmd) : Prop where
  yc : m.ycCopy = l.ycCopy
  cap : m.capCopy = l.capCopy
  level : l.ycCopy ≤ l.capCopy → l.a ≤ l.capCopy → m.a ≤ m.capCopy
  dark : platform ≠ .run → l.a = 0 → m.a = 0

theorem lampOk_levelKept (s : State) (l : Lmd) (h : LampOk s) (k : LevelKept s.slu.platform s.lmd l) : LampOk { s with lmd := l } :=
  lampOk_lmd s l h k.yc k.cap (k.level (by rw [h.ycCopy, h.capCopy]; exact h.yc) h.level) fun d => k.dark d (h.dark d)

theorem levelKept_same (p : Platform) {l m : Lmd} (yc : m.ycCopy = l.ycCopy) (cap : m.capCopy = l.capCopy) (a : m.a = l.a) :
    LevelKept p l m := ⟨yc, cap, fun _ x => by rw [a, cap]; exact x, fun _ x => a.trans x⟩

theorem LevelKept.trans {p : Platform} {l m n : Lmd} (h : LevelKept p l m) (g : LevelKept p m n) : LevelKept p l n :=
  ⟨g.1.trans h.1, g.2.trans h.2, fun x y => g.3 (by rw [h.1, h.2]; exact x) (h.3 x y), fun d x => g.4 d (h.4 d x)⟩

/-- R110, R111: a dimming update never passes the Yc copy. -/
theorem levelKept_dimmingUpdate (p : Platform) (l : Lmd) : LevelKept p l (l.dimmingUpdate p) := by
  refine ⟨rfl, rfl, fun x y => ?_, fun d _ => ?_⟩
  · show updatedLevel p l ≤ l.capCopy
    unfold updatedLevel rampStep
    repeat' split
    all_goals omega
  · show updatedLevel p l = 0
    unfold updatedLevel
    split
    · rfl
    · rfl
    · exact absurd rfl d

theorem levelKept_startPeriod (p : Platform) (n : Nat) (l : Lmd) : LevelKept p l (l.endPeriod.startPeriod n) := by
  have : ∀ m : Lmd, m.endPeriod.ycCopy = m.ycCopy ∧ m.endPeriod.capCopy = m.capCopy ∧ m.endPeriod.a = m.a := by
    intro m; unfold Lmd.endPeriod; split <;> exact ⟨rfl, rfl, rfl⟩
  exact levelKept_same p (this l).1 (this l).2.1 (this l).2.2

theorem levelKept_lockedFrame (p : Platform) (l : Lmd) : LevelKept p l (l.lockedFrame p) :=
  (levelKept_startPeriod p _ l).trans (levelKept_dimmingUpdate p _)

/-- R109, R110: a period start. -/
theorem levelKept_periodStart (p : Platform) (l : Lmd) : LevelKept p l (l.periodStart p) := by
  unfold Lmd.periodStart
  dsimp only
  split
  · exact levelKept_startPeriod p _ l
  · split
    · refine LevelKept.trans ?_ (levelKept_dimmingUpdate p _)
      exact (levelKept_startPeriod p (l.internalInterval / l.settings.multiple) l).trans (levelKept_same p rfl rfl rfl)
    · exact (levelKept_startPeriod p (l.internalInterval / l.settings.multiple) l).trans (levelKept_same p rfl rfl rfl)

theorem levelKept_frameTimeout (p : Platform) (l : Lmd) : LevelKept p l l.frameTimeout := by
  unfold Lmd.frameTimeout; split <;> exact levelKept_same p rfl rfl rfl

/-- R108: an edge on FRAME. -/
theorem levelKept_frameStart (p : Platform) (time : Nat) (l : Lmd) : LevelKept p l (l.frameStart p time) := by
  unfold Lmd.frameStart
  split
  · exact levelKept_same p rfl rfl rfl
  · split
    · exact levelKept_same p rfl rfl rfl
    · split
      · exact (levelKept_frameTimeout p l).trans (levelKept_same p rfl rfl rfl)
      · unfold Lmd.frameTaken
        dsimp only
        repeat' split
        · refine LevelKept.trans ?_ (levelKept_lockedFrame p _); exact levelKept_same p rfl rfl rfl
        · refine LevelKept.trans ?_ (levelKept_lockedFrame p _); exact levelKept_same p rfl rfl rfl
        · exact levelKept_same p rfl rfl rfl

theorem levelKept_measuredWith (p : Platform) (r : StringReadings) (l : Lmd) : LevelKept p l (l.measuredWith r) :=
  levelKept_same p rfl rfl rfl

theorem levelKept_clearStrings (p : Platform) (m : PerString Bool) (l : Lmd) : LevelKept p l (l.clearStrings m) :=
  levelKept_same p rfl rfl rfl

/-- R120: stored settings. -/
theorem levelKept_stored (p : Platform) (c : LampSettings) (l : Lmd) : LevelKept p l (l.stored c) := by
  unfold Lmd.stored
  dsimp only
  repeat' split
  all_goals exact levelKept_same p rfl rfl rfl

/-- R124: the RESET request. -/
theorem levelKept_reset (p : Platform) (l : Lmd) : LevelKept p l l.reset := levelKept_same p rfl rfl rfl

/-- R107, R178: a change of the platform state. -/
theorem lampOk_platform (s : State) (u : Slu) (h : LampOk s) :
    LampOk { s with slu := u, lmd := s.lmd.platformChanged u.platform } := by
  cases hp : u.platform
  · exact ⟨h.1, h.2, h.3, h.4, h.5, h.6, h.7, fun d => absurd hp d⟩
  · exact ⟨h.1, h.2, h.3, h.4, h.5, h.6, Nat.zero_le _, fun _ => rfl⟩
  · exact ⟨h.1, h.2, h.3, h.4, h.5, h.6, Nat.zero_le _, fun _ => rfl⟩

/-! ### The Brightness Engine -/

/-- A recomputation in which nothing of the copies, the caps or Yc has changed. -/
theorem lampOk_bre (s : State) (e : Bre) (h : LampOk s) (allowance : e.allowance = s.bre.allowance)
    (thermal : e.thermalCap = s.bre.thermalCap) (settings : e.settings = s.bre.settings) (cap : e.cap = s.bre.cap)
    (yc : e.yc = s.bre.yc) : LampOk { s with bre := e } :=
  ⟨allowance.trans h.1, by show e.thermalCap = thermalCapOf e.settings _; rw [thermal, settings]; exact h.2,
    by show e.cap = min e.allowance e.thermalCap; rw [cap, allowance, thermal]; exact h.3,
    by show e.yc ≤ e.cap; rw [yc, cap]; exact h.4, h.5.trans yc.symm, h.6.trans cap.symm, h.7, h.8⟩

/-- What the stages before stage 7 leave of the pipeline. -/
structure StagesKept (e g : Bre) : Prop where
  allowance : g.allowance = e.allowance
  thermal : g.thermalCap = e.thermalCap
  settings : g.settings = e.settings
  cap : g.cap = e.cap
  yc : g.yc = e.yc

theorem StagesKept.trans {e g h : Bre} (a : StagesKept e g) (b : StagesKept g h) : StagesKept e h :=
  ⟨b.1.trans a.1, b.2.trans a.2, b.3.trans a.3, b.4.trans a.4, b.5.trans a.5⟩

theorem stagesKept_noteUnknown (e : Bre) : StagesKept e e.noteUnknown := by
  unfold Bre.noteUnknown; split <;> exact ⟨rfl, rfl, rfl, rfl, rfl⟩

theorem stagesKept_setUsable (e : Bre) (c : Channel) (v : Bool) : StagesKept e (e.setUsable c v) := by
  cases c <;> exact ⟨rfl, rfl, rfl, rfl, rfl⟩

theorem stagesKept_enter (e : Bre) (l : Nat) : StagesKept e (e.enter l) := by
  unfold Bre.enter; repeat' split
  all_goals exact ⟨rfl, rfl, rfl, rfl, rfl⟩

theorem stagesKept_combined (e : Bre) (x y : Nat) : StagesKept e (e.combined x y) := by
  unfold Bre.combined
  split
  · exact stagesKept_noteUnknown e
  · refine StagesKept.trans ?_ (stagesKept_enter _ _); exact ⟨rfl, rfl, rfl, rfl, rfl⟩

theorem stagesKept_stage6 (e : Bre) : StagesKept e e.stage5.stage6 := by
  unfold Bre.stage6
  split <;> exact ⟨rfl, rfl, rfl, rfl, rfl⟩

/-- A recomputation of stages 2 to 6 that ends in stage 7 keeps the law. -/
theorem lampOk_stages (s : State) (e : Bre) (h : LampOk s) (k : StagesKept s.bre e) : LampOk (s.withBre e.limit) := by
  refine lampOk_withBre s s.spc s.slu s.scv e h rfl (k.1.trans h.allowance) ?_
  rw [k.2, k.3]; exact h.thermal

/-- R83: a light channel is published. -/
theorem lampOk_breLight (c : Channel) (stored : Bool) (s : State) (h : LampOk s) : LampOk (breLight c stored s) := by
  unfold breLight Bre.lightPublished
  dsimp only
  split
  · exact lampOk_stages s _ h (((stagesKept_setUsable _ _ _).trans (stagesKept_combined _ _ _)).trans (stagesKept_stage6 _))
  · have k := (stagesKept_setUsable s.bre c (usableAt (s.scv.records.get c) stored)).trans (stagesKept_noteUnknown _)
    have e : s.withBre (s.bre.setUsable c (usableAt (s.scv.records.get c) stored)).noteUnknown =
        { s with bre := (s.bre.setUsable c (usableAt (s.scv.records.get c) stored)).noteUnknown } := by
      simp only [State.withBre, k.yc, k.cap, and_self, if_true]
    rw [e]
    exact lampOk_bre s _ h k.1 k.2 k.3 k.4 k.5

theorem lampOk_breLightStale (c : Channel) (s : State) (h : LampOk s) : LampOk (breLightStale c s) := by
  have k := (stagesKept_setUsable s.bre c false).trans (stagesKept_noteUnknown _)
  exact lampOk_bre s _ h k.1 k.2 k.3 k.4 k.5

/-- R83, R99: TH_PANEL is published; its record may have changed before. -/
theorem lampOk_brePanel (s : State) (u : Slu) (v : Scv) (h : LampOk s) (platform : u.platform = s.slu.platform) :
    LampOk (brePanel { s with slu := u, scv := v }) :=
  lampOk_withBre s s.spc u v (s.bre.thermal (knownValue v.records.thPanel)) h platform h.allowance rfl

/-- R83, R93: motion hold. -/
theorem lampOk_breMotion (hold : Bool) (s : State) (h : LampOk s) : LampOk (breMotion hold s) :=
  ⟨h.1, h.2, h.3, h.4, h.5, h.6, h.7, h.8⟩

/-- R102: stored settings. -/
theorem lampOk_breStored (s : State) (c : BrightSettings) (h : LampOk s) :
    LampOk (s.withBre (s.bre.stored c (panelTemp s))) := by
  unfold Bre.stored
  dsimp only
  refine lampOk_withBre s s.spc s.slu s.scv _ h rfl ?_ rfl
  have a : ∀ e : Bre, e.noteUnknown.allowance = e.allowance := fun e => (stagesKept_noteUnknown e).1
  have b6 : ∀ e : Bre, e.stage6.allowance = e.allowance := by
    intro e; unfold Bre.stage6; split <;> rfl
  show (Bre.stage6 _).allowance = s.spc.cap
  rw [b6, ← h.allowance]
  repeat' split
  all_goals first | rfl | exact a _

/-- R95: a loaded curve table. -/
theorem lampOk_breLoaded (s : State) (t : List (Nat × Nat)) (h : LampOk s) : LampOk (s.withBre (s.bre.loaded t)) := by
  have k : StagesKept s.bre ({ s.bre with curve := t }.stage5).stage6 := by
    refine StagesKept.trans ?_ (stagesKept_stage6 _); exact ⟨rfl, rfl, rfl, rfl, rfl⟩
  exact lampOk_stages s _ h k

end Sys2Proof.Machine
end

