-- ==== Sys2Proof/Laws/Queue.lean ====
section
/-! SUPPORT. No operation of a block reads the request queue or WAKE, but for GET_STATUS, which reports WAKE, and none but the RESET
request writes the queue: each commutes with a change of the queue and with WAKE asserted. What a request does is thus the same
whatever waits behind it (R169), and whether or not WAKE is asserted (R179). -/

namespace Sys2Proof.Machine

open Sys2Proof.Safety

/-- The state with another request queue, and with WAKE asserted where `w` says so. -/
def State.withQueue (s : State) (q : List Request) (w : Bool) : State :=
  { s with slu := { s.slu with queue := q, wake := w || s.slu.wake } }

variable (s : State) (q : List Request) (w : Bool)

/-! ### What does not read the queue -/

@[simp] theorem withQueue_spc : (s.withQueue q w).spc = s.spc := rfl
@[simp] theorem withQueue_ltc : (s.withQueue q w).ltc = s.ltc := rfl
@[simp] theorem withQueue_scv : (s.withQueue q w).scv = s.scv := rfl
@[simp] theorem withQueue_bre : (s.withQueue q w).bre = s.bre := rfl
@[simp] theorem withQueue_lmd : (s.withQueue q w).lmd = s.lmd := rfl
@[simp] theorem withQueue_mpt : (s.withQueue q w).mpt = s.mpt := rfl
@[simp] theorem withQueue_ddt : (s.withQueue q w).ddt = s.ddt := rfl
@[simp] theorem withQueue_path (p : Source) : (s.withQueue q w).path p = s.path p := rfl
@[simp] theorem withQueue_latch (bay : Bay) : (s.withQueue q w).latch bay = s.latch bay := rfl
@[simp] theorem withQueue_platform : (s.withQueue q w).slu.platform = s.slu.platform := rfl
@[simp] theorem withQueue_owedSelect : (s.withQueue q w).slu.owedSelect = s.slu.owedSelect := rfl
@[simp] theorem withQueue_owedRelease : (s.withQueue q w).slu.owedRelease = s.slu.owedRelease := rfl
@[simp] theorem withQueue_owedConvert : (s.withQueue q w).slu.owedConvert = s.slu.owedConvert := rfl
@[simp] theorem withQueue_tx : (s.withQueue q w).slu.tx = s.slu.tx := rfl
@[simp] theorem withQueue_fifo : (s.withQueue q w).slu.fifo = s.slu.fifo := rfl
@[simp] theorem withQueue_outbox : (s.withQueue q w).slu.outbox = s.slu.outbox := rfl

@[simp] theorem inFlight_withQueue : inFlight (s.withQueue q w) = inFlight s := rfl
@[simp] theorem canStart_withQueue : canStart (s.withQueue q w) = canStart s := rfl
@[simp] theorem heldCondition_withQueue : heldCondition (s.withQueue q w) = heldCondition s := rfl
@[simp] theorem chooseTarget_withQueue (f : Option Source) (t : List Source) :
    chooseTarget (s.withQueue q w) f t = chooseTarget s f t := rfl
@[simp] theorem chooseMode_withQueue (f : Option Source) (t : Source) : chooseMode (s.withQueue q w) f t = chooseMode s f t := rfl
@[simp] theorem preemptTarget_withQueue : preemptTarget (s.withQueue q w) = preemptTarget s := rfl
@[simp] theorem situationOf_withQueue : situationOf (s.withQueue q w) = situationOf s := rfl
@[simp] theorem askRuns_withQueue (bay : Bay) : askRuns (s.withQueue q w) bay = askRuns s bay := rfl
@[simp] theorem askAnswer_withQueue (bay : Bay) : askAnswer (s.withQueue q w) bay = askAnswer s bay := rfl
@[simp] theorem available_withQueue (p : Source) : available (s.withQueue q w) p = available s p := rfl
@[simp] theorem freeSpace_withQueue : freeSpace (s.withQueue q w) = freeSpace s := rfl

/-- A choice that the queue does not decide. -/
theorem ite_withQueue {c d : Prop} [Decidable c] [Decidable d] {x y : State} {a b : State} (h : c = d)
    (ha : x = a.withQueue q w) (hb : y = b.withQueue q w) : (if c then x else y) = (if d then a else b).withQueue q w := by
  subst h
  by_cases g : c
  · rw [if_pos g, if_pos g, ha]
  · rw [if_neg g, if_neg g, hb]

/-! ### The shared operations -/

theorem raise_withQueue (k : NoticeKind) : raise k (s.withQueue q w) = (raise k s).withQueue q w := by
  by_cases h : inMask s.slu.noticeMask k = true <;> simp [raise, Slu.raised, State.withQueue, h, Bool.or_assoc]

theorem raiseIf_withQueue (b : Bool) (k : NoticeKind) : raiseIf b k (s.withQueue q w) = (raiseIf b k s).withQueue q w :=
  ite_withQueue q w rfl (raise_withQueue s q w k) rfl

theorem setPath_withQueue (p : Source) (r : PathRecord) : (s.withQueue q w).setPath p r = (s.setPath p r).withQueue q w := rfl

theorem setLatch_withQueue (bay : Bay) (l : LatchRecord) :
    (s.withQueue q w).setLatch bay l = (s.setLatch bay l).withQueue q w := rfl

theorem answerSelect_withQueue (st : Status) (r : Option FailReason) :
    answerSelect st r (s.withQueue q w) = (answerSelect st r s).withQueue q w := by
  unfold answerSelect; simp only [withQueue_owedSelect]; split <;> rfl

theorem answerRelease_withQueue (bay : Bay) (st : Status) (r : Option FailReason) :
    answerRelease bay st r (s.withQueue q w) = (answerRelease bay st r s).withQueue q w := by
  unfold answerRelease clearOwed
  refine ite_withQueue q w rfl ?_ rfl
  cases ho : s.slu.owedRelease <;>
    simp only [setLatch_withQueue, withQueue_latch, withQueue_owedRelease, setLatch_slu, ho]
  all_goals rfl

theorem arbitrate_withQueue : arbitrate (s.withQueue q w) = (arbitrate s).withQueue q w := by
  have h : arbitrated (s.withQueue q w) = { arbitrated s with queue := q, wake := w || (arbitrated s).wake } := by
    unfold arbitrated
    rw [withQueue_tx]
    cases s.slu.tx with
    | some f => rfl
    | none =>
      by_cases g : s.slu.outbox.dropAlert ≠ 0
      · simp only [withQueue_outbox, g, ne_eq, not_false_eq_true, if_true]; rfl
      · simp only [withQueue_outbox, withQueue_fifo, g, if_false]
        cases s.slu.fifo with
        | cons r rest => rfl
        | nil => cases firstNotice s.slu.outbox <;> rfl
  unfold arbitrate
  rw [h]; rfl

/-! ### The supply and the latches -/

theorem publishSituation_withQueue : publishSituation (s.withQueue q w) = (publishSituation s).withQueue q w := by
  refine ite_withQueue q w rfl rfl ?_
  exact congrArg (breAllowance (s.spc.settings.caps.get (situationOf s)))
    (raiseIf_withQueue
      { s with spc := { s.spc with situation := situationOf s, cap := s.spc.settings.caps.get (situationOf s) } } q w
      (situationOf s != s.spc.situation) .supplyChange)

theorem startSwitchover_withQueue (r : SwReason) (f : Option Source) (t : Source) (l : List Source) :
    startSwitchover r f t l (s.withQueue q w) = (startSwitchover r f t l s).withQueue q w := by
  simp only [startSwitchover, chooseMode_withQueue]
  split <;> rfl

theorem examineHeld_withQueue : examineHeld (s.withQueue q w) = (examineHeld s).withQueue q w := by
  simp only [examineHeld, examineHeldWith, heldCondition_withQueue, withQueue_spc, chooseTarget_withQueue]
  cases heldCondition s with
  | none => rfl
  | some r =>
    refine ite_withQueue q w rfl ?_ rfl
    cases chooseTarget s s.spc.feeding [] with
    | some t => exact startSwitchover_withQueue ..
    | none => exact ite_withQueue q w rfl rfl (raise_withQueue { s with spc := { s.spc with soleSource := true } } q w .supplyChange)

theorem examinePreempt_withQueue : examinePreempt (s.withQueue q w) = (examinePreempt s).withQueue q w := by
  refine ite_withQueue q w rfl ?_ rfl
  simp only [preemptTarget_withQueue]
  cases preemptTarget s with
  | some t => exact startSwitchover_withQueue ..
  | none => rfl

theorem examineStart_withQueue : examineStart (s.withQueue q w) = (examineStart s).withQueue q w := by
  refine ite_withQueue q w rfl ?_ rfl
  simp only [chooseTarget_withQueue]
  cases chooseTarget s none [] with
  | some t => exact startSwitchover_withQueue ..
  | none => rfl

theorem updatePreempt_withQueue : updatePreempt (s.withQueue q w) = (updatePreempt s).withQueue q w := rfl

theorem grantBay_withQueue (bay : Bay) : grantBay bay (s.withQueue q w) = (grantBay bay s).withQueue q w := by
  unfold grantBay
  rw [withQueue_latch, setLatch_withQueue,
    show ∀ u : State, clearPack bay (u.withQueue q w) = (clearPack bay u).withQueue q w from fun _ => rfl,
    answerRelease_withQueue, raise_withQueue]

theorem refuseBay_withQueue (bay : Bay) : refuseBay bay (s.withQueue q w) = (refuseBay bay s).withQueue q w := by
  unfold refuseBay
  rw [withQueue_latch, setLatch_withQueue, answerRelease_withQueue, raise_withQueue]

theorem pendFor_withQueue (bay : Bay) (c : PendingCause) : pendFor bay c (s.withQueue q w) = (pendFor bay c s).withQueue q w := rfl

theorem askRelease_withQueue (bay : Bay) : askRelease bay (s.withQueue q w) = (askRelease bay s).withQueue q w := by
  simp only [askRelease, askAnswer_withQueue, withQueue_spc]
  cases askAnswer s bay with
  | wait => rfl
  | moved => exact grantBay_withQueue ..
  | noTarget => exact refuseBay_withQueue ..
  | started t =>
    exact congrArg (pendFor bay .switchover) (startSwitchover_withQueue s q w .release s.spc.feeding t [])

theorem evaluate_withQueue (bay : Bay) : evaluate bay (s.withQueue q w) = (evaluate bay s).withQueue q w :=
  ite_withQueue q w rfl rfl (ite_withQueue q w rfl rfl (ite_withQueue q w rfl rfl (askRelease_withQueue s q w bay)))

theorem evaluateDue_withQueue (bay : Bay) : evaluateDue bay (s.withQueue q w) = (evaluateDue bay s).withQueue q w :=
  ite_withQueue q w rfl (evaluate_withQueue s q w bay) rfl

theorem evaluateAll_withQueue : evaluateAll (s.withQueue q w) = (evaluateAll s).withQueue q w := by
  simp only [evaluateAll, withQueue_ltc, evaluateDue_withQueue]

theorem settle_withQueue (b : Bool) : settle b (s.withQueue q w) = (settle b s).withQueue q w := by
  cases b <;>
    simp only [settle, examineHeld_withQueue, evaluateAll_withQueue, updatePreempt_withQueue, examinePreempt_withQueue,
      examineStart_withQueue, publishSituation_withQueue, if_true, Bool.false_eq_true, if_false]

theorem releaseRequest_withQueue (bay : Bay) (o : Origin) :
    releaseRequest bay o (s.withQueue q w) = (releaseRequest bay o s).withQueue q w := by
  simp only [releaseRequest, withQueue_latch]
  cases (s.latch bay).release with
  | idle =>
    show evaluate bay (examineHeld ((pendRelease bay o s).withQueue q w)) = _
    rw [examineHeld_withQueue, evaluate_withQueue]; rfl
  | pending => rfl
  | granted => rfl

theorem onMembers_withQueue (m : PerSource Bool) (f : Source → State → State)
    (h : ∀ p u, f p (State.withQueue u q w) = (f p u).withQueue q w) :
    onMembers m f (s.withQueue q w) = (onMembers m f s).withQueue q w := by
  have one : ∀ p u, onMember m f p (State.withQueue u q w) = (onMember m f p u).withQueue q w :=
    fun p u => ite_withQueue q w rfl (h p u) rfl
  simp only [onMembers, one]

theorem readPath_withQueue (p : Source) : readPath p (s.withQueue q w) = (readPath p s).withQueue q w :=
  ite_withQueue q w rfl rfl (settle_withQueue (s.setPath p (s.path p).readFault) q w false)

/-! ### Requests -/

/-- R169: what a request other than RESET does, its reply among it, is the same whatever waits behind it. -/
theorem handleOwned_withQueue (k : ReqKind) (hk : k ≠ .reset) (hw : k = .getStatus → w = false) (tag : Byte)
    (p : List Byte) : handleOwned k tag p (s.withQueue q w) = (handleOwned k tag p s).withQueue q w := by
  cases k <;> simp only [handleOwned]
  case setPath =>
    simp only [handleSetPath]
    cases pathArgs p with
    | none => rfl
    | some a =>
      refine ite_withQueue q w rfl rfl ?_
      rw [onMembers_withQueue _ _ _ _ _ (fun _ _ => rfl), settle_withQueue]; rfl
  case getPath =>
    simp only [handleGetPath]
    cases sourceSet (at8 p 0) with
    | none => rfl
    | some m => simp only [readPath_withQueue]; rfl
  case clearPath =>
    simp only [handleClearPath]
    cases sourceSet (at8 p 0) with
    | none => rfl
    | some m => simp only [onMembers_withQueue s q w m clearPathOf (fun _ _ => rfl), settle_withQueue]; rfl
  case setSupply =>
    simp only [handleSetSupply]
    cases supplyArgs p with
    | none => rfl
    | some a =>
      have h := settle_withQueue { s with spc := s.spc.stored a.clamped } q w false
      simp only [State.withQueue] at h ⊢
      rw [h]; rfl
  case getSupply => rfl
  case selectSource =>
    simp only [handleSelectSource]
    cases sourceOf (at8 p 0) with
    | none => rfl
    | some x =>
      refine ite_withQueue q w rfl rfl (ite_withQueue q w rfl rfl ?_)
      exact (congrArg (settle false)
        (startSwitchover_withQueue { s with slu := { s.slu with owedSelect := some tag } } q w .hostSelect s.spc.feeding x
          [])).trans (settle_withQueue ..)
  case packInfo =>
    simp only [handlePackInfo]
    cases bayOf (at8 p 0) with
    | none => rfl
    | some bay =>
      refine ite_withQueue q w rfl rfl ?_
      have h := settle_withQueue { s with spc := s.spc.packStored bay (chargeAt p) } q w false
      simp only [State.withQueue] at h ⊢
      rw [h]; rfl
  case releaseBay =>
    simp only [handleReleaseBay]
    cases bayOf (at8 p 0) with
    | none => rfl
    | some bay =>
      refine ite_withQueue q w rfl rfl (ite_withQueue q w rfl ?_ ?_)
      · rw [releaseRequest_withQueue]; rfl
      · rw [show oweRelease tag bay (s.withQueue q w) = (oweRelease tag bay s).withQueue q w from rfl, releaseRequest_withQueue,
          settle_withQueue]
  case getLatch => simp only [handleGetLatch]; split <;> rfl
  case setSense => simp only [handleSetSense]; split <;> rfl
  case getSense => rfl
  case loadThermistor => exact ite_withQueue q w rfl rfl rfl
  case convertNow =>
    simp only [handleConvertNow]
    cases channelOf (at8 p 0) with
    | none => rfl
    | some c => exact ite_withQueue q w rfl rfl (ite_withQueue q w rfl rfl rfl)
  case setBrightness => simp only [handleSetBrightness]; split <;> rfl
  case getBrightness => rfl
  case loadCurve => exact ite_withQueue q w rfl rfl rfl
  case setLamp => simp only [handleSetLamp]; split <;> rfl
  case getLamp => simp only [handleGetLamp]; split <;> rfl
  case lampClear => simp only [handleLampClear]; split <;> rfl
  case setMotion =>
    simp only [handleSetMotion]
    cases motionArgs p with
    | none => rfl
    | some x =>
      refine ite_withQueue q w rfl rfl ?_
      have h := raiseIf_withQueue { s with mpt := s.mpt.stored x.1, ddt := s.ddt.stored x.2.clamped } q w
        (x.1 != s.mpt.rate && s.mpt.link == .lost) .motionLink
      simp only [State.withQueue] at h ⊢
      rw [h]; rfl
  case getMotion => rfl
  case readDrop => simp only [handleReadDrop, withQueue_ddt]; split <;> rfl
  case eraseDrops => rfl
  case setPlatform =>
    simp only [handleSetPlatform]
    cases Platform.ofCode (at8 p 0) with
    | none => rfl
    | some f =>
      cases maskAt p 1 with
      | none => rfl
      | some m =>
        have h : publishPlatform (s.withQueue q w).slu.platform
            { s.withQueue q w with slu := { (s.withQueue q w).slu with platform := f, wakeMask := m } } =
            (publishPlatform s.slu.platform { s with slu := { s.slu with platform := f, wakeMask := m } }).withQueue q w :=
          ite_withQueue q w rfl rfl rfl
        simp only [h]; rfl
  case setNoticeMask => simp only [handleSetNoticeMask]; split <;> rfl
  case getStatus => cases hw rfl; rfl
  case getIdent => rfl
  case reset => exact absurd rfl hk

/-- R183: RESET that is declined keeps the queue. -/
theorem handleReset_declined (tag : Byte) (p : List Byte) (h : inFlight s = true) :
    handleReset tag p (s.withQueue q w) = (handleReset tag p s).withQueue q w := by
  simp only [handleReset, inFlight_withQueue, h, if_true]; rfl

theorem markSole_withQueue : markSole (s.withQueue q w) = (markSole s).withQueue q w :=
  ite_withQueue q w rfl rfl (raise_withQueue { s with spc := { s.spc with soleSource := true } } q w .supplyChange)

theorem examineReset_withQueue : examineReset (s.withQueue q w) = (examineReset s).withQueue q w := by
  unfold examineReset
  rw [← updatePreempt_withQueue]
  congr 1
  simp only [examineHeldWith, heldCondition_withQueue, withQueue_spc, chooseTarget_withQueue]
  cases heldCondition s with
  | none => rfl
  | some r =>
    refine ite_withQueue q w rfl ?_ rfl
    cases chooseTarget s s.spc.feeding [] with
    | some t => rfl
    | none => exact markSole_withQueue s q w

theorem cancelOwed_withQueue (c : Option Channel) : cancelOwed c (s.withQueue q w) = (cancelOwed c s).withQueue q w := by
  unfold cancelOwed
  dsimp only
  rw [answerRelease_withQueue, answerRelease_withQueue]
  cases c with
  | none => rfl
  | some c =>
    show answerConvert .cancelled c (State.withQueue _ q w) = _
    unfold answerConvert
    rw [withQueue_owedConvert]
    split <;> rfl

/-- R183, step 2: RESET that is taken discards the queue. -/
theorem handleReset_taken (tag : Byte) (p : List Byte) (h : inFlight s = false) :
    handleReset tag p (s.withQueue q w) = (handleReset tag p s).withQueue [] w := by
  have r : resetBlocks (s.withQueue q w) = (resetBlocks s).withQueue [] w := rfl
  simp only [handleReset, inFlight_withQueue, h, Bool.false_eq_true, if_false, r, publishSituation_withQueue,
    examineReset_withQueue, withQueue_scv, cancelOwed_withQueue]
  rfl

end Sys2Proof.Machine
end

