-- ==== Sys2Proof/Laws/Readings.lean ====
section
/-! SUPPORT. What is made of a reading: the tables' straight lines (R71, R94), the publication of a light conversion (R86 to R101), and
the measurement of the lamp's strings (R116 to R118): one lemma for each definition. -/

namespace Sys2Proof.Machine

open Sys2Proof.Safety

/-- R94: the curve is the straight lines between its points, and flat outside them. -/
theorem curveAt_spec (pts : List (Nat × Nat)) (x : Nat) (h : pts.Pairwise (fun p q => p.1 < q.1)) :
    (∀ p, pts.head? = some p → x ≤ p.1 → curveAt pts x = p.2) ∧
    (∀ p, pts.getLast? = some p → p.1 ≤ x → curveAt pts x = p.2) ∧
    (∀ i p q, pts[i]? = some p → pts[i + 1]? = some q → p.1 ≤ x → x < q.1 →
      curveAt pts x = ((p.2 : Int) + (((q.2 : Int) - p.2) * ((x : Int) - p.1)).tdiv ((q.1 : Int) - p.1)).toNat) := by
  fun_induction curveAt pts x with
  | case1 => simp
  | case2 => simp
  | case3 p q rest x hx =>
    have hl : ∀ r ∈ q :: rest, x < r.1 := fun r m => Nat.lt_of_le_of_lt hx ((List.pairwise_cons.1 h).1 r m)
    refine ⟨fun a ha _ => by simp at ha; subst ha; rfl, fun a ha hb => ?_, fun i a b ha hb ca cb => ?_⟩
    · rw [List.getLast?_cons_cons] at ha
      exact absurd (hl a (List.mem_of_getLast? ha)) (by omega)
    · cases i with
      | zero =>
        simp at ha hb; subst ha; subst hb
        have : p.1 = x := by omega
        subst this; simp
      | succ i =>
        have := hl a (by simp at ha; exact List.mem_of_getElem? ha); omega
  | case4 p q rest x hx hq =>
    refine ⟨fun a ha hb => by simp at ha; subst ha; omega, fun a ha hb => ?_, fun i a b ha hb ca cb => ?_⟩
    · rw [List.getLast?_cons_cons] at ha
      have m := List.mem_of_getLast? ha
      have h2 := (List.pairwise_cons.1 h).2
      rcases List.mem_cons.1 m with e | m
      · subst e; omega
      · have := (List.pairwise_cons.1 h2).1 a m; omega
    · cases i with
      | zero => simp at ha hb; subst ha; subst hb; rfl
      | succ i =>
        simp at ha
        have m := List.mem_of_getElem? ha
        have h2 := (List.pairwise_cons.1 h).2
        rcases List.mem_cons.1 m with e | m
        · subst e; omega
        · have := (List.pairwise_cons.1 h2).1 a m; omega
  | case5 p q rest x hx hq ih =>
    obtain ⟨i1, i2, i3⟩ := ih (List.pairwise_cons.1 h).2
    refine ⟨fun a ha hb => by simp at ha; subst ha; omega, fun a ha hb => ?_, fun i a b ha hb ca cb => ?_⟩
    · rw [List.getLast?_cons_cons] at ha; exact i2 a ha hb
    · cases i with
      | zero => simp at ha hb; subst ha; subst hb; omega
      | succ i => exact i3 i a b (by simpa using ha) (by simpa using hb) ca cb

/-- R71: the table is the straight lines between its points, and flat outside them. -/
theorem thermistorAt_spec (pts : List (Nat × Int)) (x : Nat) (h : pts.Pairwise (fun p q => p.1 < q.1)) :
    (∀ p, pts.head? = some p → x ≤ p.1 → thermistorAt pts x = p.2) ∧
    (∀ p, pts.getLast? = some p → p.1 ≤ x → thermistorAt pts x = p.2) ∧
    (∀ i p q, pts[i]? = some p → pts[i + 1]? = some q → p.1 ≤ x → x < q.1 →
      thermistorAt pts x = p.2 + ((q.2 - p.2) * ((x : Int) - p.1)).tdiv ((q.1 : Int) - p.1)) := by
  fun_induction thermistorAt pts x with
  | case1 => simp
  | case2 => simp
  | case3 p q rest x hx =>
    have hl : ∀ r ∈ q :: rest, x < r.1 := fun r m => Nat.lt_of_le_of_lt hx ((List.pairwise_cons.1 h).1 r m)
    refine ⟨fun a ha _ => by simp at ha; subst ha; rfl, fun a ha hb => ?_, fun i a b ha hb ca cb => ?_⟩
    · rw [List.getLast?_cons_cons] at ha
      exact absurd (hl a (List.mem_of_getLast? ha)) (by omega)
    · cases i with
      | zero =>
        simp at ha hb; subst ha; subst hb
        have : p.1 = x := by omega
        subst this; simp
      | succ i =>
        have := hl a (by simp at ha; exact List.mem_of_getElem? ha); omega
  | case4 p q rest x hx hq =>
    refine ⟨fun a ha hb => by simp at ha; subst ha; omega, fun a ha hb => ?_, fun i a b ha hb ca cb => ?_⟩
    · rw [List.getLast?_cons_cons] at ha
      have m := List.mem_of_getLast? ha
      have h2 := (List.pairwise_cons.1 h).2
      rcases List.mem_cons.1 m with e | m
      · subst e; omega
      · have := (List.pairwise_cons.1 h2).1 a m; omega
    · cases i with
      | zero => simp at ha hb; subst ha; subst hb; rfl
      | succ i =>
        simp at ha
        have m := List.mem_of_getElem? ha
        have h2 := (List.pairwise_cons.1 h).2
        rcases List.mem_cons.1 m with e | m
        · subst e; omega
        · have := (List.pairwise_cons.1 h2).1 a m; omega
  | case5 p q rest x hx hq ih =>
    obtain ⟨i1, i2, i3⟩ := ih (List.pairwise_cons.1 h).2
    refine ⟨fun a ha hb => by simp at ha; subst ha; omega, fun a ha hb => ?_, fun i a b ha hb ca cb => ?_⟩
    · rw [List.getLast?_cons_cons] at ha; exact i2 a ha hb
    · cases i with
      | zero => simp at ha hb; subst ha; subst hb; omega
      | succ i => exact i3 i a b (by simpa using ha) (by simpa using hb) ca cb

/-- R96 to R98: stage 6. -/
theorem biasApplied_stage6 (e g0 : Bre) (h : g0.settings = e.settings) (hy : g0.yb = e.yb)
    (hc : g0.clamped = e.clamped) : BiasApplied e g0.stage6 := by
  unfold Bre.stage6 
  constructor
  · intro a; rw [h, a]; simp [biased]
  · intro a; rw [h, a]; simp
  · intro a; rw [h, a]; simp [hy, hc]

/-- R86 to R101: what the publication of a light conversion leaves in the BRE. -/
theorem lightPublished_bre (e : Bre) (c : Channel) (hc : c = .alsFront ∨ c = .alsRear) (st : Bool)
    (r : ChannelRecord) (hu : usableAt r st = st) (ef er : Nat) :
   LightPublished c st ef er e (e.lightPublished c st r ef er) := by
  unfold Bre.lightPublished
  rw [hu]
  dsimp only
  set u := e.setUsable c st with hue
  have us : UsableWritten c st e u := by
    rcases hc with rfl | rfl
    · exact ⟨rfl, rfl⟩
    · refine ⟨rfl, ?_⟩
      simp only [hue, Bre.setUsable, if_true]
      congr 1
      by_cases z : e.settings.rearWeight = 0 <;> simp [z]
  have uf : u = { e with frontUsable := u.frontUsable, rearUsable := u.rearUsable } := by
    rcases hc with rfl | rfl <;> rfl
  by_cases k : u.frontUsable = true ∨ u.rearUsable = true
  · have kk : (u.frontUsable || u.rearUsable) = true := by simpa using k
    rw [if_pos kk]
    have comb : ∃ g : Bre, u.combined ef er = g ∧
        g =
          { u with
            lux := combinedLux u ef er, ambientUnknown := false, level := logLevel (combinedLux u ef er), seeded := g.seeded
            lf := g.lf, lused := g.lused } ∧
        FilterStepped e g := by
      refine ⟨_, rfl, ?_⟩
      have cb : combine u.frontUsable u.rearUsable u.settings.rearWeight ef er = some (combinedLux u ef er) := by
        unfold combine combinedLux rearTerm
        revert k
        cases u.frontUsable <;> cases u.rearUsable <;> simp
      unfold Bre.combined
      rw [cb]
      dsimp only
      unfold Bre.enter
      dsimp only
      have um : u.motionHold = e.motionHold := by rw [uf]
      have use : u.seeded = e.seeded := by rw [uf]
      have ulf : u.lf = e.lf := by rw [uf]
      have ulu : u.lused = e.lused := by rw [uf]
      have uset : u.settings = e.settings := by rw [uf]
      rw [um, use]
      by_cases m : e.motionHold = true
      · rw [if_pos m]
        refine ⟨?_, ⟨fun _ => ⟨rfl, ulf, ulu⟩, fun x => by simp [m] at x, fun x => by simp [m] at x⟩⟩
        simp
      · rw [if_neg m]
        by_cases sd : e.seeded = true
        · rw [if_pos sd]
          refine ⟨by simp, ⟨fun x => absurd x m, fun _ x => by simp [sd] at x, fun _ _ => ⟨sd, ?_, ?_⟩⟩⟩
          · simp only [filterStep, ulf, uset]
          · simp only [deadbandStep, distance, ulu, uset]
        · rw [if_neg sd]
          refine ⟨by simp, ⟨fun x => absurd x m, fun _ _ => ⟨rfl, rfl, rfl⟩, fun _ x => absurd x sd⟩⟩
    obtain ⟨g, ge, gf, fs⟩ := comb
    rw [ge]
    have gset : g.settings = e.settings := by rw [gf]; show u.settings = _; rw [uf]
    have gcur : g.curve = e.curve := by rw [gf]; show u.curve = _; rw [uf]
    have g6 : ∀ h : Bre, ∃ a b, h.stage6 = { h with yb := a, clamped := b } := by
      intro h; unfold Bre.stage6
      split
      · exact ⟨_, _, rfl⟩
      · exact ⟨_, _, rfl⟩
      · exact ⟨h.yb, h.clamped, rfl⟩
    have b6 := biasApplied_stage6 e g.stage5 gset (by show g.yb = _; rw [gf]; show u.yb = _; rw [uf])
      (by show g.clamped = _; rw [gf]; show u.clamped = _; rw [uf])
    obtain ⟨a, b, e6⟩ := g6 g.stage5
    rw [e6] at b6 ⊢
    have al : g.allowance = e.allowance := by rw [gf]; show u.allowance = _; rw [uf]
    have th : g.thermalCap = e.thermalCap := by rw [gf]; show u.thermalCap = _; rw [uf]
    refine ⟨⟨?_, ?_⟩, ⟨gset, gcur, ?_, ?_, al, ?_, th⟩, fun _ => ⟨?_, ?_, ?_, ?_, ?_, ?_, ?_, ?_⟩, fun x y => ?_⟩
    · show g.frontUsable = _; rw [gf]; exact us.front
    · show g.rearUsable = _; rw [gf]; exact us.rear
    · show g.motionHold = _; rw [gf]; show u.motionHold = _; rw [uf]
    · show g.frozen = _; rw [gf]; show u.frozen = _; rw [uf]
    · show g.panelKnown = _; rw [gf]; show u.panelKnown = _; rw [uf]
    · show g.ambientUnknown = _; rw [gf]
    · show g.lux = combinedLux { g.stage5 with yb := a, clamped := b }.limit ef er
      have : combinedLux { g.stage5 with yb := a, clamped := b }.limit ef er = combinedLux g ef er := rfl
      rw [this]; rw [gf]; rfl
    · show g.level = logLevel g.lux; rw [gf]
    · exact ⟨fs.1, fs.2, fs.3⟩
    · show (if g.seeded then curveAt g.curve g.lused else g.settings.fallback) = _
      rw [gset, gcur]; rfl
    · exact ⟨b6.1, b6.2, b6.3⟩
    · show min g.allowance g.thermalCap = _; rw [al, th]
    · show min (max a g.settings.ymin) (min g.allowance g.thermalCap) = min (max a e.settings.ymin) (min g.allowance g.thermalCap)
      rw [gset]
    · have x : g.frontUsable = false := x
      have y : g.rearUsable = false := y
      rw [gf] at x y
      have x : u.frontUsable = false := x
      have y : u.rearUsable = false := y
      rw [x, y] at k; simp at k
  · have kk : ¬(u.frontUsable || u.rearUsable) = true := by simpa using k
    rw [if_neg kk]
    have x : u.frontUsable = false := by simp at kk; exact kk.1
    have y : u.rearUsable = false := by simp at kk; exact kk.2
    have nu : u.noteUnknown = { e with frontUsable := false, rearUsable := false, ambientUnknown := true } := by
      unfold Bre.noteUnknown
      rw [if_pos ⟨x, y⟩]
      rw [uf, x, y]
    rw [nu]
    refine ⟨⟨?_, ?_⟩, ⟨rfl, rfl, rfl, rfl, rfl, rfl, rfl⟩, fun z => by simp at z, fun _ _ => rfl⟩
    · rw [← us.front]; exact x.symm
    · rw [← us.rear]; exact y.symm

/-- R69, R86: a light conversion makes its channel usable exactly when it stores its value. -/
theorem usableAt_lightResult (r : ChannelRecord) (n cal : Nat) :
    usableAt (r.lightResult n cal) (lightStores n r.range) = decide (n < 65535 ∨ 2 ≤ r.range) := by
  unfold ChannelRecord.lightResult
  dsimp only
  unfold usableAt lightStores
  by_cases a : n < 65535 <;> by_cases b : 2 ≤ r.range <;> simp [a, b, Config.counterLimit]

/-- R116: a period is measured. -/
theorem measures_iff (l : Lmd) (delivered : Nat) : (l.measures delivered = true ↔
      l.changed = false ∧ l.measured = false ∧ 100000 ≤ delivered ∧
        100000 ≤ l.pwmPeriod * l.inForce.duty / 4096) := by
  simp only [Lmd.measures, onTime, Config.measurableNs, Config.fullDuty, Bool.and_eq_true, Bool.not_eq_true',
    decide_eq_true_iff, Nat.le_min, and_assoc]

/-- R118: one reading confirms a fault. -/
theorem confirms_iff (i : Nat) (x : StringReading) (r : StringRecord) : r.confirms i x = true ↔
   r.state = .enabled ∧ r.driven = true ∧ 2 ≤ r.count ∧
     ((x.current * 2 < i ∧ r.counted = .openCircuit) ∨ (i ≤ x.current * 2 ∧ 6000 < x.headroom ∧ r.counted = .short)) := by
  unfold StringRecord.confirms StringRecord.measuredAs StringRecord.measurable
  by_cases a : r.state = .enabled
  · cases d : r.driven with
    | false => simp [a]
    | true =>
      simp only [a, beq_self_eq_true, Bool.true_and, if_true, true_and, bne_iff_ne, ne_eq]
      unfold measureString nextFaultCount confirmedState
      by_cases o : x.current * 2 < i
      · simp only [o, if_true, Measurement.counts, reduceCtorEq, if_false, Config.stringFaultCount, true_and]
        by_cases c : r.counted = .openCircuit
        · simp only [c, if_true]
          by_cases n : 2 ≤ r.count
          · have : ¬min 3 (r.count + 1) < 3 := by omega
            simp [this, n]
          · have : min 3 (r.count + 1) < 3 := by omega
            simp [this, n]
        · have : ¬CountedFault.openCircuit = r.counted := fun e => c e.symm
          simp [this, c]; omega
      · simp only [o, if_false, Config.shortHeadroomMv, false_and, false_or]
        have le : i ≤ x.current * 2 := by omega
        by_cases h : 6000 < x.headroom
        · simp only [h, if_true, Measurement.counts, reduceCtorEq, if_false, Config.stringFaultCount, true_and, le]
          by_cases c : r.counted = .short
          · simp only [c, if_true]
            by_cases n : 2 ≤ r.count
            · have : ¬min 3 (r.count + 1) < 3 := by omega
              simp [this, n]
            · have : min 3 (r.count + 1) < 3 := by omega
              simp [this, n]
          · have : ¬CountedFault.short = r.counted := fun e => c e.symm
            simp [this, c]
        · simp [h, Measurement.counts, Config.stringFaultCount]
  · simp [a]

/-- R118: a measurement confirms a fault on some string. -/
theorem confirmsFault_iff (l : Lmd) (delivered : Nat) (r : StringReadings) : (confirmsFault delivered r l = true ↔
      l.measures delivered = true ∧ ∃ i,
        (l.strings.get i).state = .enabled ∧ (l.strings.get i).driven = true ∧
        2 ≤ (l.strings.get i).count ∧
        (((readingOf r i).current * 2 < l.inForce.current ∧ (l.strings.get i).counted = .openCircuit) ∨
          (l.inForce.current ≤ (readingOf r i).current * 2 ∧ 6000 < (readingOf r i).headroom ∧
            (l.strings.get i).counted = .short))) := by
  have ex : ∀ P : LedString → Prop, (∃ i, P i) ↔ ((P .s1 ∨ P .s2) ∨ P .s3) ∨ P .s4 := fun P =>
    ⟨fun ⟨i, h⟩ => by cases i <;> simp [h], fun h => by rcases h with ((h | h) | h) | h <;> exact ⟨_, h⟩⟩
  rw [ex]
  simp only [confirmsFault, Bool.and_eq_true, Bool.or_eq_true, confirms_iff]
  rfl

/-- R117: a string at a period start. -/
theorem periodString_startPeriod (s : State) (n : Nat) (i : LedString) :
    (s.lmd.endPeriod.startPeriod n).strings.get i = periodString s.lmd (s.lmd.strings.get i) := by
  unfold Lmd.endPeriod Lmd.startPeriod periodString
  dsimp only
  rw [PerString.get_map]
  split
  · rename_i m
    simp [m, beq_eq_decide]
  · rename_i m
    have m : s.lmd.measured = false := by simpa using m
    simp only [PerString.get_map]
    unfold StringRecord.unmeasured
    by_cases a : (s.lmd.strings.get i).state = .enabled ∧ s.lmd.settings.strategy = .reportUnmeasured
    · simp [a, m]
    · rw [if_neg a, if_neg (fun x => a x.2)]
      simp [beq_eq_decide]

end Sys2Proof.Machine
end

