-- ==== Sys2Proof/Laws/Sense.lean ====
section
/-! SUPPORT. The search of the walk from slot 1 (R73, R75), which SET_SENSE, the RESET request and power-on start. -/

namespace Sys2Proof.Machine

/-- R73: from slot 1 the search takes the places in order. -/
theorem searchOrder_first (v : Scv) (h : v.resume = 1) : searchOrder v = List.range v.slots.length := by
  unfold searchOrder
  conv => rhs; rw [← List.map_id (List.range v.slots.length)]
  refine List.map_congr_left fun i hi => ?_
  rw [h]
  simp [Nat.mod_eq_of_lt (List.mem_range.mp hi)]

theorem findSome_range {α : Type} (g : Nat → Option α) (n i : Nat) (x : α) (hi : i < n) (h : g i = some x)
    (first : ∀ j, j < i → g j = none) : (List.range n).findSome? g = some x := by
  rw [List.findSome?_eq_some_iff]
  refine ⟨List.range i, i, (List.range (n - i - 1)).map (fun j => i + 1 + j), ?_, h, fun j hj => first j (List.mem_range.mp hj)⟩
  have e : n = i + (1 + (n - i - 1)) := by omega
  conv => lhs; rw [e, List.range_add, List.range_add]
  simp [List.map_map, Function.comp_def, Nat.add_assoc]

/-- R73: the first eligible slot, from slot 1. -/
theorem findSlot_first (q : Platform) (v : Scv) (h : v.resume = 1) (i : Nat) (c : Channel) (hc : v.slots[i]? = some c)
    (can : eligible q v c = true) (first : ∀ j d, j < i → v.slots[j]? = some d → eligible q v d = false) :
    findSlot q v = some (i, c) := by
  unfold findSlot
  rw [searchOrder_first v h]
  have hi : i < v.slots.length := (List.getElem?_eq_some_iff.mp hc).1
  refine findSome_range _ _ i _ hi (by simp [hc, can]) fun j hj => ?_
  cases hd : v.slots[j]? with
  | none => rfl
  | some d => simp [first j d hj hd]

/-- R73: no eligible slot. -/
theorem findSlot_none (q : Platform) (v : Scv) (h : v.resume = 1) (no : ∀ c ∈ v.slots, eligible q v c = false) :
    findSlot q v = none := by
  unfold findSlot
  rw [searchOrder_first v h, List.findSome?_eq_none_iff]
  intro i _
  cases hd : v.slots[i]? with
  | none => rfl
  | some d => simp [no d (List.mem_of_getElem? hd)]

theorem eligible_iff (q : Platform) (v : Scv) (c : Channel) :
    eligible q v c = true ↔ v.enable.get c = true ∧ (q = .standby → isLight c = false) := by
  unfold eligible
  cases v.enable.get c <;> cases q <;> cases isLight c <;> decide

end Sys2Proof.Machine
end

