-- ==== Sys2Proof/WellFormed.lean ====
section
/-! DEFINITION. Which commands the part can be given: the checks on their operands that no type makes. A command that fails
one of them is still total in the machine; the meanings say what they take it for. -/

namespace Sys2Proof

/-- A frame's length character is at most 240 (R163). -/
def payloadFits (payload : List Byte) : Bool := decide (payload.length ≤ Config.maxPayload)

/-- A count above 40,000 cannot arise (R70). -/
def countFits (count : Nat) : Bool := decide (count ≤ Config.periodCountLimit)

/-- The readings of one sink fit the two characters each has in a string record (section 10.9). -/
def StringReading.fits (r : StringReading) : Bool := decide (r.current ≤ 65535 ∧ r.headroom ≤ 65535)

/-- All four strings' readings fit. -/
def StringReadings.fits (r : StringReadings) : Bool := r.s1.fits && r.s2.fits && r.s3.fits && r.s4.fits

/-- The checks on a command's operands. -/
def Instr.wellFormed : Instr → Bool
  | .powerOnReset _ _ _ _ => true
  | .rxFrame _ _ => true
  | .frameGapTimeout => true
  | .lineBreak => true
  | .breakEnd => true
  | .requestDispatch => true
  | .txFrameEnd => true
  | .setPath _ p => payloadFits p
  | .getPath _ p => payloadFits p
  | .clearPath _ p => payloadFits p
  | .setSupply _ p => payloadFits p
  | .getSupply _ p => payloadFits p
  | .selectSource _ p => payloadFits p
  | .packInfo _ p => payloadFits p
  | .releaseBay _ p => payloadFits p
  | .getLatch _ p => payloadFits p
  | .setSense _ p => payloadFits p
  | .getSense _ p => payloadFits p
  | .loadThermistor _ p => payloadFits p
  | .convertNow _ p => payloadFits p
  | .setBrightness _ p => payloadFits p
  | .getBrightness _ p => payloadFits p
  | .loadCurve _ p => payloadFits p
  | .setLamp _ p => payloadFits p
  | .getLamp _ p => payloadFits p
  | .lampClear _ p => payloadFits p
  | .setMotion _ p => payloadFits p
  | .getMotion _ p => payloadFits p
  | .readDrop _ p => payloadFits p
  | .eraseDrops _ p => payloadFits p
  | .setPlatform _ p => payloadFits p
  | .setNoticeMask _ p => payloadFits p
  | .getStatus _ p => payloadFits p
  | .getIdent _ p => payloadFits p
  | .resetRequest _ p => payloadFits p
  | .monitorSample _ => true
  | .emptyTimerExpiry _ => true
  | .blankingEnd _ => true
  | .retryTimerExpiry _ => true
  | .goodCloseInterval _ => true
  | .startUpIntervalEnd => true
  | .deadTimeExpiry => true
  | .overlapTimerExpiry => true
  | .lossDeclared _ => true
  | .preemptionTimerExpiry _ => true
  | .busLowActivate _ => true
  | .busLowRecovery => true
  | .buttonPress _ => true
  | .latchSenseChange _ _ => true
  | .releaseWindowExpiry _ => true
  | .latchFaultTimerExpiry _ => true
  | .latchStuckTimerExpiry _ => true
  | .lightConversionEnd _ => true
  | .thermistorConversionEnd c => countFits c
  | .thermistorTimeout => true
  | .channelStale _ => true
  | .frameStart _ => true
  | .frameTimeout => true
  | .periodStart => true
  | .stringMeasurement _ r => r.fits
  | .stringFaultConfirm _ r => r.fits
  | .sampleEvent => true
  | .frameEnd _ => true
  | .linkLostEntry _ => true
  | .linkRecovery _ => true
  | .fallQualified _ => true
  | .softLanding _ => true
  | .fallTimeout _ => true
  | .impactExit _ => true
  | .settled _ => true
  | .settleTimeout _ => true
  | .blindHoldEnd _ => true
  | .traceFreeze _ => true
  | .rxCharacter _ _ => true
  | .buttonInactive _ => true

end Sys2Proof
end

