-- ==== Sys2Proof/Tests/Slice0.lean ====
section
/-! SUPPORT. The model's own tests: ill-formed commands, small steps on small states, and, for the statements of Obligations.lean,
states and operands that meet their hypotheses. -/

namespace Sys2Proof.Tests

open Sys2Proof Sys2Proof.Machine Sys2Proof.Safety

/-! ### WellFormed: each check refuses an ill-formed term -/

theorem test_wellFormed_payload : (Instr.setPath 0 (List.replicate 241 0)).wellFormed = false := by
  rw [Instr.wellFormed, payloadFits, List.length_replicate]; rfl
theorem test_wellFormed_payload_limit : (Instr.setPath 0 (List.replicate 240 0)).wellFormed = true := by
  rw [Instr.wellFormed, payloadFits, List.length_replicate]; rfl
theorem test_wellFormed_count : (Instr.thermistorConversionEnd 40001).wellFormed = false := by decide
theorem test_wellFormed_count_limit : (Instr.thermistorConversionEnd 40000).wellFormed = true := by decide
theorem test_wellFormed_current :
    (Instr.stringMeasurement 0 ⟨⟨65536, 0⟩, ⟨0, 0⟩, ⟨0, 0⟩, ⟨0, 0⟩⟩).wellFormed = false := by decide
theorem test_wellFormed_headroom :
    (Instr.stringFaultConfirm 0 ⟨⟨0, 0⟩, ⟨0, 0⟩, ⟨0, 0⟩, ⟨65535, 65536⟩⟩).wellFormed = false := by decide

/-! ### Helpers -/

/-- The state a step leaves; the state itself where it stops. -/
def after (o : Host.Outcome State Fault Refusal) (s : State) : State :=
  match o with
  | .next t => t
  | .fault _ => s
  | .refused _ => s

/-- One command on a state. -/
def run (c : Instr) (s : State) : State := after (exec c s) s

/-- The part after reset. -/
def z : State := State.reset

/-- The same with a frame on SYS_TX. -/
def busy : State := { z with slu := { z.slu with tx := some [] } }

def rx (r : Receiver) : State := z.setRx r

/-- A path in a state, with its source at a voltage. -/
def pathAt (p : Source) (st : PathState) (mv : Nat) : PathRecord := { PathRecord.powerOn p with state := st, voltage := mv }

/-- After the start-up interval, with the three paths given and a source feeding. -/
def supply (feeding : Option Source) (dc a b : PathState × Nat) : State :=
  { z with
    spc :=
      { z.spc with
        startUp := false, feeding := feeding
        paths := ⟨pathAt .dcIn dc.1 dc.2, pathAt .bayA a.1 a.2, pathAt .bayB b.1 b.2⟩ } }

/-- DC_IN feeds, and both bays hold a pack. -/
def live : State := supply (some .dcIn) (.closed, 19000) (.opened, 15000) (.opened, 15000)

/-- BAY_A feeds, and BAY_B holds a pack at 200 mV less. -/
def onBattery : State := supply (some .bayA) (.opened, 0) (.closed, 15000) (.opened, 14800)

/-- A switchover from BAY_A to BAY_B in a phase. -/
def switching (ph : SwPhase) (reason : SwReason) (a b : PathState) : State :=
  let s := supply (some .bayA) (.opened, 0) (a, 15000) (b, 14800)
  { s with
    spc :=
      { s.spc with
        sw := { s.spc.sw with reason := reason, fromSrc := some .bayA, toSrc := .bayB, phase := ph } } }

def withLatch (bay : Bay) (l : LatchRecord) (s : State) : State := s.setLatch bay l

def granted : LatchRecord := (LatchRecord.powerOn .locked).grant

def inPhase (p : MotionPhase) (s : State) : State := { s with ddt := { s.ddt with phase := p } }

/-- A frame with a good check. -/
def frame (status xHi xLo yHi yLo zHi zLo : Byte) : AccelFrame :=
  { status := status, check := status ^^^ xHi ^^^ xLo ^^^ yHi ^^^ yLo ^^^ zHi ^^^ zLo ^^^ 0xFF
    xHi := xHi, xLo := xLo, yHi := yHi, yLo := yLo, zHi := zHi, zLo := zLo }

/-- 1 g on the z axis, with a frame count. -/
def oneG (count : Byte) : AccelFrame := frame (count <<< 4) 0 0 0 0 0x08 0

/-- Free fall: nothing on any axis. -/
def fall (count : Byte) : AccelFrame := frame (count <<< 4) 0 0 0 0 0 0

/-- A blow: 15 g on the x axis. -/
def blow (count : Byte) : AccelFrame := frame (count <<< 4) 0x78 0 0 0 0 0

/-- A transfer is in flight. -/
def moving (d : Ddt) : State := { z with ddt := d, mpt := { z.mpt with transfer := .inFlight } }

theorem transmitterOk_quiet (s : State) (f : s.slu.fifo = []) (o : s.slu.outbox = z.slu.outbox) : TransmitterOk s :=
  fun _ => ⟨f, fun k => by rw [o]; cases k <;> rfl⟩

theorem transmitterOk_busy (s : State) (h : s.slu.tx ≠ none) : TransmitterOk s := fun x => absurd x h

theorem ready_quiet (s : State) (h : s.slu = z.slu) : Ready s :=
  ⟨by rw [h]; rfl, by simp only [freeSpace, reservedSpace, h]; decide,
    transmitterOk_quiet s (by rw [h]; rfl) (by rw [h])⟩

theorem ready_busy (s : State) (h : s.slu = busy.slu) : Ready s :=
  ⟨by rw [h]; rfl, by simp only [freeSpace, reservedSpace, h]; decide, transmitterOk_busy s (by rw [h]; decide)⟩

/-! ### One step of each command -/

theorem test_powerOn : run (.powerOnReset true false .unlocked .locked) busy =
    { State.powerOn true false .unlocked .locked [] with pending := [] } := by decide
theorem test_step_empty : step z = .next z := rfl
theorem test_step_front : step { z with pending := [.breakEnd, .lineBreak] } = .next { z with pending := [.lineBreak] } := rfl

theorem test_rx_sync : (run (.rxCharacter 0x5A true) z).slu.rx = .length := by decide
theorem test_rx_check_error : (run (.rxFrame 1 true) (rx (.check 0 0x50 0 []))).slu.linkErrors = 1 := by decide
theorem test_frame_getIdent : (run (.rxFrame 0x73 true) (rx (.check 0 0x73 0x1A []))).slu.tx ≠ none := by decide
theorem test_gap : (run .frameGapTimeout (rx (.kind 3))).slu.rx = .hunt := by decide
theorem test_break : (run .lineBreak busy).slu.rx = .lineBreak := by decide
theorem test_breakEnd : (run .breakEnd (rx .lineBreak)).slu.rx = .hunt := by decide
theorem test_dispatch : (run .requestDispatch { busy with slu := { busy.slu with queue := [⟨0xFF, 7, []⟩] } }).slu.fifo =
    [⟨7, [0xFF, 5]⟩] := by decide
theorem test_txEnd : (run .txFrameEnd busy).slu.tx = none := by decide

theorem test_setPath : ((run (.setPath 0 [0x01, 0xFF, 0xFF, 4, 1, 0, 0xF4, 1, 3, 0, 1]) busy).path .dcIn).settings.ocThreshold = 10000 := by
  decide
theorem test_getPath : (run (.getPath 0 [1]) busy).slu.fifo.length = 1 := by decide
theorem test_clearPath : ((run (.clearPath 0 [2]) (supply (some .dcIn) (.closed, 19000) (.lockedOut, 15000) (.opened, 0))).path .bayA).state =
    .opened := by decide
theorem test_setSupply_badOrder : (run (.setSupply 0 (List.replicate 27 0)) busy).spc = busy.spc := by decide
theorem test_getSupply : (run (.getSupply 0 []) busy).slu.fifo.length = 1 := by decide
theorem test_selectSource : (run (.selectSource 9 [1]) live).spc.sw.phase = .gapDead := by decide
theorem test_packInfo : (run (.packInfo 0 [1, 101]) live).spc.packInfo.a = some 100 := by decide
theorem test_releaseBay : ((run (.releaseBay 0 [1]) live).latch .a).release = .granted := by decide
theorem test_getLatch_bad : (run (.getLatch 0 [0]) busy).slu.fifo = [⟨0, [0x21, 3]⟩] := by decide
theorem test_setSense : (run (.setSense 0 [1, 0x1F, 0, 1, 0, 0, 4]) busy).scv.calRear = 1 := by decide
theorem test_getSense : (run (.getSense 0 []) busy).slu.fifo.length = 1 := by decide
theorem test_loadThermistor_bad : (run (.loadThermistor 0 (List.replicate 48 0)) busy).scv.table = defaultThermistors := by decide
theorem test_convertNow : (run (.convertNow 5 [4]) busy).slu.owedConvert = some 5 := by decide
theorem test_setBrightness : (run (.setBrightness 0 [0, 0, 8, 2, 2, 0x58, 2, 1, 0, 0xF4, 1, 0x58, 2, 7, 0x2C, 1, 20, 0]) busy).bre.yb = 500 := by
  decide
theorem test_getBrightness : (run (.getBrightness 0 []) busy).slu.fifo.length = 1 := by decide
theorem test_loadCurve : (run (.loadCurve 0 [2, 0, 0, 0, 0, 0, 1, 0xE8, 3]) busy).bre.curve = [(0, 0), (256, 1000)] := by decide
theorem test_setLamp : (run (.setLamp 0 [8, 4, 250, 0, 250, 0, 4, 0, 0x0E]) busy).lmd.strings.s1.state = .disabled := by decide
theorem test_getLamp : (run (.getLamp 0 [1]) busy).slu.fifo.length = 1 := by decide
theorem test_lampClear : (run (.lampClear 0 [0]) busy).slu.fifo = [⟨0, [0x52, 3]⟩] := by decide
theorem test_setMotion : (run (.setMotion 0 [0x90, 1, 0x5E, 1, 60, 80, 0, 0x2C, 1]) busy).mpt.rate = .hz400 := by decide
theorem test_getMotion : (run (.getMotion 0 []) busy).slu.fifo.length = 1 := by decide
theorem test_readDrop : (run (.readDrop 0 []) busy).ddt = busy.ddt := by decide
theorem test_eraseDrops : (run (.eraseDrops 3 []) busy).slu.fifo.length = 1 := by decide
theorem test_setPlatform : (run (.setPlatform 0 [0, 0, 0]) busy).lmd.runEntry = true := by decide
theorem test_setNoticeMask : (run (.setNoticeMask 0 [0xFF, 0]) busy).slu.noticeMask = 0xFF := by decide
theorem test_getStatus : (run (.getStatus 0 []) busy).slu.fifo.length = 1 := by decide
theorem test_getIdent : (run (.getIdent 0 []) busy).slu.fifo = [⟨0, [0x73, 0, 0x2D, 0x54, 0x01, 0x01]⟩] := by decide
theorem test_reset : (run (.resetRequest 0 []) (inPhase .settling busy)).ddt.phase = .still := by decide

/-- Readings with every voltage as in `live`. -/
def steady : Readings := ⟨19000, 15000, 15000, 19000, 1000, 0, 0⟩

theorem test_sample_voltage : ((run (.monitorSample steady) live).path .dcIn).voltage = 19000 := by decide
theorem test_sample_short : ((run (.monitorSample { steady with iDc := 18001 }) live).path .dcIn).state = .tripped := by decide
theorem test_emptyTimer : ((run (.emptyTimerExpiry .a)
    (live.setPath .bayA { live.path .bayA with emptyTimer := some 9999 })).path .bayA).isEmpty = true := by decide
theorem test_blankingEnd : (run (.blankingEnd .bayB) (switching .gapClose .loss .opened .closing)).spc.feeding = some .bayB := by
  decide
theorem test_retry : ((run (.retryTimerExpiry .bayA)
    (live.setPath .bayA { live.path .bayA with state := .tripped, retry := some 500 })).path .bayA).state = .opened := by decide
theorem test_goodClose : ((run (.goodCloseInterval .dcIn)
    (live.setPath .dcIn { live.path .dcIn with tripCount := 2 })).path .dcIn).tripCount = 0 := by decide
theorem test_startUpEnd : ((run .startUpIntervalEnd
    { live with spc := { live.spc with startUp := true, feeding := none, paths := { live.spc.paths with dc := pathAt .dcIn .opened 19000 } } }).path .dcIn).state =
    .closing := by decide
theorem test_deadTime : (run .deadTimeExpiry (switching .gapDead .loss .opened .opened)).spc.sw.phase = .gapClose := by decide
theorem test_overlap : (run .overlapTimerExpiry (switching .ovlHold .hostSelect .closed .closed)).spc.feeding = some .bayB := by decide

/-- DC_IN has failed under `live` with the loss timer near its end. -/
def failing : State := { live with spc := { live.spc with lossTimer := some 1 } }
/-- Readings with DC_IN gone. -/
def gone : Readings := { steady with vDc := 0, vBus := 9000 }

theorem test_loss : (run (.lossDeclared gone) failing).spc.sw.reason = .loss := by decide
theorem test_loss_none : run (.lossDeclared steady) live = live := by decide
theorem test_preempt : (run (.preemptionTimerExpiry .dcIn)
    { onBattery with spc := { onBattery.spc with preempt := ⟨some 4999, none, none⟩, paths := { onBattery.spc.paths with dc := pathAt .dcIn .opened 19000 } } }).spc.sw.reason =
    .preempt := by decide
theorem test_busLow : (run (.busLowActivate { steady with vBus := 10000 })
    { live with spc := { live.spc with belowCount := 2 } }).spc.situation = .shed := by decide
theorem test_busLowRecovery : (run .busLowRecovery
    { live with spc := { live.spc with busLow := true, recoveryTimer := some 99 } }).spc.busLow = false := by decide

theorem test_buttonPress : (run (.buttonPress .b) live).latch .b = { granted with byButton := true } := by decide
theorem test_buttonPress_motion : ((run (.buttonPress .b) (inPhase .falling live)).latch .b).cause = .motion := by decide
theorem test_buttonInactive : (run (.buttonInactive .a) { z with ltc := { z.ltc with armed := ⟨false, false⟩ } }).ltc.armed.a = true := by
  decide
theorem test_latchSense : ((run (.latchSenseChange .a .unlocked) z).latch .a).sensed = .unlocked := by decide
theorem test_window : ((run (.releaseWindowExpiry .a) (withLatch .a granted live)).latch .a).lastEvent = .expired := by decide
theorem test_latchFault : ((run (.latchFaultTimerExpiry .a) (withLatch .a (.powerOn .unlocked) live)).latch .a).insecure = true := by
  decide
theorem test_latchStuck : ((run (.latchStuckTimerExpiry .a) (withLatch .a granted live)).latch .a).stuck = true := by decide

theorem test_light : (run (.lightConversionEnd 1000) z).scv.records.alsFront.value = 250 := by decide
theorem test_light_over : (run (.lightConversionEnd 70000) busy).slu.outbox.senseFault = 1 := by decide

/-- A conversion of TH_PANEL in slot 8. -/
def panel : State := { z with scv := { z.scv with activity := .walk 8 .thPanel } }

theorem test_thermistor : (run (.thermistorConversionEnd 1300) panel).scv.records.thPanel.value = 550 := by decide
theorem test_thermistor_short : (run (.thermistorConversionEnd 159) panel).scv.records.thPanel.fault = .short := by decide
theorem test_thermistorTimeout : (run .thermistorTimeout panel).scv.records.thPanel.fault = .openCircuit := by decide

/-- A channel whose value is valid. -/
def fresh (c : Channel) (v : Int) (s : State) : State :=
  s.setChannel c { ChannelRecord.powerOn with value := v, valid := true, fault := .none, age := 2000 }

theorem test_stale : (run (.channelStale .thPanel) (fresh .thPanel 250 z)).bre.thermalCap = 300 := by decide

/-- A panel whose frames come at 60 Hz, LOCKED. -/
def scanning : State :=
  { z with
    slu := { z.slu with platform := .run }
    lmd := { z.lmd with locked := true, reference := some 0, runCount := 4 } }

theorem test_frameStart : (run (.frameStart 16000000) scanning).lmd.pwmPeriod = 4000000 := by decide
theorem test_frameStart_ramp : (run (.frameStart 16000000) scanning).lmd.a = 8 := by decide
theorem test_frameTimeout : (run .frameTimeout scanning).lmd.locked = false := by decide
theorem test_periodStart : (run .periodStart z).lmd.pwmPeriod = 4166666 := by decide

/-- Full duty at 25 mA, each string one measurement short of a confirmed open. -/
def lit : State :=
  { z with
    lmd :=
      { z.lmd with
        inForce := ⟨4096, 250⟩
        strings := z.lmd.strings.map fun r => { r with counted := .openCircuit, count := 2 } } }
/-- String 1 carries nothing; the others regulate. -/
def oneOpen : StringReadings := ⟨⟨0, 0⟩, ⟨250, 1000⟩, ⟨250, 1000⟩, ⟨250, 1000⟩⟩

theorem test_stringMeasurement : (run (.stringMeasurement 4000000 oneOpen) lit).lmd.strings.s2.count = 0 := by decide
theorem test_stringFault : (run (.stringFaultConfirm 4000000 oneOpen) lit).lmd.strings.s1.state = .faultOpen := by decide

theorem test_sampleEvent : (run .sampleEvent z).mpt.transfer = .inFlight := by decide
theorem test_frameEnd : (run (.frameEnd (oneG 3)) (moving z.ddt)).ddt.lastM2 = 4194304 := by decide
theorem test_frameEnd_discard : (run (.frameEnd (oneG 3)) { z with mpt := { z.mpt with transfer := .discard } }).mpt.counters.frames = 0 := by
  decide

/-- One rejected frame short of losing the link. -/
def ailing : State := { moving z.ddt with mpt := { z.mpt with transfer := .inFlight, rejectedRun := 7 } }
/-- One accepted frame short of recovering it. -/
def healing : State := { moving z.ddt with mpt := { z.mpt with transfer := .inFlight, link := .lost, recoveryRun := 15 } }
def badFrame : AccelFrame := { oneG 1 with check := 0 }

theorem test_linkLost : (run (.linkLostEntry badFrame) ailing).mpt.link = .lost := by decide
theorem test_linkRecovery : (run (.linkRecovery (oneG 1)) healing).mpt.link = .ok := by decide

/-- A record in progress. -/
def inProgress : OpenRecord :=
  { sequence := 1, kind := none, uptime := 0, feeding := none, inFlight := false, deferred := false, fallUs := none
    impacts := 0, peak := none, peakClipped := false, attitude := none, heldCount := 0, linkLost := false
    unsettled := false, blind := false, traceCount := none, trace := none }

/-- A phase with the record in progress. -/
def phaseWith (p : MotionPhase) : Ddt := { z.ddt with phase := p, record := some inProgress, nextSequence := 2 }

def aboutToFall : State := moving { z.ddt with fallRun := 63 }
def aboutToLand : State := moving { phaseWith .falling with landingRun := 2, fallIntervals := 100 }
def longFall : State := moving { phaseWith .falling with fallingCount := 1599 }
def leavingImpact : State := moving { phaseWith .impact with exitCount := 15 }
def settling : State := moving { phaseWith .settling with settleRun := 239 }
def unsettled : State := moving { phaseWith .settling with settleLimit := 7999 }
def blindEnd : State := moving { phaseWith .settling with blind := true, blindCount := 1599 }
def freezing : State := moving { phaseWith .settling with record := some { inProgress with traceCount := some 22 } }

theorem test_fallQualified : (run (.fallQualified (fall 1)) aboutToFall).ddt.phase = .falling := by decide
theorem test_softLanding : (run (.softLanding (oneG 1)) aboutToLand).ddt.phase = .settling := by decide
theorem test_fallTimeout : (run (.fallTimeout (fall 1)) longFall).ddt.phase = .settling := by decide
theorem test_impactExit : (run (.impactExit (oneG 1)) leavingImpact).ddt.phase = .settling := by decide
theorem test_settled : (run (.settled (oneG 1)) settling).ddt.table.length = 1 := by decide
theorem test_settleTimeout : (run (.settleTimeout (fall 1)) unsettled).ddt.table.map (·.core.unsettled) = [true] := by decide
theorem test_blindHoldEnd : (run (.blindHoldEnd (oneG 1)) blindEnd).ddt.phase = .still := by decide
theorem test_traceFreeze : ((run (.traceFreeze (oneG 1)) freezing).ddt.record.bind (·.trace)).isSome = true := by decide
theorem test_impact : (run (.frameEnd (blow 1)) (moving z.ddt)).ddt.phase = .impact := by decide

/-! ### The statements' hypotheses: a state and operands that meet those of each clause, at the ends of their ranges -/

/-- A command waits. -/
def queued : State := { z with pending := [.breakEnd] }

theorem queued_steps : ∃ t, step queued = .next t := ⟨_, rfl⟩

theorem test_hyp_StepTakesFrontCommand : queued.pending = [.breakEnd] ∧ z.pending = [] := by decide

theorem test_hyp_CharactersAssembleFrames :
    z.slu.rx = .hunt ∧ (rx .length).slu.rx = .length ∧ (240 : Byte).toNat ≤ 240 ∧ 240 < (241 : Byte).toNat ∧
      (rx (.kind 0)).slu.rx = .kind 0 ∧ (rx (.tag 240 3)).slu.rx = .tag 240 3 ∧
      (rx (.payload 1 3 0 [])).slu.rx = .payload 1 3 0 [] ∧ (rx .lineBreak).slu.rx = .lineBreak ∧
      (rx (.check 0 3 0 [])).slu.rx = .check 0 3 0 [] ∧
      BitVec.ofNat 8 0 + 3 + 0 + ([] : List Byte).foldl (· + ·) 0 + 0xFC ≠ 0 ∧
      (rx .length).slu.rx ≠ .hunt ∧ (rx .length).slu.rx ≠ .lineBreak := by decide

/-- A GET_IDENT frame at its check character, behind `n` requests and `m` replies. -/
def waiting (n m : Nat) : State :=
  { busy with
    slu :=
      { busy.slu with
        rx := .check 0 0x73 0 [], queue := List.replicate n ⟨0x73, 0, []⟩, fifo := List.replicate m ⟨0, []⟩ } }

theorem waiting_transmitter (n m : Nat) : TransmitterOk (waiting n m) := transmitterOk_busy _ (by simp [waiting, busy])

theorem test_hyp_ValidFrameIsOffered :
    (∀ n m, TransmitterOk (waiting n m)) ∧ (waiting 1 0).slu.rx = .check 0 0x73 0 [] ∧
      BitVec.ofNat 8 0 + 0x73 + 0 + ([] : List Byte).foldl (· + ·) 0 + 0x8D = 0 ∧
      ((waiting 3 0).slu.queue ≠ [] ∧ (waiting 3 0).slu.queue.length < 4) ∧
      ((waiting 4 7).slu.queue.length = 4 ∧ 1 ≤ freeSpace (waiting 4 7)) ∧
      ((waiting 4 8).slu.queue.length = 4 ∧ freeSpace (waiting 4 8) = 0) ∧
      ((waiting 0 7).slu.queue = [] ∧ 1 ≤ freeSpace (waiting 0 7) ∧ ReqKind.byte .getIdent = 0x73) ∧
      (freeSpace (waiting 0 8) = 0 ∧ (waiting 0 8).slu.queue.length < 4) :=
  ⟨waiting_transmitter, by decide⟩

theorem test_hyp_GapAndBreakDiscard : z.slu.rx ≠ .lineBreak ∧ (rx .lineBreak).slu.rx = .lineBreak := by decide

/-- One request of a kind waits. -/
def asked (k : Byte) : State := { busy with slu := { busy.slu with queue := [⟨k, 7, []⟩] } }

theorem test_hyp_DispatchJudgesRequests :
    (Ready z ∧ lengthAllowed .getIdent [0] = false) ∧
      (TransmitterOk (asked 0xFF) ∧ (asked 0xFF).slu.queue = [⟨0xFF, 7, []⟩] ∧ 1 ≤ freeSpace (asked 0xFF) ∧
        ReqKind.ofByte 0xFF = none) ∧
      (TransmitterOk (asked 0x73) ∧ (asked 0x73).slu.queue = [⟨ReqKind.byte .getIdent, 7, []⟩] ∧
        1 ≤ freeSpace (asked 0x73) ∧ (asked 0x73).slu.wake = false) ∧
      (TransmitterOk z ∧ z.slu.queue = []) ∧ (TransmitterOk (waiting 4 8) ∧ freeSpace (waiting 4 8) = 0) :=
  ⟨⟨ready_quiet z rfl, by decide⟩, ⟨transmitterOk_busy _ (by decide), by decide⟩,
    ⟨transmitterOk_busy _ (by decide), by decide⟩, ⟨transmitterOk_quiet z rfl rfl, by decide⟩,
    waiting_transmitter 4 8, by decide⟩

/-- One notice waits behind the frame on SYS_TX. -/
def noted (k : NoticeKind) : State := { busy with slu := { busy.slu with outbox := busy.slu.outbox.set k 1 } }

theorem test_hyp_TransmitterChoosesByPriority :
    ((waiting 1 8).slu.tx ≠ none ∧ (waiting 1 8).slu.queue ≠ [] ∧ (waiting 1 8).slu.outbox.dropAlert = 0 ∧
        (waiting 1 8).slu.fifo = ⟨0, []⟩ :: List.replicate 7 ⟨0, []⟩ ∧
        (waiting 1 8).slu.fifo.length + reservedSpace (waiting 1 8) = 8) ∧
      ((noted .dropAlert).slu.tx ≠ none ∧ (noted .dropAlert).slu.queue = [] ∧ (noted .dropAlert).slu.outbox.dropAlert ≠ 0) ∧
      ((waiting 0 1).slu.tx ≠ none ∧ (waiting 0 1).slu.queue = [] ∧ (waiting 0 1).slu.outbox.dropAlert = 0 ∧
        (waiting 0 1).slu.fifo = [⟨0, []⟩]) ∧
      ((noted .motionLink).slu.tx ≠ none ∧ (noted .motionLink).slu.queue = [] ∧ (noted .motionLink).slu.fifo = [] ∧
        (noted .motionLink).slu.outbox.get .motionLink ≠ 0 ∧
        ∀ x, NoticeKind.priority x < NoticeKind.priority .motionLink → (noted .motionLink).slu.outbox.get x = 0) ∧
      (busy.slu.tx ≠ none ∧ busy.slu.queue = [] ∧ busy.slu.fifo = [] ∧ ∀ k, busy.slu.outbox.get k = 0) :=
  ⟨by decide, by decide, by decide, ⟨by decide, by decide, by decide, by decide, fun x => by cases x <;> decide⟩,
    by decide, by decide, by decide, fun k => by cases k <;> decide⟩

theorem test_hyp_RaiseCountsInsideTheMask :
    z.slu.noticeMask.getLsbD (NoticeKind.priority .dropAlert - 1) = true ∧
      z.slu.noticeMask.getLsbD (NoticeKind.priority .motionLink - 1) = true ∧
      (run (.setNoticeMask 0 [0, 0]) busy).slu.noticeMask.getLsbD (NoticeKind.priority .motionLink - 1) = false := by
  decide

theorem test_hyp_StepKeepsLinkLimits : LinkOk queued ∧ ∃ t, step queued = .next t :=
  ⟨⟨by decide, by decide, fun k => by cases k <;> decide, by decide⟩, queued_steps⟩

theorem test_hyp_StepKeepsTransmitterBusy : TransmitterOk queued ∧ ∃ t, step queued = .next t :=
  ⟨transmitterOk_quiet _ rfl rfl, queued_steps⟩

theorem test_hyp_SnapshotRequestsOnlyAnswer :
    Ready z ∧ Ready busy ∧ ([1] : List Byte) = [BitVec.ofNat 8 (bayCode .a)] ∧ ([2] : List Byte) = [BitVec.ofNat 8 (bayCode .b)] ∧
      (stringSet (at8 [1] 0) ≠ none ∧ stringSet (at8 [15] 0) ≠ none) ∧
      (bayOf (at8 [0] 0) = none ∧ bayOf (at8 [3] 0) = none) ∧
      stringSet (at8 [0] 0) = none ∧ stringSet (at8 [16] 0) = none :=
  ⟨ready_quiet z rfl, ready_busy busy rfl, by decide⟩

theorem test_hyp_GetIdentIsTakenInEveryState : Ready z ∧ z.spc.startUp = true := ⟨ready_quiet z rfl, rfl⟩

/-- The platform in STANDBY, with the converter idle. -/
def standby : State := { busy with slu := { busy.slu with platform := .standby }, scv := { busy.scv with activity := .idle } }

theorem test_hyp_MaskAndPlatformAreStored :
    Ready z ∧ (1 : Byte).toNat ≤ 1 ∧ 2 ≤ (2 : Byte).toNat ∧
      (Platform.ofCode (0 : Byte).toNat = some .run ∧ Platform.run ≠ z.slu.platform) ∧
      (Platform.ofCode (1 : Byte).toNat = some .dark ∧ Platform.dark = z.slu.platform) ∧
      (Platform.ofCode (2 : Byte).toNat = some .standby ∧ Platform.standby ≠ z.slu.platform ∧ Platform.standby ≠ .run ∧
        z.slu.platform ≠ .standby) ∧
      Platform.ofCode (3 : Byte).toNat = none ∧
      Ready standby ∧ standby.slu.platform = .standby ∧ standby.scv.activity = .idle :=
  ⟨ready_quiet z rfl, by decide, by decide, by decide, by decide, by decide, by decide,
    ⟨by decide, by decide, transmitterOk_busy _ (by decide)⟩, by decide, by decide⟩

theorem test_hyp_ResetReturnsDefaults :
    (Ready (switching .gapDead .loss .opened .opened) ∧ inFlight (switching .gapDead .loss .opened .opened) = true) ∧
      (Ready (withLatch .b granted live) ∧ inFlight (withLatch .b granted live) = false ∧
        ((withLatch .b granted live).latch .b).release = .granted) ∧
      (Ready busy ∧ inFlight busy = false ∧ busy.slu.tx ≠ none) :=
  ⟨⟨ready_quiet _ rfl, by decide⟩, ⟨ready_quiet _ rfl, by decide⟩, ready_busy busy rfl, by decide⟩

theorem test_hyp_ClampTakesNearestLegalValue :
    (0 < 50 ∧ 50 ≤ 800 ∧ 50 ∣ 800 - 50) ∧ clampStep 50 800 50 0 = 50 ∧ clampStep 50 800 50 75 = 50 ∧
      clampStep 50 800 50 76 = 100 ∧ clampStep 50 800 50 900 = 800 := by decide

/-- A SET_PATH payload for a source set. -/
def pathBody (set : Byte) : List Byte := [set, 0xFF, 0xFF, 8, 2, 1, 0, 0, 0, 1, 1]

/-- BAY_A has tripped under AUTO, and its fault has been read. -/
def trippedA : State :=
  live.setPath .bayA
    { live.path .bayA with
      state := .tripped, retry := some 500, fault := { (live.path .bayA).fault with cause := .short, read := true } }

theorem test_hyp_SetPathStoresOnEveryMember :
    Ready z ∧ Ready trippedA ∧ (pathBody 7).length = 11 ∧
      (pathArgs (pathBody 7)).isSome = true ∧ (pathArgs (pathBody 7)).map (·.members) = some ⟨true, true, true⟩ ∧
      (∀ q, inSwitchover trippedA q = false) ∧
      (Ready (switching .gapDead .loss .opened .opened) ∧ inSwitchover (switching .gapDead .loss .opened .opened) .bayA = true) ∧
      pathArgs (pathBody 0) = none ∧ pathArgs (pathBody 8) = none :=
  ⟨ready_quiet z rfl, ready_quiet _ rfl, by decide, by decide, by decide, fun q => by cases q <;> decide,
    ⟨ready_quiet _ rfl, by decide⟩, by decide, by decide⟩

theorem test_hyp_GetPathReadsLowestMember :
    Ready trippedA ∧ sourceSet (at8 [1] 0) ≠ none ∧ sourceSet (at8 [7] 0) ≠ none ∧ sourceSet (at8 [0] 0) = none ∧
      sourceSet (at8 [8] 0) = none ∧
      (sourceSet (at8 [2] 0)).map lowestSource = some .bayA ∧ (trippedA.path .bayA).state = .tripped :=
  ⟨ready_quiet _ rfl, by decide⟩

theorem test_hyp_ClearPathOpensAndClears :
    Ready trippedA ∧ (sourceSet (at8 [2] 0)).map (fun m => m.get .bayA) = some true ∧
      (sourceSet (at8 [7] 0)).isSome = true ∧ sourceSet (at8 [8] 0) = none ∧ sourceSet (at8 [0] 0) = none :=
  ⟨ready_quiet _ rfl, by decide⟩

/-- A SET_SUPPLY payload with a first and a last source of the order. -/
def supplyBody (x y : Byte) : List Byte :=
  [1, x, 1, y, 0x2C, 1, 2, 200, 20, 0x70, 0x30, 0x90, 0x33, 10, 0x04, 0x29, 0, 0xE8, 3, 0xE8, 3, 0x52, 3, 0x58, 2, 150, 0]

theorem test_hyp_SetSupplyStores :
    Ready live ∧ (supplyBody 2 0).length = 27 ∧ (supplyArgs (supplyBody 2 0)).isSome = true ∧
      supplyArgs (supplyBody 0 0) = none ∧ supplyArgs (supplyBody 3 0) = none :=
  ⟨ready_quiet _ rfl, by decide⟩

/-- No source feeds, and BAY_A could. -/
def dead : State := supply none (.opened, 0) (.opened, 15000) (.opened, 0)

theorem test_hyp_SelectSourceStartsSwitchover :
    (Ready z ∧ z.spc.startUp = true ∧ sourceOf (at8 [3] 0) = none) ∧
      (Ready live ∧ canStart live = true ∧ live.spc.feeding = some .dcIn ∧ available live .bayA = true ∧
        chooseMode live live.spc.feeding .bayA = .gap) ∧
      (Ready onBattery ∧ canStart onBattery = true ∧ available onBattery .dcIn = false ∧
        available onBattery .bayB = true) ∧
      (Ready dead ∧ canStart dead = true ∧ available dead .bayA = true ∧ dead.spc.feeding = none) ∧
      inFlight (switching .ovlHold .preempt .closed .closed) = true :=
  ⟨⟨ready_quiet z rfl, by decide⟩, ⟨ready_quiet _ rfl, by decide⟩, ⟨ready_quiet _ rfl, by decide⟩,
    ⟨ready_quiet _ rfl, by decide⟩, by decide⟩

/-- BAY_A feeds, and BAY_B's voltage lies just within the parallel limit. -/
def parallel : State := supply (some .bayA) (.opened, 0) (.closed, 15000) (.opened, 14700)

theorem test_hyp_SelectSourceStartsSwitchover_overlap :
    Ready parallel ∧ canStart parallel = true ∧ available parallel .bayB = true ∧
      chooseMode parallel parallel.spc.feeding .bayB = .overlap :=
  ⟨ready_quiet _ rfl, by decide⟩

theorem test_hyp_PackInfoStoresCharge :
    (Ready live ∧ present live (baySource .a) = true ∧ (live.latch .a).commanded = .locked) ∧
      (Ready z ∧ present z (baySource .b) = false) ∧
      (Ready (withLatch .b granted live) ∧ ((withLatch .b granted live).latch .b).commanded = .unlocked) ∧
      100 < (101 : Byte).toNat :=
  ⟨⟨ready_quiet _ rfl, by decide⟩, ⟨ready_quiet z rfl, by decide⟩, ⟨ready_quiet _ rfl, by decide⟩, by decide⟩

/-- BAY_A at a temperature, derating on. -/
def bayAt (v : Int) : State := fresh .thBayA v live

theorem test_hyp_ThresholdFollowsTemperature :
    (live.path .bayA).settings.derating = true ∧ (live.path .dcIn).settings.derating = false ∧
      (live.scv.records.get .thBayA).valid = false ∧
      (∀ v ∈ [(-1 : Int), 0, 449, 450, 549, 550, 599, 600],
        ((bayAt v).scv.records.get .thBayA).valid = true ∧ ((bayAt v).scv.records.get .thBayA).stale = false ∧
          ((bayAt v).scv.records.get .thBayA).value = v) ∧
      ([(-1 : Int), 0, 449, 450, 549, 550, 599, 600].map fun v => derating (bayAt v) .bayA) = [2, 0, 0, 1, 1, 2, 2, 3] := by
  decide

/-- `live` with one sample already above the threshold. -/
def overOnce : State := live.setPath .dcIn { live.path .dcIn with overCount := 1 }

theorem test_hyp_SampleProtectsFeedingPath :
    live.spc.feeding = some .dcIn ∧ live.spc.sw.phase = .idle ∧ (live.path .dcIn).state = .closed ∧
      (∀ q, q ≠ .dcIn → gateDriven live q = false) ∧ presentAt .dcIn (min 65535 (volts steady .dcIn)) = true ∧
      volts steady .dcIn < Config.dcOvervoltMv ∧ threshold live .dcIn = 6000 ∧
      max (-32768) (min 32767 (amps { steady with iDc := 18001 } .dcIn)) = 18001 ∧
      (live.path .dcIn).overCount = 0 ∧ (overOnce.path .dcIn).overCount ≠ 0 ∧
      overOnce.spc.feeding = some .dcIn ∧ (overOnce.path .dcIn).state = .closed ∧ overOnce.spc.sw.phase = .idle ∧
      threshold overOnce .dcIn = 6000 ∧ (∀ q, q ≠ .dcIn → gateDriven overOnce q = false) :=
  ⟨by decide, by decide, by decide, fun q => by cases q <;> decide, by decide, by decide, by decide, by decide,
    by decide, by decide, by decide, by decide, by decide, by decide, fun q => by cases q <;> decide⟩

theorem test_sample_over_second : ((run (.monitorSample { steady with iDc := 6001 }) overOnce).path .dcIn).fault.cause =
    .overcurrent := by decide
theorem test_sample_at_threshold : ((run (.monitorSample { steady with iDc := 6000 }) overOnce).path .dcIn).overCount = 0 := by
  decide

/-- `failing` with no other source. -/
def failingAlone : State :=
  { failing with spc := { failing.spc with paths := ⟨pathAt .dcIn .closed 19000, pathAt .bayA .opened 0, pathAt .bayB .opened 0⟩ } }
/-- Readings with nothing. -/
def nothing : Readings := ⟨0, 0, 0, 9000, 0, 0, 0⟩

theorem test_hyp_LossOpensAndLeavesTheSource :
    lossHere (sampledPaths gone failing) = some .dcIn ∧ inFlight (sampledPaths gone failing) = false ∧
      chooseTarget (openOrder .dcIn (sampledPaths gone failing)) (some .dcIn) [] = some .bayA ∧
      lossHere (sampledPaths nothing failingAlone) = some .dcIn ∧ inFlight (sampledPaths nothing failingAlone) = false ∧
      chooseTarget (openOrder .dcIn (sampledPaths nothing failingAlone)) (some .dcIn) [] = none ∧
      lossHere (sampledPaths gone live) = none := by decide

/-- `live` two samples below the bus-low threshold, and one that reads it just below. -/
def sagging : State := { live with spc := { live.spc with belowCount := 2 } }
def justLow : Readings := { steady with vBus := 10499 }

theorem test_hyp_BusLowActivatesAndRecovers :
    busLowHere (lossStep (sampledPaths justLow sagging)) = true ∧ sagging.spc.settings.busLowAction = .shed ∧
      busLowHere (lossStep (sampledPaths { steady with vBus := 10500 } sagging)) = false ∧
      (TransmitterOk { live with spc := { live.spc with busLow := true, recoveryTimer := some 99 } }) :=
  ⟨by decide, by decide, by decide, transmitterOk_quiet _ rfl rfl⟩

/-- A bay whose empty timer runs. -/
def emptying : State := live.setPath .bayA { live.path .bayA with emptyTimer := some 9999 }

theorem test_hyp_EmptyTimerTogglesEmpty :
    TransmitterOk emptying ∧ (emptying.path (baySource .a)).emptyTimer ≠ none ∧
      (emptying.path (baySource .b)).emptyTimer = none :=
  ⟨transmitterOk_quiet _ rfl rfl, by decide⟩

/-- A GAP_CLOSE on BAY_B that ends with a current, a SELECT_SOURCE owed its reply. -/
def closingAt (ph : SwPhase) (mA : Int) : State :=
  let s := switching ph .hostSelect (if ph = .gapClose then .opened else .closed) .closing
  { s.setPath .bayB { s.path .bayB with current := mA, blanking := some 2000 } with
    slu := { s.slu with tx := some [], owedSelect := some 9 } }

theorem closingAt_transmitter (ph : SwPhase) (mA : Int) : TransmitterOk (closingAt ph mA) :=
  transmitterOk_busy _ (by simp [closingAt])

theorem test_hyp_BlankingEndTripsOnInrush :
    ((closingAt .gapClose 3126).path .bayB).state = .closing ∧
      (threshold (closingAt .gapClose 3126) .bayB : Int) < ((closingAt .gapClose 3126).path .bayB).current ∧
      (closingAt .gapClose 3126).slu.tx ≠ none ∧ inMask (closingAt .gapClose 3126).slu.noticeMask .pathFault = true := by
  decide

theorem test_hyp_BlankingEndClosesPath :
    (∀ ph mA, TransmitterOk (closingAt ph mA)) ∧
      (∀ ph ∈ [SwPhase.gapClose, .ovlClose],
        ((closingAt ph 3125).path .bayB).state = .closing ∧
          ((closingAt ph 3125).path .bayB).current ≤ (threshold (closingAt ph 3125) .bayB : Int) ∧
          (closingAt ph 3125).spc.sw.phase = ph ∧ (closingAt ph 3125).spc.sw.toSrc = .bayB ∧
          (closingAt ph 3125).spc.sw.reason = .hostSelect ∧ (closingAt ph 3125).slu.owedSelect = some 9) :=
  ⟨closingAt_transmitter, by decide⟩

theorem test_hyp_RetryAndGoodCloseRecoverPaths :
    TransmitterOk trippedA ∧ (trippedA.path .bayA).state = .tripped ∧ (trippedA.path .bayA).retry ≠ none ∧
      (trippedA.path .bayB).state ≠ .tripped ∧ (trippedA.path .dcIn).state = .closed ∧
      (trippedA.path .dcIn).closedTime ≠ 100000 ∧
      (trippedA.path .bayB).state ≠ .closed :=
  ⟨transmitterOk_quiet _ rfl rfl, by decide⟩

/-- The start-up interval is about to end with a battery in BAY_A. -/
def starting : State := { dead with spc := { dead.spc with startUp := true } }

theorem test_hyp_StartUpEndStartsFirstAvailable :
    (TransmitterOk starting ∧ starting.spc.startUp = true ∧ starting.spc.feeding = none ∧ starting.spc.sw.phase = .idle ∧
        starting.spc.settings.order.find? (fun x => available starting x) = some .bayA) ∧
      TransmitterOk z ∧ z.spc.startUp = true ∧ z.spc.feeding = none ∧ z.spc.sw.phase = .idle ∧
        z.spc.settings.order.find? (fun x => available z x) = none :=
  ⟨⟨transmitterOk_quiet _ rfl rfl, by decide⟩, transmitterOk_quiet _ rfl rfl, by decide⟩

/-- A HOST_SELECT in GAP_DEAD from BAY_A to BAY_B, with BAY_B at a voltage and DC_IN at another. -/
def crossing (dc b : Nat) : State :=
  let s := supply (some .bayA) (.opened, dc) (.opened, 15000) (.opened, b)
  { s with
    slu := { s.slu with owedSelect := some 9 }
    spc :=
      { s.spc with
        deadTimer := some 50
        sw := { s.spc.sw with reason := .hostSelect, fromSrc := some .bayA, toSrc := .bayB, phase := .gapDead } } }

theorem test_hyp_DeadTimeExpiryClosesTarget :
    (∀ dc b, TransmitterOk (crossing dc b) ∧ (crossing dc b).spc.sw.phase = .gapDead) ∧
      available (crossing 0 14800) .bayB = true ∧
      (available (crossing 19000 0) .bayB = false ∧
        chooseTarget (crossing 19000 0) (some .bayA) ([] ++ [.bayB]) = some .dcIn ∧
        (crossing 19000 0).spc.sw.reason = .hostSelect ∧ (crossing 19000 0).slu.owedSelect = some 9) ∧
      available (crossing 0 0) .bayB = false ∧ chooseTarget (crossing 0 0) (some .bayA) ([] ++ [.bayB]) = none ∧
        (crossing 0 0).spc.feeding ≠ none :=
  ⟨fun _ _ => ⟨transmitterOk_quiet _ rfl rfl, rfl⟩, by decide⟩

theorem test_hyp_OverlapExpiryCompletes :
    TransmitterOk (closingAt .ovlHold 0) ∧ (closingAt .ovlHold 0).spc.sw.phase = .ovlHold ∧
      (closingAt .ovlHold 0).spc.sw.fromSrc = some .bayA ∧ Source.bayA ≠ (closingAt .ovlHold 0).spc.sw.toSrc ∧
      (closingAt .ovlHold 0).spc.sw.reason = .hostSelect ∧ (closingAt .ovlHold 0).slu.owedSelect = some 9 :=
  ⟨closingAt_transmitter _ _, by decide⟩

/-- BAY_A feeds, DC_IN is back, and its preemption timer runs. -/
def returning : State :=
  let s := supply (some .bayA) (.opened, 19000) (.closed, 15000) (.opened, 0)
  { s with spc := { s.spc with preempt := ⟨some 4999, none, none⟩ } }

theorem test_hyp_PreemptionExpiryStartsPreempt :
    TransmitterOk returning ∧ returning.spc.preempt.get .dcIn ≠ none ∧ canStart returning = true ∧
      returning.ddt.phase = .still ∧ heldCondition returning = none ∧ preemptRuns returning .dcIn = true ∧
      returning.spc.feeding ≠ none ∧ ∀ q, q ≠ .dcIn → returning.spc.preempt.get q ≠ some 5000 :=
  ⟨transmitterOk_quiet _ rfl rfl, by decide, by decide, by decide, by decide, by decide, by decide,
    fun q => by cases q <;> decide⟩

theorem test_hyp_StepKeepsSupplyLaws : SupplyOk queued ∧ ∃ t, step queued = .next t :=
  ⟨⟨⟨fun p => by cases p <;> exact rfl, by decide, by decide⟩,
    fun bay => by cases bay <;> exact ⟨by decide, by decide, by decide, by decide⟩⟩, queued_steps⟩

theorem test_hyp_AtMostTwoPathsConduct :
    ∃ s : State, PathsOk s ∧ gateDriven s .bayA = true ∧ gateDriven s .bayB = true :=
  ⟨switching .ovlHold .preempt .closed .closed, ⟨fun p => by cases p <;> exact rfl, by decide, by decide⟩, by decide, by decide⟩

theorem test_hyp_StepKeepsSituation : SituationOk queued ∧ ∃ t, step queued = .next t :=
  ⟨⟨by decide, by decide⟩, queued_steps⟩

/-- A bay PENDING for a cause. -/
def pendingFor (c : PendingCause) : LatchRecord :=
  { LatchRecord.powerOn .locked with release := .pending, byButton := true, cause := c }

theorem test_hyp_ButtonPressStartsRelease :
    (({ z with ltc := { z.ltc with armed := ⟨false, false⟩ } } : State).ltc.armed.get .a = false) ∧
      (TransmitterOk live ∧ live.ltc.armed.get .a = true ∧ (live.latch .a).release = .idle ∧ (live.latch .a).hostOwed = false ∧
        live.ddt.phase = .still ∧ (live.latch .b).release ≠ .granted ∧ inFlight live = false ∧ askRuns live .b = false ∧
        live.spc.feeding ≠ some .bayA) ∧
      (TransmitterOk (withLatch .a granted live) ∧ ((withLatch .a granted live).latch .a).release ≠ .idle) ∧
      (TransmitterOk (inPhase .falling live) ∧ (inPhase .falling live).ddt.phase ≠ .still ∧
        (inPhase .falling live).ltc.armed.get .a = true ∧ ((inPhase .falling live).latch .a).release = .idle) ∧
      (TransmitterOk (withLatch .b granted live) ∧ ((withLatch .b granted live).latch .b).release = .granted ∧
        (withLatch .b granted live).ltc.armed.get .a = true ∧ ((withLatch .b granted live).latch .a).release = .idle) ∧
      TransmitterOk (switching .gapDead .loss .opened .opened) ∧
        inFlight (switching .gapDead .loss .opened .opened) = true ∧
        (switching .gapDead .loss .opened .opened).ltc.armed.get .a = true :=
  ⟨by decide, ⟨transmitterOk_quiet _ rfl rfl, by decide⟩, ⟨transmitterOk_quiet _ rfl rfl, by decide⟩,
    ⟨transmitterOk_quiet _ rfl rfl, by decide⟩, ⟨transmitterOk_quiet _ rfl rfl, by decide⟩,
    transmitterOk_quiet _ rfl rfl, by decide⟩

/-- BAY_A feeds alone. -/
def lone : State := supply (some .bayA) (.opened, 0) (.closed, 15000) (.opened, 0)

theorem test_hyp_ButtonPressStartsRelease_feeding :
    (TransmitterOk onBattery ∧ onBattery.ltc.armed.get .a = true ∧ onBattery.spc.feeding = some (baySource .a) ∧
        (onBattery.latch .a).release = .idle ∧ inFlight onBattery = false ∧
        chooseTarget onBattery onBattery.spc.feeding [] = some .bayB) ∧
      TransmitterOk lone ∧ lone.ltc.armed.get .a = true ∧ lone.spc.feeding = some (baySource .a) ∧
        (lone.latch .a).release = .idle ∧ chooseTarget lone lone.spc.feeding [] = none :=
  ⟨⟨transmitterOk_quiet _ rfl rfl, by decide⟩, transmitterOk_quiet _ rfl rfl, by decide⟩

theorem test_hyp_ReleaseBayIsDeferred :
    (Ready live ∧ bayOf (at8 [0] 0) = none ∧ bayOf (at8 [3] 0) = none) ∧
      (Ready (withLatch .a { pendingFor .motion with hostOwed := true } live) ∧
        ((withLatch .a { pendingFor .motion with hostOwed := true } live).latch .a).hostOwed = true) ∧
      (Ready (withLatch .a granted live) ∧ ((withLatch .a granted live).latch .a).release = .granted ∧
        ((withLatch .a granted live).latch .a).hostOwed = false ∧ ((withLatch .a granted live).latch .b).hostOwed = false) ∧
      (Ready (withLatch .a (pendingFor .motion) live) ∧ ((withLatch .a (pendingFor .motion) live).latch .a).release = .pending ∧
        ((withLatch .a (pendingFor .motion) live).latch .a).hostOwed = false) ∧
      (Ready (inPhase .falling live) ∧ (inPhase .falling live).ddt.phase ≠ .still ∧
        ((inPhase .falling live).latch .a).release = .idle) ∧
      ((live.latch .a).release = .idle ∧ live.ddt.phase = .still ∧ (live.latch .b).release = .idle ∧ inFlight live = false ∧
        live.spc.feeding ≠ some (baySource .a) ∧ live.slu.owedRelease = none) :=
  ⟨⟨ready_quiet _ rfl, by decide⟩, ⟨ready_quiet _ rfl, by decide⟩, ⟨ready_quiet _ rfl, by decide⟩,
    ⟨ready_quiet _ rfl, by decide⟩, ⟨ready_quiet _ rfl, by decide⟩, by decide⟩

theorem test_hyp_LatchSwitchAndTimers :
    (LatchPos.locked = (live.latch .a).sensed ∧ LatchPos.unlocked ≠ (live.latch .a).sensed) ∧
      (∀ insecure, TransmitterOk (withLatch .a
          { LatchRecord.powerOn (if insecure then .locked else .unlocked) with insecure := insecure } live)) ∧
      (∀ insecure,
        (({ LatchRecord.powerOn (if insecure then .locked else .unlocked) with insecure := insecure } : LatchRecord).commanded = .locked) ∧
          ({ LatchRecord.powerOn (if insecure then .locked else .unlocked) with insecure := insecure } : LatchRecord).sensed =
            if insecure then .locked else .unlocked) ∧
      (granted.commanded = .unlocked ∧ granted.sensed = .locked ∧ granted.stuck = false ∧ granted.release = .granted) ∧
      (live.latch .a).release ≠ .granted :=
  ⟨by decide, fun _ => transmitterOk_quiet _ rfl rfl, by decide, by decide, by decide⟩

/-- A one-shot of ALS_FRONT whose reply is owed, at range 2. -/
def oneShot : State :=
  { busy with
    slu := { busy.slu with owedConvert := some 5 }
    scv :=
      { busy.scv with
        activity := .oneShot .alsFront, oneShot := some .alsFront
        records := { busy.scv.records with alsFront := { busy.scv.records.alsFront with range := 2 } } } }

theorem test_hyp_LightConversionStores :
    (TransmitterOk z ∧ z.scv.activity = .walk 1 .alsFront ∧ z.scv.enable.get .alsFront = true) ∧
      TransmitterOk oneShot ∧ oneShot.scv.activity = .oneShot .alsFront ∧ oneShot.slu.tx ≠ none ∧
        inMask oneShot.slu.noticeMask .senseFault = true ∧ oneShot.slu.owedConvert = some 5 :=
  ⟨⟨transmitterOk_quiet _ rfl rfl, by decide⟩, transmitterOk_busy _ (by decide), by decide⟩

theorem test_light_range : [(8191 : Nat), 8192, 49151, 49152].map (fun n =>
    (run (.lightConversionEnd n) (z.setChannel .alsFront { z.scv.records.alsFront with range := 1 })).scv.records.alsFront.range) =
    [0, 1, 1, 2] := by decide

theorem test_hyp_ThermistorEndsAndStaleness :
    (panel.scv.activity = .walk 8 .thPanel ∧ panel.scv.enable.get .thPanel = true) ∧
      (({ panel with scv := { panel.scv with enable := panel.scv.enable.set .thPanel false } } : State).scv.enable.get
        .thPanel = false) ∧
      ((fresh .thBayA 250 z).scv.records.get .thBayA).valid = true ∧
      ((fresh .thBayA 250 z).scv.records.get .thBayA).stale = false ∧
      ((fresh .thBayA 250 z).path (baySource .a)).settings.derating = true := by decide

theorem test_thermistor_ends : [(160 : Nat), 40000].map (fun n =>
    (run (.thermistorConversionEnd n) panel).scv.records.thPanel.fault) = [.none, .none] := by decide

theorem test_hyp_SenseSettingsAndTableAreStored :
    Ready busy ∧ (lengthAllowed .setSense [8, 31, 0, 0, 0, 0, 0, 1, 2, 3, 4, 0, 1, 2] = true ∧
        (senseArgs [8, 31, 0, 0, 0, 0, 0, 1, 2, 3, 4, 0, 1, 2]).isSome = true) ∧
      (lengthAllowed .setSense [1, 0, 0, 0, 0, 0, 4] = true ∧ (senseArgs [1, 0, 0, 0, 0, 0, 4]).isSome = true) ∧
      (lengthAllowed .setSense [1, 0, 0, 0, 0, 0, 5] = true ∧ senseArgs [1, 0, 0, 0, 0, 0, 5] = none) ∧
      (lengthAllowed .setSense [0, 0, 0, 0, 0, 0] = true ∧ senseArgs [0, 0, 0, 0, 0, 0] = none) ∧
      busy.scv.activity ≠ .idle :=
  ⟨ready_busy busy rfl, by decide⟩

theorem test_hyp_LoadThermistor :
    (thermistorBytes defaultThermistors).length = 48 ∧ thermistorOrdered defaultThermistors = true ∧
      thermistorPoints (thermistorBytes defaultThermistors) 12 0 = defaultThermistors ∧
      (List.replicate 48 (0 : Byte)).length = 48 ∧ thermistorOrdered (List.replicate 12 (160, (0 : Int))) = false := by
  decide

theorem test_hyp_ConvertNowIsDeferred :
    (Ready z ∧ channelOf (5 : Byte).toNat = none ∧ channelOf (4 : Byte).toNat = some .thPanel ∧ z.scv.oneShot = none) ∧
      (Ready { z with scv := { z.scv with oneShot := some .thPanel } }) ∧
      Ready standby ∧ channelOf (0 : Byte).toNat = some .alsFront ∧ isLight .alsFront = true ∧ isLight .thPanel = false ∧
        standby.scv.oneShot = none ∧ standby.slu.platform = .standby :=
  ⟨⟨ready_quiet z rfl, by decide⟩, ready_quiet _ rfl, ⟨by decide, by decide, transmitterOk_busy _ (by decide)⟩, by decide⟩

theorem test_hyp_LightLevelAndFilter :
    2 ^ 0 ≤ 0 + 1 ∧ 0 + 1 < 2 ^ (0 + 1) ∧ 2 ^ 17 ≤ 200000 + 1 ∧ 200000 + 1 < 2 ^ (17 + 1) ∧ logLevel 200000 = 280 ∧
      logLevel 0 = 0 ∧ BrightSettings.defaults.upRate ≤ 16 ∧ BrightSettings.defaults.downRate ≤ 16 := by decide

theorem lampOk_reset : LampOk z :=
  ⟨by decide, by decide, by decide, by decide, by decide, by decide, by decide, fun _ => by decide⟩

theorem lampOk_queued : LampOk queued :=
  ⟨by decide, by decide, by decide, by decide, by decide, by decide, by decide, fun _ => by decide⟩

/-- A SET_BRIGHTNESS payload with a mode. -/
def brightBody (mode : Byte) : List Byte := [0, 0, 8, 2, 2, 0x58, 2, mode, 0xF8, 0xF4, 1, 0x58, 2, 7, 0x2C, 1, 20, 0]

theorem test_hyp_BrightnessRequestsRunThePipeline :
    Ready z ∧ LampOk z ∧ (brightBody 0).length = 18 ∧
      ([0, 1, 2].map fun m => (brightArgs (brightBody m)).map (·.mode)) = [some .auto, some .fixed, some .frozen] ∧
      brightArgs (brightBody 3) = none ∧
      (lengthAllowed .loadCurve [2, 0, 0, 0, 0, 0, 1, 0xE8, 3] = true ∧
        curveOrdered (curvePoints [2, 0, 0, 0, 0, 0, 1, 0xE8, 3] 2 1) = true) ∧
      (lengthAllowed .loadCurve [0] = true ∧ at8 [0] 0 < 2) ∧
      (lengthAllowed .loadCurve [2, 0, 0, 0, 0, 0, 0, 0, 0] = true ∧
        curveOrdered (curvePoints [2, 0, 0, 0, 0, 0, 0, 0, 0] 2 1) = false) :=
  ⟨ready_quiet z rfl, lampOk_reset, by decide⟩

theorem test_hyp_StepKeepsLampLaws : LampOk queued ∧ ∃ t, step queued = .next t := ⟨lampOk_queued, queued_steps⟩

theorem test_hyp_DriveFollowsTheTable :
    0 < LampSettings.defaults.crossover ∧ LampSettings.defaults.crossover ≤ 1000 ∧
      driveFor .defaults 250 = ⟨4096, 62⟩ ∧ driveFor .defaults 249 = ⟨4079, 62⟩ ∧ driveFor .defaults 1000 = ⟨4096, 250⟩ ∧
      driveFor .defaults 1 = ⟨16, 62⟩ ∧ (run (.setLamp 0 [8, 4, 250, 0, 250, 0, 4, 0, 0x0E]) busy).lmd.strings.s1.state ≠ .enabled := by
  decide

/-- FREE_RUN with three consistent intervals behind it. -/
def locking : State := { scanning with lmd := { scanning.lmd with locked := false, runCount := 3 } }

theorem test_hyp_FrameStartsLockAndDim :
    z.lmd.reference = none ∧ scanning.lmd.reference = some 0 ∧ 1999999 < 0 + 2000000 ∧
      (0 + 2000000 ≤ 2000000 ∧ 50000000 ≤ 0 + 50000000 ∧ scanning.lmd.locked = true) ∧
      (locking.lmd.reference = some 0 ∧ locking.lmd.runCount = 3 ∧
        distance locking.lmd.lastInterval (16666667 - 0) * 20 ≤ locking.lmd.lastInterval) ∧
      (({ locking with lmd := { locking.lmd with runCount := 2 } } : State).lmd.runCount < 3 ∧ locking.lmd.locked = false) ∧
      0 + 50000000 < 50000001 := by decide

theorem test_hyp_PeriodsFollowTheLockMode :
    scanning.lmd.locked = true ∧ (z.lmd.locked = false ∧ z.lmd.internalNext = false ∧
        ({ z with lmd := { z.lmd with freeCount := 2 } } : State).lmd.freeCount + 1 < z.lmd.settings.multiple ∧
        z.lmd.settings.multiple ≤ ({ z with lmd := { z.lmd with freeCount := 3 } } : State).lmd.freeCount + 1) ∧
      (run .frameTimeout scanning).lmd.internalNext = true := by decide

theorem test_hyp_StringMeasurementConfirmsFaults :
    lit.lmd.measures 4000000 = true ∧ z.lmd.measures 4000000 = false ∧ TransmitterOk z ∧
      (lit.lmd.strings.s1.state = .enabled ∧ lit.lmd.strings.s1.driven = true) ∧
      confirmsFault 4000000 oneOpen lit.lmd = true ∧ confirmsFault 4000000 oneOpen z.lmd = false ∧
      ((run (.setLamp 0 [8, 4, 250, 0, 250, 0, 4, 0, 0x0E]) busy).lmd.strings.get .s1).driven = false :=
  ⟨by decide, by decide, transmitterOk_quiet _ rfl rfl, by decide⟩

/-- A SET_LAMP payload with a crossover, a strategy and an enable set. -/
def lampBody (k strategy enable : Byte) : List Byte := [8, 4, k, 0, 250, 0, 4, strategy, enable]

theorem test_hyp_LampRequestsAct :
    Ready busy ∧ (lampBody 50 0 14).length = 9 ∧ (lampArgs (lampBody 50 0 14)).map (·.enable.get .s1) = some false ∧
      (lampArgs (lampBody 50 0 14)).map (·.clamped.crossover) ≠ some busy.lmd.settings.crossover ∧
      (lampArgs (lampBody 250 1 15)).map (·.clamped.crossover) = some busy.lmd.settings.crossover ∧
      (lampArgs (lampBody 250 1 15)).map (·.clamped.iMax) = some busy.lmd.settings.iMax ∧
      lampArgs (lampBody 250 2 15) = none ∧ lampArgs (lampBody 250 0 16) = none ∧
      ((stringSet (at8 [1] 0)).map (fun m => (m.get .s1, m.get .s2)) = some (true, false)) ∧
      stringSet (at8 [15] 0) ≠ none ∧ stringSet (at8 [0] 0) = none ∧ stringSet (at8 [16] 0) = none ∧
      (run (.stringFaultConfirm 4000000 oneOpen) lit).lmd.strings.s1.state = .faultOpen :=
  ⟨ready_busy busy rfl, by decide⟩

theorem test_hyp_TransferEndsAreJudged :
    z.mpt.transfer = .idle ∧ ({ z with mpt := { z.mpt with transfer := .discard } } : State).mpt.transfer = .discard ∧
      (moving z.ddt).mpt.transfer = .inFlight ∧
      badFrame.check ≠ badFrame.status ^^^ badFrame.xHi ^^^ badFrame.xLo ^^^ badFrame.yHi ^^^ badFrame.yLo ^^^ badFrame.zHi ^^^
        badFrame.zLo ^^^ 0xFF ∧
      (∀ n ∈ [(0x11 : Byte), 0x12, 0x14, 0x18, 0x10],
        (frame n 0 0 0 0 8 0).check = n ^^^ 0 ^^^ 0 ^^^ 0 ^^^ 0 ^^^ 8 ^^^ 0 ^^^ 0xFF) ∧
      ((0x11 : Byte).getLsbD 0 = true ∧ (0x12 : Byte).getLsbD 1 = true ∧ (0x14 : Byte).getLsbD 2 = true) ∧
      (moving z.ddt).mpt.lastCount ≠ some ((0x10 : Byte).toNat / 16) ∧
      (run (.frameEnd (oneG 1)) (moving z.ddt)).mpt.lastCount = some ((0x10 : Byte).toNat / 16) ∧
      (run (.frameEnd (oneG 1)) (moving z.ddt)).mpt.primed = true := by decide

theorem recordsOk_still : RecordsOk z.ddt :=
  ⟨by decide, by decide, fun _ h => absurd h List.not_mem_nil, fun _ h => (nomatch h), fun _ => rfl⟩

theorem recordsOk_progress (d : Ddt) (t : d.table = []) (n : d.nextSequence = 2) (p : d.phase ≠ .still)
    (h : ∀ o, d.record = some o → o.sequence = 1) : RecordsOk d :=
  ⟨by rw [t]; decide, by rw [t]; exact .nil, fun _ m => absurd m (by rw [t]; exact List.not_mem_nil),
    fun o e => ⟨by rw [h o e, n]; decide, fun _ m => absurd m (by rw [t]; exact List.not_mem_nil)⟩,
    fun q => absurd q p⟩

theorem inProgress_sequence {d : Ddt} {x : OpenRecord} (r : d.record = some x) (e : x.sequence = 1) (o : OpenRecord)
    (h : d.record = some o) : o.sequence = 1 := by
  rw [r] at h; cases h; exact e

theorem test_hyp_NamedMotionEventsHappen_link :
    (ailing.mpt.transfer = .inFlight ∧ RecordsOk ailing.ddt ∧ (frameEvents badFrame ailing).contains .linkLost = true) ∧
      (healing.mpt.transfer = .inFlight ∧ RecordsOk healing.ddt ∧ (frameEvents (oneG 1) healing).contains .linkRecovered = true) ∧
      (frameEvents (oneG 1) ailing).contains .linkLost = false :=
  ⟨⟨rfl, recordsOk_still, by decide⟩, ⟨rfl, recordsOk_still, by decide⟩, by decide⟩

theorem test_hyp_NamedMotionEventsHappen_fall :
    (RecordsOk aboutToFall.ddt ∧ (frameEvents (fall 1) aboutToFall).contains .fallQualified = true ∧
        aboutToFall.mpt.transfer = .inFlight ∧ aboutToFall.ddt.nextSequence ≤ 4294967295) ∧
      (RecordsOk aboutToLand.ddt ∧ (frameEvents (oneG 1) aboutToLand).contains .softLanding = true ∧
        aboutToLand.mpt.transfer = .inFlight) ∧
      (RecordsOk longFall.ddt ∧ (frameEvents (fall 1) longFall).contains .fallTimeout = true ∧
        longFall.mpt.transfer = .inFlight) ∧
      RecordsOk leavingImpact.ddt ∧ (frameEvents (oneG 1) leavingImpact).contains .impactExit = true ∧
        leavingImpact.mpt.transfer = .inFlight :=
  ⟨⟨⟨by decide, by decide, fun _ h => absurd h List.not_mem_nil, fun _ h => (nomatch h), fun _ => rfl⟩, by decide⟩,
    ⟨recordsOk_progress _ rfl rfl (by decide) (inProgress_sequence rfl rfl), by decide⟩,
    ⟨recordsOk_progress _ rfl rfl (by decide) (inProgress_sequence rfl rfl), by decide⟩,
    recordsOk_progress _ rfl rfl (by decide) (inProgress_sequence rfl rfl), by decide⟩

theorem test_hyp_NamedMotionEventsHappen_settle :
    (RecordsOk settling.ddt ∧ (frameEvents (oneG 1) settling).contains .settled = true) ∧
      (RecordsOk unsettled.ddt ∧ (frameEvents (fall 1) unsettled).contains .settleTimeout = true) ∧
      (RecordsOk blindEnd.ddt ∧ (frameEvents (oneG 1) blindEnd).contains .blindHoldEnd = true) ∧
      RecordsOk freezing.ddt ∧ (frameEvents (oneG 1) freezing).contains .traceFrozen = true :=
  ⟨⟨recordsOk_progress _ rfl rfl (by decide) (inProgress_sequence rfl rfl), by decide⟩,
    ⟨recordsOk_progress _ rfl rfl (by decide) (inProgress_sequence rfl rfl), by decide⟩,
    ⟨recordsOk_progress _ rfl rfl (by decide) (inProgress_sequence rfl rfl), by decide⟩,
    recordsOk_progress _ rfl rfl (by decide) (inProgress_sequence rfl rfl), by decide⟩

/-- A SET_MOTION payload with a rate. -/
def motionBody (lo hi : Byte) : List Byte := [lo, hi, 0x5E, 1, 60, 80, 0, 0x2C, 1]

theorem test_hyp_SetMotionStores :
    Ready z ∧ (motionBody 0x90 1).length = 9 ∧ (motionArgs (motionBody 0x90 1)).map (·.1) = some .hz400 ∧
      (motionArgs (motionBody 0x20 3)).map (·.1) = some z.mpt.rate ∧ SampleRate.hz400 ≠ z.mpt.rate ∧ z.ddt.phase = .still ∧
      motionArgs (motionBody 0x91 1) = none ∧ Ready (inPhase .settling z) ∧ (inPhase .settling z).ddt.phase ≠ .still :=
  ⟨ready_quiet z rfl, by decide, by decide, by decide, by decide, by decide, by decide, ready_quiet _ rfl, by decide⟩

theorem test_hyp_EraseDropsEmptiesTheTable :
    Ready z ∧ RecordsOk z.ddt ∧ (phaseWith .settling).table = [] ∧ (phaseWith .settling).record = some inProgress ∧
      z.ddt.table = [] :=
  ⟨ready_quiet z rfl, recordsOk_still, by decide⟩

/-- One unread record. -/
def recorded : State :=
  { z with ddt := { z.ddt with table := [{ core := inProgress, read := false, displaced := false }], nextSequence := 2 } }

theorem test_hyp_ReadDropMarksRead :
    (Ready z ∧ z.ddt.table.find? (fun r => !r.read) = none ∧
        z.ddt.table.find? (fun r => r.core.sequence == at32 [1, 0, 0, 0] 0) = none) ∧
      Ready recorded ∧ (recorded.ddt.table.find? (fun x => !x.read)).isSome = true ∧
        (recorded.ddt.table.find? (fun x => x.core.sequence == at32 [1, 0, 0, 0] 0)).isSome = true :=
  ⟨⟨ready_quiet z rfl, by decide⟩, ready_quiet _ rfl, by decide⟩

theorem test_hyp_StepKeepsMotionLaws : (RecordsOk queued.ddt ∧ PortOk queued.mpt) ∧ ∃ t, step queued = .next t :=
  ⟨⟨recordsOk_still, by decide, by decide, by decide, by decide⟩, queued_steps⟩

theorem test_hyp_SampleStoresMeasurements : nextUptime { z with slu := { z.slu with subMs := 8 } } = 0 ∧
    nextUptime { z with slu := { z.slu with subMs := 9 } } = 1 := by decide

/-! ### Further clauses of the statements -/

/-- An unknown kind at its check character, with reply room. -/
def strange : State := { waiting 0 7 with slu := { (waiting 0 7).slu with rx := .check 0 0xFF 0 [] } }

theorem test_hyp_ValidFrameIsOffered_unknown :
    TransmitterOk strange ∧ strange.slu.rx = .check 0 0xFF 0 [] ∧ strange.slu.queue = [] ∧ 1 ≤ freeSpace strange ∧
      ReqKind.ofByte 0xFF = none ∧ BitVec.ofNat 8 0 + 0xFF + 0 + ([] : List Byte).foldl (· + ·) 0 + 0x01 = 0 ∧
      TransmitterOk (waiting 0 8) ∧ freeSpace (waiting 0 8) = 0 ∧ (waiting 0 8).slu.queue.length < 4 :=
  ⟨transmitterOk_busy _ (by decide), by decide, by decide, by decide, by decide, by decide, waiting_transmitter 0 8, by decide⟩

/-- A request of a kind waits with another behind it. -/
def askedBefore (k : Byte) : State := { asked k with slu := { (asked k).slu with queue := [⟨k, 7, []⟩, ⟨0x73, 8, []⟩] } }

theorem test_hyp_DispatchJudgesRequests_rest :
    (∀ k, TransmitterOk (askedBefore k)) ∧
      (∀ k ∈ [(0xFF : Byte), ReqKind.byte .getIdent, ReqKind.byte .reset],
        (askedBefore k).slu.queue = ⟨k, 7, []⟩ :: [⟨0x73, 8, []⟩] ∧ 1 ≤ freeSpace (askedBefore k) ∧
          (askedBefore k).slu.wake = false ∧ inFlight (askedBefore k) = false) :=
  ⟨fun _ => transmitterOk_busy _ (by simp [askedBefore, asked, busy]), by decide⟩

theorem test_dispatch_rest :
    (run .requestDispatch (askedBefore (ReqKind.byte .getIdent))).slu.queue = [⟨0x73, 8, []⟩] ∧
      (run .requestDispatch (askedBefore (ReqKind.byte .reset))).slu.queue = [] := by decide

/-- BAY_B is PENDING for the host, a one-shot is owed its reply, and SYS_TX sends a frame. -/
def owing : State :=
  let s := withLatch .b { pendingFor .motion with byHost := true, hostOwed := true } busy
  { s with
    slu := { s.slu with owedRelease := some 4, owedConvert := some 5 }
    scv := { s.scv with activity := .oneShot .thPanel, oneShot := some .thPanel } }

theorem test_hyp_ResetReturnsDefaults_owed :
    Ready owing ∧ inFlight owing = false ∧ (owing.latch .b).hostOwed = true ∧ (owing.latch (otherBay .b)).hostOwed = false ∧
      owing.slu.owedRelease = some 4 ∧ owing.scv.oneShot = some .thPanel ∧ owing.slu.owedConvert = some 5 ∧
      owing.slu.tx ≠ none ∧ (owing.latch .b).release ≠ .idle :=
  ⟨⟨by decide, by decide, transmitterOk_busy _ (by decide)⟩, by decide⟩

/-- A GRANTED bay whose latch is stuck: RESET commands it LOCKED and keeps the flag (log entry 39). -/
theorem test_reset_stuck :
    ((run (.resetRequest 0 []) (withLatch .a { granted with stuck := true, stuckTimer := 200, faultTimer := 7 } busy)).latch .a) =
      { LatchRecord.powerOn .locked with stuck := true, stuckTimer := 200, lastEvent := .cancelled } := by decide

/-- BAY_A feeds and is EMPTY, with BAY_B at a voltage. -/
def emptyFeeding (b : Nat) : State :=
  let s := supply (some .bayA) (.opened, 0) (.closed, 15000) (.opened, b)
  s.setPath .bayA { s.path .bayA with isEmpty := true }

theorem test_hyp_Examined :
    (canStart (emptyFeeding 14800) = true ∧ heldCondition (emptyFeeding 14800) = some .empty ∧
        chooseTarget (emptyFeeding 14800) (emptyFeeding 14800).spc.feeding [] = some .bayB) ∧
      (canStart (emptyFeeding 0) = true ∧ heldCondition (emptyFeeding 0) = some .empty ∧
        chooseTarget (emptyFeeding 0) (emptyFeeding 0).spc.feeding [] = none ∧ (emptyFeeding 0).spc.soleSource = false ∧
        inMask (emptyFeeding 0).slu.noticeMask .supplyChange = true ∧ (emptyFeeding 0).slu.outbox.supplyChange ≤ 255) ∧
      (canStart dead = true ∧ dead.spc.feeding = none ∧ chooseTarget dead none [] = some .bayA) ∧
      (canStart live = true ∧ heldCondition live = none ∧ live.spc.feeding ≠ none ∧ preemptDue live = none) ∧
      canStart z = false := by decide

theorem test_setSupply_sole :
    (run (.setSupply 0 (supplyBody 2 0)) { emptyFeeding 0 with slu := busy.slu }).spc.soleSource = true ∧
      (run (.setSupply 0 (supplyBody 2 0)) { emptyFeeding 14800 with slu := busy.slu }).spc.sw.reason = .empty := by decide

/-- A switchover from BAY_A to BAY_B in a phase that its paths conduct in, with DC_IN present on a path in a state. -/
def between (ph : SwPhase) (reason : SwReason) (dc : PathState) : State :=
  let s := supply (some .bayA) (dc, 19000) (if ph = .gapClose then .opened else .closed, 15000)
    (if ph = .ovlHold then .closed else .closing, 14800)
  { s with
    slu := { busy.slu with owedSelect := if reason = .hostSelect then some 9 else none }
    spc :=
      { s.spc with
        lossTimer := if ph = .gapClose then none else some 1
        sw := { s.spc.sw with reason := reason, fromSrc := some .bayA, toSrc := .bayB, phase := ph } } }

/-- Readings with the from source gone. -/
def fromGone : Readings := ⟨19000, 0, 14800, 14800, 0, 0, 0⟩

theorem test_hyp_LossOpensAndLeavesTheSource_overlap :
    ∀ ph ∈ [SwPhase.ovlClose, .ovlHold],
      let v := sampledPaths fromGone (between ph .hostSelect .lockedOut)
      lossHere v = some .bayA ∧ v.spc.sw.fromSrc = some .bayA ∧ v.spc.sw.toSrc ≠ .bayA ∧ v.spc.sw.phase = ph := by decide

theorem test_loss_overlap :
    (run (.lossDeclared fromGone) (between .ovlClose .hostSelect .lockedOut)).spc.sw.phase = .gapClose ∧
      (run (.lossDeclared fromGone) (between .ovlHold .hostSelect .lockedOut)).spc.feeding = some .bayB := by decide

/-- Readings with the to source gone, and with the from path shorted. -/
def toGone : Readings := ⟨19000, 15000, 0, 15000, 0, 0, 0⟩
def fromShort : Readings := ⟨19000, 15000, 14800, 15000, 0, 9376, 0⟩

theorem test_hyp_BlankingEndTripsOnInrush_dropped :
    (∀ ph reason dc, CalmSource toGone (between ph reason dc) .dcIn) ∧
      (∀ ph ∈ [SwPhase.ovlClose, .ovlHold, .gapClose], CalmSource toGone (between ph .hostSelect .lockedOut) .bayA) ∧
      presentAt .bayB (min 65535 (volts toGone .bayB)) = false ∧
      (∀ ph ∈ [SwPhase.ovlClose, .ovlHold, .gapClose],
        (between ph .hostSelect .lockedOut).spc.sw.toSrc = .bayB ∧ (between ph .hostSelect .lockedOut).slu.owedSelect = some 9) ∧
      ((between .ovlClose .hostSelect .lockedOut).path .bayB).state = .closing ∧
      (((between .ovlHold .hostSelect .lockedOut).path .bayB).state = .closed ∧
        max (-32768) (min 32767 (amps toGone .bayB)) ≤ (threshold (between .ovlHold .hostSelect .lockedOut) .bayB : Int)) ∧
      ((between .gapClose .hostSelect .lockedOut).path .bayB).state = .closing ∧
      (chooseTarget (openOrder .bayB (sampled toGone (between .ovlClose .empty .opened))) (some .bayA) [.bayB] = some .dcIn ∧
        (between .ovlClose .empty .opened).spc.startUp = false) ∧
      [PathState.opened, .lockedOut].map (fun dc =>
          chooseTarget (openOrder .bayB (sampled toGone (between .gapClose .hostSelect dc))) (some .bayA) ([] ++ [.bayB])) =
        [some .dcIn, none] := by
  refine ⟨fun ph reason dc => ⟨by decide, by decide, ?_⟩, fun ph h => ⟨by decide, by decide, ?_⟩, by decide⟩
  · exact Int.natCast_nonneg _
  · exact Int.natCast_nonneg _

theorem test_hyp_BlankingEndTripsOnInrush_short :
    (∀ ph ∈ [SwPhase.ovlClose, .ovlHold],
      (∀ x ∈ [Source.dcIn, .bayB], CalmSource fromShort (between ph .hostSelect .lockedOut) x) ∧
        ((between ph .hostSelect .lockedOut).path .bayA).state = .closed ∧
        ((3 * threshold (between ph .hostSelect .lockedOut) .bayA : Nat) : Int) < max (-32768) (min 32767 (amps fromShort .bayA))) ∧
      ∀ ph ∈ [SwPhase.ovlClose, .gapClose],
        ((closingAt ph 3126).path .bayB).state = .closing ∧ (closingAt ph 3126).spc.sw.toSrc = .bayB ∧
          (closingAt ph 3126).spc.sw.phase = ph ∧
          (threshold (closingAt ph 3126) .bayB : Int) < ((closingAt ph 3126).path .bayB).current :=
  ⟨fun ph h => ⟨fun x _ => by cases x <;> first | exact ⟨by decide, by decide, Int.natCast_nonneg _⟩ | contradiction,
    by revert ph; decide⟩, by decide⟩

theorem test_dropped :
    (run (.monitorSample toGone) (between .ovlClose .hostSelect .lockedOut)).spc.sw.outcome = .failed ∧
      (run (.monitorSample toGone) (between .gapClose .hostSelect .opened)).spc.sw.tried = [.bayB] ∧
      (run (.monitorSample toGone) (between .gapClose .hostSelect .lockedOut)).spc.feeding = none := by decide

theorem test_shorted :
    (run (.monitorSample fromShort) (between .ovlClose .hostSelect .lockedOut)).spc.sw.phase = .gapClose ∧
      (run (.monitorSample fromShort) (between .ovlHold .hostSelect .lockedOut)).spc.feeding = some .bayB := by decide

theorem calm_anyBus {r : Readings} {s : State} {x : Source} (mv : Nat) (h : CalmSource r s x) :
    CalmSource { r with vBus := mv } s x :=
  ⟨by cases x <;> exact h.present, fun e => by subst e; exact h.volts rfl, by cases x <;> exact h.amps⟩

theorem test_hyp_BusLowActivatesAndRecovers_counts :
    (∀ mv x, CalmSource { steady with vBus := mv } sagging x) ∧
      sagging.spc.feeding ≠ none ∧ sagging.spc.busLow = false ∧ sagging.spc.settings.busLowMv = 10500 ∧
      3 ≤ sagging.spc.belowCount + 1 ∧ ¬3 ≤ live.spc.belowCount + 1 :=
  ⟨fun mv x => calm_anyBus mv (by cases x <;> exact ⟨by decide, by decide, by decide⟩), by decide⟩

theorem test_busLow_counts :
    ([10499, 10500].map fun mv => (run (.monitorSample { steady with vBus := mv }) live).spc.belowCount) = [1, 0] ∧
      ([10999, 11000].map fun mv => (run (.monitorSample { steady with vBus := mv })
        { live with spc := { live.spc with busLow := true } }).spc.recoveryTimer) = [none, some 0] := by decide

theorem test_hyp_ReleaseBayIsDeferred_rows :
    (Ready (withLatch .b granted live) ∧ ((withLatch .b granted live).latch .b).release = .granted ∧
        ((withLatch .b granted live).latch .a).release = .idle ∧ (withLatch .b granted live).ddt.phase = .still) ∧
      (Ready (switching .gapDead .loss .opened .opened) ∧ inFlight (switching .gapDead .loss .opened .opened) = true) ∧
      (Ready (withLatch .b (pendingFor .switchover) (switching .gapDead .release .opened .opened)) ∧
        askRuns (withLatch .b (pendingFor .switchover) (switching .gapDead .release .opened .opened)) .b = true) ∧
      (Ready onBattery ∧ onBattery.spc.feeding = some (baySource .a) ∧ inFlight onBattery = false ∧
        askRuns onBattery .b = false ∧ chooseTarget onBattery onBattery.spc.feeding [] = some .bayB) ∧
      Ready lone ∧ lone.spc.feeding = some (baySource .a) ∧ inFlight lone = false ∧ askRuns lone .b = false ∧
        chooseTarget lone lone.spc.feeding [] = none :=
  ⟨⟨ready_quiet _ rfl, by decide⟩, ⟨ready_quiet _ rfl, by decide⟩, ⟨ready_quiet _ rfl, by decide⟩,
    ⟨ready_quiet _ rfl, by decide⟩, ready_quiet _ rfl, by decide⟩

theorem test_releaseBay_rows :
    ((run (.releaseBay 0 [1]) onBattery).latch .a).cause = .switchover ∧
      ((run (.releaseBay 0 [1]) lone).latch .a).lastEvent = .refused := by decide

/-- SET_SENSE payloads of one slot: TH_PANEL, which STANDBY converts, and ALS_FRONT, which it does not. -/
def senseBody (c : Byte) : List Byte := [1, 0x1F, 0, 1, 0, 0, c]

theorem test_hyp_SenseSettingsAndTableAreStored_idle :
    Ready standby ∧ standby.scv.activity = .idle ∧ standby.slu.platform = .standby ∧
      (∀ c ∈ [(0 : Byte), 4], lengthAllowed .setSense (senseBody c) = true) ∧
      ((senseArgs (senseBody 4)).map fun a => (a.slots, a.enable.get .thPanel)) = some ([.thPanel], true) ∧
      ((senseArgs (senseBody 0)).map (·.slots)) = some [.alsFront] ∧ isLight .thPanel = false ∧ isLight .alsFront = true ∧
      (run (.setSense 0 (senseBody 4)) standby).scv.activity = .walk 1 .thPanel ∧
      (run (.setSense 0 (senseBody 0)) standby).scv.activity = .idle :=
  ⟨⟨by decide, by decide, transmitterOk_busy _ (by decide)⟩, by decide⟩

theorem test_hyp_NamedMotionEventsHappen_when :
    (producedSample (moving z.ddt).mpt badFrame = none ∧ (moving z.ddt).mpt.transfer = .inFlight) ∧
      (producedSample (moving z.ddt).mpt (oneG 1)).isSome = true ∧
      (ailing.mpt.link ≠ .lost ∧ badFrame.check ≠ frameCheck badFrame ∧ 8 ≤ ailing.mpt.rejectedRun + 1) ∧
      healing.mpt.link = .lost ∧ healing.mpt.recoveryRun < 16 ∧ 16 ≤ healing.mpt.recoveryRun + 1 ∧
      (oneG 1).check = frameCheck (oneG 1) ∧ healing.mpt.lastCount ≠ some ((oneG 1).status.toNat / 16) ∧
      isqrt 4194304 = 2048 ∧ fallHeight 452000 = 1001 := by decide

/-- A request at the front of the queue, with another behind it and WAKE asserted. -/
def roused (k : Byte) (p : List Byte) : State :=
  { asked k with slu := { (asked k).slu with queue := [⟨k, 7, p⟩, ⟨0x73, 8, []⟩], wake := true } }

theorem test_hyp_DispatchJudgesRequests_wake :
    (∀ k p, TransmitterOk (roused k p)) ∧
      (1 ≤ freeSpace (roused 0x73 []) ∧ (roused 0x73 []).slu.wake = true ∧ (0x73 : Byte) ≠ ReqKind.byte .getStatus) ∧
      (1 ≤ freeSpace (roused (ReqKind.byte .getStatus) []) ∧
        (roused (ReqKind.byte .getStatus) []).slu.queue = ⟨ReqKind.byte .getStatus, 7, []⟩ :: [⟨0x73, 8, []⟩]) ∧
      (roused 0x73 [0]).slu.queue = ⟨ReqKind.byte .getIdent, 7, [0]⟩ :: [⟨0x73, 8, []⟩] ∧
        lengthAllowed .getIdent [0] = false ∧ 1 ≤ freeSpace (roused 0x73 [0]) :=
  ⟨fun _ _ => transmitterOk_busy _ (by simp [roused, asked, busy]), by decide⟩

theorem test_dispatch_wake :
    (run .requestDispatch (roused 0x73 [])).slu.wake = true ∧
      (run .requestDispatch (roused 0x73 [0])).slu.fifo = [⟨7, [0x73, 4]⟩] := by decide

/-- BAY_A feeds and is EMPTY, with BAY_B at a voltage, and a frame is on SYS_TX. -/
def emptyBusy (b : Nat) : State := { emptyFeeding b with slu := busy.slu }

/-- An EMPTY feeding bay at RESET: without a target the sole-source flag is set (SUPPLY_CHANGE for it and for the situation), and
with one nothing is in flight after the event; the next examination starts the switchover (R49, log entry 46). -/
theorem test_hyp_ResetReturnsDefaults_held :
    (∀ b, Ready (emptyBusy b) ∧ inFlight (emptyBusy b) = false) ∧
      ((run (.resetRequest 0 []) (emptyBusy 0)).spc.soleSource = true ∧
        (run (.resetRequest 0 []) (emptyBusy 0)).slu.outbox.supplyChange = 2) ∧
      (run (.resetRequest 0 []) (emptyBusy 14800)).spc.soleSource = false ∧
        inFlight (run (.resetRequest 0 []) (emptyBusy 14800)) = false ∧
        (run (.setSupply 0 (supplyBody 2 0)) (run (.resetRequest 0 []) (emptyBusy 14800))).spc.sw.reason = .empty :=
  ⟨fun _ => ⟨ready_busy _ rfl, rfl⟩, by decide⟩

/-- The preemption timer of DC_IN runs from 0 after RESET, and holds at 500 ms outside STILL (R36). -/
theorem test_hyp_PreemptionExpiryStartsPreempt_holds :
    (preemptRuns returning .dcIn = true ∧ preemptRuns returning .bayA = false ∧ preemptRuns live .dcIn = false) ∧
      (run (.resetRequest 0 []) { returning with slu := busy.slu }).spc.preempt = ⟨some 0, none, none⟩ ∧
      (run (.preemptionTimerExpiry .dcIn) (inPhase .falling returning)).spc.preempt = ⟨some 5000, none, none⟩ ∧
      inFlight (run (.preemptionTimerExpiry .dcIn) (inPhase .falling returning)) = false := by decide

/-- The order in force and another one; and the held conditions. -/
theorem test_hyp_SetSupplyStores_timers :
    ((supplyArgs (supplyBody 2 0)).map fun a => decide (a.order = live.spc.settings.order)) = some false ∧
      ((supplyArgs ([0, 0, 1, 2] ++ (supplyBody 2 0).drop 4)).map fun a =>
          decide (a.mode = live.spc.settings.mode ∧ a.order = live.spc.settings.order)) = some true ∧
      heldCondition (emptyFeeding 0) = some .empty ∧ heldCondition (fresh .thBayA 700 onBattery) = some .hot ∧
      heldCondition (fresh .thBayA 699 onBattery) = none := by decide

theorem test_hyp_PackInfoStoresCharge_refused :
    bayOf (at8 [0] 0) = none ∧ bayOf (at8 [3, 50] 0) = none ∧
      (run (.packInfo 0 [2]) busy).slu.fifo = [⟨0, [0x16, 6]⟩] ∧ (run (.packInfo 0 [0]) busy).slu.fifo = [⟨0, [0x16, 3]⟩] := by
  decide

/-- A whole millisecond passes at the next sample. -/
def atTenth (s : State) : State := { s with slu := { s.slu with subMs := 9 } }

/-- Readings with the pack of BAY_A removed. -/
def pulled : Readings := { steady with vA := 0 }

theorem test_hyp_SampleStoresMeasurements_bay :
    (Removed pulled (withLatch .a granted live) .a ∧ volts pulled (baySource .a) < 6000) ∧
      (¬Removed steady (withLatch .a granted live) .a ∧ ((withLatch .a granted live).latch .a).release ≠ .pending) ∧
      ((withLatch .a (pendingFor .motion) live).latch .a).release = .pending ∧ 6000 ≤ volts steady (baySource .a) :=
  ⟨⟨⟨by decide, by decide, by decide⟩, by decide⟩,
    ⟨fun h => absurd h.2.2 (by decide), by decide⟩, by decide, by decide⟩

theorem test_sample_removed :
    (run (.monitorSample pulled) (withLatch .a granted live)).latch .a =
      { LatchRecord.powerOn .locked with lastEvent := .removed } := by decide

theorem test_sample_window :
    ((run (.monitorSample steady) (atTenth (withLatch .a granted live))).latch .a).windowMs = 9999 ∧
      ((run (.monitorSample steady) (withLatch .a granted live)).latch .a).windowMs = 10000 ∧
      ((run (.monitorSample steady) (atTenth (withLatch .a granted live))).latch .a).stuckTimer = 1 := by decide

/-- Readings with DC_IN at the voltage limit. -/
def tooHigh : Readings := { steady with vDc := 22000 }

/-- `live` whose bays cannot be closed. -/
def liveAlone : State := supply (some .dcIn) (.closed, 19000) (.lockedOut, 15000) (.lockedOut, 15000)

theorem test_hyp_SampleStoresMeasurements_overvolt :
    gateDriven live .dcIn = true ∧ 22000 ≤ tooHigh.vDc ∧
      (∀ s ∈ [live, liveAlone],
        s.spc.feeding = some .dcIn ∧ s.spc.sw.phase = .idle ∧ (s.path .dcIn).state = .closed ∧
          CalmSource tooHigh s .bayA ∧ CalmSource tooHigh s .bayB) ∧
      ([live, liveAlone].map fun s => chooseTarget (openOrder .dcIn (sampled tooHigh s)) (some .dcIn) []) = [some .bayA, none] ∧
      ∀ x, CalmSource steady live x := by
  refine ⟨by decide, by decide, fun s h => ?_, by decide, fun x => by cases x <;> exact ⟨by decide, by decide, by decide⟩⟩
  rcases List.mem_cons.mp h with rfl | h
  · exact ⟨by decide, by decide, by decide, ⟨by decide, by decide, by decide⟩, by decide, by decide, by decide⟩
  · rcases List.mem_singleton.mp h with rfl
    exact ⟨by decide, by decide, by decide, ⟨by decide, by decide, by decide⟩, by decide, by decide, by decide⟩

theorem test_overvolt :
    (run (.monitorSample tooHigh) live).spc.sw.reason = .overvolt ∧
      (run (.monitorSample { tooHigh with vDc := 21999 }) live).spc.sw.phase = .idle ∧
      (run (.monitorSample tooHigh) liveAlone).spc.feeding = none := by decide

/-- A stuck flag that RESET has kept does not keep a later grant's timer from its 200 ms; a timer that has been taken holds (R60).
-/
theorem test_hyp_LatchSwitchAndTimers_stuck :
    (granted.commanded = .unlocked ∧ granted.sensed = .locked ∧ granted.stuckTimer ≠ 200) ∧
      ((run (.latchStuckTimerExpiry .a) (withLatch .a { granted with stuck := true } busy)).latch .a).lastEvent = .stuck ∧
      (run (.latchStuckTimerExpiry .a) (withLatch .a { granted with stuck := true } busy)).slu.outbox.release = 1 ∧
      run (.latchStuckTimerExpiry .a) (withLatch .a { granted with stuck := true, stuckTimer := 200 } busy) =
        withLatch .a { granted with stuck := true, stuckTimer := 200 } busy := by decide

/-- The filter seeded at 100, with motion hold on or off. -/
def filtering (hold : Bool) : State :=
  { z with bre := { z.bre with seeded := true, lf := 100, lused := 100, motionHold := hold } }

/-- ALS_FRONT at 16,000 edges is 4,000 lux, of level 191: it seeds the filter, moves it by 8 sixteenths, and is held (R89 to R93).
A conversion that stores nothing leaves no usable channel (R86, R88). -/
theorem test_hyp_LightConversionStores_stages :
    ((run (.lightConversionEnd 16000) z).bre.lux, (run (.lightConversionEnd 16000) z).bre.lf) = (4000, 191) ∧
      (run (.lightConversionEnd 16000) (filtering false)).bre.lf = 145 ∧
      (run (.lightConversionEnd 16000) (filtering true)).bre.lf = 100 ∧
      (run (.lightConversionEnd 65535) z).bre.frontUsable = false ∧ (run (.lightConversionEnd 65535) z).bre.rearUsable = false ∧
      (run (.lightConversionEnd 65535) z).bre.ambientUnknown = true := by decide

theorem test_hyp_ThermistorEndsAndStaleness_points :
    defaultThermistors.Pairwise (fun p q => p.1 < q.1) ∧ defaultThermistors.head? = some (400, 1250) ∧
      defaultThermistors.getLast? = some (28000, -400) ∧ defaultThermistors[3]? = some (1300, 550) ∧
      defaultThermistors[3 + 1]? = some (1900, 400) ∧
      [400, 1300, 1301, 28000].map (thermistorAt defaultThermistors) = [1250, 550, 550, -400] := by decide

theorem test_hyp_ThermistorEndsAndStaleness_light :
    ∀ c ∈ [Channel.alsFront, .alsRear, .thPanel],
      ((fresh c 250 z).scv.records.get c).valid = true ∧ ((fresh c 250 z).scv.records.get c).stale = false := by decide

theorem test_hyp_LightLevelAndFilter_points :
    defaultCurve.Pairwise (fun p q => p.1 < q.1) ∧ defaultCurve.head? = some (0, 40) ∧
      defaultCurve.getLast? = some (256, 1000) ∧ defaultCurve[0]? = some (0, 40) ∧ defaultCurve[0 + 1]? = some (96, 120) ∧
      [0, 1, 95, 96, 256, 280].map (curveAt defaultCurve) = [40, 40, 119, 120, 1000, 1000] := by decide

/-- Three consistent intervals, and one of another length after them. -/
theorem test_hyp_FrameStartsLockAndDim_inconsistent :
    (locking.lmd.runCount = 3 ∧ locking.lmd.locked = false ∧
        locking.lmd.lastInterval < distance locking.lmd.lastInterval (8000000 - 0) * 20) ∧
      (run (.frameStart 8000000) locking).lmd.runCount = 1 ∧ (run (.frameStart 8000000) locking).lmd.locked = false := by decide

/-- A period that was not measured, of strings measured before it, under each strategy (R117). -/
theorem test_hyp_PeriodsFollowTheLockMode_strategy :
    let l := (run (.stringMeasurement 4000000 oneOpen) lit).lmd
    let at' := fun measured strategy =>
      (run .periodStart
        { z with lmd := { l with measured := measured, settings := { l.settings with strategy := strategy } } }).lmd.strings.s2.meas
    at' false .reportUnmeasured = .notMeasured ∧ at' false .holdLast = .regulating ∧ at' true .reportUnmeasured = .regulating := by
  decide

/-- 100 µs are measured and less is not; the second fault in a row confirms none. -/
theorem test_hyp_StringMeasurementConfirmsFaults_when :
    (lit.lmd.measures 100000 = true ∧ lit.lmd.measures 99999 = false) ∧
      (lit.lmd.changed = false ∧ lit.lmd.measured = false ∧ 100000 ≤ lit.lmd.pwmPeriod * lit.lmd.inForce.duty / 4096) ∧
      ((lit.lmd.strings.get .s1).count = 2 ∧ (lit.lmd.strings.get .s1).counted = .openCircuit ∧
        (readingOf oneOpen .s1).current * 2 < lit.lmd.inForce.current) ∧
      confirmsFault 100000 oneOpen { lit.lmd with strings := lit.lmd.strings.map fun r => { r with count := 1 } } = false := by decide

/-- A SET_LAMP of another multiple, in FREE_RUN and in LOCKED (R120). -/
theorem test_hyp_LampRequestsAct_multiple :
    (lampArgs [8, 4, 250, 0, 250, 0, 8, 0, 15]).map (·.clamped.multiple) = some 8 ∧ z.lmd.settings.multiple = 4 ∧
      (run (.setLamp 0 [8, 4, 250, 0, 250, 0, 8, 0, 15]) busy).lmd.internalNext = true ∧
      (run (.setLamp 0 [8, 4, 250, 0, 250, 0, 8, 0, 15]) { scanning with slu := busy.slu }).lmd.internalNext = false ∧
      (run (.setLamp 0 [8, 4, 250, 0, 250, 0, 8, 0, 0]) busy).lmd.strings.s4.state = .disabled := by decide

/-- BAY_A feeds and is EMPTY, with DC_IN and BAY_B at voltages. -/
def emptyBeside (dc b : Nat) : State :=
  let s := supply (some .bayA) (.opened, dc) (.closed, 15000) (.opened, b)
  s.setPath .bayA { s.path .bayA with isEmpty := true }

/-- No held condition is left to begin. -/
theorem notHeldFirst {s : State} (h : heldCondition s = none) (bay : Bay) : ∀ r x, ¬HeldFirst s bay r x :=
  fun _ _ x => absurd (h.symm.trans x.2.1) (by simp)

/-- An EMPTY that RESET has left to begin, at a release request for either bay; BAY_B is no target of its own. -/
theorem test_hyp_HeldFirst :
    HeldFirst (emptyBeside 0 14800) .a .empty .bayB ∧ HeldFirst (emptyBeside 19000 14800) .b .empty .dcIn ∧
      (∀ r x, ¬HeldFirst (emptyBeside 0 14800) .b r x) ∧
      (TransmitterOk (emptyBeside 0 14800) ∧ Ready (emptyBeside 0 14800) ∧ inFlight (emptyBeside 0 14800) = false) ∧
      (∀ s ∈ [live, onBattery, lone], ∀ bay r x, ¬HeldFirst s bay r x) := by
  refine ⟨⟨by decide, by decide, by decide⟩, ⟨by decide, by decide, by decide⟩, fun r x h => ?_,
    ⟨transmitterOk_quiet _ rfl rfl, ready_quiet _ rfl, by decide⟩, fun s h bay => notHeldFirst ?_ bay⟩
  · have n : chooseTarget (emptyBeside 0 14800) (emptyBeside 0 14800).spc.feeding [baySource .b] = none := by decide
    exact absurd (n.symm.trans h.2.2) (by simp)
  · revert s; decide

/-- The held EMPTY starts before the ask, which waits; with no target but the bay itself, that bay is granted (R32, R37). -/
theorem test_release_heldFirst :
    (run (.buttonPress .a) (emptyBeside 0 14800)).spc.sw.reason = .empty ∧
      ((run (.buttonPress .a) (emptyBeside 0 14800)).latch .a).cause = .supplyBusy ∧
      ((run (.releaseBay 0 [2]) (emptyBeside 19000 14800)).latch .b).cause = .supplyBusy ∧
      ((run (.buttonPress .b) (emptyBeside 0 14800)).latch .b).release = .granted := by decide

/-- A SELECT_SOURCE before the beginning of a switchover that RESET has left takes its place, from NONE too (log entry 46). -/
theorem test_selectSource_afterReset :
    (run (.selectSource 9 [2]) (emptyBeside 0 14800)).spc.sw.reason = .hostSelect ∧
      (run (.selectSource 9 [1]) dead).spc.sw.reason = .hostSelect := by decide

/-- BAY_A's RELEASE ask has started the switchover that is in flight, and a host reply is owed. -/
def asking (s : State) : State :=
  let t := withLatch .a { pendingFor .switchover with hostOwed := true } s
  { t with
    slu := { busy.slu with owedRelease := some 7 }
    spc := { t.spc with sw := { t.spc.sw with reason := .release } } }

theorem askInFlight_asking (s : State) (h : s.spc.sw.fromSrc = some .bayA) : AskInFlight .a (asking s) :=
  ⟨rfl, h, rfl, rfl⟩

/-- The ends of a RELEASE switchover: the overlap time, a GAP_CLOSE, no target left, and the failures. -/
theorem test_hyp_AskInFlight :
    (∀ ph, (switching ph .release .closed .closing).spc.sw.fromSrc = some .bayA) ∧
      (∀ ph mA, AskInFlight .a (asking (closingAt ph mA))) ∧ (∀ dc b, AskInFlight .a (asking (crossing dc b))) ∧
      (∀ ph dc, AskInFlight .a (asking (between ph .hostSelect dc))) ∧ Source.bayB ≠ baySource .a ∧
      (asking (closingAt .ovlHold 0)).ddt.phase = .still ∧
      (inPhase .falling (asking (closingAt .ovlHold 0))).ddt.phase ≠ .still ∧
      ((asking (closingAt .ovlHold 0)).latch .b).release ≠ .granted ∧ askRuns (asking (closingAt .ovlHold 0)) .b = false ∧
      ((asking (closingAt .ovlHold 0)).latch .a).hostOwed = true ∧
      (asking (closingAt .ovlHold 0)).slu.owedRelease = some 7 ∧ (asking (closingAt .ovlHold 0)).slu.tx ≠ none ∧
      inMask (asking (closingAt .ovlHold 0)).slu.noticeMask .release = true ∧
      (available (asking (crossing 0 0)) .bayB = false ∧
        chooseTarget (asking (crossing 0 0)) (some .bayA) ([] ++ [.bayB]) = none) ∧
      chooseTarget (asking (closingAt .gapClose 3126)) (some .bayA) ([] ++ [.bayB]) = none :=
  ⟨fun _ => rfl, fun _ _ => askInFlight_asking _ rfl, fun _ _ => askInFlight_asking _ rfl, fun _ _ => askInFlight_asking _ rfl,
    by decide⟩

theorem test_release_moved :
    ((run .overlapTimerExpiry (asking (closingAt .ovlHold 0))).latch .a).release = .granted ∧
      (run .overlapTimerExpiry (asking (closingAt .ovlHold 0))).slu.owedRelease = none ∧
      ((run .overlapTimerExpiry (inPhase .falling (asking (closingAt .ovlHold 0)))).latch .a).cause = .motion ∧
      ((run (.blankingEnd .bayB) (asking (closingAt .gapClose 0))).latch .a).release = .granted ∧
      ((run .deadTimeExpiry (asking (crossing 0 0))).latch .a).release = .granted ∧
      ((run (.lossDeclared fromGone) (asking (between .ovlHold .hostSelect .lockedOut))).latch .a).release = .granted := by
  decide

theorem test_release_failed :
    ((run (.blankingEnd .bayB) (asking (closingAt .ovlClose 3126))).latch .a).lastEvent = .refused ∧
      ((run (.blankingEnd .bayB) (asking (closingAt .gapClose 3126))).latch .a).release = .granted := by decide

/-- The frame that brings the phase back to STILL, with BAY_A and BAY_B as given. -/
def backToStill (s : State) (a b : LatchRecord) : State :=
  withLatch .b b (withLatch .a a { s with ddt := settling.ddt, mpt := settling.mpt, slu := busy.slu })

/-- The same once the phase is STILL. -/
def atStill (s : State) (a b : LatchRecord) : State :=
  { backToStill s a b with ddt := (frameEnd (oneG 1) (backToStill s a b)).ddt }

def locked : LatchRecord := LatchRecord.powerOn .locked

theorem test_hyp_LatchSwitchAndTimers_motion :
    (aboutToFall.mpt.transfer = .inFlight ∧ aboutToFall.ddt.phase = .still ∧
        (run (.frameEnd (fall 1)) aboutToFall).ddt.phase ≠ .still) ∧
      ((backToStill live locked locked).mpt.transfer = .inFlight ∧ (backToStill live locked locked).ddt.phase ≠ .still ∧
        (run (.frameEnd (oneG 1)) (backToStill live locked locked)).ddt.phase = .still) ∧
      (∀ s ∈ [live, onBattery, lone, emptyBeside 0 14800], (atStill s (pendingFor .motion) locked).ddt.phase = .still) ∧
      ¬Due (atStill live locked locked) .a ∧
      (∀ s ∈ [live, onBattery, lone, emptyBeside 0 14800], AsksFirst (atStill s (pendingFor .motion) locked) .a) ∧
      HeldStarts (atStill (emptyBeside 0 14800) (pendingFor .motion) locked) ∧
      (∀ s ∈ [live, onBattery, lone], ¬HeldStarts (atStill s (pendingFor .motion) locked) ∧
        inFlight (atStill s (pendingFor .motion) locked) = false ∧ askRuns (atStill s (pendingFor .motion) locked) .b = false) ∧
      ((atStill live (pendingFor .motion) locked).spc.feeding ≠ some (baySource .a) ∧
        chooseTarget (atStill onBattery (pendingFor .motion) locked) (some .bayA) [] = some .bayB ∧
        chooseTarget (atStill lone (pendingFor .motion) locked) (some .bayA) [] = none) ∧
      (∀ s ∈ [live, lone], Due (atStill s (pendingFor .motion) (pendingFor .motion)) .b ∧
        AsksFirst (atStill s (pendingFor .motion) (pendingFor .motion)) .a ∧
        (atStill s (pendingFor .motion) (pendingFor .motion)).ltc.older = .a) := by
  have due : ∀ s b, Due (atStill s (pendingFor .motion) b) .a := fun _ _ => ⟨rfl, fun h => (nomatch h)⟩
  have other : ∀ s, ¬Due (atStill s (pendingFor .motion) locked) .b := fun _ h => (nomatch h.1)
  refine ⟨by decide, by decide, by decide, fun d => (nomatch d.1),
    fun s h => ⟨due s _, by revert s; decide, fun g => (nomatch g), fun d => absurd d (other s)⟩, ⟨by decide, by decide, by decide⟩,
    fun s h => ⟨fun x => absurd (show heldCondition _ = none by clear x; revert s; decide) x.2.1, by revert s; decide⟩, by decide,
    fun s h => ⟨⟨rfl, fun g => (nomatch g)⟩, ⟨due s _, by revert s; decide, fun g => (nomatch g), fun d => by clear d; revert s; decide⟩, by revert s; decide⟩⟩

/-- R58: a GRANTED bay is revoked, and granted again when the phase returns to STILL; the older of two is served first (R54). -/
theorem test_motion_bays :
    ((run (.frameEnd (fall 1)) (withLatch .a granted aboutToFall)).latch .a).lastEvent = .revoked ∧
      ((run (.frameEnd (fall 1)) (withLatch .b (pendingFor .otherGrant) (withLatch .a granted aboutToFall))).latch .b).cause =
        .motion ∧
      ((run (.frameEnd (oneG 1)) (backToStill live granted.revoke (pendingFor .motion))).latch .a).windowMs = 10000 ∧
      ((run (.frameEnd (oneG 1)) (backToStill live granted.revoke (pendingFor .motion))).latch .b).cause = .otherGrant ∧
      ((run (.frameEnd (oneG 1)) (backToStill onBattery (pendingFor .motion) locked)).latch .a).cause = .switchover ∧
      ((run (.frameEnd (oneG 1)) (backToStill lone (pendingFor .motion) (pendingFor .motion))).latch .a).lastEvent = .refused ∧
      ((run (.frameEnd (oneG 1)) (backToStill lone (pendingFor .motion) (pendingFor .motion))).latch .b).release = .granted ∧
      ((run (.frameEnd (oneG 1)) (backToStill (emptyBeside 0 14800) (pendingFor .motion) locked)).latch .a).cause = .supplyBusy ∧
      ((run (.releaseWindowExpiry .a) (withLatch .b (pendingFor .otherGrant) (withLatch .a granted live))).latch .b).release =
        .granted := by decide

/-- A one-shot of BAY_A's temperature whose reply is owed, while the bay feeds. -/
def heating (s : State) : State :=
  { s with slu := { busy.slu with owedConvert := some 5 }, scv := { s.scv with activity := .oneShot .thBayA, oneShot := some .thBayA } }

theorem test_hyp_ThermistorEndsAndStaleness_bay :
    (∀ s ∈ [onBattery, lone],
      (heating s).scv.activity = .oneShot .thBayA ∧ (heating s).slu.owedConvert = some 5 ∧ (heating s).slu.tx ≠ none ∧
        inMask (heating s).slu.noticeMask .senseFault = true ∧ (heating s).spc.feeding = some (baySource .a) ∧
        ((heating s).path (baySource .a)).isEmpty = false ∧ canStart (heating s) = true ∧
        hot (run (.thermistorConversionEnd 900) (heating s)) (baySource .a) = true) ∧
      thermistorAt defaultThermistors 900 = 720 := by decide

theorem test_thermistor_hot :
    (run (.thermistorConversionEnd 900) (heating onBattery)).spc.sw.reason = .hot ∧
      (run (.thermistorConversionEnd 900) (heating lone)).spc.soleSource = true ∧
      (run (.thermistorConversionEnd 1000) (heating onBattery)).spc.sw.phase = .idle ∧
      (run (.thermistorConversionEnd 159) (heating onBattery)).slu.outbox.senseFault = 1 ∧
      (run .thermistorTimeout (heating onBattery)).slu.outbox.senseFault = 1 ∧
      (run (.thermistorConversionEnd 900) (heating onBattery)).slu.outbox.senseFault = 0 ∧
      (run (.channelStale .thBayA) (fresh .thBayA 250 (heating lone))).slu.outbox.senseFault = 1 := by decide

/-- The five situations, in R45's order. -/
theorem test_situations :
    [supply none (.opened, 0) (.opened, 0) (.opened, 0), live, { lone with spc := { lone.spc with low := ⟨true, false⟩ } },
      onBattery, lone].map situationOf = [.shed, .dc, .low, .pair, .single] := by decide

/-- A rear weight of 0 clears the rear flag, and leaves no usable channel; a curve runs the mode's stage 6, with its clamp. -/
theorem test_brightness_flags :
    let e : Bre := { z.bre with rearUsable := true, ambientUnknown := false, seeded := true, lused := 287 }
    ((e.stored { BrightSettings.defaults with rearWeight := 0 } none).rearUsable,
        (e.stored { BrightSettings.defaults with rearWeight := 0 } none).ambientUnknown) = (false, true) ∧
      ([4, -8].map fun b =>
          let g := ({ e with settings := { e.settings with bias := b } }).loaded [(0, 0), (256, 1000)]
          (g.yb, g.clamped)) = [(1000, true), (500, false)] := by decide

end Sys2Proof.Tests
end

/-! ## Source paths, tier 1: power-on (O2, O4), the threshold (O25), the timers of a path (O29, O32) -/

namespace Sys2Proof.SourcePaths

open Sys2Proof.Machine Sys2Proof.Safety

/-! ### The threshold in force (R11) -/

/-- The temperature that a bay's derating goes by. -/
theorem bayTemp_eq (s : State) (bay : Bay) :
    bayTemp s bay = knownValue (s.scv.records.get (if bay = .a then .thBayA else .thBayB)) := by
  cases bay <;> rfl

theorem derating_bay (s : State) (bay : Bay) :
    derating s (baySource bay) =
      if (s.path (baySource bay)).settings.derating then deratingOf (bayTemp s bay) else 0 := by
  simp only [derating, sourceBay_baySource]

theorem knownValue_unknown {r : ChannelRecord} (h : r.valid = false ∨ r.stale = true) : knownValue r = none := by
  rcases h with h | h <;> simp [knownValue, h]

theorem knownValue_known {r : ChannelRecord} (valid : r.valid = true) (fresh : r.stale = false) :
    knownValue r = some r.value := by
  simp [knownValue, valid, fresh]

/-- R11's table, row by row. -/
theorem deratingOf_rows (t : Int) :
    (t < 0 → deratingOf (some t) = 2) ∧ (0 ≤ t → t ≤ 449 → deratingOf (some t) = 0) ∧
      (450 ≤ t → t ≤ 549 → deratingOf (some t) = 1) ∧ (550 ≤ t → t ≤ 599 → deratingOf (some t) = 2) ∧
      (600 ≤ t → deratingOf (some t) = 3) := by
  simp only [deratingOf]
  refine ⟨?_, ?_, ?_, ?_, ?_⟩ <;> intros <;> split_ifs <;> omega

/-! ### Power-on (R7, R22, R49, R62) -/

section PowerOn

variable (btnA btnB : Bool) (lsnsA lsnsB : LatchPos) (pending : List Instr)

theorem powerOn_path (p : Source) : (State.powerOn btnA btnB lsnsA lsnsB pending).path p = .powerOn p := by
  cases p <;> rfl

theorem powerOn_latch (bay : Bay) :
    (State.powerOn btnA btnB lsnsA lsnsB pending).latch bay = .powerOn (if bay = .a then lsnsA else lsnsB) := by
  cases bay <;> rfl

/-- R7: after power-on no gate is driven. -/
theorem powerOn_gate (p : Source) :
    gateDrive (State.powerOn btnA btnB lsnsA lsnsB pending) p = .off ∧
      gateDriven (State.powerOn btnA btnB lsnsA lsnsB pending) p = false := by
  simp [gateDrive, gateDriven, powerOn_path, PathRecord.powerOn]

/-- R1 to R3: before the first sample no source is present, over its voltage limit or HOT. -/
theorem powerOn_conditions (p : Source) :
    present (State.powerOn btnA btnB lsnsA lsnsB pending) p = false ∧
      overvolt (State.powerOn btnA btnB lsnsA lsnsB pending) p = false ∧
      hot (State.powerOn btnA btnB lsnsA lsnsB pending) p = false := by
  cases p <;> exact ⟨rfl, rfl, rfl⟩

/-- R11: with no temperature known yet the bays' thresholds are derated by three steps. -/
theorem powerOn_threshold :
    threshold (State.powerOn btnA btnB lsnsA lsnsB pending) .dcIn = 6000 ∧
      ∀ bay, threshold (State.powerOn btnA btnB lsnsA lsnsB pending) (baySource bay) = 3125 := by
  have step : ∀ bay, derating (State.powerOn btnA btnB lsnsA lsnsB pending) (baySource bay) = 3 := fun bay => by
    cases bay <;> rfl
  refine ⟨by simp [threshold, derating, sourceBay, powerOn_path, PathRecord.powerOn, PathSettings.defaults], fun bay => ?_⟩
  rw [threshold, step, powerOn_path]
  cases bay <;> rfl

end PowerOn

/-- Settles O2, field by field of the power-on values. -/
theorem powerOnSupplySide : Obligations.PowerOnSupplySide := by
  intro btnA btnB lsnsA lsnsB s
  obtain ⟨dc, bays⟩ := powerOn_threshold btnA btnB lsnsA lsnsB s.pending
  refine ⟨.powerOn btnA btnB lsnsA lsnsB s.pending, rfl, rfl, fun p => ?_, fun p => ?_, dc, bays .a, bays .b, rfl,
    fun bay => powerOn_latch .., rfl⟩
  · rw [powerOn_path]
    cases p <;> rfl
  · obtain ⟨drive, driven⟩ := powerOn_gate btnA btnB lsnsA lsnsB s.pending p
    exact ⟨drive, driven, powerOn_conditions ..⟩

/-! ### The state right after reset -/

theorem linkOk_reset : LinkOk State.reset where
  queue := Nat.zero_le _
  replies := Nat.zero_le _
  outbox := fun k => by cases k <;> exact Nat.zero_le _
  errors := Nat.zero_le _

theorem transmitterOk_reset : TransmitterOk State.reset := fun _ => ⟨rfl, fun k => by cases k <;> rfl⟩

theorem lampOk_reset : LampOk State.reset where
  allowance := rfl
  thermal := rfl
  cap := rfl
  yc := Nat.le_refl 150
  ycCopy := rfl
  capCopy := rfl
  level := Nat.zero_le _
  dark := fun _ => rfl

/-- With every gate off and both latches locked, the paths and the latches obey their laws. -/
theorem supplyOk_reset : SupplyOk State.reset :=
  supplyOk_idle _
    (fun bay =>
      have locked : ∀ x, (State.reset.latch x).commanded = .locked := fun x => by cases x <;> rfl
      { granted := by cases bay <;> decide
        opened := fun h => absurd h (by simp [locked])
        other := fun h => absurd h (by simp [locked])
        still := fun _ => rfl })
    rfl (fun p => (powerOn_gate _ _ _ _ _ p).2)

theorem situationOk_reset : SituationOk State.reset := ⟨rfl, rfl⟩

theorem recordsOk_reset : RecordsOk State.reset.ddt where
  count := Nat.zero_le _
  ascending := List.Pairwise.nil
  closed := fun _ h => absurd h List.not_mem_nil
  inProgress := fun _ h => nomatch h
  still := fun _ => rfl

theorem portOk_reset : PortOk State.reset.mpt where
  ring := Nat.zero_le _
  history := rfl
  rejectedRun := Nat.zero_le _
  recoveryRun := Nat.zero_le _

/-- Settles O4, one invariant at a time. -/
theorem resetMeetsInvariants : Obligations.ResetMeetsInvariants :=
  ⟨linkOk_reset, transmitterOk_reset, lampOk_reset, supplyOk_reset, situationOk_reset, recordsOk_reset, portOk_reset⟩

/-! ### The threshold by the temperature (R11) -/

/-- Settles O25: the step of a bay is R11's table at its temperature, and 3 where that is not known. -/
theorem thresholdFollowsTemperature : Obligations.ThresholdFollowsTemperature := by
  intro s
  refine ⟨rfl, fun _ => ⟨rfl, rfl⟩, fun bay off => by rw [derating_bay, off]; rfl, fun bay on => ?_⟩
  have step : derating s (baySource bay) = deratingOf (bayTemp s bay) := by rw [derating_bay, on]; rfl
  rw [step, bayTemp_eq]
  refine ⟨fun unknown => by rw [knownValue_unknown unknown]; rfl, fun valid fresh => ?_⟩
  rw [knownValue_known valid fresh]
  exact deratingOf_rows _

/-! ### The timers of a path (R4, R15, R18) -/

/-- R32, R176: an event that ends in an examination, when nothing waits for an IDLE transmitter before it. -/
theorem examined_event {s u : State} (h : TransmitterOk s) (slu : u.slu = s.slu) :
    Examined u (arbitrate (settle false u)) :=
  examined_settle u fun idle => by rw [slu]; exact (h (by rw [← slu]; exact idle)).1

/-- Settles O29. -/
theorem emptyTimerTogglesEmpty : Obligations.EmptyTimerTogglesEmpty := by
  intro bay s idle
  refine ⟨fun runs => ⟨_, if_pos (Option.isSome_iff_ne_none.mpr runs), examined_event idle rfl⟩, fun stopped => ?_⟩
  exact if_neg (by simp [stopped])

/-- Settles O32. -/
theorem retryAndGoodCloseRecoverPaths : Obligations.RetryAndGoodCloseRecoverPaths := by
  intro p s
  refine ⟨fun idle tripped runs => ?_, fun stopped => ?_, fun closed runs => ?_, fun stopped => ?_⟩
  · exact ⟨_, if_pos ⟨tripped, Option.isSome_iff_ne_none.mpr runs⟩, examined_event idle rfl⟩
  · refine if_neg ?_
    rintro ⟨tripped, runs⟩
    rcases stopped with h | h
    · exact h tripped
    · simp [h] at runs
  · exact if_pos ⟨closed, runs⟩
  · refine if_neg ?_
    rintro ⟨closed, runs⟩
    exact stopped.elim (· closed) runs

end Sys2Proof.SourcePaths

/-! ## Path and supply requests (O18 to O21) -/

namespace Sys2Proof.SourcePaths

open Sys2Proof.Machine Sys2Proof.Safety

/-! ### A request whose effect ends in an examination -/

/-- R170: the path record in a reply is that of the state in which the event ends. -/
theorem pathBytes_answered (k : ReqKind) (tag : Byte) (st : Status) (res : List Byte) (v : State) (q : Source) :
    pathBytes (arbitrate (answer tag k st res v)) q = pathBytes v q := rfl

/-- R32, R170: a request that changes the supply from `s` to `u` has its triggers examined and is answered with the record of a
path. -/
theorem examined_pathReply {s u : State} (k : ReqKind) (tag : Byte) (st : Status) (q : Source) (h : Ready s)
    (slu : u.slu = (heard s).slu) :
    let t := arbitrate (answer tag k st (pathBytes (settle false u) q) (settle false u))
    Examined (replied u (replyOf k tag st (pathBytes t q))) t := by
  have idle : TransmitterOk u := by
    unfold TransmitterOk
    rw [slu]
    exact transmitterOk_heard s h.transmitter
  intro t
  rw [show pathBytes t q = pathBytes (settle false u) q from pathBytes_answered ..]
  exact examined_answered k tag st _ u idle

/-- R170, R171: a request that is refused changes nothing but the link. -/
theorem refused_eq (k : ReqKind) (tag : Byte) (st : Status) (s : State) (h : Ready s) :
    arbitrate (refuse tag k st (heard s)) = answered k tag st [] s :=
  arbitrate_answer k tag st [] _ (transmitterOk_heard s h.transmitter)

/-! ### Operations on the members of a source set (R19, R21) -/

section Members

variable (m : PerSource Bool) (g : Source → PathRecord → PathRecord) (s : State)

/-- A change of one path's record, by what it was. -/
def changePath (p : Source) (v : State) : State := v.setPath p (g p (v.path p))

theorem onMember_path (p q : Source) :
    (onMember m (changePath g) p s).path q = if q = p ∧ m.get p = true then g p (s.path p) else s.path q := by
  unfold onMember changePath
  split <;> simp [*]

theorem onMember_frame (p : Source) :
    onMember m (changePath g) p s =
      { s with spc := { s.spc with paths := (onMember m (changePath g) p s).spc.paths } } := by
  unfold onMember
  split <;> rfl

/-- Every member's record is changed, and no other. -/
theorem onMembers_path (q : Source) :
    (onMembers m (changePath g) s).path q = if m.get q = true then g q (s.path q) else s.path q := by
  unfold onMembers
  cases q <;> simp [onMember_path]

theorem onMembers_frame :
    onMembers m (changePath g) s =
      { s with spc := { s.spc with paths := (onMembers m (changePath g) s).spc.paths } } := by
  unfold onMembers
  rw [onMember_frame _ _ _ .bayB, onMember_frame _ _ _ .bayA, onMember_frame _ _ _ .dcIn]

end Members

/-! ### SET_PATH (R14 to R16, R19) -/

/-- R14 to R16: a stored record, field by field. -/
theorem stored_eq (r : PathRecord) (c : PathSettings) :
    r.stored c =
      { r with
        settings := c
        effSlew := c.slew
        state :=
          if r.state = .tripped ∧ c.strategy = .reported ∧ r.settings.strategy = .auto ∧ r.fault.read = true then .opened
          else r.state
        retry := if r.state = .tripped then (if c.strategy = .auto then some c.retryMs else none) else r.retry } := by
  unfold PathRecord.stored
  by_cases tripped : r.state = .tripped
  · cases strategy : c.strategy with
    | auto => simp [tripped]
    | reported => by_cases read : r.settings.strategy = .auto ∧ r.fault.read = true <;> simp [tripped, read]
  · simp [tripped]

/-- R19: derating stays off on DC_IN. -/
theorem storedSettings_eq (a : PathArgs) (q : Source) :
    a.stored q =
      { ocThreshold := clampStep 1000 10000 100 a.ocThreshold, blankingHalfMs := a.blankingHalfMs
        slew := a.slew, strategy := a.strategy, retryMs := clampStep 50 2000 50 a.retryMs
        tripLimit := clamp 1 7 a.tripLimit, derating := a.derating && q != .dcIn
        autoEligible := a.autoEligible } := by
  cases q <;> simp [PathArgs.stored]

theorem anyInSwitchover_iff (s : State) (m : PerSource Bool) :
    anyInSwitchover s m = true ↔ ∃ q, m.get q = true ∧ inSwitchover s q = true := by
  constructor
  · intro h
    simp only [anyInSwitchover, Bool.or_eq_true, Bool.and_eq_true] at h
    rcases h with (h | h) | h
    exacts [⟨.dcIn, h⟩, ⟨.bayA, h⟩, ⟨.bayB, h⟩]
  · rintro ⟨q, h⟩
    cases q <;> simp_all [anyInSwitchover, PerSource.get]

theorem setPath_allowed {p : List Byte} (h : p.length = 11) : lengthAllowed .setPath p = true := by
  simp [lengthAllowed, h, Config.maxPayload]

theorem setPath_handled (tag : Byte) {p : List Byte} {s : State} (h : Ready s) (len : p.length = 11) :
    exec (.setPath tag p) s = .next (arbitrate (handleSetPath tag p (heard s))) :=
  exec_ready .setPath tag p s h (setPath_allowed len)

/-- Settles O18, by the three answers of SET_PATH. -/
theorem setPathStoresOnEveryMember : Obligations.SetPathStoresOnEveryMember := by
  intro tag p s h len
  rw [setPath_handled tag h len]
  refine ⟨fun a args free => ?_, fun a q args member busy => ?_, fun args => ?_⟩
  · have notBusy : ¬anyInSwitchover (heard s) a.members = true := fun x => by
      obtain ⟨q, member, busy⟩ := (anyInSwitchover_iff _ _).mp x
      exact absurd (free q member) (by simp [show inSwitchover s q = true from busy])
    have path := onMembers_path a.members (fun q r => r.stored (a.stored q)) (heard s)
    have frame := onMembers_frame a.members (fun q r => r.stored (a.stored q)) (heard s)
    generalize hu : onMembers a.members (changePath fun q r => r.stored (a.stored q)) (heard s) = u at path frame
    have handled : handleSetPath tag p (heard s) =
        answer tag .setPath (okOr a.adjusted) (pathBytes (settle false u) (lowestSource a.members)) (settle false u) := by
      simp only [handleSetPath, args, if_neg notBusy]
      rw [← hu]
      rfl
    rw [handled]
    refine ⟨u, _, rfl, examined_pathReply _ _ _ _ h (by rw [frame]), frame, fun q => ⟨fun out => ?_, fun member => ?_⟩⟩
    · rw [path, out]; rfl
    · rw [path, if_pos member, stored_eq, storedSettings_eq]; rfl
  · have any : anyInSwitchover (heard s) a.members = true := (anyInSwitchover_iff _ _).mpr ⟨q, member, busy⟩
    simp only [handleSetPath, args, any, if_true]
    rw [refused_eq _ _ _ _ h]
  · simp only [handleSetPath, args]
    rw [refused_eq _ _ _ _ h]

/-! ### GET_PATH (R15, R16, R20) -/

/-- R16, R20: a record that is read, field by field. -/
theorem readFault_eq (r : PathRecord) :
    r.readFault =
      { r with
        fault := { r.fault with read := r.fault.read || r.fault.cause != .none }
        state := if r.state = .tripped ∧ r.settings.strategy = .reported then .opened else r.state
        retry := if r.state = .tripped ∧ r.settings.strategy = .reported then none else r.retry } := by
  unfold PathRecord.readFault
  dsimp only
  split <;> rfl

theorem readFault_opens (r : PathRecord) :
    r.readFault.state = r.state ↔ ¬(r.state = .tripped ∧ r.settings.strategy = .reported) := by
  rw [readFault_eq]
  by_cases h : r.state = .tripped ∧ r.settings.strategy = .reported <;> simp [h]

theorem getPath_handled (tag : Byte) {p : List Byte} {s : State} (h : Ready s) (len : p.length = 1) :
    exec (.getPath tag p) s = .next (arbitrate (handleGetPath tag p (heard s))) :=
  exec_ready .getPath tag p s h (by simp [lengthAllowed, len, Config.maxPayload])

/-- Settles O19: only a TRIPPED path under REPORTED is opened by the reading, and examined. -/
theorem getPathReadsLowestMember : Obligations.GetPathReadsLowestMember := by
  intro tag p s h len
  rw [getPath_handled tag h len]
  refine ⟨fun m set => ?_, fun set => ?_⟩
  · simp only [handleGetPath, set, readPath]
    generalize lowestSource m = q
    refine ⟨_, _, rfl, rfl, ?_⟩
    rw [← readFault_eq]
    split
    · rename_i opens
      have opened : ¬(s.path q).readFault.state = (s.path q).state := fun x => (readFault_opens _).mp x opens
      rw [if_neg (show ¬((heard s).path q).readFault.state = ((heard s).path q).state from opened)]
      exact examined_pathReply .getPath tag .ok q h rfl
    · rename_i keeps
      rw [if_pos (show ((heard s).path q).readFault.state = ((heard s).path q).state from (readFault_opens _).mpr keeps)]
      exact arbitrate_answer .getPath tag .ok _ _ h.transmitter
  · simp only [handleGetPath, set]
    rw [refused_eq _ _ _ _ h]

/-! ### CLEAR_PATH (R21) -/

/-- R21: a cleared record, field by field. -/
theorem cleared_eq (r : PathRecord) :
    r.cleared =
      { r with
        tripCount := 0
        effSlew := r.settings.slew
        state := if r.state = .tripped ∨ r.state = .lockedOut then .opened else r.state
        retry := if r.state = .tripped ∨ r.state = .lockedOut then none else r.retry } := by
  unfold PathRecord.cleared
  cases r.state <;> simp

theorem clearPath_handled (tag : Byte) {p : List Byte} {s : State} (h : Ready s) (len : p.length = 1) :
    exec (.clearPath tag p) s = .next (arbitrate (handleClearPath tag p (heard s))) :=
  exec_ready .clearPath tag p s h (by simp [lengthAllowed, len, Config.maxPayload])

/-- Settles O20. -/
theorem clearPathOpensAndClears : Obligations.ClearPathOpensAndClears := by
  intro tag p s h len
  rw [clearPath_handled tag h len]
  refine ⟨fun m set => ?_, fun set => ?_⟩
  · have path := onMembers_path m (fun _ r => r.cleared) (heard s)
    have frame := onMembers_frame m (fun _ r => r.cleared) (heard s)
    generalize hu : onMembers m (changePath fun _ r => r.cleared) (heard s) = u at path frame
    have handled : handleClearPath tag p (heard s) =
        answer tag .clearPath .ok (pathBytes (settle false u) (lowestSource m)) (settle false u) := by
      simp only [handleClearPath, set]
      rw [← hu]
      rfl
    rw [handled]
    refine ⟨u, _, rfl, examined_pathReply _ _ _ _ h (by rw [frame]), frame, fun q => ⟨fun out => ?_, fun member => ?_⟩⟩
    · rw [path, out]; rfl
    · rw [path, if_pos member, cleared_eq]; rfl
  · simp only [handleClearPath, set]
    rw [refused_eq _ _ _ _ h]

/-! ### SET_SUPPLY (R24, R36) -/

/-- R36: a change of mode or order restarts the preemption timers. -/
theorem supplyStored_eq (c : Spc) (a : SupplySettings) :
    c.stored a.clamped =
      { c with
        settings := a.clamped
        preempt := if a.mode = c.settings.mode ∧ a.order = c.settings.order then c.preempt else ⟨none, none, none⟩ } := by
  have mode : a.clamped.mode = a.mode := rfl
  have order : a.clamped.order = a.order := rfl
  unfold Spc.stored
  rw [mode, order]
  by_cases same : a.mode = c.settings.mode ∧ a.order = c.settings.order
  · simp [same]
  · rw [if_neg same, if_pos (by rwa [ne_eq, ne_eq, ← not_and_or])]

theorem preempt_restarted (keep : Prop) [Decidable keep] (t : PerSource (Option Nat)) (q : Source) :
    ((if keep then t else ⟨none, none, none⟩).get q).getD 0 = if keep then (t.get q).getD 0 else 0 := by
  split <;> cases q <;> rfl

theorem okOr_eq (a : SupplySettings) : okOr (a.clamped != a) = if a.clamped = a then .ok else .adjusted := by
  unfold okOr
  by_cases same : a.clamped = a <;> simp [same]

theorem setSupply_handled (tag : Byte) {p : List Byte} {s : State} (h : Ready s) (len : p.length = 27) :
    exec (.setSupply tag p) s = .next (arbitrate (handleSetSupply tag p (heard s))) :=
  exec_ready .setSupply tag p s h (by simp [lengthAllowed, len, Config.maxPayload])

/-- R24: what a legal SET_SUPPLY leaves. -/
theorem setSupply_stores (tag : Byte) {p : List Byte} {s : State} {a : SupplySettings} (h : Ready s)
    (args : supplyArgs p = some a) :
    Examined
      (replied { heard s with spc := s.spc.stored a.clamped }
        (replyOf .setSupply tag (if a.clamped = a then .ok else .adjusted) (supplySettingsBytes a.clamped)))
      (arbitrate (handleSetSupply tag p (heard s))) := by
  have settings : (settle false { heard s with spc := s.spc.stored a.clamped }).spc.settings = a.clamped :=
    (calm_settle _).settings
  have handled : handleSetSupply tag p (heard s) =
      answer tag .setSupply (if a.clamped = a then .ok else .adjusted) (supplySettingsBytes a.clamped)
        (settle false { heard s with spc := s.spc.stored a.clamped }) := by
    simp only [handleSetSupply, args]
    rw [okOr_eq]
    congr 1
    exact congrArg supplySettingsBytes settings
  rw [handled]
  exact examined_answered _ _ _ _ _ h.transmitter

theorem replied_spc (s : State) (r : Reply) : (replied s r).spc = s.spc := by
  unfold replied
  split <;> rfl

/-- Settles O21: the settings and the low state are outside what an examination changes, and it says what the timers do. -/
theorem setSupplyStores : Obligations.SetSupplyStores := by
  intro tag p s h len
  rw [setSupply_handled tag h len]
  obtain ⟨empty, hotHeld, only⟩ := heldCondition_spec s
  refine ⟨fun a args => ?_, fun args => ?_, empty, hotHeld, only, hot_spec s⟩
  · have examined := setSupply_stores tag h args
    rw [supplyStored_eq] at examined
    refine ⟨_, rfl, examined, ?_, ?_, fun q => ?_⟩
    · rw [examined.supply, replied_spc]
    · rw [examined.supply, replied_spc]
    · rw [examined.timers, replied_spc]
      simp only [preempt_restarted]
  · simp only [handleSetSupply, args]
    rw [refused_eq _ _ _ _ h]

end Sys2Proof.SourcePaths

/-! ## Thermistor conversions and stale channels (O44) -/

namespace Sys2Proof.SourcePaths

open Sys2Proof.Machine Sys2Proof.Safety

/-- R176: what the transmitter's choice may change. -/
theorem arbitrated_frame (s : State) :
    arbitrated s =
      { s.slu with tx := (arbitrated s).tx, fifo := (arbitrated s).fifo, outbox := (arbitrated s).outbox } := by
  unfold arbitrated noticeSent
  repeat' split
  all_goals rfl

theorem senseFrame_arbitrate {s t : State} (h : SenseFrame s t) : SenseFrame s (arbitrate t) :=
  { h with
    queue := by rw [arbitrate_slu, arbitrated_frame]; exact h.queue
    platform := by rw [arbitrate_slu, arbitrated_frame]; exact h.platform }

/-! ### Conversions (R64, R65, R70) -/

/-- A channel of a thermistor that is being converted, its conversion not to be discarded. -/
def ConvertsThermistor (c : Channel) (s : State) : Prop :=
  s.scv.activity = .oneShot c ∨ (∃ i, s.scv.activity = .walk i c) ∧ s.scv.enable.get c = true

theorem converting_of_channel {s : State} {c : Channel} {light : Bool} (h : s.scv.activity.channel = some c)
    (kind : isLight c = light) : converting s light = some c := by
  simp [converting, h, kind]

theorem ConvertsThermistor.converting {c : Channel} {s : State} (h : ConvertsThermistor c s) (kind : isLight c = false) :
    converting s false = some c := by
  refine converting_of_channel ?_ kind
  rcases h with h | ⟨⟨i, h⟩, _⟩ <;> rw [h] <;> rfl

theorem isLight_thermistor {c : Channel} (h : c = .thBayA ∨ c = .thBayB ∨ c = .thPanel) : isLight c = false := by
  rcases h with rfl | rfl | rfl <;> rfl

/-- R70: the end of a thermistor conversion, with a count that the 40 ms limit allows. -/
theorem exec_thermistorConversionEnd {c : Channel} {s : State} {n : Nat} (h : converting s false = some c)
    (le : n ≤ 40000) :
    exec (.thermistorConversionEnd n) s =
      .next
        (arbitrate
          (conversionEnd c (decide (160 ≤ n)) ((s.scv.records.get c).thermistorResult n s.scv.table) s)) := by
  have count : min Config.periodCountLimit n = n := Nat.min_eq_right le
  show execThermistorConversionEnd n s = _
  simp only [execThermistorConversionEnd, h, count]
  rfl

theorem exec_thermistorTimeout {c : Channel} {s : State} (h : converting s false = some c) :
    exec .thermistorTimeout s = .next (arbitrate (conversionEnd c false (s.scv.records.get c).timeoutResult s)) := by
  show execThermistorTimeout s = _
  simp only [execThermistorTimeout, h]

/-- R76: the end of a WALK conversion whose channel is disabled starts the next conversion alone. -/
theorem conversionEnd_discarded {c : Channel} {s : State} {i : Nat} (stored : Bool) (r : ChannelRecord)
    (walk : s.scv.activity = .walk i c) (disabled : s.scv.enable.get c = false) :
    conversionEnd c stored r s = startNextConversion s := by
  simp [conversionEnd, discards, finishOneShot, walk, disabled]

theorem conversions_end (n : Nat) (c : Channel) (s : State) (thermistor : c = .thBayA ∨ c = .thBayB ∨ c = .thPanel)
    (h : ConvertsThermistor c s) :
    (160 ≤ n → n ≤ 40000 → ∃ t, exec (.thermistorConversionEnd n) s = .next t ∧
      ConversionTaken c
        { s.scv.records.get c with
          fault := .none, raw := n, value := thermistorAt s.scv.table n, valid := true, age := 0, stale := false } s t) ∧
    (n < 160 → ∃ t, exec (.thermistorConversionEnd n) s = .next t ∧
      ConversionTaken c { s.scv.records.get c with fault := .short, raw := n } s t) ∧
    (∃ t, exec .thermistorTimeout s = .next t ∧
      ConversionTaken c { s.scv.records.get c with fault := .openCircuit, raw := 0 } s t) := by
  have on := h.converting (isLight_thermistor thermistor)
  refine ⟨fun long le => ?_, fun short => ?_, ?_⟩
  · rw [exec_thermistorConversionEnd on le, ChannelRecord.thermistorResult,
      if_neg (show ¬n < Config.shortCount from Nat.not_lt.mpr long)]
    exact ⟨_, rfl, conversionTaken c thermistor _ _ s h (.inl rfl)⟩
  · rw [exec_thermistorConversionEnd on (by omega), ChannelRecord.thermistorResult, if_pos (show n < Config.shortCount from short)]
    exact ⟨_, rfl, conversionTaken c thermistor _ _ s h (.inr (.inl rfl))⟩
  · rw [exec_thermistorTimeout on]
    exact ⟨_, rfl, conversionTaken c thermistor _ _ s h (.inr (.inr rfl))⟩

theorem discarded_end (n : Nat) (c : Channel) (s : State) (thermistor : c = .thBayA ∨ c = .thBayB ∨ c = .thPanel) (i : Nat)
    (walk : s.scv.activity = .walk i c) (disabled : s.scv.enable.get c = false) :
    ∃ t, exec (.thermistorConversionEnd n) s = .next t ∧ SenseFrame s t ∧ t.scv = s.scv.startNext s.slu.platform ∧
      t.spc = s.spc ∧ t.bre = s.bre ∧ t.lmd = s.lmd := by
  have on : converting s false = some c := converting_of_channel (by rw [walk]; rfl) (isLight_thermistor thermistor)
  refine ⟨arbitrate (startNextConversion s), ?_, senseFrame_arbitrate ?_, rfl, rfl, rfl, rfl⟩
  · show execThermistorConversionEnd n s = _
    simp only [execThermistorConversionEnd, on, conversionEnd_discarded _ _ walk disabled]
  · exact ⟨rfl, rfl, rfl, rfl, rfl, rfl, rfl, rfl, rfl⟩

/-! ### Staleness (R66, R79, R83) -/

/-- What the publication of a stale record leaves alone, before the transmitter's choice. -/
structure PublicationFrame (v t : State) : Prop where
  frame : SenseFrame v t
  sense : t.scv = v.scv
  tx : t.slu.tx = v.slu.tx
  notice : t.slu.outbox.senseFault = v.slu.outbox.senseFault

theorem withBre_lampSettings (s : State) (e : Bre) : (s.withBre e).lmd.settings = s.lmd.settings := by
  simp only [State.withBre]
  split
  · rfl
  · rw [published_frame]

theorem publicationFrame_settle (v : State) : PublicationFrame v (settle false v) := by
  have c := calm_settle v
  exact
    { frame :=
        { latches := c.ltc
          port := by rw [c.rest]
          detector := by rw [c.rest]
          pending := by rw [c.rest]
          supply := c.settings
          brightness := by rw [c.caps.bre]
          lamp := by rw [c.caps.lmd]
          queue := by rw [c.link]
          platform := by rw [c.link] }
      sense := c.scv
      tx := by rw [c.link]
      notice := c.kinds .senseFault (by decide) (by decide) }

theorem publicationFrame_brePanel (v : State) : PublicationFrame v (brePanel v) :=
  ⟨⟨rfl, rfl, rfl, rfl, rfl, rfl, withBre_lampSettings _ _, rfl, rfl⟩, rfl, rfl, rfl⟩

theorem noteUnknown_settings (e : Bre) : e.noteUnknown.settings = e.settings := by
  unfold Bre.noteUnknown
  split <;> rfl

theorem publicationFrame_breLightStale (c : Channel) (v : State) : PublicationFrame v (breLightStale c v) := by
  refine ⟨⟨rfl, rfl, rfl, rfl, rfl, ?_, rfl, rfl, rfl⟩, rfl, rfl, rfl⟩
  show (v.bre.setUsable c false).noteUnknown.settings = _
  rw [noteUnknown_settings]
  cases c <;> rfl

theorem publicationFrame_publishStale (c : Channel) (v : State) : PublicationFrame v (publishStale c v) := by
  cases c with
  | alsFront => exact publicationFrame_breLightStale _ v
  | alsRear => exact publicationFrame_breLightStale _ v
  | thBayA => exact publicationFrame_settle v
  | thBayB => exact publicationFrame_settle v
  | thPanel => exact publicationFrame_brePanel v

/-- R66, R79: the state of which a stale channel's reader is told: the record has its flag set, and SENSE_FAULT is raised. -/
def staleState (c : Channel) (s : State) : State :=
  raise .senseFault (s.setChannel c (s.scv.records.get c).staled)

theorem exec_channelStale {c : Channel} {s : State} (valid : (s.scv.records.get c).valid = true)
    (fresh : (s.scv.records.get c).stale = false) :
    exec (.channelStale c) s = .next (arbitrate (publishStale c (staleState c s))) :=
  if_pos ⟨valid, fresh⟩

theorem senseFrame_stale (c : Channel) (s : State) : SenseFrame s (arbitrate (publishStale c (staleState c s))) := by
  have f := (publicationFrame_publishStale c (staleState c s)).frame
  exact senseFrame_arbitrate
    ⟨f.latches, f.port, f.detector, f.pending, f.supply, f.brightness, f.lamp,
      f.queue.trans (raised_queue .senseFault s.slu), f.platform.trans (raised_platform .senseFault s.slu)⟩

theorem senseRaises_stale (c : Channel) (s : State) : SenseRaises true s (arbitrate (publishStale c (staleState c s))) := by
  intro busy mask
  have f := publicationFrame_publishStale c (staleState c s)
  have tx : (staleState c s).slu.tx = s.slu.tx := raised_tx .senseFault s.slu
  rw [arbitrate_busy (by rw [f.tx, tx]; exact busy), f.notice]
  exact raised_senseFault s.slu mask

/-- R86, R88: a light channel that becomes stale. -/
theorem lightStale_bre (e : Bre) :
    (e.setUsable .alsFront false).noteUnknown =
        { e with frontUsable := false, ambientUnknown := e.ambientUnknown || !e.rearUsable } ∧
      (e.setUsable .alsRear false).noteUnknown =
        { e with rearUsable := false, ambientUnknown := e.ambientUnknown || !e.frontUsable } := by
  constructor
  · cases h : e.rearUsable <;> simp [Bre.setUsable, Bre.noteUnknown, h]
  · cases h : e.frontUsable <;> simp [Bre.setUsable, Bre.noteUnknown, h]

/-- R99 to R101: the BRE takes a record of TH_PANEL that has been stored. -/
theorem panelTaken_brePanel {s v : State} (r : ChannelRecord) (record : v.scv.records.thPanel = r) (supply : v.spc = s.spc)
    (bre : v.bre = s.bre) : PanelTaken r s (arbitrate (brePanel v)) := by
  have temp : panelTemp v = if r.valid && !r.stale then some r.value else none := by
    unfold panelTemp knownValue
    rw [record]
  refine ⟨supply, ?_, ?_, ?_, ?_⟩
  · show (panelTemp v).isSome = _
    rw [temp]
    split <;> simp_all
  · show thermalCapOf v.bre.settings (panelTemp v) = _
    rw [temp, bre]
  · rw [← bre]
    rfl
  · rw [← bre]
    rfl

/-- R3: a stale temperature is not known. -/
theorem bayTemp_stale {t : State} {bay : Bay}
    (stale : (t.scv.records.get (if bay = .a then .thBayA else .thBayB)).stale = true) : bayTemp t bay = none := by
  rw [bayTemp_eq]
  exact knownValue_unknown (.inr stale)

theorem bayStale {c : Channel} {s : State} {bay : Bay} (h : (if bay = .a then Channel.thBayA else .thBayB) = c) :
    let t := arbitrate (publishStale c (staleState c s))
    BayTempTaken c (s.setChannel c (s.scv.records.get c).staled) t ∧ hot t (baySource bay) = false ∧
      ((s.path (baySource bay)).settings.derating = true → derating t (baySource bay) = 3) := by
  intro t
  have published : t = arbitrate (settle false (staleState c s)) := by
    subst h
    cases bay <;> rfl
  have sense : t.scv = (s.setChannel c (s.scv.records.get c).staled).scv :=
    (publicationFrame_publishStale c (staleState c s)).sense
  have unknown : bayTemp t bay = none := bayTemp_stale (by rw [h, sense]; simp [ChannelRecord.staled])
  refine ⟨?_, ?_, fun on => ?_⟩
  · exact bayTempTaken_settle c _ _ (s.slu.raised .senseFault) rfl t (by rw [published]; rfl) (by rw [published]; rfl)
      (by rw [sense])
  · simp [hot, unknown]
  · have settings : (t.path (baySource bay)).settings = (s.path (baySource bay)).settings := by
      rw [published]
      exact ((calm_settle (staleState c s)).path (baySource bay)).settings
    rw [derating_bay, settings, on, unknown]
    rfl

/-- Settles O44: the ends of a conversion, the staleness of each reader's channel, and the table's lines. -/
theorem thermistorEndsAndStaleness : Obligations.ThermistorEndsAndStaleness := by
  intro n c s
  refine ⟨fun thermistor => ⟨conversions_end n c s thermistor, fun i => discarded_end n c s thermistor i⟩,
    fun valid fresh => ?_, fun pts ordered => thermistorAt_spec pts n ordered⟩
  refine ⟨_, exec_channelStale valid fresh, senseFrame_stale c s, ?_, senseRaises_stale c s, ?_, ?_, ?_, fun bay h => bayStale h⟩
  · exact (publicationFrame_publishStale c (staleState c s)).sense
  · rintro rfl
    exact ⟨(lightStale_bre s.bre).1, rfl⟩
  · rintro rfl
    exact ⟨(lightStale_bre s.bre).2, rfl⟩
  · rintro rfl
    have taken := panelTaken_brePanel (s := s) (v := staleState .thPanel s) (s.scv.records.get .thPanel).staled rfl rfl rfl
    refine ⟨taken, taken.thermal.trans ?_⟩
    simp [ChannelRecord.staled, thermalCapOf]

end Sys2Proof.SourcePaths

/-! ## What a monitor sample stores and leaves alone (O24) -/

namespace Sys2Proof.SourcePaths

open Sys2Proof.Machine Sys2Proof.Safety

/-! ### The readings and the settings across the protection (R1) -/

/-- A path record whose readings and settings stay. -/
structure SameReading (r t : PathRecord) : Prop where
  voltage : t.voltage = r.voltage
  current : t.current = r.current
  sampleUptime : t.sampleUptime = r.sampleUptime
  settings : t.settings = r.settings

theorem SameReading.refl (r : PathRecord) : SameReading r r := ⟨rfl, rfl, rfl, rfl⟩

theorem SameReading.trans {r t u : PathRecord} (h : SameReading r t) (g : SameReading t u) : SameReading r u :=
  ⟨g.1.trans h.1, g.2.trans h.2, g.3.trans h.3, g.4.trans h.4⟩

/-- What the operations of a sample after its measurements leave alone: the blocks outside the supply, the latches and the light
side, the receiver, the queue and the masks, the readings and every setting. -/
structure Guarded (s t : State) : Prop where
  rest : t = { s with slu := t.slu, spc := t.spc, ltc := t.ltc, bre := t.bre, lmd := t.lmd }
  link : t.slu =
    { s.slu with
      tx := t.slu.tx, fifo := t.slu.fifo, outbox := t.slu.outbox, wake := t.slu.wake, owedSelect := t.slu.owedSelect
      owedRelease := t.slu.owedRelease }
  armed : t.ltc.armed = s.ltc.armed
  busVoltage : t.spc.busVoltage = s.spc.busVoltage
  settings : t.spc.settings = s.spc.settings
  startUp : t.spc.startUp = s.spc.startUp
  caps : CapFrame s t
  path : ∀ p, SameReading (s.path p) (t.path p)

theorem Guarded.refl (s : State) : Guarded s s :=
  ⟨rfl, rfl, rfl, rfl, rfl, rfl, capFrame_refl s, fun _ => .refl _⟩

theorem Guarded.trans {s t u : State} (h : Guarded s t) (g : Guarded t u) : Guarded s u where
  rest := g.rest.trans (by rw [h.rest])
  link := g.link.trans (by rw [h.link])
  armed := g.armed.trans h.armed
  busVoltage := g.busVoltage.trans h.busVoltage
  settings := g.settings.trans h.settings
  startUp := g.startUp.trans h.startUp
  caps := capFrame_trans h.caps g.caps
  path := fun p => (h.path p).trans (g.path p)

/-- The switchover logic, the latches and the examination of the triggers. -/
theorem guarded_reported {s t : State} (h : Reported s t) : Guarded s t where
  rest := h.rest
  link := by
    have tx : t.slu.tx = s.slu.tx := by rw [h.link]
    rw [tx]
    exact h.link
  armed := by rw [h.latches]
  busVoltage := by rw [h.supply]
  settings := by rw [h.supply]
  startUp := by rw [h.supply]
  caps := h.caps
  path := fun p => ⟨(h.path p).voltage, (h.path p).current, (h.path p).sampleUptime, (h.path p).settings⟩

theorem guarded_setPath {s : State} {p : Source} {r : PathRecord} (h : SameReading (s.path p) r) :
    Guarded s (s.setPath p r) := by
  refine ⟨rfl, rfl, rfl, rfl, rfl, rfl, ⟨rfl, rfl⟩, fun q => ?_⟩
  rw [setPath_path]
  split
  · rename_i same
    exact same ▸ h
  · exact .refl _

theorem guarded_raise (k : NoticeKind) (s : State) : Guarded s (raise k s) :=
  ⟨rfl, by rw [raise_slu, raised_link], rfl, rfl, rfl, rfl,
    ⟨rfl, rfl⟩, fun _ => .refl _⟩

theorem guarded_raiseIf (b : Bool) (k : NoticeKind) (s : State) : Guarded s (raiseIf b k s) := by
  cases b
  · exact .refl s
  · exact guarded_raise k s

theorem guarded_trip (p : Source) (cause : FaultCause) (s : State) : Guarded s (trip p cause s) :=
  have kept : SameReading (s.path p) ((s.path p).tripNow cause (threshold s p) (derating s p) s.slu.uptime) :=
    ⟨rfl, rfl, rfl, rfl⟩
  (guarded_setPath kept).trans (guarded_raise .pathFault _)

theorem guarded_tripAndReport (p : Source) (cause : FaultCause) (s : State) : Guarded s (tripAndReport p cause s) :=
  (guarded_trip p cause s).trans (guarded_reported (reported_pathDown _ _ _))

theorem guarded_openAndReport (p : Source) (d : DownReport) (s : State) : Guarded s (openAndReport p d s) :=
  guarded_reported (reported_openAndReport p d s)

theorem guarded_overStep (p : Source) (s : State) : Guarded s (overStep p s) := by
  unfold overStep
  dsimp only
  split
  · split
    · exact guarded_setPath ⟨rfl, rfl, rfl, rfl⟩
    · exact guarded_tripAndReport _ _ _
  · exact guarded_setPath ⟨rfl, rfl, rfl, rfl⟩

theorem guarded_protect (p : Source) (s : State) : Guarded s (protect p s) := by
  unfold protect
  split
  case h_1 =>
    split
    · exact guarded_openAndReport _ _ _
    · split
      · exact guarded_tripAndReport _ _ _
      · exact .refl s
  case h_2 =>
    split
    · exact guarded_openAndReport _ _ _
    · split
      · exact guarded_tripAndReport _ _ _
      · exact guarded_overStep _ _
  all_goals exact .refl s

theorem guarded_holdDropout (s : State) : Guarded s (holdDropout s) := by
  unfold holdDropout
  split
  · exact guarded_openAndReport _ _ _
  · exact .refl s

theorem guarded_lossStep (s : State) : Guarded s (lossStep s) := by
  unfold lossStep
  split
  · exact guarded_openAndReport _ _ _
  · split
    · exact ⟨rfl, rfl, rfl, rfl, rfl, rfl, ⟨rfl, rfl⟩, fun _ => .refl _⟩
    · exact .refl s

theorem guarded_busLowStep (s : State) : Guarded s (busLowStep s) := by
  refine Guarded.trans ?_ (guarded_raiseIf _ _ _)
  rw [busLowCounters_frame]
  exact ⟨rfl, rfl, rfl, rfl, rfl, rfl, ⟨rfl, rfl⟩, fun _ => .refl _⟩

theorem guarded_removeBattery (was : Bool) (bay : Bay) (s : State) : Guarded s (removeBattery was bay s) := by
  unfold removeBattery
  split
  · exact guarded_reported (kept_endWindow _ _ _).toReported
  · exact .refl s

theorem guarded_sampledPaths (r : Readings) (s : State) : Guarded (sampled r s) (sampledPaths r s) :=
  (((((guarded_removeBattery _ _ _).trans (guarded_removeBattery _ _ _)).trans (guarded_protect _ _)).trans
    (guarded_protect _ _)).trans (guarded_protect _ _)).trans (guarded_holdDropout _)

theorem guarded_monitorSample (r : Readings) (s : State) : Guarded (sampled r s) (monitorSample r s) :=
  (((guarded_sampledPaths r s).trans (guarded_lossStep _)).trans (guarded_busLowStep _)).trans
    (guarded_reported (kept_settle _ _).toReported)

theorem guarded_arbitrate (s : State) : Guarded s (arbitrate s) := by
  refine ⟨rfl, ?_, rfl, rfl, rfl, rfl, ⟨rfl, rfl⟩, fun _ => .refl _⟩
  rw [arbitrate_slu, arbitrated_frame]

/-- R1: the end of a sample, from its measurements on. -/
theorem guarded_sampleEnd (r : Readings) (s : State) : Guarded (sampled r s) (arbitrate (monitorSample r s)) :=
  (guarded_monitorSample r s).trans (guarded_arbitrate _)

/-! ### What the sample itself stores (R1, R180) -/

theorem tick_uptime (s : State) : (tick s).slu.uptime = nextUptime s := by
  by_cases ms : 10 ≤ s.slu.subMs + 1 <;> simp [tick, msTick, nextUptime, Config.samplesPerMs, ms]

/-- R1: the blocks that a sample's time and measurements do not touch. -/
theorem sampled_rest (r : Readings) (s : State) :
    (sampled r s).ltc.armed = s.ltc.armed ∧ (sampled r s).pending = s.pending ∧
      (sampled r s).slu.uptime = nextUptime s := by
  have bays : ∀ v : State, (bayConditions .b (bayConditions .a v)).ltc = v.ltc ∧
      (bayConditions .b (bayConditions .a v)).pending = v.pending ∧
      (bayConditions .b (bayConditions .a v)).slu = v.slu := fun v => by
    rw [bayConditions_frame, bayConditions_frame .a]
    exact ⟨rfl, rfl, rfl⟩
  obtain ⟨ltc, pending, slu⟩ := bays (measure r (tick s))
  refine ⟨?_, pending.trans ?_, ?_⟩
  · show (sampled r s).ltc.armed = _
    unfold sampled
    rw [ltc]
    show (tick s).ltc.armed = _
    unfold tick msTick
    dsimp only
    split <;> rfl
  · show (tick s).pending = _
    rw [tick_frame]
  · unfold sampled
    rw [slu]
    exact tick_uptime s

/-- R1, R4, R18: of a path record a sample's time and measurements change the readings, EMPTY and its timer, and the closed
time. -/
theorem sampled_path (r : Readings) (s : State) (p : Source) :
    (sampled r s).path p =
      { s.path p with
        voltage := min 65535 (volts r p), current := max (-32768) (min 32767 (amps r p)), sampleUptime := nextUptime s
        isEmpty := ((sampled r s).path p).isEmpty, emptyTimer := ((sampled r s).path p).emptyTimer
        closedTime := ((sampled r s).path p).closedTime } := by
  have empties : ∀ (x : PathRecord) b mv,
      x.emptyStep b mv =
        { x with isEmpty := (x.emptyStep b mv).isEmpty, emptyTimer := (x.emptyStep b mv).emptyTimer } := by
    intro x b mv
    unfold PathRecord.emptyStep
    split <;> rfl
  have measured := measured_path r s p
  rw [tick_uptime] at measured
  unfold sampled
  simp only [bayConditions_path]
  cases p with
  | dcIn =>
    rw [if_neg (by decide), if_neg (by decide), measured]
    rfl
  | bayA =>
    rw [if_neg (by decide), if_pos (show Source.bayA = baySource .a from rfl), empties, measured]
    rfl
  | bayB =>
    rw [if_pos (show Source.bayB = baySource .b from rfl), if_neg (by decide), empties, measured]
    rfl

/-! ### The whole sample -/

/-- R17: an open order to a path whose gate is driven opens it. -/
theorem openOrdered_driven {s : State} {p : Source} (on : gateDriven s p = true) :
    (s.path p).openOrdered.state = .opened := by
  unfold PathRecord.openOrdered
  unfold gateDriven at on
  cases state : (s.path p).state with
  | closing | closed => rfl
  | opened | tripped | lockedOut => simp [state] at on

/-- R2: DC_IN at 22,000 mV or more while its gate is driven opens without a trip. -/
theorem overvolt_opens (r : Readings) (s : State) (on : gateDriven s .dcIn = true) (high : 22000 ≤ r.vDc) :
    let t := arbitrate (monitorSample r s)
    (t.path .dcIn).state = .opened ∧ gateDrive t .dcIn = .off ∧ (t.path .dcIn).tripCount = (s.path .dcIn).tripCount ∧
      (t.path .dcIn).fault = (s.path .dcIn).fault := by
  intro t
  have path : t.path .dcIn = ((sampled r s).path .dcIn).openOrdered := overvolt_monitorSample r s on high
  have kept := samePath_open ((sampled r s).path .dcIn)
  have opened : (t.path .dcIn).state = .opened := by
    rw [path]
    exact openOrdered_driven ((gateDriven_eq ((stored_sampled r s).state .dcIn)).trans on)
  refine ⟨opened, by simp [gateDrive, opened], ?_, ?_⟩
  · rw [path, kept.tripCount, sampled_path]
  · rw [path, kept.fault, sampled_path]

/-- Settles O24: what the sample stores first, and what the rest of it leaves of that. -/
theorem sampleStoresMeasurements : Obligations.SampleStoresMeasurements := by
  intro r s
  have g := guarded_sampleEnd r s
  have st := stored_sampled r s
  obtain ⟨armed, pending, uptime⟩ := sampled_rest r s
  obtain ⟨bre, lmd, mpt, ddt⟩ := st.rest
  have scv : (arbitrate (monitorSample r s)).scv = (sampled r s).scv := by rw [g.rest]
  refine ⟨arbitrate (monitorSample r s), rfl, ?_, fun p => ⟨?_, ?_, ?_, ?_⟩, ?_, ?_, ?_, ?_, ?_, ?_, ?_, ?_, ?_, ?_, ?_, ?_,
    ?_, ?_, ?_, fun c => ?_, ?_, situationOk_arbitrate _ (situationOk_settle _ _), sampledTimes_monitorSample r s, sampledBay_monitorSample r s,
    preempt_monitorSample r s, overvolt_opens r s, overvolt_feeding r s⟩
  · rw [g.link, uptime]
  · rw [(g.path p).voltage, st.voltage]
  · rw [(g.path p).current, st.current]
  · rw [(g.path p).sampleUptime, sampled_path]
  · rw [(g.path p).settings, st.pathSettings]
  · rw [g.busVoltage, st.bus]
  · rw [g.settings, st.supply]
  · rw [g.startUp, st.supply]
  · rw [g.rest]
    exact mpt
  · rw [g.rest]
    exact ddt
  · rw [g.rest]
    exact pending
  · rw [g.armed, armed]
  · rw [g.link, st.link]
  · rw [g.link, st.link]
  · rw [g.link, st.link]
  · rw [g.link, st.link]
  · rw [g.link, st.link]
  · rw [g.link, st.link]
  · rw [g.link, st.link]
  · rw [scv]
    exact st.sense
  · rw [scv]
    exact st.record c
  · have caps := g.caps
    exact ⟨bre ▸ caps.bre, lmd ▸ caps.lmd⟩

end Sys2Proof.SourcePaths

/-! ## A monitor sample and the feeding path (O26) -/

namespace Sys2Proof.SourcePaths

open Sys2Proof.Machine Sys2Proof.Safety

/-! ### The paths across an examination (R27, R32) -/

/-- What an examination does to the supply: with a switchover in flight nothing; otherwise it may start one from the feeding
source, which orders the close of one path and the opening of another, and is then in flight. -/
structure StartsOnce (s t : State) : Prop where
  flight : inFlight s = true → Same s t
  feeding : t.spc.feeding = s.spc.feeding
  path : ∀ p, t.path p = s.path p ∨
    inFlight t = true ∧ t.spc.sw.fromSrc = s.spc.feeding ∧
      (t.path p = (s.path p).closeOrdered ∨ t.path p = (s.path p).openOrdered)

theorem startsOnce_same {s t : State} (h : Same s t) : StartsOnce s t :=
  ⟨fun _ => h, h.feeding, fun p => .inl (h.path p)⟩

theorem StartsOnce.trans {s t u : State} (h : StartsOnce s t) (g : StartsOnce t u) : StartsOnce s u := by
  refine ⟨fun flight => ?_, g.feeding.trans h.feeding, fun p => ?_⟩
  · have same := h.flight flight
    exact same.trans (g.flight (same.inFlight.trans flight))
  · rcases h.path p with same | ⟨flight, ordered⟩
    · rw [← same, ← h.feeding]
      exact g.path p
    · have kept := g.flight flight
      rw [kept.path, kept.inFlight, kept.sw]
      exact .inr ⟨flight, ordered⟩

theorem startsOnce_atMostOne {s t : State} (feeding : t.spc.feeding = s.spc.feeding) (h : AtMostOne s t) :
    StartsOnce s t := by
  rcases h with h | h
  · exact startsOnce_same h
  · refine ⟨fun f => absurd f (by simp [h.before]), feeding, fun p => ?_⟩
    rcases h.path p with same | ⟨_, closed⟩ | ⟨_, opened⟩
    exacts [.inl same, .inr ⟨h.after, h.fromSrc, .inl closed⟩, .inr ⟨h.after, h.fromSrc, .inr opened⟩]

/-- R29 to R31: the first orders of a start. -/
theorem startsOnce_start (reason : SwReason) (t : Source) (tried : List Source) {s : State} (idle : inFlight s = false) :
    StartsOnce s (startSwitchover reason s.spc.feeding t tried s) := by
  have sw := (canStart_false_of_started reason s.spc.feeding t tried s).1
  have flight : inFlight (startSwitchover reason s.spc.feeding t tried s) = true := by
    rw [inFlight_iff, sw]
    exact startPhase_ne_idle _ _
  have from_ : (startSwitchover reason s.spc.feeding t tried s).spc.sw.fromSrc = s.spc.feeding := by rw [sw]
  refine ⟨fun f => absurd f (by simp [idle]), (calm_startSwitchover reason _ t tried s).feeding, fun p => ?_⟩
  rcases startSwitchover_path reason s.spc.feeding t tried s p with same | ⟨_, closed⟩ | ⟨_, opened⟩
  exacts [.inl same, .inr ⟨flight, from_, .inl closed⟩, .inr ⟨flight, from_, .inr opened⟩]

theorem startsOnce_askRelease (bay : Bay) (s : State) : StartsOnce s (askRelease bay s) := by
  cases flight : inFlight s with
  | true =>
    rw [askRelease_wait bay flight]
    exact startsOnce_same (same_setLatch s bay _)
  | false =>
    by_cases feeds : s.spc.feeding = some (baySource bay)
    · obtain ⟨starts, refuses⟩ := askRelease_feeds flight feeds
      cases target : chooseTarget s s.spc.feeding [] with
      | some t =>
        rw [starts t target]
        exact (startsOnce_start _ _ _ flight).trans (startsOnce_same (same_setLatch _ bay _))
      | none =>
        rw [refuses target]
        exact startsOnce_same (same_refuseBay bay s)
    · rw [askRelease_moved flight feeds]
      exact startsOnce_same (same_grantBay bay s)

theorem startsOnce_evaluate (bay : Bay) (s : State) : StartsOnce s (evaluate bay s) := by
  have pend : ∀ cause, StartsOnce s (pendFor bay cause s) := fun _ => startsOnce_same (same_setLatch s bay _)
  unfold evaluate
  split
  · exact pend _
  · split
    · exact pend _
    · split
      · exact pend _
      · exact startsOnce_askRelease bay s

theorem startsOnce_evaluateDue (bay : Bay) (s : State) : StartsOnce s (evaluateDue bay s) := by
  unfold evaluateDue
  split
  · exact startsOnce_evaluate bay s
  · exact startsOnce_same (Same.refl s)

/-- R32: the examination that ends an event. -/
theorem startsOnce_settle (b : Bool) (s : State) : StartsOnce s (settle b s) := by
  cases b with
  | false => exact startsOnce_atMostOne (kept_settle false s).feeding (atMostOne_settle s)
  | true =>
    rw [settle_true]
    have held := startsOnce_atMostOne (calm_examineHeld s).feeding (atMostOne_examineHeld s)
    have last := fun v => startsOnce_atMostOne (calm_afterReleases v).feeding (atMostOne_afterReleases v)
    exact ((held.trans (startsOnce_evaluateDue _ _)).trans (startsOnce_evaluateDue _ _)).trans (last _)

/-- R32, step 4: a RELEASE ask is evaluated, and every other starter leaves the supply. -/
theorem startsOnce_answerStarter (reason : SwReason) (f : Option Source) (o : SwOutcome) (fail : FailReason) (s : State) :
    StartsOnce s (answerStarter reason f o fail s) := by
  unfold answerStarter
  split
  case h_1 => split <;> exact startsOnce_same (same_spc (answerSelect_spc _ _ s).1)
  case h_2 =>
    split
    · unfold answerAsk
      split
      · split
        · exact startsOnce_evaluate _ _
        · exact startsOnce_same (same_refuseBay _ _)
      · exact startsOnce_same (Same.refl s)
    · exact startsOnce_same (Same.refl s)
  all_goals exact startsOnce_same (Same.refl s)

theorem startsOnce_retryHeld (reason : SwReason) (p : Source) (o : SwOutcome) (s : State) :
    StartsOnce s (retryHeld reason p o s) := by
  unfold retryHeld
  split
  · rename_i h
    split
    · exact startsOnce_start _ _ _ (canStart_idle h.2.2)
    · exact startsOnce_same (Same.refl s)
  · exact startsOnce_same (Same.refl s)

/-- R32: the end of a switchover, once it has ended. -/
theorem startsOnce_endSwitchover (o : SwOutcome) (fail : FailReason) (s : State) :
    StartsOnce (endedState o s) (endSwitchover o fail s) :=
  ((startsOnce_answerStarter _ _ _ _ _).trans (startsOnce_retryHeld _ _ _ _)).trans (startsOnce_settle true _)

/-! ### A tripped path takes no order (R13) -/

/-- A path record that is TRIPPED or LOCKED_OUT. -/
def Faulted (r : PathRecord) : Prop := r.state = .tripped ∨ r.state = .lockedOut

/-- Every path that is TRIPPED or LOCKED_OUT keeps its record. -/
def KeepsFaulted (s t : State) : Prop := ∀ p, Faulted (s.path p) → t.path p = s.path p

theorem KeepsFaulted.trans {s t u : State} (h : KeepsFaulted s t) (g : KeepsFaulted t u) : KeepsFaulted s u := fun p f => by
  have same := h p f
  rw [g p (same ▸ f), same]

theorem keepsFaulted_of {s t : State} (path : ∀ p, t.path p = s.path p) : KeepsFaulted s t := fun p _ => path p

theorem KeepsFaulted.refl (s : State) : KeepsFaulted s s := keepsFaulted_of fun _ => rfl

theorem Faulted.orders {r : PathRecord} (h : Faulted r) : r.closeOrdered = r ∧ r.openOrdered = r := by
  unfold PathRecord.closeOrdered PathRecord.openOrdered
  rcases h with h | h <;> simp [h]

theorem Faulted.off {s : State} {p : Source} (h : Faulted (s.path p)) : gateDriven s p = false := by
  unfold gateDriven
  rcases h with h | h <;> rw [h]

theorem keepsFaulted_startsOnce {s t : State} (h : StartsOnce s t) : KeepsFaulted s t := fun p f => by
  obtain ⟨close, opened⟩ := f.orders
  rcases h.path p with same | ⟨_, _, e | e⟩
  exacts [same, e.trans close, e.trans opened]

theorem keepsFaulted_settle (b : Bool) (s : State) : KeepsFaulted s (settle b s) :=
  keepsFaulted_startsOnce (startsOnce_settle b s)

theorem keepsFaulted_openOrder (p : Source) (s : State) : KeepsFaulted s (openOrder p s) := fun q f => by
  rw [openOrder_path]
  split
  · rename_i same
    subst same
    exact f.orders.2
  · rfl

theorem keepsFaulted_setPath {s : State} {p : Source} (r : PathRecord) (h : ¬Faulted (s.path p)) :
    KeepsFaulted s (s.setPath p r) := fun q f => by
  rw [setPath_path, if_neg]
  rintro rfl
  exact h f

theorem keepsFaulted_endSwitchover (o : SwOutcome) (fail : FailReason) (s : State) :
    KeepsFaulted s (endSwitchover o fail s) :=
  ((keepsFaulted_of (path_ended s o)).trans (keepsFaulted_startsOnce (startsOnce_same (same_publishSituation _)))).trans
    (keepsFaulted_startsOnce (startsOnce_endSwitchover o fail s))

theorem keepsFaulted_toFailed (fail : FailReason) (s : State) : KeepsFaulted s (toFailed fail s) := by
  unfold toFailed
  dsimp only
  split
  · split
    · unfold failSelect
      split
      · exact keepsFaulted_of fun p => (answerSelect_spc _ _ _).2.2 p
      · exact keepsFaulted_of fun _ => rfl
    · exact keepsFaulted_endSwitchover _ _ _
  · exact keepsFaulted_endSwitchover _ _ _

theorem keepsFaulted_fromLost (s : State) : KeepsFaulted s (fromLost s) := by
  unfold fromLost
  dsimp only
  split
  · refine KeepsFaulted.trans ?_ (keepsFaulted_endSwitchover _ _ _)
    exact keepsFaulted_of fun _ => rfl
  · exact keepsFaulted_of fun _ => rfl

theorem keepsFaulted_feedingLost (reason : SwReason) (s : State) (idle : inFlight s = false) :
    KeepsFaulted s (feedingLost reason s) := by
  unfold feedingLost
  split
  · exact keepsFaulted_startsOnce (startsOnce_start _ _ _ idle)
  · refine KeepsFaulted.trans ?_ (keepsFaulted_endSwitchover _ _ _)
    exact keepsFaulted_of fun _ => rfl

/-- R33, R38 to R41: the report of a path that has opened. -/
theorem keepsFaulted_pathDown (p : Source) (d : DownReport) (s : State) : KeepsFaulted s (pathDown p d s) := by
  unfold pathDown
  split
  · exact keepsFaulted_toFailed _ _
  · split
    · exact keepsFaulted_fromLost _
    · split
      · rename_i h
        exact keepsFaulted_feedingLost _ _ h.1
      · exact .refl s

theorem keepsFaulted_openAndReport (p : Source) (d : DownReport) (s : State) : KeepsFaulted s (openAndReport p d s) :=
  (keepsFaulted_openOrder p s).trans (keepsFaulted_pathDown p d _)

theorem keepsFaulted_trip {p : Source} (cause : FaultCause) {s : State} (h : ¬Faulted (s.path p)) :
    KeepsFaulted s (trip p cause s) :=
  keepsFaulted_setPath ((s.path p).tripNow cause (threshold s p) (derating s p) s.slu.uptime) h

theorem keepsFaulted_tripAndReport {p : Source} (cause : FaultCause) {s : State} (h : ¬Faulted (s.path p)) :
    KeepsFaulted s (tripAndReport p cause s) :=
  (keepsFaulted_trip cause h).trans (keepsFaulted_pathDown p .tripped _)

/-- R2, R9, R10, R12: the protection of a path. -/
theorem keepsFaulted_protect (p : Source) (s : State) : KeepsFaulted s (protect p s) := by
  by_cases faulted : Faulted (s.path p)
  · rw [protect_off faulted.off]
    exact .refl s
  have trips := fun cause => keepsFaulted_tripAndReport cause faulted
  have opens := fun d => keepsFaulted_openAndReport p d s
  unfold protect
  split
  case h_1 =>
    split
    · exact opens _
    · split
      · exact trips _
      · exact .refl s
  case h_2 =>
    split
    · exact opens _
    · split
      · exact trips _
      · unfold overStep
        dsimp only
        split
        · split
          · exact keepsFaulted_setPath _ faulted
          · exact trips _
        · exact keepsFaulted_setPath _ faulted
  all_goals exact .refl s

theorem keepsFaulted_holdDropout (s : State) : KeepsFaulted s (holdDropout s) := by
  unfold holdDropout
  split
  · exact keepsFaulted_openAndReport _ _ _
  · exact .refl s

theorem keepsFaulted_lossStep (s : State) : KeepsFaulted s (lossStep s) := by
  unfold lossStep
  split
  · exact keepsFaulted_openAndReport _ _ _
  · split
    · exact keepsFaulted_of fun _ => rfl
    · exact .refl s

theorem busLowStep_path (s : State) (p : Source) : (busLowStep s).path p = s.path p := by
  unfold State.path
  rw [busLowStep_spc, busLowCounters_frame]

/-- The end of a sample, from the turn of the last path on. -/
theorem keepsFaulted_sampleEnd (b : Bool) (s : State) :
    KeepsFaulted s (arbitrate (settle b (busLowStep (lossStep (holdDropout s))))) :=
  (((keepsFaulted_holdDropout s).trans (keepsFaulted_lossStep _)).trans (keepsFaulted_of (busLowStep_path _))).trans
    (keepsFaulted_settle b _)

/-! ### The record of a trip (R13, R14) -/

/-- R13, R14: a trip in CLOSING escalates the effective slew class, and no other does. -/
theorem tripNow_eq (r : PathRecord) (cause : FaultCause) (th step : Nat) (up : Uptime) :
    r.tripNow cause th step up = tripped r cause r.current th step up (decide (r.state = .closing)) := by
  have slower : ∀ c : SlewClass, c.slower = match c with | .fast => .medium | .medium => .slow | .slow => .slow := by
    intro c
    cases c <;> rfl
  have retries : (!decide (r.settings.tripLimit ≤ r.nextTrips) && r.settings.strategy == .auto) = true ↔
      min 7 (r.tripCount + 1) < r.settings.tripLimit ∧ r.settings.strategy = .auto := by
    simp [PathRecord.nextTrips, Config.maxTripCount]
  unfold PathRecord.tripNow tripped
  simp only [retries, slower, decide_eq_true_eq]
  rfl

theorem faulted_tripped (r : PathRecord) (cause : FaultCause) (i : Int) (th step : Nat) (up : Uptime) (e : Bool) :
    Faulted (tripped r cause i th step up e) := by
  unfold Faulted tripped
  dsimp only
  split
  exacts [.inr rfl, .inl rfl]

theorem trip_path (p : Source) (cause : FaultCause) (s : State) :
    (trip p cause s).path p =
      tripped (s.path p) cause (s.path p).current (threshold s p) (derating s p) s.slu.uptime
        (decide ((s.path p).state = .closing)) := by
  rw [← tripNow_eq]
  exact (setPath_path s p _ p).trans (if_pos rfl)

/-- R13: a trip and its report leave the record of the trip. -/
theorem tripAndReport_path (p : Source) (cause : FaultCause) (s : State) :
    (tripAndReport p cause s).path p =
      tripped (s.path p) cause (s.path p).current (threshold s p) (derating s p) s.slu.uptime
        (decide ((s.path p).state = .closing)) := by
  have path := trip_path p cause s
  exact (keepsFaulted_pathDown p .tripped (trip p cause s) p (path ▸ faulted_tripped ..)).trans path

/-! ### The sample of a feeding path (R10, R12) -/

theorem derating_congr {s t : State} {p : Source} (settings : (t.path p).settings = (s.path p).settings)
    (temp : ∀ bay, bayTemp t bay = bayTemp s bay) : derating t p = derating s p := by
  unfold derating
  rw [settings]
  split
  · rfl
  · rw [temp]

/-- A sample of the feeding path, closed with the other gates off, its source present and not over the voltage limit. -/
structure FeedingSample (p : Source) (r : Readings) (s : State) : Prop where
  feeding : s.spc.feeding = some p
  idle : s.spc.sw.phase = .idle
  closed : (s.path p).state = .closed
  others : ∀ q, q ≠ p → gateDriven s q = false
  present : presentAt p (min 65535 (volts r p)) = true
  volts : p = .dcIn → volts r p < Config.dcOvervoltMv

section FeedingSample

variable {p : Source} {r : Readings} {s : State}

theorem sampledRemoved_path (r : Readings) (s : State) (q : Source) :
    (sampledRemoved r s).path q = (sampled r s).path q := by
  unfold State.path
  rw [(sampledRemoved_spec r s).1]

theorem sampledRemoved_gate (r : Readings) (s : State) (q : Source) :
    gateDriven (sampledRemoved r s) q = gateDriven s q :=
  gateDriven_eq (by rw [sampledRemoved_path, (stored_sampled r s).state])

theorem sampledRemoved_temp (r : Readings) (s : State) (bay : Bay) :
    bayTemp (sampledRemoved r s) bay = bayTemp s bay := by
  rw [← bayTemp_stored (stored_sampled r s) bay]
  unfold bayTemp
  rw [(sampledRemoved_spec r s).2.1]

theorem sampledRemoved_uptime (r : Readings) (s : State) : (sampledRemoved r s).slu.uptime = nextUptime s := by
  have g : Guarded (sampled r s) (sampledRemoved r s) :=
    (guarded_removeBattery _ _ _).trans (guarded_removeBattery _ _ _)
  rw [g.link, (sampled_rest r s).2.2]

theorem sampledRemoved_threshold (r : Readings) (s : State) (q : Source) :
    threshold (sampledRemoved r s) q = threshold s q ∧ derating (sampledRemoved r s) q = derating s q := by
  have settings : ((sampledRemoved r s).path q).settings = (s.path q).settings := by
    rw [sampledRemoved_path, (stored_sampled r s).pathSettings]
  exact ⟨threshold_of settings (sampledRemoved_temp r s), derating_congr settings (sampledRemoved_temp r s)⟩

theorem sampledPaths_eq (r : Readings) (s : State) :
    sampledPaths r s = holdDropout (protect .bayB (protect .bayA (protect .dcIn (sampledRemoved r s)))) := rfl

/-- A trip at the path's turn stands at the end of the sample. -/
theorem keepsFaulted_turn (others : ∀ q, q ≠ p → gateDriven s q = false) :
    KeepsFaulted (protect p (sampledRemoved r s)) (arbitrate (monitorSample r s)) := by
  have before : ∀ q, q ≠ p → protect q (sampledRemoved r s) = sampledRemoved r s := fun q ne =>
    protect_off (by rw [sampledRemoved_gate]; exact others q ne)
  refine KeepsFaulted.trans ?_ (keepsFaulted_sampleEnd (removesBattery s (sampled r s)) _)
  show KeepsFaulted _ (protect .bayB (protect .bayA (protect .dcIn (sampledRemoved r s))))
  cases p with
  | dcIn => exact (keepsFaulted_protect .bayA _).trans (keepsFaulted_protect .bayB _)
  | bayA =>
    rw [before .dcIn (by decide)]
    exact keepsFaulted_protect .bayB _
  | bayB =>
    rw [before .dcIn (by decide), before .bayA (by decide)]
    exact .refl _

namespace FeedingSample

variable (h : FeedingSample p r s)
include h

/-- R10, R12: what the protection of the path does, by its current. -/
theorem protect_eq :
    protect p (sampledRemoved r s) =
      if ((3 * threshold s p : Nat) : Int) < max (-32768) (min 32767 (amps r p)) then
        tripAndReport p .short (sampledRemoved r s)
      else if (threshold s p : Int) < max (-32768) (min 32767 (amps r p)) ∧ (s.path p).overCount ≠ 0 then
        tripAndReport p .overcurrent (sampledRemoved r s)
      else
        (sampledRemoved r s).setPath p
          { (sampledRemoved r s).path p with
            overCount := if (threshold s p : Int) < max (-32768) (min 32767 (amps r p)) then 1 else 0 } := by
  have st := stored_sampled r s
  have state : ((sampledRemoved r s).path p).state = .closed := by rw [sampledRemoved_path, st.state, h.closed]
  have current : ((sampledRemoved r s).path p).current = max (-32768) (min 32767 (amps r p)) := by
    rw [sampledRemoved_path, st.current]
  have count : ((sampledRemoved r s).path p).overCount = (s.path p).overCount := by rw [sampledRemoved_path, st.count]
  have below : overvolt (sampledRemoved r s) p = false := by
    cases p with
    | dcIn =>
      have := h.volts rfl
      unfold overvolt
      rw [sampledRemoved_path, st.voltage]
      exact decide_eq_false (by omega)
    | bayA => rfl
    | bayB => rfl
  simp only [protect, state, below, overStep, shortLimit, (sampledRemoved_threshold r s p).1, current, count]
  split_ifs <;> simp_all

/-- R10, R12, R13: a trip at the sample. -/
theorem tripped_path {cause : FaultCause} (trips : protect p (sampledRemoved r s) = tripAndReport p cause (sampledRemoved r s)) :
    (arbitrate (monitorSample r s)).path p =
      tripped ((sampled r s).path p) cause (max (-32768) (min 32767 (amps r p))) (threshold s p) (derating s p)
        (nextUptime s) false := by
  have path := tripAndReport_path p cause (sampledRemoved r s)
  rw [← trips, sampledRemoved_path, (sampledRemoved_threshold r s p).1, (sampledRemoved_threshold r s p).2,
    sampledRemoved_uptime, (stored_sampled r s).current, (stored_sampled r s).state, h.closed] at path
  exact (keepsFaulted_turn h.others p (path ▸ faulted_tripped ..)).trans path

/-- R12, R17: a sample that does not trip the path: it stays closed with its count, or a switchover that starts opens it. -/
theorem counted_path {n : Nat}
    (counts : protect p (sampledRemoved r s) =
      (sampledRemoved r s).setPath p { (sampledRemoved r s).path p with overCount := n }) :
    let x := { (sampled r s).path p with overCount := n }
    (arbitrate (monitorSample r s)).path p = x ∨ (arbitrate (monitorSample r s)).path p = x.openOrdered := by
  intro x
  generalize hz : (sampledRemoved r s).setPath p { (sampledRemoved r s).path p with overCount := n } = z at counts
  have zp : z.path p = x := by
    rw [← hz, setPath_path, if_pos rfl, sampledRemoved_path]
  have state : (z.path p).state = .closed := by
    rw [zp]
    exact ((stored_sampled r s).state p).trans h.closed
  have off : ∀ q, q ≠ p → gateDriven z q = false := fun q ne => by
    rw [← h.others q ne, ← sampledRemoved_gate r s q]
    exact gateDriven_eq (by rw [← hz, setPath_path, if_neg ne])
  have before : ∀ q, q ≠ p → protect q (sampledRemoved r s) = sampledRemoved r s := fun q ne =>
    protect_off (by rw [sampledRemoved_gate]; exact h.others q ne)
  have after : ∀ q, q ≠ p → protect q z = z := fun q ne => protect_off (off q ne)
  have hold : holdDropout z = z := by
    refine if_neg fun held => ?_
    have phase : z.spc.sw = s.spc.sw := by
      rw [← hz, setPath_sw, (sampledRemoved_spec r s).1, (stored_sampled r s).supply]
    rw [phase, h.idle] at held
    exact absurd held.1 (by decide)
  have paths : sampledPaths r s = z := by
    rw [sampledPaths_eq]
    cases p with
    | dcIn => rw [counts, after .bayA (by decide), after .bayB (by decide), hold]
    | bayA => rw [before .dcIn (by decide), counts, after .bayB (by decide), hold]
    | bayB => rw [before .dcIn (by decide), before .bayA (by decide), counts, hold]
  have loss : (lossStep z).path p = z.path p := by
    have closedPresent : ∀ q, (z.path q).state = .closed → Machine.present z q = true := fun q closed => by
      have same : q = p := by
        by_contra ne
        exact absurd (gateDriven_closed closed) (by simp [off q ne])
      rw [same]
      unfold Machine.present
      rw [zp]
      show presentAt p ((sampled r s).path p).voltage = true
      rw [(stored_sampled r s).voltage]
      exact h.present
    rw [(lossStep_present z closedPresent).2]
    rfl
  have rest := (startsOnce_settle (removesBattery s (sampled r s)) (busLowStep (lossStep z))).path p
  rw [busLowStep_path, loss, zp] at rest
  have closeOrdered : x.closeOrdered = x := if_neg (by rw [← zp, state]; decide)
  have sample : (arbitrate (monitorSample r s)).path p =
      (settle (removesBattery s (sampled r s)) (busLowStep (lossStep z))).path p := by
    rw [arbitrate_path, monitorSample, paths]
  rw [sample]
  rcases rest with same | ⟨_, _, same | opened⟩
  exacts [.inl same, .inl (same.trans closeOrdered), .inr opened]

/-- R12, R17: what such a sample leaves of the record. -/
theorem counted_spec {n : Nat}
    (counts : protect p (sampledRemoved r s) =
      (sampledRemoved r s).setPath p { (sampledRemoved r s).path p with overCount := n }) :
    let t := arbitrate (monitorSample r s)
    (t.path p).tripCount = (s.path p).tripCount ∧ (t.path p).fault = (s.path p).fault ∧
      ((t.path p).state = .closed ∧ (t.path p).overCount = n ∨ (t.path p).state = .opened ∧ (t.path p).overCount = 0) := by
  have state : ((sampled r s).path p).state = .closed := ((stored_sampled r s).state p).trans h.closed
  have kept : ((sampled r s).path p).tripCount = (s.path p).tripCount ∧
      ((sampled r s).path p).fault = (s.path p).fault := by
    rw [sampled_path]
    exact ⟨rfl, rfl⟩
  intro t
  have paths : t.path p = _ ∨ t.path p = _ := h.counted_path counts
  rcases paths with path | path
  · rw [path]
    exact ⟨kept.1, kept.2, .inl ⟨state, rfl⟩⟩
  · have opened := samePath_open { (sampled r s).path p with overCount := n }
    rw [path]
    refine ⟨opened.tripCount.trans kept.1, opened.fault.trans kept.2, .inr ?_⟩
    simp [PathRecord.openOrdered, state]

end FeedingSample

end FeedingSample

/-- Settles O26, by the three ranges of the current. -/
theorem sampleProtectsFeedingPath : Obligations.SampleProtectsFeedingPath := by
  intro p r s feeding idle closed others pres limit i th
  have h : FeedingSample p r s := ⟨feeding, idle, closed, others, pres, limit⟩
  have turn := h.protect_eq
  refine ⟨arbitrate (monitorSample r s), rfl, fun cause trips => ?_, fun notShort above first => ?_, fun below => ?_⟩
  · refine ⟨(sampled r s).path p, h.tripped_path ?_, ?_⟩
    · rcases trips with ⟨short, rfl⟩ | ⟨notShort, above, counted, rfl⟩
      · rw [turn, if_pos short]
      · rw [turn, if_neg (not_lt.mpr notShort), if_pos ⟨above, counted⟩]
    · rw [sampled_path]
      exact ⟨rfl, rfl, rfl⟩
  · rw [if_neg (not_lt.mpr notShort), if_neg (fun x => x.2 first), if_pos above] at turn
    obtain ⟨trips, fault, state⟩ := h.counted_spec turn
    exact ⟨trips, fault, state.imp_right And.left⟩
  · have notShort : ¬((3 * threshold s p : Nat) : Int) < i := by
      have : (th : Int) ≤ ((3 * threshold s p : Nat) : Int) := by
        show (threshold s p : Int) ≤ _
        omega
      omega
    have notAbove : ¬(threshold s p : Int) < i := not_lt.mpr below
    rw [if_neg notShort, if_neg (fun x => notAbove x.1), if_neg notAbove] at turn
    obtain ⟨trips, fault, state⟩ := h.counted_spec turn
    refine ⟨trips, fault, ?_, state.imp And.left And.left⟩
    exact state.elim And.right And.right

end Sys2Proof.SourcePaths

/-! ## A path that fails inside a switchover (O30) -/

namespace Sys2Proof.SourcePaths

open Sys2Proof.Machine Sys2Proof.Safety

/-! ### The frame of an event of the switchover logic -/

theorem supplyFrame_arbitrate {u t : State} (h : Reported u t) (situation : SituationOk t) : SupplyFrame u (arbitrate t) where
  rest := by
    have rest := (guarded_reported h).trans (guarded_arbitrate t) |>.rest
    exact rest
  link := (guarded_reported h).trans (guarded_arbitrate t) |>.link
  sending := fun busy => by
    have tx : t.slu.tx = u.slu.tx := by rw [h.link]
    rw [arbitrate_busy (by rw [tx]; exact Option.isSome_iff_ne_none.mp busy), tx]
  latches := h.latches
  sensed := h.sensed
  supply := h.supply
  caps := ((guarded_reported h).trans (guarded_arbitrate t)).caps
  path := h.path
  situation := situationOk_arbitrate t situation

/-- R174: a raise is in the frame. -/
theorem supplyFrame_raised {k : NoticeKind} {u t : State} (h : SupplyFrame (raise k u) t) : SupplyFrame u t where
  rest := h.rest
  link := h.link.trans (by rw [raise_slu, raised_link])
  sending := fun busy => (h.sending (by rw [raise_slu, raised_tx]; exact busy)).trans (raised_tx _ _)
  latches := h.latches
  sensed := h.sensed
  supply := h.supply
  caps := ⟨h.caps.bre, h.caps.lmd⟩
  path := h.path
  situation := h.situation

/-- R32, R176: the end of an event of the switchover logic. -/
theorem supplyFrame_event {u v : State} (h : Reported u v) : SupplyFrame u (arbitrate (settle false v)) :=
  supplyFrame_arbitrate (h.trans (kept_settle false v).toReported) (situationOk_settle false v)

theorem carries_event (v : State) : Carries v (arbitrate (settle false v)) :=
  (carries_settle false v).trans (carries_arbitrate _)

/-! ### The answer to a RELEASE ask, from the start of its event to the end (R55) -/

/-- What the answer to a bay's ask reads of the state before its event. -/
structure SameAsk (v w : State) : Prop where
  latch : ∀ bay, v.latch bay = w.latch bay
  motion : v.ddt = w.ddt
  tx : v.slu.tx = w.slu.tx
  mask : v.slu.noticeMask = w.slu.noticeMask
  owed : v.slu.owedRelease = w.slu.owedRelease
  notices : v.slu.outbox.release = w.slu.outbox.release

section SameAsk

variable {v w t : State} {bay : Bay} (a : SameAsk v w)
include a

theorem SameAsk.joins {r : Reply} (h : Joins v t r) : Joins w t r := fun busy => h (by rw [a.tx]; exact busy)

theorem SameAsk.raised (h : RaisedRelease v t) : RaisedRelease w t := fun busy mask => by
  rw [← a.notices]
  exact h (by rw [a.tx]; exact busy) (by rw [a.mask]; exact mask)

theorem SameAsk.refused (h : BayRefused (Joins v t) bay v t) : BayRefused (Joins w t) bay w t where
  record := by rw [← a.latch]; exact h.record
  notice := a.raised h.notice
  answered := fun tag owes owed => by
    obtain ⟨none, made⟩ := h.answered tag (by rw [a.latch]; exact owes) (by rw [a.owed]; exact owed)
    exact ⟨none, a.joins made⟩

theorem SameAsk.granted (h : BayGranted (Joins v t) bay v t) : BayGranted (Joins w t) bay w t where
  record := by rw [← a.latch]; exact h.record
  pack := h.pack
  notice := a.raised h.notice
  answered := fun tag owes owed => by
    obtain ⟨none, made⟩ := h.answered tag (by rw [a.latch]; exact owes) (by rw [a.owed]; exact owed)
    exact ⟨none, a.joins made⟩

theorem SameAsk.moved (h : AskMoved (Joins v t) bay v t) : AskMoved (Joins w t) bay w t where
  waits := fun moves => by rw [← a.latch]; exact h.waits (by rw [a.motion]; exact moves)
  granted := fun still other asks =>
    a.granted
      (h.granted (by rw [a.motion]; exact still) (by rw [a.latch]; exact other)
        (by rw [askRuns_latch (a.latch _)]; exact asks))

end SameAsk

section Carried

variable {w s : State} {bay : Bay}

/-- A release that is not PENDING, its notice and a reply in the FIFO are carried to the end of the event. -/
theorem latch_settle_event (b : Bool) (h : (s.latch bay).release ≠ .pending) :
    (arbitrate (settle b s)).latch bay = s.latch bay := settle_latch_kept b s bay h

theorem raised_event (b : Bool) (tx : s.slu.tx = w.slu.tx) (h : RaisedRelease w s) :
    RaisedRelease w (arbitrate (settle b s)) := fun busy mask => by
  rw [arbitrate_busy (by rw [settle_tx, tx]; exact busy)]
  exact (ran_settle b s).counts .release _ (Nat.min_le_left _ _) (h busy mask)

theorem joins_event (b : Bool) (tx : s.slu.tx = w.slu.tx) {r : Reply} (h : Joins w s r) :
    Joins w (arbitrate (settle b s)) r := fun busy =>
  (((carries_settle b s).trans (carries_arbitrate _)).sending (by rw [tx]; exact busy)).2 r (h busy)

theorem owed_event (b : Bool) (h : s.slu.owedRelease = none) : (arbitrate (settle b s)).slu.owedRelease = none :=
  (arbitrate_owed _).trans (settle_owed b s h)

theorem bayRefused_event (b : Bool) (tx : s.slu.tx = w.slu.tx) (h : BayRefused (Joins w s) bay w s) :
    BayRefused (Joins w (arbitrate (settle b s))) bay w (arbitrate (settle b s)) := by
  have latch := latch_settle_event (s := s) (bay := bay) b (by rw [h.record]; simp)
  refine ⟨latch.trans h.record, raised_event b tx h.notice, fun tag owes owed => ?_⟩
  obtain ⟨none, made⟩ := h.answered tag owes owed
  refine ⟨owed_event b none, ?_⟩
  rw [show latchBytes (arbitrate (settle b s)) bay = latchBytes s bay by unfold latchBytes; rw [latch]]
  exact joins_event b tx made

theorem bayGranted_event (b : Bool) (tx : s.slu.tx = w.slu.tx) (h : BayGranted (Joins w s) bay w s) :
    BayGranted (Joins w (arbitrate (settle b s))) bay w (arbitrate (settle b s)) := by
  have latch := latch_settle_event (s := s) (bay := bay) b (by rw [h.record]; simp)
  refine ⟨latch.trans h.record, (ran_settle b s).pack bay h.pack, raised_event b tx h.notice, fun tag owes owed => ?_⟩
  obtain ⟨none, made⟩ := h.answered tag owes owed
  refine ⟨owed_event b none, ?_⟩
  rw [show latchBytes (arbitrate (settle b s)) bay = latchBytes s bay by unfold latchBytes; rw [latch]]
  exact joins_event b tx made

theorem askMoved_event (b : Bool) (tx : s.slu.tx = w.slu.tx) (motion : s.ddt = w.ddt)
    (pending : (w.latch bay).release = .pending) (h : AskMoved (Joins w s) bay w s) :
    AskMoved (Joins w (arbitrate (settle b s))) bay w (arbitrate (settle b s)) := by
  refine ⟨fun moves => ?_, fun still other asks => bayGranted_event b tx (h.granted still other asks)⟩
  have record := h.waits moves
  refine (settle_latch_motion b s (by rw [motion]; exact moves) bay ?_).trans record
  rw [record, ← pending]

end Carried

/-! ### The report of a failed path (R39 to R41) -/

/-- R38: both paths of the switchover are closing or closed. -/
theorem overlapping_iff (s : State) : overlapping s = true ↔ s.spc.sw.phase = .ovlClose ∨ s.spc.sw.phase = .ovlHold := by
  simp [overlapping]

theorem pathDown_toPath {p : Source} {w : State} (d : DownReport) (target : w.spc.sw.toSrc = p)
    (phase : (w.spc.sw.phase = .ovlClose ∨ w.spc.sw.phase = .ovlHold) ∨ w.spc.sw.phase = .gapClose) :
    pathDown p d w = toFailed d.failReason w := by
  refine if_pos ⟨?_, target⟩
  rw [Bool.or_eq_true, overlapping_iff, beq_iff_eq]
  exact phase

theorem pathDown_fromPath {p : Source} {w : State} (d : DownReport) (from_ : w.spc.sw.fromSrc = some p)
    (target : w.spc.sw.toSrc ≠ p) (phase : w.spc.sw.phase = .ovlClose ∨ w.spc.sw.phase = .ovlHold) :
    pathDown p d w = fromLost w := by
  unfold pathDown
  rw [if_neg (fun x => target x.2), if_pos ⟨(overlapping_iff w).mpr phase, from_⟩]

theorem notGapClose {s : State} (phase : s.spc.sw.phase = .ovlClose ∨ s.spc.sw.phase = .ovlHold) :
    s.spc.sw.phase ≠ .gapClose := by
  rcases phase with h | h <;> simp [h]

theorem toFailed_failed {w : State} (fail : FailReason) (phase : w.spc.sw.phase ≠ .gapClose) :
    toFailed fail w = endSwitchover .failed fail w := if_neg phase

theorem toFailed_fell {w : State} (fail : FailReason) (phase : w.spc.sw.phase = .gapClose)
    (none : chooseTarget w w.spc.sw.fromSrc (w.spc.sw.tried ++ [w.spc.sw.toSrc]) = none) :
    toFailed fail w = endSwitchover .fellToNone fail w := by
  simp only [toFailed, phase, none, if_true]

/-- R39, R55: the ask of a bay that feeds on is refused. -/
theorem bayRefused_toFailed {w : State} {bay : Bay} (fail : FailReason) (phase : w.spc.sw.phase ≠ .gapClose)
    (ask : AskInFlight bay w) : BayRefused (Joins w (toFailed fail w)) bay w (toFailed fail w) := by
  rw [toFailed_failed fail phase]
  exact bayRefused_endSwitchover fail bay w ask

/-- R41, R55: with NONE feeding the load is off the bay. -/
theorem askMoved_toFailed {w : State} {bay : Bay} (fail : FailReason) (phase : w.spc.sw.phase = .gapClose)
    (none : chooseTarget w w.spc.sw.fromSrc (w.spc.sw.tried ++ [w.spc.sw.toSrc]) = none) (ask : AskInFlight bay w) :
    AskMoved (Joins w (toFailed fail w)) bay w (toFailed fail w) := by
  rw [toFailed_fell fail phase none]
  exact askMoved_endSwitchover .fellToNone fail bay w ask (by decide) (by rw [ended_feeding]; simp)

/-- R40: the switchover of a lost from path has become GAP, and closes its to path. -/
def lostGap (w : State) : State :=
  { w with spc := { w.spc with lossTimer := none, sw := { w.spc.sw with mode := .gap, phase := .gapClose } } }

theorem fromLost_hold {w : State} (phase : w.spc.sw.phase = .ovlHold) :
    fromLost w = endSwitchover .completed .targetTripped (lostGap w) := if_pos phase

theorem fromLost_closing {w : State} (phase : w.spc.sw.phase = .ovlClose) : fromLost w = lostGap w :=
  if_neg (by rw [phase]; decide)

theorem sameAsk_lostGap (w : State) : SameAsk (lostGap w) w := ⟨fun _ => rfl, rfl, rfl, rfl, rfl, rfl⟩

/-- R40, R55: the to path that is closed takes over the load of a bay whose path is lost. -/
theorem askMoved_fromLost {w : State} {bay : Bay} (phase : w.spc.sw.phase = .ovlHold)
    (target : w.spc.sw.toSrc ≠ baySource bay) (ask : AskInFlight bay w) :
    AskMoved (Joins w (fromLost w)) bay w (fromLost w) := by
  have ask' : AskInFlight bay (lostGap w) := ⟨ask.reason, ask.source, ask.pending, ask.cause⟩
  have off : ((lostGap w).spc.ended .completed).feeding ≠ some (baySource bay) := by
    rw [ended_feeding]
    simpa [lostGap] using target
  have moved := askMoved_endSwitchover .completed .targetTripped bay _ ask' (by decide) off
  rw [fromLost_hold phase]
  exact (sameAsk_lostGap w).moved moved

theorem failReason_byte (d : DownReport) : BitVec.ofNat 8 d.failReason.code = if d = .tripped then (2 : Byte) else 3 := by
  cases d <;> rfl

/-- R39 to R41: what the report of a failed path leaves. -/
theorem pathDown_spec (p : Source) (d : DownReport) (w : State) :
    let reason : Byte := if d = .tripped then 2 else 3
    let t := pathDown p d w
    (w.spc.sw.toSrc = p →
      (w.spc.sw.phase = .ovlClose ∨ w.spc.sw.phase = .ovlHold →
        ToPathFailed reason w t ∧ ∀ bay, AskInFlight bay w → BayRefused (Joins w t) bay w t) ∧
      (w.spc.sw.phase = .gapClose →
        GapTargetFailed reason w t ∧
          (chooseTarget w w.spc.sw.fromSrc (w.spc.sw.tried ++ [p]) = none →
            ∀ bay, AskInFlight bay w → AskMoved (Joins w t) bay w t))) ∧
    (w.spc.sw.fromSrc = some p → w.spc.sw.toSrc ≠ p → w.spc.sw.phase = .ovlClose ∨ w.spc.sw.phase = .ovlHold →
      FromPathLost w t ∧ (w.spc.sw.phase = .ovlHold → ∀ bay, AskInFlight bay w → AskMoved (Joins w t) bay w t)) := by
  intro reason t
  have byte : reason = BitVec.ofNat 8 d.failReason.code := (failReason_byte d).symm
  refine ⟨fun target => ⟨fun phase => ?_, fun phase => ?_⟩, fun from_ target phase => ?_⟩
  · have down : t = toFailed d.failReason w := pathDown_toPath d target (.inl phase)
    rw [byte, down]
    exact ⟨toPathFailed_toFailed _ w (notGapClose phase), fun bay => bayRefused_toFailed _ (notGapClose phase)⟩
  · have down : t = toFailed d.failReason w := pathDown_toPath d target (.inr phase)
    rw [byte, down]
    refine ⟨gapTargetFailed_toFailed _ w phase, fun none bay => askMoved_toFailed _ phase ?_⟩
    rw [target]
    exact none
  · have down : t = fromLost w := pathDown_fromPath d from_ target phase
    rw [down]
    refine ⟨fromPathLost_fromLost w, fun hold bay ask => askMoved_fromLost hold (fun same => target ?_) ask⟩
    rw [same]
    exact Option.some.inj (ask.source.symm.trans from_)

/-! ### A blanking window that ends above the threshold (R8, R13, R14) -/

theorem raised_get (u : Slu) (k : NoticeKind) (h : inMask u.noticeMask k = true) :
    (u.raised k).outbox.get k = min 255 (u.outbox.get k + 1) := by
  simp [Slu.raised, h, Config.maxOccurrences]

theorem sameChoice_raise (k : NoticeKind) (s : State) : SameChoice s (raise k s) := ⟨fun _ => rfl, rfl⟩

theorem toPathFailed_raised {k : NoticeKind} {reason : Byte} {w t : State} (h : ToPathFailed reason (raise k w) t) :
    ToPathFailed reason w t :=
  toPathFailed_agree h (sameChoice_raise k w) rfl rfl rfl (raised_tx k w.slu) (raised_owedSelect k w.slu)

theorem gapTargetFailed_raised {k : NoticeKind} {reason : Byte} {w t : State} (h : GapTargetFailed reason (raise k w) t) :
    GapTargetFailed reason w t :=
  gapTargetFailed_agree h (sameChoice_raise k w) rfl rfl rfl (raised_tx k w.slu) (raised_owedSelect k w.slu)

theorem exec_blankingEnd {p : Source} {s : State} (closing : (s.path p).state = .closing) :
    exec (.blankingEnd p) s = .next (arbitrate (settle false (blankingEnd p s))) := if_pos closing

section Inrush

variable (p : Source) (s : State)

/-- The end of the event in which a path trips with INRUSH. -/
def inrushEnd : State := arbitrate (settle false (tripAndReport p .inrush s))

theorem inrushEnd_path (closing : (s.path p).state = .closing) :
    (inrushEnd p s).path p =
      tripped (s.path p) .inrush (s.path p).current (threshold s p) (derating s p) s.slu.uptime true := by
  have path := tripAndReport_path p .inrush s
  rw [closing] at path
  exact (keepsFaulted_settle false _ p (path ▸ faulted_tripped ..)).trans path

/-- The state in which the trip is reported: the record of the trip, with PATH_FAULT raised. -/
theorem trip_eq (closing : (s.path p).state = .closing) :
    trip p .inrush s = raise .pathFault (s.setPath p ((inrushEnd p s).path p)) := by
  rw [inrushEnd_path p s closing, trip, tripNow_eq, closing]
  rfl

theorem inrushEnd_notice (busy : s.slu.tx ≠ none) (mask : inMask s.slu.noticeMask .pathFault = true) :
    (inrushEnd p s).slu.outbox.pathFault = min 255 (s.slu.outbox.pathFault + 1) := by
  have r : Reported (trip p .inrush s) (settle false (tripAndReport p .inrush s)) :=
    (reported_pathDown p .tripped _).trans (kept_settle false _).toReported
  have tx : (settle false (tripAndReport p .inrush s)).slu.tx = s.slu.tx := by
    rw [r.link]
    exact raised_tx .pathFault s.slu
  unfold inrushEnd
  rw [arbitrate_busy (by rw [tx]; exact busy)]
  exact (r.kinds .pathFault (by decide) (by decide)).trans (raised_get s.slu .pathFault mask)

theorem inrushEnd_frame (closing : (s.path p).state = .closing) :
    SupplyFrame (s.setPath p ((inrushEnd p s).path p)) (inrushEnd p s) := by
  refine supplyFrame_raised (k := .pathFault) ?_
  rw [← trip_eq p s closing]
  exact supplyFrame_event (reported_pathDown p .tripped _)

theorem sameAsk_trip : SameAsk (trip p .inrush s) s where
  latch := fun _ => rfl
  motion := rfl
  tx := raised_tx .pathFault s.slu
  mask := raised_noticeMask .pathFault s.slu
  owed := raised_owedRelease .pathFault s.slu
  notices := raised_other s.slu .pathFault .release (by decide)

variable (closing : (s.path p).state = .closing) (target : s.spc.sw.toSrc = p)
include closing target

/-- R39: the to path of an OVERLAP switchover trips. -/
theorem inrushEnd_overlap (phase : s.spc.sw.phase = .ovlClose ∨ s.spc.sw.phase = .ovlHold) :
    ToPathFailed 2 (s.setPath p ((inrushEnd p s).path p)) (inrushEnd p s) ∧
      ∀ bay, AskInFlight bay s → BayRefused (Joins s (inrushEnd p s)) bay s (inrushEnd p s) := by
  obtain ⟨failed, refused⟩ := ((pathDown_spec p .tripped (trip p .inrush s)).1 target).1 phase
  have r := reported_pathDown p .tripped (trip p .inrush s)
  have tx : (pathDown p .tripped (trip p .inrush s)).slu.tx = (trip p .inrush s).slu.tx := by rw [r.link]
  have same := trip_eq p s closing
  refine ⟨?_, fun bay ask => ?_⟩
  · have carried : ToPathFailed 2 (trip p .inrush s) (inrushEnd p s) :=
      toPathFailed_carried failed (fun busy => by rw [tx]; exact busy) (carries_event _)
    exact toPathFailed_raised (same ▸ carried)
  · exact (sameAsk_trip p s).refused
      (bayRefused_event false tx (refused bay ⟨ask.reason, ask.source, ask.pending, ask.cause⟩))

/-- R41: the target of a GAP switchover trips. -/
theorem inrushEnd_gap (phase : s.spc.sw.phase = .gapClose) :
    GapTargetFailed 2 (s.setPath p ((inrushEnd p s).path p)) (inrushEnd p s) ∧
      (chooseTarget (s.setPath p ((inrushEnd p s).path p)) s.spc.sw.fromSrc (s.spc.sw.tried ++ [p]) = none →
        ∀ bay, AskInFlight bay s → AskMoved (Joins s (inrushEnd p s)) bay s (inrushEnd p s)) := by
  obtain ⟨failed, moved⟩ := ((pathDown_spec p .tripped (trip p .inrush s)).1 target).2 phase
  have r := reported_pathDown p .tripped (trip p .inrush s)
  have tx : (pathDown p .tripped (trip p .inrush s)).slu.tx = (trip p .inrush s).slu.tx := by rw [r.link]
  have motion : (pathDown p .tripped (trip p .inrush s)).ddt = (trip p .inrush s).ddt := by rw [r.rest]
  have same := trip_eq p s closing
  refine ⟨?_, fun none bay ask => ?_⟩
  · have carried : GapTargetFailed 2 (trip p .inrush s) (inrushEnd p s) :=
      gapTargetFailed_carried failed (fun busy => by rw [tx]; exact busy) (carries_event _)
    exact gapTargetFailed_raised (same ▸ carried)
  · have none' : chooseTarget (trip p .inrush s) (trip p .inrush s).spc.sw.fromSrc
        ((trip p .inrush s).spc.sw.tried ++ [p]) = Option.none := by
      rw [same, (sameChoice_raise _ _).target]
      exact none
    exact (sameAsk_trip p s).moved
      (askMoved_event false tx motion ask.pending
        (moved none' bay ⟨ask.reason, ask.source, ask.pending, ask.cause⟩))

end Inrush

/-! ### A path that fails at a monitor sample (R39 to R41) -/

/-- What a lost from path's report leaves, of the path itself and of the others. -/
theorem tail_fromLost {p : Source} {w : State} (shut : Shut w p) (calm : ∀ x, x ≠ p → CalmAt w x)
    (phase : w.spc.sw.phase = .ovlClose ∨ w.spc.sw.phase = .ovlHold) : Tail p (fromLost w) := by
  have calm' : ∀ x, x ≠ p → CalmAt (fromLost w) x := fun x ne => calmAt_reported (reported_fromLost w) (calm x ne)
  have gap : Shut (lostGap w) p := shut_of rfl (fun _ => rfl) shut
  rcases phase with closing | hold
  · rw [fromLost_closing closing] at calm' ⊢
    exact ⟨gap, calm', by simp [lostGap]⟩
  · rw [fromLost_hold hold] at calm' ⊢
    obtain ⟨ended, -⟩ := ended_endSwitchover .completed .targetTripped (lostGap w)
    exact ⟨ended.shut p gap, calm', ended.hold⟩

section Sample

variable {p : Source} {r : Readings} {s w : State}

/-- Before the failure the switchover record is as the sample found it. -/
theorem before_sw (b : Before p (sampled r s) w) :
    w.spc.sw = s.spc.sw ∧ w.spc.feeding = s.spc.feeding ∧ w.slu.tx = s.slu.tx ∧ w.slu.owedSelect = s.slu.owedSelect := by
  have st := stored_sampled r s
  refine ⟨?_, ?_, b.tx.trans ?_, b.owed.trans ?_⟩
  · rw [b.spc, st.supply]
  · rw [b.spc, st.supply]
  · rw [st.link]
  · rw [st.link]

theorem before_absent (b : Before p (sampled r s) w) (gone : presentAt p (min 65535 (volts r p)) = false) :
    present w p = false := by
  unfold present
  rw [b.path]
  show present (sampled r s) p = false
  rw [sampled_present]
  exact gone

theorem before_state (b : Before p (sampled r s) w) : (w.path p).state = (s.path p).state := by
  rw [b.path]
  exact (stored_sampled r s).state p

/-- R7, R98: the threshold is derived from the path's settings and the bay's battery record, which a sample leaves. -/
theorem before_threshold (b : Before p (sampled r s) w) : threshold w p = threshold s p := by
  have st := stored_sampled r s
  refine threshold_of ?_ fun bay => ?_
  · rw [b.path]
    exact st.pathSettings p
  · rw [← bayTemp_stored st bay]
    unfold bayTemp
    rw [b.scv]

theorem before_current (b : Before p (sampled r s) w) : (w.path p).current = max (-32768) (min 32767 (amps r p)) := by
  rw [b.path]
  exact (stored_sampled r s).current p

theorem calm_openOrder (calm : ∀ x, x ≠ p → CalmAt w x) (x : Source) (ne : x ≠ p) : CalmAt (openOrder p w) x := by
  have path : (openOrder p w).path x = w.path x := by rw [openOrder_path, if_neg ne]
  exact calmAt_of (s := w) (by rw [path]) (by rw [path]) (by rw [path]) rfl (calm x ne)

/-- R39: a dropout of the to path of an OVERLAP switchover, carried to the end of the sample. -/
theorem dropout_overlap (b : Before p (sampled r s) w) (gone : presentAt p (min 65535 (volts r p)) = false)
    (phase : s.spc.sw.phase = .ovlClose ∨ s.spc.sw.phase = .ovlHold) {t : State}
    (rest : Tail p (toFailed .targetDropped (openOrder p w)) → Carries (toFailed .targetDropped (openOrder p w)) t) :
    gateDrive t p = .off ∧ ToPathFailed 3 (openOrder p (sampled r s)) t := by
  have gone' := before_absent b gone
  obtain ⟨tail, tx⟩ := tail_toFailed .targetDropped (shut_opened gone') (calm_openOrder b.calm)
  have carries := rest tail
  refine ⟨gateDrive_off (carries.shut p tail.shut).1, ?_⟩
  have failed := toPathFailed_toFailed .targetDropped (openOrder p w)
    (notGapClose (by rw [show (openOrder p w).spc.sw = s.spc.sw from (before_sw b).1]; exact phase))
  refine toPathFailed_agree (toPathFailed_carried failed tx carries) (b.choice ?_) ?_ ?_ ?_ b.tx b.owed
  · rw [sampled_present]
    exact gone
  · show w.spc.feeding = (sampled r s).spc.feeding
    rw [b.spc]
  · show w.spc.sw = (sampled r s).spc.sw
    rw [b.spc]
  · show w.spc.startUp = (sampled r s).spc.startUp
    rw [b.spc]

/-- R41: a dropout of the target of a GAP switchover, carried to the end of the sample. -/
theorem dropout_gap (b : Before p (sampled r s) w) (gone : presentAt p (min 65535 (volts r p)) = false)
    (phase : s.spc.sw.phase = .gapClose) {t : State}
    (rest : Tail p (toFailed .targetDropped (openOrder p w)) → Carries (toFailed .targetDropped (openOrder p w)) t) :
    gateDrive t p = .off ∧ GapTargetFailed 3 (openOrder p (sampled r s)) t := by
  have gone' := before_absent b gone
  obtain ⟨tail, tx⟩ := tail_toFailed .targetDropped (shut_opened gone') (calm_openOrder b.calm)
  have carries := rest tail
  refine ⟨gateDrive_off (carries.shut p tail.shut).1, ?_⟩
  have failed := gapTargetFailed_toFailed .targetDropped (openOrder p w)
    (by rw [show (openOrder p w).spc.sw = s.spc.sw from (before_sw b).1]; exact phase)
  refine gapTargetFailed_agree (gapTargetFailed_carried failed tx carries) (b.choice ?_) ?_ ?_ ?_ b.tx b.owed
  · rw [sampled_present]
    exact gone
  · show w.spc.feeding = (sampled r s).spc.feeding
    rw [b.spc]
  · show w.spc.sw = (sampled r s).spc.sw
    rw [b.spc]
  · show w.spc.settings = (sampled r s).spc.settings
    rw [b.spc]

/-- R9: a CLOSING path whose source is gone drops out at its turn. -/
theorem protect_closing (b : Before p (sampled r s) w) (gone : presentAt p (min 65535 (volts r p)) = false)
    (target : s.spc.sw.toSrc = p)
    (phase : (s.spc.sw.phase = .ovlClose ∨ s.spc.sw.phase = .ovlHold) ∨ s.spc.sw.phase = .gapClose)
    (closing : (s.path p).state = .closing) : protect p w = toFailed .targetDropped (openOrder p w) := by
  have sw : (openOrder p w).spc.sw = s.spc.sw := (before_sw b).1
  rw [protect_dropped ((before_state b).trans closing) (before_absent b gone)]
  exact pathDown_toPath .dropped (by rw [sw]; exact target) (by rw [sw]; exact phase)

/-- R39: a CLOSED path whose source is gone, at most at its threshold, has its over count cleared at its turn. -/
theorem counted_gone (b : Before p (sampled r s) w) (gone : presentAt p (min 65535 (volts r p)) = false)
    (closed : (s.path p).state = .closed) (below : max (-32768) (min 32767 (amps r p)) ≤ (threshold s p : Int)) :
    Counted w (protect p w) := by
  have state := (before_state b).trans closed
  have absent := before_absent b gone
  have volt : overvolt w p = false := by
    cases p with
    | dcIn =>
      have low : ¬Config.dcPresentMv ≤ (w.path .dcIn).voltage := by simpa [present, presentAt] using absent
      exact decide_eq_false fun high => low (le_trans (by decide) high)
    | bayA => rfl
    | bayB => rfl
  have th := before_threshold b
  have current := before_current b
  have notShort : ¬((3 * threshold s p : Nat) : Int) < (w.path p).current := by
    rw [current]
    omega
  have notOver : ¬(threshold s p : Int) < (w.path p).current := by
    rw [current]
    omega
  have cleared : protect p w = w.setPath p { w.path p with overCount := 0 } := by
    simp only [protect, state, volt, shortLimit, th, if_neg notShort, overStep, if_neg notOver]
    rfl
  rw [cleared]
  refine ⟨rfl, fun q => ?_⟩
  rw [setPath_path]
  split
  · rename_i same
    subst same
    rfl
  · rfl

/-- R39: in OVL_HOLD a to path whose source is gone drops out. -/
theorem holdDropout_gone (b : Before p (sampled r s) w) (gone : presentAt p (min 65535 (volts r p)) = false)
    (target : s.spc.sw.toSrc = p) (hold : s.spc.sw.phase = .ovlHold) :
    holdDropout w = toFailed .targetDropped (openOrder p w) := by
  have sw := (before_sw b).1
  have drops : holdDropout w = openAndReport p .dropped w := by
    have toSrc : w.spc.sw.toSrc = p := by rw [sw]; exact target
    unfold holdDropout
    rw [toSrc, if_pos ⟨by rw [sw]; exact hold, before_absent b gone⟩]
  rw [drops]
  refine pathDown_toPath .dropped ?_ (.inl (.inr ?_))
  · rw [show (openOrder p w).spc.sw = s.spc.sw from sw]
    exact target
  · rw [show (openOrder p w).spc.sw = s.spc.sw from sw]
    exact hold

/-- R2, R10, R40: a CLOSED from path above its short limit opens at its turn, over the voltage limit or with a trip, and reports
it. -/
theorem protect_fromPath (b : Before p (sampled r s) w) (from_ : s.spc.sw.fromSrc = some p) (target : s.spc.sw.toSrc ≠ p)
    (phase : s.spc.sw.phase = .ovlClose ∨ s.spc.sw.phase = .ovlHold) (closed : (s.path p).state = .closed)
    (short : ((3 * threshold s p : Nat) : Int) < max (-32768) (min 32767 (amps r p))) :
    ∃ v, protect p w = fromLost v ∧ Shut v p ∧ (∀ x, x ≠ p → CalmAt v x) ∧ v.spc.sw = s.spc.sw ∧
      v.spc.feeding = s.spc.feeding ∧ v.slu.tx = s.slu.tx ∧ v.slu.owedSelect = s.slu.owedSelect := by
  obtain ⟨sw, feeding, tx, owed⟩ := before_sw b
  have state := (before_state b).trans closed
  have th := before_threshold b
  have current := before_current b
  have reports : ∀ d v, v.spc.sw = s.spc.sw → pathDown p d v = fromLost v := fun d v same =>
    pathDown_fromPath d (by rw [same]; exact from_) (by rw [same]; exact target) (by rw [same]; exact phase)
  cases volt : overvolt w p with
  | true =>
    have opens : protect p w = openAndReport p .overvolt w := by simp only [protect, state, volt, if_true]
    have path : (openOrder p w).path p = (w.path p).openOrdered := by rw [openOrder_path, if_pos rfl]
    refine ⟨openOrder p w, opens.trans (reports _ _ sw), ⟨gate_off (by rw [path]; exact openOrdered_off _), .inr (.inr ?_)⟩,
      calm_openOrder b.calm, sw, feeding, tx, owed⟩
    cases p with
    | dcIn =>
      unfold overvolt at volt ⊢
      rw [path, (openOrdered_samePath _).2.1]
      exact volt
    | bayA => cases volt
    | bayB => cases volt
  | false =>
    have trips : protect p w = tripAndReport p .short w := by
      simp only [protect, state, volt, shortLimit, th, current, if_pos short]
      rfl
    have faulted : Faulted ((trip p .short w).path p) := trip_path p .short w ▸ faulted_tripped ..
    refine ⟨trip p .short w, trips.trans (reports _ _ sw), ⟨faulted.off, .inl ?_⟩, fun x ne => ?_, sw, feeding,
      (raised_tx _ _).trans tx, (raised_owedSelect _ _).trans owed⟩
    · rcases faulted with h | h <;> rw [h] <;> decide
    · have path : (trip p .short w).path x = w.path x := (setPath_path w p _ x).trans (if_neg ne)
      exact calmAt_of (s := w) (by rw [path]) (by rw [path]) (by rw [path]) rfl (b.calm x ne)

end Sample

/-- R39 to R41: a path that fails at a sample in which the other sources are calm. -/
theorem sample_failures (p : Source) (r : Readings) (s : State) (calm : ∀ x, x ≠ p → CalmSource r s x) :
    let t := arbitrate (monitorSample r s)
    (s.spc.sw.toSrc = p → presentAt p (min 65535 (volts r p)) = false →
      (s.spc.sw.phase = .ovlClose ∧ (s.path p).state = .closing ∨
          s.spc.sw.phase = .ovlHold ∧ (s.path p).state = .closed ∧
            max (-32768) (min 32767 (amps r p)) ≤ (threshold s p : Int) →
        gateDrive t p = .off ∧ ToPathFailed 3 (openOrder p (sampled r s)) t) ∧
      (s.spc.sw.phase = .gapClose → (s.path p).state = .closing →
        gateDrive t p = .off ∧ GapTargetFailed 3 (openOrder p (sampled r s)) t)) ∧
    (s.spc.sw.fromSrc = some p → s.spc.sw.toSrc ≠ p → s.spc.sw.phase = .ovlClose ∨ s.spc.sw.phase = .ovlHold →
      (s.path p).state = .closed → ((3 * threshold s p : Nat) : Int) < max (-32768) (min 32767 (amps r p)) →
      gateDrive t p = .off ∧ FromPathLost s t) := by
  intro t
  obtain ⟨w, b, rest⟩ := failure_carried r s p calm
  refine ⟨fun target gone => ⟨?_, fun phase closing => ?_⟩, fun from_ target phase closed short => ?_⟩
  · rintro (⟨phase, closing⟩ | ⟨hold, closed, below⟩)
    · rw [protect_closing b gone target (.inl (.inl phase)) closing] at rest
      exact dropout_overlap b gone (.inl phase) rest
    · obtain ⟨w', b', rest'⟩ := dropout_carried r s p calm fun _ b => counted_gone b gone closed below
      rw [holdDropout_gone b' gone target hold] at rest'
      exact dropout_overlap b' gone (.inr hold) rest'
  · rw [protect_closing b gone target (.inr phase) closing] at rest
    exact dropout_gap b gone phase rest
  · obtain ⟨v, lost, shut, calm', sw, feeding, tx, owed⟩ := protect_fromPath b from_ target phase closed short
    have tail := tail_fromLost shut calm' (by rw [sw]; exact phase)
    rw [lost] at rest
    have carries := rest tail
    have sent : (fromLost v).slu.tx = v.slu.tx := by rw [(reported_fromLost v).link]
    refine ⟨gateDrive_off (carries.shut p tail.shut).1, ?_⟩
    exact fromPathLost_agree (fromPathLost_carried (fromPathLost_fromLost v) (fun busy => by rw [sent]; exact busy) carries)
      feeding sw tx owed

/-- Settles O30: the trip at the end of a blanking window, the report of a failed path, and a failure at a sample. -/
theorem blankingEndTripsOnInrush : Obligations.BlankingEndTripsOnInrush := by
  refine ⟨fun p s closing above => ?_, pathDown_spec, fun p r s calm => ⟨_, rfl, sample_failures p r s calm⟩⟩
  have trips : blankingEnd p s = tripAndReport p .inrush s := if_pos above
  refine ⟨inrushEnd p s, ?_, inrushEnd_path p s closing, inrushEnd_notice p s, inrushEnd_frame p s closing,
    fun target => ⟨inrushEnd_overlap p s closing target, inrushEnd_gap p s closing target⟩⟩
  rw [exec_blankingEnd closing, trips]
  rfl

end Sys2Proof.SourcePaths

/-! ## A blanking window that ends at or below the threshold (O31) -/

namespace Sys2Proof.SourcePaths

open Sys2Proof.Machine Sys2Proof.Safety

/-! ### A deferred reply that is the first of its event (R172, R176) -/

/-- R172, R176: a reply that its event has pushed first is on the transmitter or in the FIFO at the end of the event. -/
theorem madeReply_arbitrate {s v : State} {r : Reply} (ok : TransmitterOk s) (tx : v.slu.tx = s.slu.tx)
    (drop : v.slu.outbox.dropAlert = s.slu.outbox.dropAlert) (first : s.slu.fifo ++ [r] <+: v.slu.fifo) :
    MadeReply s (arbitrate v) r where
  sent := fun idle => by
    obtain ⟨fifo, outbox⟩ := ok idle
    obtain ⟨rest, eq⟩ := first
    have noAlert : v.slu.outbox.dropAlert = 0 := drop.trans (outbox .dropAlert)
    have queue : v.slu.fifo = r :: rest := by rw [← eq, fifo]; rfl
    have silent : v.slu.tx = none := tx.trans idle
    simp [arbitrated, silent, noAlert, queue]
  waits := fun busy => by
    rw [arbitrate_busy (by rw [tx]; exact busy)]
    exact first.subset (by simp)

/-- R48, R172: the reply of the SELECT_SOURCE that is owed one. -/
theorem answerSelect_fifo {st : Status} {f : Option FailReason} {s : State} {tag : Byte} (owed : s.slu.owedSelect = some tag) :
    (answerSelect st f s).slu.fifo =
      s.slu.fifo ++ [{ tag := tag, payload := replyPayload (ReqKind.byte .selectSource) st f (selectBytes s) }] := by
  simp [answerSelect, owed, Slu.pushReply]

/-- R56, R172: the reply of the RELEASE_BAY that is owed one. -/
theorem grantBay_fifo {bay : Bay} {s : State} {tag : Byte} (owes : (s.latch bay).hostOwed = true)
    (owed : s.slu.owedRelease = some tag) :
    (grantBay bay s).slu.fifo =
      s.slu.fifo ++ [replyOf .releaseBay tag .ok (latchBytes (grantBay bay s) bay)] := by
  have owes' : ((clearPack bay (s.setLatch bay (s.latch bay).grant)).latch bay).hostOwed = true := by
    show ((s.setLatch bay (s.latch bay).grant).latch bay).hostOwed = true
    rw [setLatch_latch, if_pos rfl]
    exact owes
  have slu := answerRelease_some bay .ok none (clearPack bay (s.setLatch bay (s.latch bay).grant)) tag owes' owed
  show ((answerRelease bay .ok none (clearPack bay (s.setLatch bay (s.latch bay).grant))).slu.raised .release).fifo = _
  rw [raised_fifo, slu]
  rfl

/-- R53: in STILL, with the other bay neither granted nor asking, a bay that does not feed is granted. -/
theorem evaluate_grants {s : State} {bay : Bay} (still : s.ddt.phase = .still)
    (other : (s.latch (otherBay bay)).release ≠ .granted) (asks : askRuns s (otherBay bay) = false)
    (idle : inFlight s = false) (off : s.spc.feeding ≠ some (baySource bay)) : evaluate bay s = grantBay bay s := by
  rw [evaluate_asks still other, if_neg (by simp [asks]), askRelease_moved idle off]

/-! ### The switchover that a closed path completes (R30 to R32) -/

theorem startsOnce_arbitrate (s : State) : StartsOnce s (arbitrate s) := startsOnce_same (same_spc (arbitrate_spc s))

section Closed

variable (p : Source) (s : State)

/-- R8: the path has closed. -/
def closedState : State := s.setPath p (s.path p).closedNow

/-- R32, steps 1 and 2: the switchover that the closed path completes has ended. -/
def completedState : State := endedState .completed (closedState p s)

/-- The event that completes a switchover, up to its last step. -/
def completion : State := settle false (pathClosed p (closedState p s))

theorem exec_blankingEnd_closes (closing : (s.path p).state = .closing)
    (below : (s.path p).current ≤ (threshold s p : Int)) :
    exec (.blankingEnd p) s = .next (arbitrate (completion p s)) := by
  have closes : blankingEnd p s = pathClosed p (closedState p s) := if_neg (not_lt.mpr below)
  rw [exec_blankingEnd closing, closes]
  rfl

theorem sameAsk_closedState : SameAsk (closedState p s) s := ⟨fun _ => rfl, rfl, rfl, rfl, rfl, rfl⟩

theorem reported_completion : Reported (closedState p s) (completion p s) :=
  (reported_pathClosed p _).trans (kept_settle false _).toReported

theorem closedState_path : (closedState p s).path p = (s.path p).closedNow := by
  rw [closedState, setPath_path, if_pos rfl]

/-- R30: the to path of an OVERLAP switchover has closed, and the overlap time runs. -/
theorem pathClosed_overlap {v : State} (target : v.spc.sw.toSrc = p) (phase : v.spc.sw.phase = .ovlClose) :
    pathClosed p v =
      { v with
        spc :=
          { v.spc with
            sw := { v.spc.sw with phase := .ovlHold }
            overlapTimer := some v.spc.settings.overlapMs } } := by
  simp [pathClosed, inFlight, target, phase]

theorem pathClosed_gap {v : State} (target : v.spc.sw.toSrc = p) (phase : v.spc.sw.phase = .gapClose) :
    pathClosed p v = endSwitchover .completed .targetTripped v := by
  simp [pathClosed, inFlight, target, phase]

/-- R27, R30: in OVL_HOLD the switchover is in flight, and no trigger starts another. -/
theorem completion_overlap (target : s.spc.sw.toSrc = p) (phase : s.spc.sw.phase = .ovlClose) :
    Same (pathClosed p (closedState p s)) (completion p s) := by
  refine (startsOnce_settle false _).flight ?_
  rw [pathClosed_overlap p (v := closedState p s) target phase]
  simp [inFlight]

theorem overlap_spec (target : s.spc.sw.toSrc = p) (phase : s.spc.sw.phase = .ovlClose) :
    let t := arbitrate (completion p s)
    t.path p = (s.path p).closedNow ∧ gateDrive t p = .fullyOn ∧
      t.spc.sw = { s.spc.sw with phase := .ovlHold } ∧ t.spc.overlapTimer = some s.spc.settings.overlapMs ∧
      t.spc.feeding = s.spc.feeding := by
  intro t
  have same := completion_overlap p s target phase
  rw [pathClosed_overlap p (v := closedState p s) target phase] at same
  have path : t.path p = (s.path p).closedNow := (same.path p).trans (closedState_path p s)
  refine ⟨path, ?_, same.sw, same.overlapTimer, same.feeding⟩
  simp [gateDrive, path, PathRecord.closedNow]

section Gap

variable (target : s.spc.sw.toSrc = p)

include target in
theorem completedState_feeding : (completedState p s).spc.feeding = some p := by
  rw [completedState, (endedState_spc _ _).2.1, ended_feeding]
  exact congrArg some target

theorem completedState_path : (completedState p s).path p = (s.path p).closedNow :=
  ((same_publishSituation _).path p).trans ((path_ended _ _ p).trans (closedState_path p s))

theorem completedState_idle : inFlight (completedState p s) = false := by
  rw [inFlight, completedState, (endedState_spc _ _).1]
  rfl

variable (phase : s.spc.sw.phase = .gapClose)
include target phase

theorem completion_gap :
    completion p s = settle false (endSwitchover .completed .targetTripped (closedState p s)) :=
  congrArg (settle false) (pathClosed_gap p (v := closedState p s) target phase)

/-- R25, R31, R32: the closed path feeds, and stays closed or is what a new switchover of the event starts from. -/
theorem gap_feeds :
    let t := arbitrate (completion p s)
    t.spc.feeding = some p ∧ t.spc.sw.outcome = .completed ∧ (gateDriven t p = true ∨ t.spc.sw.fromSrc = some p) := by
  intro t
  have event : t = arbitrate (settle false (endSwitchover .completed .targetTripped (closedState p s))) :=
    congrArg arbitrate (completion_gap p s target phase)
  have feeding := completedState_feeding p s target
  have closed : ((completedState p s).path p).state = .closed := by rw [completedState_path]; rfl
  obtain ⟨ended, -⟩ := ended_endSwitchover .completed .targetTripped (closedState p s)
  have starts : StartsOnce (completedState p s) t := by
    rw [event]
    exact ((startsOnce_endSwitchover .completed .targetTripped (closedState p s)).trans (startsOnce_settle false _)).trans
      (startsOnce_arbitrate _)
  refine ⟨starts.feeding.trans feeding, ?_, ?_⟩
  · rw [event]
    exact (carries_event _).outcome.trans ended.outcome
  · rcases starts.path p with same | ⟨-, from_, -⟩
    · exact .inl (gateDriven_closed (by rw [same]; exact closed))
    · exact .inr (from_.trans feeding)

/-- R32: a reply that the end of the switchover has pushed first is made. -/
theorem madeReply_gap {v : State} {r : Reply} (ok : TransmitterOk s)
    (ends : endSwitchover .completed .targetTripped (closedState p s) = settle true v)
    (first : v.slu.fifo = (completedState p s).slu.fifo ++ [r]) : MadeReply s (arbitrate (completion p s)) r := by
  have reported := reported_completion p s
  refine madeReply_arbitrate ok (by rw [reported.link]; rfl) (reported.kinds .dropAlert (by decide) (by decide)) ?_
  have fifo : (completedState p s).slu.fifo = s.slu.fifo := (endedState_slu _ _).2.1
  rw [← fifo, ← first, completion_gap p s target phase, ends]
  exact (kept_settle true v).grows.trans (kept_settle false _).grows

/-- R48: the SELECT_SOURCE that started the switchover is answered OK. -/
theorem gap_select (ok : TransmitterOk s) (tag : Byte) (reason : s.spc.sw.reason = .hostSelect)
    (owed : s.slu.owedSelect = some tag) :
    let t := arbitrate (completion p s)
    t.slu.owedSelect = none ∧
      MadeReply s t
        { tag := tag
          payload :=
            [0x15, 0, BitVec.ofNat 8 (Source.code p)] ++
              switchoverBytes { s.spc.sw with phase := .idle, tried := [], outcome := .completed } } := by
  intro t
  have ends : endSwitchover .completed .targetTripped (closedState p s) =
      settle true (answerSelect .ok none (completedState p s)) := by
    show settle true (retryHeld s.spc.sw.reason _ .completed
      (answerStarter s.spc.sw.reason _ .completed .targetTripped (completedState p s))) = _
    rw [reason]
    rfl
  have owed' : (completedState p s).slu.owedSelect = some tag := (endedState_slu _ _).1.trans owed
  obtain ⟨-, answered⟩ := ended_endSwitchover .completed .targetTripped (closedState p s)
  refine ⟨?_, ?_⟩
  · obtain ⟨none, -⟩ := answered tag reason owed
    have event : t = arbitrate (settle false (endSwitchover .completed .targetTripped (closedState p s))) :=
      congrArg arbitrate (completion_gap p s target phase)
    rw [event]
    exact (carries_event _).owedSelect.trans none
  · refine madeReply_gap p s target phase ok ends ((answerSelect_fifo owed').trans ?_)
    rw [selectBytes, completedState_feeding p s target, completedState, (endedState_spc _ _).1]
    rfl

section Ask

variable {bay : Bay} (ask : AskInFlight bay s) (ne : p ≠ baySource bay)
include ask ne

omit phase ask in
theorem completedState_off : (completedState p s).spc.feeding ≠ some (baySource bay) := by
  rw [completedState_feeding p s target]
  simpa using ne

/-- R55: the ask of the bay that the switchover has freed of the load, with the transmitter busy. -/
theorem gap_asked : AskMoved (Joins s (arbitrate (completion p s))) bay s (arbitrate (completion p s)) := by
  have ask' : AskInFlight bay (closedState p s) := ⟨ask.reason, ask.source, ask.pending, ask.cause⟩
  have off : ((closedState p s).spc.ended .completed).feeding ≠ some (baySource bay) := by
    rw [← (endedState_spc _ _).2.1]
    exact completedState_off p s target ne
  have reported := reported_endSwitchover .completed .targetTripped (closedState p s)
  have moved := askMoved_endSwitchover .completed .targetTripped bay (closedState p s) ask' (by decide) off
  rw [completion_gap p s target phase]
  exact (sameAsk_closedState p s).moved
    (askMoved_event false (by rw [reported.link]) (by rw [reported.rest]) ask'.pending moved)

omit phase in
/-- R53, R55: in STILL, where the other bay does not hold it, the bay is granted before the triggers are examined. -/
theorem gap_grants (still : s.ddt.phase = .still) (other : (s.latch (otherBay bay)).release ≠ .granted)
    (asks : askRuns s (otherBay bay) = false) :
    endSwitchover .completed .targetTripped (closedState p s) = settle true (grantBay bay (completedState p s)) := by
  have ask' : AskInFlight bay (closedState p s) := ⟨ask.reason, ask.source, ask.pending, ask.cause⟩
  obtain ⟨latch, -, -, -, motion⟩ := endedState_kept .completed (closedState p s)
  have grants : evaluate bay (completedState p s) = grantBay bay (completedState p s) :=
    evaluate_grants (by rw [completedState, motion]; exact still) (by rw [completedState, latch]; exact other)
      ((askRuns_latch (latch _)).trans asks) (completedState_idle p s) (completedState_off p s target ne)
  rw [endSwitchover_ask _ _ _ _ ask', if_neg (by decide)]
  exact congrArg (settle true) grants

/-- R55: the ask of that bay is answered MOVED, and the reply owed is the first of the event. -/
theorem gap_ask (ok : TransmitterOk s) :
    AskMoved (MadeReply s (arbitrate (completion p s))) bay s (arbitrate (completion p s)) := by
  have moved := gap_asked p s target phase ask ne
  refine ⟨moved.waits, fun still other asks => ?_⟩
  have granted := moved.granted still other asks
  refine ⟨granted.record, granted.pack, granted.notice, fun tag owes owed => ?_⟩
  obtain ⟨none, -⟩ := granted.answered tag owes owed
  obtain ⟨latch, -, owedSame, -, -⟩ := endedState_kept .completed (closedState p s)
  have owes' : ((completedState p s).latch bay).hostOwed = true := by rw [completedState, latch]; exact owes
  have fifo := grantBay_fifo (s := completedState p s) owes' (owedSame.trans owed)
  have record : (arbitrate (completion p s)).latch bay = (grantBay bay (completedState p s)).latch bay := by
    rw [granted.record, grantBay_latch, completedState, latch]
    rfl
  have bytes : latchBytes (arbitrate (completion p s)) bay = latchBytes (grantBay bay (completedState p s)) bay := by
    unfold latchBytes
    rw [record]
  rw [bytes]
  exact ⟨none, madeReply_gap p s target phase ok (gap_grants p s target ask ne still other asks) fifo⟩

end Ask

end Gap

end Closed

/-- Settles O31: the closed path starts the overlap time, or completes the switchover and answers what started it. -/
theorem blankingEndClosesPath : Obligations.BlankingEndClosesPath := by
  intro p s ok closing below
  refine ⟨arbitrate (completion p s), exec_blankingEnd_closes p s closing below,
    supplyFrame_event (reported_pathClosed p (closedState p s)), fun phase target => overlap_spec p s target phase,
    fun phase target => ?_⟩
  obtain ⟨feeding, outcome, driven⟩ := gap_feeds p s target phase
  exact ⟨feeding, outcome, driven, gap_select p s target phase ok,
    fun _ ask ne => gap_ask p s target phase ask ne ok⟩

end Sys2Proof.SourcePaths

/-! ## Every step keeps the laws of the supply and the situation (O37, O38, O39) -/

namespace Sys2Proof.SupplyLaws

open Sys2Proof.Machine Sys2Proof.Safety Sys2Proof.SourcePaths

/-! ### What the commands of the other blocks leave alone -/

/-- `t` is as `s` in all that the laws of the supply and the situation read: the SPC, the latch records, the temperatures of the
bays, and whether the motion phase is STILL. -/
structure Beside (s t : State) : Prop where
  spc : t.spc = s.spc
  latches : t.ltc.latches = s.ltc.latches
  temp : ∀ bay, bayTemp t bay = bayTemp s bay
  motion : t.ddt.phase = .still ↔ s.ddt.phase = .still

theorem Beside.refl (s : State) : Beside s s := ⟨rfl, rfl, fun _ => rfl, Iff.rfl⟩

theorem Beside.trans {s t u : State} (h : Beside s t) (g : Beside t u) : Beside s u :=
  ⟨g.spc.trans h.spc, g.latches.trans h.latches, fun bay => (g.temp bay).trans (h.temp bay), g.motion.trans h.motion⟩

/-- A change outside the SPC, the LTC, the DDT and the channel records. -/
theorem beside_of {s t : State} (spc : t.spc = s.spc) (ltc : t.ltc = s.ltc) (records : t.scv.records = s.scv.records)
    (ddt : t.ddt.phase = s.ddt.phase) : Beside s t :=
  ⟨spc, by rw [ltc], fun bay => by unfold bayTemp; rw [records], by rw [ddt]⟩

theorem beside_slu (s : State) (u : Slu) : Beside s { s with slu := u } := beside_of rfl rfl rfl rfl

theorem beside_raiseIf (b : Bool) (k : NoticeKind) (s : State) : Beside s (raiseIf b k s) := by
  cases b
  · exact .refl s
  · exact beside_slu s _

theorem beside_withBre (s : State) (e : Bre) : Beside s (s.withBre e) := beside_of rfl rfl rfl rfl

/-- R65: a record of a channel that is no bay's. -/
theorem beside_setChannel {c : Channel} (other : ∀ bay, bayChannel bay ≠ c) (r : ChannelRecord) (s : State) :
    Beside s (s.setChannel c r) :=
  ⟨rfl, rfl, fun bay => by unfold bayTemp; rw [setChannel_record, if_neg (other bay)], Iff.rfl⟩

theorem scvWalk_records (q : Platform) (v : Scv) : (v.startWalk q).records = v.records := by
  unfold Scv.startWalk
  split <;> rfl

theorem scvWake_records (q : Platform) (v : Scv) : (v.wake q).records = v.records := by
  unfold Scv.wake
  split
  · exact scvWalk_records q v
  · rfl

theorem startNext_records (q : Platform) (v : Scv) : (v.startNext q).records = v.records := by
  unfold Scv.startNext
  split
  · rfl
  · exact scvWalk_records q v

theorem beside_startNextConversion (s : State) : Beside s (startNextConversion s) :=
  beside_of rfl rfl (startNext_records _ _) rfl

theorem beside_finishOneShot (c : Channel) (s : State) : Beside s (finishOneShot c s) := by
  unfold finishOneShot
  split
  · unfold answerConvert
    split <;> exact beside_of rfl rfl rfl rfl
  · exact .refl s
  · exact .refl s

theorem beside_answer (tag : Byte) (k : ReqKind) (st : Status) (res : List Byte) (s : State) :
    Beside s (answer tag k st res s) := beside_slu s _

theorem beside_publishPlatform (q : Platform) (s : State) : Beside s (publishPlatform q s) := by
  unfold publishPlatform
  dsimp only
  split
  · exact .refl s
  · refine beside_of rfl rfl ?_ rfl
    dsimp only
    split
    · exact scvWake_records _ _
    · rfl

/-! ### The requests of the other blocks -/

/-- The requests that act on the supply or the latches. -/
def actsOnSupply (k : ReqKind) : Bool :=
  match k with
  | .setPath | .getPath | .clearPath | .setSupply | .selectSource | .packInfo | .releaseBay | .reset => true
  | _ => false

theorem beside_convertNow (tag : Byte) (p : List Byte) (s : State) : Beside s (handleConvertNow tag p s) := by
  unfold handleConvertNow
  split
  · exact beside_slu s _
  · split
    · exact beside_slu s _
    · split
      · exact beside_slu s _
      · exact beside_of rfl rfl rfl rfl

theorem beside_setMotion (tag : Byte) (p : List Byte) (s : State) : Beside s (handleSetMotion tag p s) := by
  unfold handleSetMotion
  split
  · exact beside_slu s _
  · rename_i rate a _
    split
    · exact beside_slu s _
    · have stored : Beside s { s with mpt := s.mpt.stored rate, ddt := s.ddt.stored a.clamped } :=
        beside_of rfl rfl rfl rfl
      exact (stored.trans (beside_raiseIf _ _ _)).trans (beside_slu _ _)

theorem beside_setPlatform (tag : Byte) (p : List Byte) (s : State) : Beside s (handleSetPlatform tag p s) := by
  unfold handleSetPlatform
  split
  · exact ((beside_slu s _).trans (beside_publishPlatform _ _)).trans (beside_slu _ _)
  · exact beside_slu s _
  · exact beside_slu s _

/-- The other requests read, or act on the sense, the light, the motion and the link. -/
theorem beside_handled (k : ReqKind) (other : actsOnSupply k = false) (tag : Byte) (p : List Byte) (s : State) :
    Beside s (handleOwned k tag p s) := by
  cases k with
  | setPath | getPath | clearPath | setSupply | selectSource | packInfo | releaseBay | reset => cases other
  | getSupply | getSense | getBrightness | getMotion | getStatus | getIdent => exact beside_slu s _
  | getLatch =>
    unfold handleOwned handleGetLatch
    dsimp only
    split <;> exact beside_slu s _
  | setSense =>
    unfold handleOwned handleSetSense
    dsimp only
    split
    · exact beside_slu s _
    · exact beside_of rfl rfl (scvWake_records _ _) rfl
  | loadThermistor =>
    unfold handleOwned handleLoadThermistor
    dsimp only
    split <;> exact beside_of rfl rfl rfl rfl
  | convertNow => exact beside_convertNow tag p s
  | setBrightness =>
    unfold handleOwned handleSetBrightness
    dsimp only
    split
    · exact beside_slu s _
    · exact (beside_withBre s _).trans (beside_slu _ _)
  | loadCurve =>
    unfold handleOwned handleLoadCurve
    dsimp only
    split
    · exact beside_slu s _
    · exact (beside_withBre s _).trans (beside_slu _ _)
  | setLamp =>
    unfold handleOwned handleSetLamp
    dsimp only
    split <;> exact beside_of rfl rfl rfl rfl
  | getLamp =>
    unfold handleOwned handleGetLamp
    dsimp only
    split <;> exact beside_slu s _
  | lampClear =>
    unfold handleOwned handleLampClear
    dsimp only
    split <;> exact beside_of rfl rfl rfl rfl
  | setMotion => exact beside_setMotion tag p s
  | readDrop =>
    unfold handleOwned handleReadDrop
    dsimp only
    split <;> exact beside_of rfl rfl rfl rfl
  | eraseDrops => exact beside_of rfl rfl rfl rfl
  | setPlatform => exact beside_setPlatform tag p s
  | setNoticeMask =>
    unfold handleOwned handleSetNoticeMask
    dsimp only
    split <;> exact beside_slu s _


/-! ### The scheme of an invariant -/

/-- What a law of the supply must keep to be kept by every command: `P` is the law and `Pre` what an event has to leave for its
examination of the triggers to bring the law about. -/
structure EventLaw (Pre P : State → Prop) : Prop where
  beside : ∀ s t, Beside s t → P s → P t
  latch : ∀ s bay l, l.commanded = (s.latch bay).commanded → l.release = (s.latch bay).release →
    l.insecure = (s.latch bay).insecure → P s → P (s.setLatch bay l)
  path : ∀ s p r, r.voltage = (s.path p).voltage → r.state = (s.path p).state → r.isEmpty = (s.path p).isEmpty →
    r.settings = (s.path p).settings → P s → P (s.setPath p r)
  powerOn : ∀ btnA btnB lsnsA lsnsB pending, P (.powerOn btnA btnB lsnsA lsnsB pending)
  reset : ∀ s, inFlight s = false → P s → P (examineReset (publishSituation (resetBlocks s)))
  before : ∀ s, P s → Pre s
  settles : ∀ b s, Pre s → P (settle b s)
  agrees : ∀ s t, Agrees s t → Pre s → Pre t
  pathOff : ∀ s p r, gateDriven s p = false → r.state ≠ .closing ∧ r.state ≠ .closed → Pre s → Pre (s.setPath p r)
  starts : ∀ reason q s, canStart s = true → available s q = true → s.spc.feeding ≠ some q → Pre s →
    Pre (startSwitchover reason s.spc.feeding q [] s)
  blanking : ∀ p s, (s.path p).state = .closing → Pre s → Pre (blankingEnd p s)
  deadTime : ∀ s, s.spc.sw.phase = .gapDead → Pre s → Pre (deadTimeExpiry s)
  overlap : ∀ s, s.spc.sw.phase = .ovlHold → Pre s → Pre (overlapExpiry s)
  sample : ∀ r s, Pre s → Pre (busLowStep (lossStep (sampledPaths r s)))
  release : ∀ bay o s, Pre s → Pre (releaseRequest bay o s)
  window : ∀ bay e s, Pre s → Pre (endWindow bay e s)
  leaves : ∀ s u m d, Pre s → Pre (breMotion true (revokeBay .b (revokeBay .a { s with slu := u, mpt := m, ddt := d })))
  returns : ∀ s u m d, s.ddt.phase ≠ .still → Pre s → Pre (breMotion false { s with slu := u, mpt := m, ddt := d })

/-- What a command leads to, where it has a next state, has the property. -/
def Leads (P : State → Prop) (o : Host.Outcome State Fault Refusal) : Prop := ∀ t, o = .next t → P t

theorem leads_next {P : State → Prop} {t : State} (h : P t) : Leads P (.next t) := fun _ e => Host.Outcome.next.inj e ▸ h

theorem leads_ite {P : State → Prop} {c : Prop} [Decidable c] {x y : Host.Outcome State Fault Refusal}
    (h : c → Leads P x) (g : ¬c → Leads P y) : Leads P (if c then x else y) := by
  split
  · exact h ‹_›
  · exact g ‹_›

/-- R19, R21: a change of the members of a source set keeps what each change of one keeps. -/
theorem onMembers_keeps {Q : State → Prop} {s : State} (m : PerSource Bool) (g : Source → PathRecord → PathRecord)
    (keeps : ∀ p v, Q v → Q (changePath g p v)) (h : Q s) : Q (onMembers m (changePath g) s) := by
  have one : ∀ p v, Q v → Q (onMember m (changePath g) p v) := fun p v hv => by
    unfold onMember
    split
    · exact keeps p v hv
    · exact hv
  exact one _ _ (one _ _ (one _ _ h))

namespace EventLaw

variable {Pre P : State → Prop} (law : EventLaw Pre P) {s : State}
include law

theorem slu (u : Slu) (h : P s) : P { s with slu := u } := law.beside s _ (beside_slu s u) h

theorem preSlu (u : Slu) (h : Pre s) : Pre { s with slu := u } := law.agrees s _ (agrees_of rfl rfl rfl rfl rfl) h

/-- The end of an event that examines the triggers. -/
theorem event (b : Bool) (h : Pre s) : P (arbitrate (settle b s)) := law.slu _ (law.settles b s h)

theorem clearOwed (bay : Bay) (h : P s) : P (clearOwed bay s) := law.latch s bay _ rfl rfl rfl h

theorem answerRelease (bay : Bay) (st : Status) (f : Option FailReason) (h : P s) : P (answerRelease bay st f s) := by
  unfold Machine.answerRelease
  split
  · dsimp only
    split
    · exact law.clearOwed bay h
    · exact law.slu _ (law.clearOwed bay h)
  · exact h

/-! #### The requests that act on the supply or the latches -/

/-- R15, R16, R21: a record that keeps its state, or becomes OPEN with its gate off, is put on its path. -/
theorem recovers (p : Source) (r : PathRecord)
    (state : r.state = (s.path p).state ∨ gateDriven s p = false ∧ r.state = .opened) (h : Pre s) : Pre (s.setPath p r) := by
  rcases state with same | ⟨off, opened⟩
  · refine law.agrees s _ ⟨fun q => ?_, rfl, rfl, rfl, rfl, fun _ => ⟨rfl, rfl⟩, rfl⟩ h
    rw [setPath_path]
    split
    · rename_i e
      rw [e, same]
    · rfl
  · exact law.pathOff s p r off (by rw [opened]; decide) h

theorem setPath (tag : Byte) (p : List Byte) (h : P s) : P (handleSetPath tag p s) := by
  unfold handleSetPath
  split
  · exact law.slu _ h
  · rename_i a _
    split
    · exact law.slu _ h
    · refine law.slu _ (law.settles false _ (onMembers_keeps a.members (fun q r => r.stored (a.stored q)) (fun q v hv => ?_)
        (law.before s h)))
      refine law.recovers q _ ?_ hv
      unfold PathRecord.stored
      dsimp only
      split
      · rename_i tripped
        have off : gateDriven v q = false := gate_off (by rw [tripped]; decide)
        split
        · exact .inl rfl
        · split
          · exact .inr ⟨off, rfl⟩
          · exact .inl rfl
      · exact .inl rfl

theorem getPath (tag : Byte) (p : List Byte) (h : P s) : P (handleGetPath tag p s) := by
  unfold handleGetPath
  split
  · exact law.slu _ h
  · refine law.slu _ ?_
    generalize lowestSource _ = q
    have read := readFault_eq (s.path q)
    unfold readPath
    dsimp only
    split
    · rename_i same
      exact law.path s q _ (by rw [read]) same (by rw [read]) (by rw [read]) h
    · rename_i opens
      have reported : (s.path q).state = .tripped ∧ (s.path q).settings.strategy = .reported :=
        not_not.mp fun x => opens ((readFault_opens _).mpr x)
      refine law.settles false _ (law.recovers q _ (.inr ⟨gate_off (by rw [reported.1]; decide), ?_⟩) (law.before s h))
      rw [read]
      exact if_pos reported

theorem clearPath (tag : Byte) (p : List Byte) (h : P s) : P (handleClearPath tag p s) := by
  unfold handleClearPath
  split
  · exact law.slu _ h
  · rename_i m _
    refine law.slu _ (law.settles false _ (onMembers_keeps m (fun _ r => r.cleared) (fun q v hv => ?_) (law.before s h)))
    refine law.recovers q _ ?_ hv
    dsimp only
    rw [cleared_eq]
    dsimp only
    split
    · rename_i off
      refine .inr ⟨gate_off ?_, rfl⟩
      rcases off with off | off <;> rw [off] <;> decide
    · exact .inl rfl

theorem setSupply (tag : Byte) (p : List Byte) (h : P s) : P (handleSetSupply tag p s) := by
  unfold handleSetSupply
  split
  · exact law.slu _ h
  · exact law.slu _ (law.settles false _ (law.agrees s _ (agrees_of rfl rfl rfl rfl rfl) (law.before s h)))

theorem selectSource (tag : Byte) (p : List Byte) (h : P s) : P (handleSelectSource tag p s) := by
  unfold handleSelectSource
  split
  · exact law.slu _ h
  · split
    · exact law.slu _ h
    · rename_i can
      split
      · exact law.slu _ h
      · rename_i named
        rw [not_or, Bool.not_eq_false] at named
        exact law.settles false _
          (law.starts _ _ _ ((Bool.not_eq_false _).mp can) named.1 named.2 (law.preSlu _ (law.before s h)))

theorem packInfo (tag : Byte) (p : List Byte) (h : P s) : P (handlePackInfo tag p s) := by
  unfold handlePackInfo
  split
  · exact law.slu _ h
  · split
    · exact law.slu _ h
    · exact law.slu _ (law.settles false _ (law.agrees s _ (agrees_of rfl rfl rfl rfl rfl) (law.before s h)))

theorem releaseBay (tag : Byte) (p : List Byte) (h : P s) : P (handleReleaseBay tag p s) := by
  unfold handleReleaseBay
  split
  · exact law.slu _ h
  · rename_i bay _
    split
    · exact law.slu _ h
    · split
      · rename_i granted
        refine law.slu _ ?_
        unfold releaseRequest
        rw [granted]
        exact law.latch s bay _ rfl rfl rfl h
      · have owes : Pre (oweRelease tag bay s) :=
          law.preSlu _ (law.agrees s _ (agrees_setLatch s bay _ rfl rfl) (law.before s h))
        exact law.settles false _ (law.release bay .host _ owes)

theorem resetRequest (tag : Byte) (p : List Byte) (h : P s) : P (handleReset tag p s) := by
  unfold handleReset
  split
  · exact law.slu _ h
  · rename_i idle
    refine law.slu _ ?_
    unfold cancelOwed
    have cancelled := law.answerRelease .b .cancelled none
      (law.answerRelease .a .cancelled none (law.reset s ((Bool.not_eq_true _).mp idle) h))
    dsimp only
    split
    · unfold answerConvert
      split
      · exact cancelled
      · exact law.slu _ cancelled
    · exact cancelled

theorem handled (k : ReqKind) (tag : Byte) (p : List Byte) (h : P s) : P (handleOwned k tag p s) := by
  cases acts : actsOnSupply k
  · exact law.beside s _ (beside_handled k acts tag p s) h
  · cases k with
    | setPath => exact law.setPath tag p h
    | getPath => exact law.getPath tag p h
    | clearPath => exact law.clearPath tag p h
    | setSupply => exact law.setSupply tag p h
    | selectSource => exact law.selectSource tag p h
    | packInfo => exact law.packInfo tag p h
    | releaseBay => exact law.releaseBay tag p h
    | reset => exact law.resetRequest tag p h
    | _ => cases acts

/-! #### The link -/

theorem request (r : Request) (h : P s) : P (handleRequest r s) := by
  unfold handleRequest
  split
  · exact law.slu _ h
  · split
    · exact law.handled _ _ _ h
    · exact law.slu _ h

theorem dispatch (h : P s) : P (dispatchOne s) := by
  unfold dispatchOne
  split
  · exact h
  · exact law.request _ (law.slu _ h)

theorem finish (b : State) (h : P s) : P (finishLink b s) := by
  unfold finishLink
  dsimp only
  split
  · exact law.slu _ (law.dispatch (law.slu _ h))
  · exact law.slu _ h

theorem offer (r : Request) (h : P s) : P (offerRequest r s) := by
  unfold offerRequest
  split
  · exact law.slu _ h
  · split <;> exact law.slu _ h

theorem receive (r : Request) (h : P s) : P (receiveRequest r s) := law.finish _ (law.offer r (law.slu _ h))

theorem take (r : Received) (h : P s) : P (takeReceived r s) := by
  unfold takeReceived
  split
  · exact law.slu _ h
  · exact law.slu _ h
  · exact law.finish _ (law.offer _ (law.slu _ h))

theorem rxFrame (check : Byte) (stop : Bool) (h : P s) : Leads P (execRxFrame check stop s) := by
  unfold execRxFrame
  split
  · exact leads_next (law.take _ h)
  all_goals exact leads_next h

/-! #### Conversions -/

/-- R65, R66: a record of a channel is stored and published to its reader. -/
theorem published (c : Channel) (k : NoticeKind) (b : Bool) (r : ChannelRecord) (h : P s) (stored : Bool) :
    P (publishChannel c stored (raiseIf b k (s.setChannel c r))) ∧ P (publishStale c (raiseIf b k (s.setChannel c r))) := by
  have bay : Pre (raiseIf b k (s.setChannel c r)) := by
    refine law.agrees _ _ (agrees_raiseIf b k _) (law.agrees s _ (agrees_of rfl rfl rfl rfl rfl) (law.before s h))
  have other : (∀ x, bayChannel x ≠ c) → P (raiseIf b k (s.setChannel c r)) := fun ne =>
    law.beside _ _ ((beside_setChannel ne r s).trans (beside_raiseIf b k _)) h
  have light : ∀ v e, P v → P (State.withBre v e) := fun v e hv => law.beside v _ (beside_withBre v e) hv
  have stale : ∀ v, P v → P (breLightStale c v) := fun v hv => law.beside v _ (beside_of rfl rfl rfl rfl) hv
  cases c with
  | alsFront =>
    have h := other fun x => by cases x <;> decide
    exact ⟨light _ _ h, stale _ h⟩
  | alsRear =>
    have h := other fun x => by cases x <;> decide
    exact ⟨light _ _ h, stale _ h⟩
  | thBayA => exact ⟨law.settles false _ bay, law.settles false _ bay⟩
  | thBayB => exact ⟨law.settles false _ bay, law.settles false _ bay⟩
  | thPanel =>
    have h := other fun x => by cases x <;> decide
    exact ⟨light _ _ h, light _ _ h⟩

theorem conversion (c : Channel) (stored : Bool) (r : ChannelRecord) (h : P s) :
    P (arbitrate (conversionEnd c stored r s)) := by
  refine law.slu _ (law.beside _ _ ((beside_finishOneShot c _).trans (beside_startNextConversion _)) ?_)
  split
  · exact h
  · exact (law.published c .senseFault _ r h stored).1

theorem lightEnd (edges : Nat) (h : P s) : Leads P (execLightConversionEnd edges s) := by
  unfold execLightConversionEnd
  split
  · exact leads_next (law.conversion _ _ _ h)
  · exact leads_next h

theorem thermistorEnd (count : Nat) (h : P s) : Leads P (execThermistorConversionEnd count s) := by
  unfold execThermistorConversionEnd
  split
  · exact leads_next (law.conversion _ _ _ h)
  · exact leads_next h

theorem thermistorTimeout (h : P s) : Leads P (execThermistorTimeout s) := by
  unfold execThermistorTimeout
  split
  · exact leads_next (law.conversion _ _ _ h)
  · exact leads_next h

/-! #### The motion phase -/

/-- R141: a frame's own effect, and what the change of the phase brings about. -/
theorem frameTaken (f : AccelFrame) (h : P s) : P (frameTaken f s) := by
  obtain ⟨o, w, raised, -⟩ := raiseMotion_slu (frameEvents f s) { s with mpt := s.mpt.frameTaken f, ddt := (ddtAfter f s).1 }
  unfold Machine.frameTaken publishPhase
  dsimp only
  rw [raised]
  split
  · exact law.settles _ _ (law.leaves s _ _ _ (law.before s h))
  · rename_i stays
    split
    · rename_i returns
      exact law.settles _ _ (law.returns s _ _ _ returns.1 (law.before s h))
    · rename_i goes
      refine law.beside s _ ⟨rfl, rfl, fun _ => rfl, ?_⟩ h
      show (ddtAfter f s).1.phase = .still ↔ _
      tauto

theorem frameEnd (f : AccelFrame) (h : P s) : P (frameEnd f s) := by
  unfold Machine.frameEnd
  split
  · exact h
  · exact law.beside s _ (beside_of rfl rfl rfl rfl) h
  · exact law.slu _ (law.frameTaken f h)

theorem frameEndWith (e : MotionEvent) (f : AccelFrame) (h : P s) : Leads P (.next (frameEndWith e f s)) := by
  refine leads_next ?_
  unfold Machine.frameEndWith
  split
  · exact law.frameEnd f h
  · exact h

/-! #### Every command -/

/-- What a measurement of the strings raises is the link's. -/
theorem measurement (delivered : Nat) (r : StringReadings) (h : P s) : P (arbitrate (stringMeasurement delivered r s)) := by
  refine law.slu _ ?_
  unfold stringMeasurement
  split
  · unfold raiseLampFaults
    have stored : Beside s { s with lmd := s.lmd.measuredWith r } := beside_of rfl rfl rfl rfl
    exact law.beside s _ ((((stored.trans (beside_raiseIf _ _ _)).trans (beside_raiseIf _ _ _)).trans
      (beside_raiseIf _ _ _)).trans (beside_raiseIf _ _ _)) h
  · exact h

theorem exec_keeps (c : Instr) (h : P s) : Leads P (exec c s) := by
  have pre := law.before s h
  have aside : ∀ t, Beside s t → Leads P (.next t) := fun t b => leads_next (law.beside s t b h)
  have stays : Leads P (.next s) := leads_next h
  cases c with
  | powerOnReset => exact leads_next (law.powerOn ..)
  -- The link.
  | rxFrame check stop => exact law.rxFrame check stop h
  | rxCharacter char stop => exact leads_next (law.take _ h)
  | frameGapTimeout => exact leads_next (law.slu _ h)
  | lineBreak => exact leads_ite (fun _ => stays) fun _ => leads_next (law.slu _ (law.clearOwed .b (law.clearOwed .a h)))
  | breakEnd => exact leads_ite (fun _ => leads_next (law.slu _ h)) fun _ => stays
  | requestDispatch => exact leads_ite (fun _ => leads_next (law.slu _ (law.dispatch h))) fun _ => stays
  | txFrameEnd => exact leads_ite (fun _ => leads_next (law.finish _ (law.slu _ h))) fun _ => stays
  -- The requests.
  | setPath tag p | getPath tag p | clearPath tag p | setSupply tag p | getSupply tag p | selectSource tag p
  | packInfo tag p | releaseBay tag p | getLatch tag p | setSense tag p | getSense tag p | loadThermistor tag p
  | convertNow tag p | setBrightness tag p | getBrightness tag p | loadCurve tag p | setLamp tag p | getLamp tag p
  | lampClear tag p | setMotion tag p | getMotion tag p | readDrop tag p | eraseDrops tag p | setPlatform tag p
  | setNoticeMask tag p | getStatus tag p | getIdent tag p | resetRequest tag p => exact leads_next (law.receive _ h)
  -- The source paths and the supply.
  | monitorSample r => exact leads_next (law.event _ (law.sample r s pre))
  | lossDeclared r | busLowActivate r =>
    exact leads_ite (fun _ => leads_next (law.event _ (law.sample r s pre))) fun _ => stays
  | emptyTimerExpiry bay =>
    exact leads_ite (fun _ => leads_next (law.event false (law.recovers _ _ (.inl rfl) pre))) fun _ => stays
  | blankingEnd p => exact leads_ite (fun on => leads_next (law.event false (law.blanking p s on pre))) fun _ => stays
  | retryTimerExpiry p =>
    exact leads_ite
      (fun on => leads_next (law.event false (law.recovers p _ (.inr ⟨gate_off (by rw [on.1]; decide), rfl⟩) pre)))
      fun _ => stays
  | goodCloseInterval p => exact leads_ite (fun _ => leads_next (law.path s p _ rfl rfl rfl rfl h)) fun _ => stays
  | startUpIntervalEnd | preemptionTimerExpiry _ | busLowRecovery =>
    exact leads_ite (fun _ => leads_next (law.event false (law.agrees s _ (agrees_of rfl rfl rfl rfl rfl) pre))) fun _ => stays
  | deadTimeExpiry => exact leads_ite (fun on => leads_next (law.event false (law.deadTime s on pre))) fun _ => stays
  | overlapTimerExpiry => exact leads_ite (fun on => leads_next (law.event false (law.overlap s on pre))) fun _ => stays
  -- The bay latches.
  | buttonPress bay =>
    exact leads_ite
      (fun _ => leads_next (law.event false (law.release bay .button _ (law.agrees s _ (agrees_of rfl rfl rfl rfl rfl) pre))))
      fun _ => stays
  | buttonInactive bay => exact aside _ ⟨rfl, rfl, fun _ => rfl, Iff.rfl⟩
  | latchSenseChange bay pos =>
    refine leads_next (law.latch s bay _ ?_ ?_ ?_ h) <;> unfold LatchRecord.sense <;> split <;> rfl
  | releaseWindowExpiry bay => exact leads_ite (fun _ => leads_next (law.event true (law.window bay _ s pre))) fun _ => stays
  | latchFaultTimerExpiry bay =>
    exact leads_ite
      (fun _ => leads_next
        (law.event false (law.agrees s _ ((agrees_setLatch s bay (s.latch bay).faultExpired rfl rfl).trans (agrees_raise _ _)) pre)))
      fun _ => stays
  | latchStuckTimerExpiry bay =>
    exact leads_ite (fun _ => leads_next (law.slu _ (law.slu _ (law.latch s bay _ rfl rfl rfl h)))) fun _ => stays
  -- The sense converter.
  | lightConversionEnd edges => exact law.lightEnd edges h
  | thermistorConversionEnd count => exact law.thermistorEnd count h
  | thermistorTimeout => exact law.thermistorTimeout h
  | channelStale c =>
    exact leads_ite (fun _ => leads_next (law.slu _ (law.published c .senseFault true _ h false).2)) fun _ => stays
  -- The lamp driver.
  | frameStart _ | frameTimeout | periodStart => exact aside _ (beside_of rfl rfl rfl rfl)
  | stringMeasurement delivered r => exact leads_next (law.measurement delivered r h)
  | stringFaultConfirm delivered r =>
    exact leads_ite (fun _ => leads_next (law.measurement delivered r h)) fun _ => stays
  -- The motion port and the drop detector.
  | sampleEvent => exact leads_ite (fun _ => aside _ (beside_of rfl rfl rfl rfl)) fun _ => stays
  | frameEnd f => exact leads_next (law.frameEnd f h)
  | linkLostEntry f | linkRecovery f | fallQualified f | softLanding f | fallTimeout f | impactExit f | settled f
  | settleTimeout f | blindHoldEnd f | traceFreeze f => exact law.frameEndWith _ f h

/-- A law that every event keeps holds after every step. -/
theorem step_keeps {t : State} (h : P s) (steps : step s = .next t) : P t := by
  unfold step at steps
  split at steps
  · exact Host.Outcome.next.inj steps ▸ h
  · rename_i rest _
    exact law.exec_keeps _ (law.beside s { s with pending := rest } (beside_of rfl rfl rfl rfl) h) t steps

end EventLaw

/-! ### The situation (R45, R46) -/

/-- What the situation reads of the two states is the same: the SPC but for what a path record holds besides, the preemption timers
and the sole-source flag; what availability reads of the latches; and the bay temperatures. -/
structure SameInputs (s t : State) : Prop where
  supply : t.spc = { s.spc with paths := t.spc.paths, preempt := t.spc.preempt, soleSource := t.spc.soleSource }
  path : ∀ p, (t.path p).voltage = (s.path p).voltage ∧ (t.path p).state = (s.path p).state ∧
    (t.path p).isEmpty = (s.path p).isEmpty ∧ (t.path p).settings = (s.path p).settings
  latch : ∀ bay, (t.latch bay).commanded = (s.latch bay).commanded ∧ (t.latch bay).release = (s.latch bay).release ∧
    (t.latch bay).insecure = (s.latch bay).insecure
  temp : ∀ bay, bayTemp t bay = bayTemp s bay

namespace SameInputs

variable {s t : State} (h : SameInputs s t)
include h

theorem present (p : Source) : present t p = present s p := by
  unfold Machine.present
  rw [(h.path p).1]

theorem bayAvailable (bay : Bay) : bayAvailable t bay = bayAvailable s bay := by
  obtain ⟨commanded, release, insecure⟩ := h.latch bay
  obtain ⟨-, -, empty, -⟩ := h.path (baySource bay)
  have hot : hot t (baySource bay) = hot s (baySource bay) := by
    unfold hot
    rw [show bayTemp t = bayTemp s from funext h.temp]
  unfold Machine.bayAvailable noOtherPresent
  simp only [commanded, release, insecure, empty, hot, h.present]

theorem available (p : Source) : available t p = available s p := by
  obtain ⟨-, state, -, settings⟩ := h.path p
  have volt : overvolt t p = overvolt s p := by
    cases p
    · unfold overvolt
      rw [(h.path .dcIn).1]
    · rfl
    · rfl
  unfold Machine.available
  rw [h.present, volt, state, settings, h.supply]
  simp only [h.bayAvailable]

/-- R45: the situation is computed from its inputs. -/
theorem situationOf : situationOf t = situationOf s := by
  unfold Machine.situationOf bayCounts gapRunning bayLow
  simp only [h.present, h.available]
  rw [h.supply]

theorem situationOk (ok : SituationOk s) : SituationOk t := by
  refine ⟨?_, ?_⟩
  · rw [h.situationOf, h.supply]
    exact ok.situation
  · rw [h.supply]
    exact ok.cap

end SameInputs

theorem sameInputs_beside {s t : State} (h : Beside s t) : SameInputs s t where
  supply := by rw [h.spc]
  path := fun p => by simp only [State.path, h.spc, and_self]
  latch := fun bay => by simp only [State.latch, h.latches, and_self]
  temp := h.temp

/-- R46: the cap follows the situation from power-on on. -/
theorem situationOk_powerOn (btnA btnB : Bool) (lsnsA lsnsB : LatchPos) (pending : List Instr) :
    SituationOk (.powerOn btnA btnB lsnsA lsnsB pending) := ⟨rfl, rfl⟩

theorem sameInputs_examineReset (s : State) : SameInputs s (examineReset s) := by
  have spc : ∀ v : State, v.ltc = s.ltc → v.scv = s.scv →
      v.spc = { s.spc with preempt := v.spc.preempt, soleSource := v.spc.soleSource } → SameInputs s v := by
    intro v ltc scv same
    have path : ∀ p, v.path p = s.path p := fun p => by unfold State.path; rw [same]
    refine ⟨by rw [same], fun p => by simp only [path, and_self], fun bay => ?_, fun bay => by unfold bayTemp; rw [scv]⟩
    simp only [State.latch, ltc, and_self]
  unfold examineReset examineHeldWith updatePreempt
  split
  · exact spc _ rfl rfl rfl
  · split
    · split
      · exact spc _ rfl rfl rfl
      · unfold markSole
        split <;> exact spc _ rfl rfl rfl
    · exact spc _ rfl rfl rfl

/-- Every event that changes an input ends in the publication of the situation. -/
theorem situationLaw : EventLaw (fun _ => True) SituationOk where
  beside := fun _ _ b => (sameInputs_beside b).situationOk
  latch := fun s bay l commanded release insecure => by
    refine SameInputs.situationOk ⟨rfl, fun _ => ⟨rfl, rfl, rfl, rfl⟩, fun x => ?_, fun _ => rfl⟩
    rw [setLatch_latch]
    split
    · rename_i e
      subst e
      exact ⟨commanded, release, insecure⟩
    · exact ⟨rfl, rfl, rfl⟩
  path := fun s p r voltage state empty settings => by
    refine SameInputs.situationOk ⟨rfl, fun q => ?_, fun _ => ⟨rfl, rfl, rfl⟩, fun _ => rfl⟩
    rw [setPath_path]
    split
    · rename_i e
      subst e
      exact ⟨voltage, state, empty, settings⟩
    · exact ⟨rfl, rfl, rfl, rfl⟩
  powerOn := situationOk_powerOn
  reset := fun s _ _ => (sameInputs_examineReset _).situationOk (situationOk_publishSituation _)
  before := fun _ _ => trivial
  settles := fun b s _ => situationOk_settle b s
  agrees := fun _ _ _ _ => trivial
  pathOff := fun _ _ _ _ _ _ => trivial
  starts := fun _ _ _ _ _ _ _ => trivial
  blanking := fun _ _ _ _ => trivial
  deadTime := fun _ _ _ => trivial
  overlap := fun _ _ _ => trivial
  sample := fun _ _ _ => trivial
  release := fun _ _ _ _ => trivial
  window := fun _ _ _ _ => trivial
  leaves := fun _ _ _ _ _ => trivial
  returns := fun _ _ _ _ _ _ => trivial

/-- Settles O39, by the scheme for every step and the situation row by row. -/
theorem stepKeepsSituation : Obligations.StepKeepsSituation :=
  ⟨fun _ _ => situationLaw.step_keeps, situationOf_spec⟩

/-! ### The paths and the latches (R25, R27, R56) -/

theorem drivenState_driven {s : State} {p : Source} {st : PathState} (h : drivenState s p = some st) :
    st = .closing ∨ st = .closed := by
  unfold drivenState at h
  repeat' split at h
  all_goals cases h
  all_goals decide

/-- R9, R15: a path that is off and stays off. -/
theorem supplyOk_pathOff (s : State) (p : Source) (r : PathRecord) (was : gateDriven s p = false)
    (now : r.state ≠ .closing ∧ r.state ≠ .closed) (h : SupplyOk s) : SupplyOk (s.setPath p r) := by
  have off : gateDriven (s.setPath p r) p = false := gate_off (by rw [setPath_path, if_pos rfl]; exact now)
  have other : ∀ q, q ≠ p → ((s.setPath p r).path q).state = (s.path q).state := fun q ne => by rw [setPath_path, if_neg ne]
  refine ⟨⟨fun q => ?_, h.paths.feeding, h.paths.apart⟩,
    latchOk_of s _ h.latches (fun bay shut => ?_) (fun _ => ⟨rfl, rfl⟩) rfl⟩
  · have ok := h.paths.path q
    have driven : drivenState (s.setPath p r) q = drivenState s q := rfl
    unfold PathOk at ok ⊢
    rw [driven]
    by_cases e : q = p
    · subst e
      cases d : drivenState s q with
      | none => exact off
      | some st =>
        rw [d] at ok
        have state : (s.path q).state = st := ok
        rcases drivenState_driven d with rfl | rfl <;> simp [gateDriven, state] at was
    · rw [other q e, gateDriven_eq (other q e)]
      exact ok
  · by_cases e : baySource bay = p
    · rw [e]
      exact off
    · rw [gateDriven_eq (other _ e)]
      exact shut

/-- R56: with both latches locked and no bay GRANTED the latches are as they should be, in any motion phase. -/
theorem latchOk_locked {s : State} (locked : ∀ bay, (s.latch bay).commanded = .locked ∧ (s.latch bay).release ≠ .granted)
    (bay : Bay) : LatchOk s bay where
  granted := by simp [(locked bay).1, (locked bay).2]
  opened := fun x => by simp [(locked bay).1] at x
  other := fun x => by simp [(locked bay).1] at x
  still := fun x => by simp [(locked bay).1] at x

theorem supplyOk_beside {s t : State} (b : Beside s t) (h : SupplyOk s) : SupplyOk t := by
  have path : ∀ p, t.path p = s.path p := fun p => by unfold State.path; rw [b.spc]
  have latch : ∀ bay, t.latch bay = s.latch bay := fun bay => by unfold State.latch; rw [b.latches]
  refine ⟨pathsOk_of s t h.paths (fun p => by rw [path]) (by rw [b.spc]) (by rw [b.spc]) (by rw [b.spc]) (by rw [b.spc]),
    fun bay => ?_⟩
  have ok := h.latches bay
  refine ⟨?_, ?_, ?_, ?_⟩
  · rw [latch]; exact ok.granted
  · rw [latch, gateDriven_eq (s := s) (q := baySource bay) (by rw [path])]; exact ok.opened
  · rw [latch, latch]; exact ok.other
  · rw [latch, b.motion]; exact ok.still

theorem supplyOk_powerOn (btnA btnB : Bool) (lsnsA lsnsB : LatchPos) (pending : List Instr) :
    SupplyOk (.powerOn btnA btnB lsnsA lsnsB pending) := by
  refine supplyOk_idle _ (latchOk_locked fun bay => ?_) rfl fun p => (powerOn_gate _ _ _ _ _ p).2
  rw [powerOn_latch]
  exact ⟨rfl, by simp [LatchRecord.powerOn]⟩

/-- R58: after the revocations no bay is GRANTED. -/
theorem supplyOk_revoked {s t : State} (spc : t.spc = s.spc) (ltc : t.ltc = s.ltc) (h : SupplyOk s) :
    SupplyOk (revokeBay .b (revokeBay .a t)) := by
  have latch : ∀ bay, t.latch bay = s.latch bay := fun bay => by unfold State.latch; rw [ltc]
  have same := same_spc (s := t) (t := revokeBay .b (revokeBay .a t)) (by
    unfold revokeBay
    split <;> split <;> rfl)
  have path : ∀ p, ((revokeBay .b (revokeBay .a t)).path p).state = (s.path p).state := fun p => by
    rw [same.path]
    unfold State.path
    rw [spc]
  refine ⟨pathsOk_of s _ h.paths path (same.feeding.trans (by rw [spc])) (by rw [same.sw, spc]) (by rw [same.sw, spc])
    (by rw [same.sw, spc]), latchOk_locked fun bay => ?_⟩
  rw [revoked_latch, latch]
  split
  · exact ⟨rfl, by simp [LatchRecord.revoke]⟩
  · rename_i free
    exact ⟨pending_locked h free, free⟩

/-- R54: outside STILL no bay is GRANTED, so that the return of the phase finds both latches locked. -/
theorem supplyOk_returned {s t : State} (spc : t.spc = s.spc) (ltc : t.ltc = s.ltc) (moving : s.ddt.phase ≠ .still)
    (h : SupplyOk s) : SupplyOk t := by
  have path : ∀ p, t.path p = s.path p := fun p => by unfold State.path; rw [spc]
  refine ⟨pathsOk_of s t h.paths (fun p => by rw [path]) (by rw [spc]) (by rw [spc]) (by rw [spc]) (by rw [spc]),
    latchOk_locked fun bay => ?_⟩
  have locked : (s.latch bay).release ≠ .granted := fun granted =>
    moving ((h.latches bay).still ((h.latches bay).granted.mpr granted))
  unfold State.latch at locked ⊢
  rw [ltc]
  exact ⟨pending_locked h locked, locked⟩

theorem supplyOk_examineReset (s : State) (h : SupplyOk s) : SupplyOk (examineReset s) := by
  unfold examineReset
  refine supplyOk_agrees ?_ (agrees_updatePreempt _)
  unfold examineHeldWith
  split
  · exact supplyOk_agrees h (agrees_of rfl rfl rfl rfl rfl)
  · split
    · split
      · exact h
      · exact supplyOk_agrees h (agrees_markSole s)
    · exact h

theorem reset_off (p : Source) (r : PathRecord) :
    (r.state = .closing ∨ r.state = .closed → (r.reset p).state = r.state) ∧
      (r.state ≠ .closing ∧ r.state ≠ .closed → (r.reset p).state = .opened) := by
  unfold PathRecord.reset
  dsimp only
  split <;> simp_all

/-- R23, R63: RESET leaves the feeding path as it is, the others OPEN, and both latches locked. -/
theorem supplyOk_resetBlocks (s : State) (idle : inFlight s = false) (h : SupplyOk s) : SupplyOk (resetBlocks s) := by
  have quiet := quiet_of h.paths idle
  have path : ∀ p, (resetBlocks s).path p = (s.path p).reset p := fun p => by cases p <;> rfl
  refine supplyOk_idle _ (latchOk_locked fun bay => ?_) quiet.idle fun p => ?_
  · have latch : (resetBlocks s).latch bay = (s.latch bay).reset := by cases bay <;> rfl
    rw [latch]
    unfold LatchRecord.reset
    split
    · rename_i free
      exact ⟨pending_locked h (by rw [free]; decide), by rw [free]; decide⟩
    · rename_i pending
      exact ⟨pending_locked (bay := bay) h (by rw [pending]; decide), by simp [LatchRecord.endRelease]⟩
    · exact ⟨rfl, by simp [LatchRecord.endRelease]⟩
  · have feeding : (resetBlocks s).spc.feeding = s.spc.feeding := rfl
    have ok := h.paths.path p
    have driven : drivenState s p = if s.spc.feeding = some p then some .closed else none := by
      unfold drivenState
      rw [quiet.idle]
    unfold PathOk at ok
    rw [driven] at ok
    rw [feeding]
    split
    · rename_i feeds
      rw [if_pos feeds] at ok
      have closed : (s.path p).state = .closed := ok
      rw [path, (reset_off p _).1 (.inr closed), closed]
    · rename_i free
      rw [if_neg free] at ok
      have off : gateDriven s p = false := ok
      refine gate_off ?_
      rw [path, (reset_off p _).2 ?_]
      · decide
      · constructor <;> intro on <;> simp [gateDriven, on] at off

/-- R27, R56: every operation of an event keeps the laws, and so does its examination. -/
theorem supplyLaw : EventLaw SupplyOk SupplyOk where
  beside := fun _ _ => supplyOk_beside
  latch := fun s bay l commanded release _ h => supplyOk_agrees h (agrees_setLatch s bay l commanded release)
  path := fun s p r _ state _ _ h => by
    refine supplyOk_agrees h ⟨fun q => ?_, rfl, rfl, rfl, rfl, fun _ => ⟨rfl, rfl⟩, rfl⟩
    rw [setPath_path]
    split
    · rename_i e
      rw [e, state]
    · rfl
  powerOn := supplyOk_powerOn
  reset := fun s idle h =>
    supplyOk_examineReset _ (supplyOk_agrees (supplyOk_resetBlocks s idle h) (agrees_publishSituation _))
  before := fun _ h => h
  settles := supplyOk_settle
  agrees := fun _ _ a h => supplyOk_agrees h a
  pathOff := supplyOk_pathOff
  starts := fun reason q s can free named h =>
    supplyOk_startSwitchover reason q [] s (quiet_of h.paths (canStart_idle can)) h.latches free named
  blanking := fun p s on h => supplyOk_blankingEnd p s h on
  deadTime := fun s on h => supplyOk_deadTimeExpiry s h on
  overlap := fun s on h => supplyOk_overlapExpiry s h on
  sample := fun r s h => supplyOk_busLowStep _ (supplyOk_lossStep _ (supplyOk_sampledPaths r s h))
  release := supplyOk_releaseRequest
  window := supplyOk_endWindow
  leaves := fun s u m d h =>
    supplyOk_agrees (supplyOk_revoked (s := s) (t := { s with slu := u, mpt := m, ddt := d }) rfl rfl h)
      (agrees_of rfl rfl rfl rfl rfl)
  returns := fun s _ _ _ moving h => supplyOk_returned (s := s) rfl rfl moving h

/-- Settles O37, by the scheme for every step. -/
theorem stepKeepsSupplyLaws : Obligations.StepKeepsSupplyLaws := fun _ _ => supplyLaw.step_keeps

/-- R27: a driven gate is that of the feeding path, or of a path of the switchover in flight. -/
theorem driven_cases {s : State} (h : PathsOk s) {p : Source} (on : gateDriven s p = true) :
    (s.spc.sw.phase = .idle ∧ s.spc.feeding = some p) ∨
    ((s.spc.sw.phase = .ovlClose ∨ s.spc.sw.phase = .ovlHold) ∧ (s.spc.sw.fromSrc = some p ∨ s.spc.sw.toSrc = p)) ∨
    (s.spc.sw.phase = .gapClose ∧ s.spc.sw.toSrc = p) := by
  have ok := h.path p
  unfold PathOk at ok
  have driven : drivenState s p ≠ none := fun off => by
    rw [off] at ok
    have off : gateDriven s p = false := ok
    rw [on] at off
    cases off
  unfold drivenState at driven
  have overlap : s.spc.sw.phase = .ovlClose ∨ s.spc.sw.phase = .ovlHold → s.spc.sw.fromSrc = some p ∨ s.spc.sw.toSrc = p := by
    intro phase
    by_contra outside
    rw [not_or] at outside
    rcases phase with phase | phase <;> simp [phase, outside.1, outside.2] at driven
  cases phase : s.spc.sw.phase with
  | idle => exact .inl ⟨rfl, by simpa [phase] using driven⟩
  | ovlClose => exact .inr (.inl ⟨.inl rfl, overlap (.inl phase)⟩)
  | ovlHold => exact .inr (.inl ⟨.inr rfl, overlap (.inr phase)⟩)
  | gapOpen | gapDead => simp [phase] at driven
  | gapClose => exact .inr (.inr ⟨rfl, by simpa [phase] using driven⟩)

/-- Settles O38: outside an overlap a driven gate is that of the one source that the phase names. -/
theorem atMostTwoPathsConduct : Obligations.AtMostTwoPathsConduct := by
  intro s p q h ne hp hq
  have phases : ∀ x, gateDriven s x = true → _ := fun x => driven_cases h (p := x)
  rcases phases p hp with ⟨idle, feeds⟩ | ⟨overlap, place⟩ | ⟨gap, target⟩
  · rcases phases q hq with ⟨-, feeds'⟩ | ⟨other, -⟩ | ⟨other, -⟩
    · exact absurd (Option.some.inj (feeds.symm.trans feeds')) ne
    · simp [idle] at other
    · simp [idle] at other
  · have inside : ∀ x, gateDriven s x = true → s.spc.sw.fromSrc = some x ∨ s.spc.sw.toSrc = x := fun x hx => by
      rcases phases x hx with ⟨other, -⟩ | ⟨-, place⟩ | ⟨other, -⟩
      · simp [other] at overlap
      · exact place
      · simp [other] at overlap
    have two : (s.spc.sw.fromSrc = some p ∧ s.spc.sw.toSrc = q) ∨ (s.spc.sw.fromSrc = some q ∧ s.spc.sw.toSrc = p) := by
      rcases place with from_ | target <;> rcases inside q hq with from' | target'
      · exact absurd (Option.some.inj (from_.symm.trans from')) ne
      · exact .inl ⟨from_, target'⟩
      · exact .inr ⟨from', target⟩
      · exact absurd (target.symm.trans target') ne
    refine ⟨overlap, two, fun x hx => ?_⟩
    rcases two with ⟨from_, target⟩ | ⟨from_, target⟩ <;> rcases inside x hx with hx | hx
    · exact .inl (Option.some.inj (hx.symm.trans from_))
    · exact .inr (hx.symm.trans target)
    · exact .inr (Option.some.inj (hx.symm.trans from_))
    · exact .inl (hx.symm.trans target)
  · rcases phases q hq with ⟨other, -⟩ | ⟨other, -⟩ | ⟨-, target'⟩
    · simp [gap] at other
    · simp [gap] at other
    · exact absurd (target.symm.trans target') ne

end Sys2Proof.SupplyLaws

/-! ## Requests that only answer (O13) -/

namespace Sys2Proof.Snapshots

open Sys2Proof.Machine Sys2Proof.Safety

/-- R169, R170: a request whose block only answers leaves WAKE released and the reply made. -/
theorem exec_answers {tag : Byte} {p : List Byte} {st : Status} {res : List Byte} {s : State} (k : ReqKind) (h : Ready s)
    (len : lengthAllowed k p = true) (answers : handleOwned k tag p (heard s) = answer tag k st res (heard s)) :
    exec (command k tag p) s = .next (answered k tag st res s) := by
  rw [exec_ready k tag p s h len, answers, arbitrate_answer k tag st res _ (transmitterOk_heard s h.transmitter)]
  rfl

/-- R186: the requests of one character that this part of the text speaks of. -/
theorem one_allowed {k : ReqKind} {p : List Byte} (len : p.length = 1)
    (one : k = .getLatch ∨ k = .getLamp ∨ k = .selectSource ∨ k = .releaseBay ∨ k = .packInfo) :
    lengthAllowed k p = true := by
  rcases one with rfl | rfl | rfl | rfl | rfl <;> simp [lengthAllowed, len, Config.maxPayload]

theorem bayOf_code (bay : Bay) : bayOf (at8 [BitVec.ofNat 8 (bayCode bay)] 0) = some bay := by cases bay <;> rfl

/-- Settles O13: no snapshot but that of GET_STATUS reads WAKE. -/
theorem snapshotRequestsOnlyAnswer : Obligations.SnapshotRequestsOnlyAnswer := by
  intro tag p s h
  refine ⟨fun empty => ?_, fun bay named => ?_, fun m len set => ?_, fun len none => ?_, fun len none => ?_⟩
  · subst empty
    exact ⟨exec_answers .getSupply h rfl rfl, exec_answers .getSense h rfl rfl, exec_answers .getBrightness h rfl rfl,
      exec_answers .getMotion h rfl rfl, exec_answers .getStatus h rfl rfl⟩
  · refine exec_answers .getLatch h (one_allowed (by rw [named]; rfl) (.inl rfl)) ?_
    simp only [handleOwned, handleGetLatch, named, bayOf_code]
    rfl
  · refine exec_answers .getLamp h (one_allowed len (.inr (.inl rfl))) ?_
    simp only [handleOwned, handleGetLamp, set]
    rfl
  · refine exec_answers .getLatch h (one_allowed len (.inl rfl)) ?_
    simp only [handleOwned, handleGetLatch, none]
    rfl
  · refine exec_answers .getLamp h (one_allowed len (.inr (.inl rfl))) ?_
    simp only [handleOwned, handleGetLamp, none]
    rfl

end Sys2Proof.Snapshots

/-! ## SELECT_SOURCE, and what the start of a switchover leaves (O22) -/

namespace Sys2Proof.Switchovers

open Sys2Proof.Machine Sys2Proof.Safety Sys2Proof.SourcePaths Sys2Proof.Snapshots

/-! ### The start of a switchover (R27, R29 to R31) -/

section
variable (reason : SwReason) {q : Source} {v : State}

/-- R27: the record and the timers of a start from the feeding source, before its first order. -/
def startRecorded (reason : SwReason) (q : Source) (v : State) : State :=
  { v with spc := v.spc.started reason v.spc.feeding q [] (chooseMode v v.spc.feeding q) }

/-- R29, R31: by OVERLAP, and from NONE, the first order closes the to path. -/
theorem startSwitchover_closes (closes : chooseMode v v.spc.feeding q = .overlap ∨ v.spc.feeding = none) :
    startSwitchover reason v.spc.feeding q [] v = closeOrder q (startRecorded reason q v) := by
  unfold startSwitchover startRecorded
  rcases closes with overlap | none
  · rw [overlap]
  · rw [none]
    rfl

/-- R31: by GAP from a source, the first order opens the from path. -/
theorem startSwitchover_opens {f : Source} (gap : chooseMode v v.spc.feeding q = .gap) (feeds : v.spc.feeding = some f) :
    startSwitchover reason v.spc.feeding q [] v = openOrder f (startRecorded reason q v) := by
  unfold startSwitchover startRecorded
  rw [gap, feeds]

/-- R29: the modes of a start. -/
theorem closes_or_opens (q : Source) (v : State) :
    (chooseMode v v.spc.feeding q = .overlap ∨ v.spc.feeding = none) ∨
      ∃ f, chooseMode v v.spc.feeding q = .gap ∧ v.spc.feeding = some f := by
  cases mode : chooseMode v v.spc.feeding q with
  | overlap => exact .inl (.inl rfl)
  | gap =>
    cases feeds : v.spc.feeding with
    | none => exact .inl (.inr rfl)
    | some f => exact .inr ⟨f, rfl, rfl⟩

/-- R27: a start changes its record but for the paths that its order moves. -/
theorem startSwitchover_recorded (q : Source) (v : State) :
    startSwitchover reason v.spc.feeding q [] v =
      { startRecorded reason q v with
        spc :=
          { (startRecorded reason q v).spc with paths := (startSwitchover reason v.spc.feeding q [] v).spc.paths } } := by
  rcases closes_or_opens q v with closes | ⟨f, gap, feeds⟩
  · rw [startSwitchover_closes reason closes]; rfl
  · rw [startSwitchover_opens reason gap feeds]; rfl

/-- R27: what a start records. -/
theorem startRecorded_spc (q : Source) (v : State) :
    (startRecorded reason q v).spc =
      { v.spc with
        sw := startedRecord v reason q
        overlapTimer := none
        deadTimer := if (startedRecord v reason q).phase = .gapDead then some v.spc.settings.deadUs else none
        lossTimer := if chooseMode v v.spc.feeding q = .overlap then v.spc.lossTimer else none
        soleSource := v.spc.soleSource && !reason.held } := by
  rw [startedRecord_phase]
  unfold startRecorded Spc.started
  cases chooseMode v v.spc.feeding q <;> rfl

end

/-- R29, R31: no dead time runs where the first order closes a path. -/
theorem started_phase_close (reason : SwReason) {q : Source} {v : State}
    (closes : chooseMode v v.spc.feeding q = .overlap ∨ v.spc.feeding = none) :
    (startedRecord v reason q).phase ≠ .gapDead := by
  rw [startedRecord_phase]
  rcases closes with overlap | none
  · rw [overlap]
    exact nofun
  · rw [none]
    exact nofun

/-- R31: the dead time runs where it opens one. -/
theorem started_phase_open (reason : SwReason) {q f : Source} {v : State} (gap : chooseMode v v.spc.feeding q = .gap)
    (feeds : v.spc.feeding = some f) : (startedRecord v reason q).phase = .gapDead := by
  rw [startedRecord_phase, gap, feeds]
  rfl

/-! ### The orders of a path (R7, R8) -/

/-- R7, R8: a close order of an OPEN path fixes the ramp of its gate and starts the blanking window. -/
theorem closeOrdered_record {r : PathRecord} (opened : r.state = .opened) :
    r.closeOrdered = { r with state := .closing, rampSlew := r.effSlew, blanking := some r.windowUs, overCount := 0 } :=
  if_pos opened

/-- R7: the gate of a CLOSING path ramps at the slew class that its close order fixed. -/
theorem gateDrive_ramping {s : State} {p : Source} {r : PathRecord}
    (path : s.path p =
      { r with state := .closing, rampSlew := r.effSlew, blanking := some r.windowUs, overCount := 0 }) :
    gateDrive s p = .ramping r.effSlew := by
  unfold gateDrive
  rw [path]

/-! ### SELECT_SOURCE (R48) -/

theorem sourceOf_code (q : Source) : sourceOf (at8 [BitVec.ofNat 8 (Source.code q)] 0) = some q := by cases q <;> rfl

/-- R48: the request while its reply is owed. -/
def selectOwed (tag : Byte) (s : State) : State := { heard s with slu := { (heard s).slu with owedSelect := some tag } }

section
variable {tag : Byte} {q : Source} {s : State}

/-- R48: a refusal in the request's own event. -/
theorem select_refused {st : Status} (h : Ready s)
    (refused : handleSelectSource tag [BitVec.ofNat 8 (Source.code q)] (heard s) = refuse tag .selectSource st (heard s)) :
    exec (.selectSource tag [BitVec.ofNat 8 (Source.code q)]) s = .next (answered .selectSource tag st [] s) :=
  exec_answers .selectSource h (one_allowed rfl (.inr (.inr (.inl rfl)))) refused

/-- R48: an accepted request starts its switchover, and the examination ends the event. -/
theorem select_accepted (h : Ready s) (can : canStart s = true) (av : available s q = true) (other : s.spc.feeding ≠ some q) :
    exec (.selectSource tag [BitVec.ofNat 8 (Source.code q)]) s =
      .next (arbitrate (settle false (startSwitchover .hostSelect s.spc.feeding q [] (selectOwed tag s)))) := by
  have can' : canStart (heard s) = true := can
  have av' : available (heard s) q = true := av
  have other' : (heard s).spc.feeding ≠ some q := other
  refine (exec_ready .selectSource tag _ s h (one_allowed rfl (.inr (.inr (.inl rfl))))).trans ?_
  simp only [handleOwned, handleSelectSource, sourceOf_code, can', av', other', Bool.true_eq_false, if_false, or_self]
  rfl

/-- R48: the examination that ends a started switchover's event leaves it as it started. -/
theorem select_examined (h : Ready s) :
    Examined (startSwitchover .hostSelect s.spc.feeding q [] (selectOwed tag s))
      (arbitrate (settle false (startSwitchover .hostSelect s.spc.feeding q [] (selectOwed tag s)))) := by
  refine examined_settle _ fun idle => ?_
  have link := (startSwitchover_ltc .hostSelect s.spc.feeding q [] (selectOwed tag s)).2.1
  rw [link] at idle ⊢
  exact (h.transmitter idle).1

/-- R27, R48: what the start of an accepted request writes, and the paths that its first order leaves. -/
theorem select_started (tag : Byte) (can : canStart s = true) :
    let u := startSwitchover .hostSelect s.spc.feeding q [] (selectOwed tag s)
    (inFlight u = true ∧
      u = { selectOwed tag s with
            spc :=
              { s.spc with
                paths := u.spc.paths
                sw := startedRecord s .hostSelect q
                overlapTimer := none
                deadTimer := if (startedRecord s .hostSelect q).phase = .gapDead then some s.spc.settings.deadUs else none
                lossTimer := if chooseMode s s.spc.feeding q = .overlap then s.spc.lossTimer else none } }) ∧
    (chooseMode s s.spc.feeding q = .overlap ∨ s.spc.feeding = none →
      ∀ x, u.path x = if x = q then (s.path q).closeOrdered else s.path x) ∧
    (∀ f, chooseMode s s.spc.feeding q = .gap → s.spc.feeding = some f →
      ∀ x, u.path x = if x = f then (s.path f).openOrdered else s.path x) := by
  refine ⟨⟨(started_startSwitchover .hostSelect q (selectOwed tag s) can).after, ?_⟩, fun closes x => ?_,
    fun f gap feeds x => ?_⟩
  · refine (startSwitchover_recorded .hostSelect q (selectOwed tag s)).trans ?_
    rw [startRecorded_spc]
    simp only [SwReason.held, Bool.not_false, Bool.and_true]
    rfl
  · exact (congrArg (State.path · x) (startSwitchover_closes (v := selectOwed tag s) .hostSelect closes)).trans
      (setPath_path (startRecorded .hostSelect q (selectOwed tag s)) q _ x)
  · exact (congrArg (State.path · x) (startSwitchover_opens (v := selectOwed tag s) .hostSelect gap feeds)).trans
      (setPath_path (startRecorded .hostSelect q (selectOwed tag s)) f _ x)

end

/-- Settles O22. -/
theorem selectSourceStartsSwitchover : Obligations.SelectSourceStartsSwitchover := by
  intro tag q s h
  refine ⟨fun p len none => ?_, fun busy => ?_, fun can no => ?_, fun can av other => ?_, present_iff s, available_iff s q,
    chooseTarget_eq s q, chooseMode_overlap s q⟩
  · refine exec_answers .selectSource h (one_allowed len (.inr (.inr (.inl rfl)))) ?_
    simp only [handleOwned, handleSelectSource, none]
    rfl
  · have waits : canStart (heard s) = false := by
      rcases busy with startUp | flight
      · exact (Bool.and_eq_false_iff.mpr (.inr (by rw [startUp]; rfl)) : canStart s = false)
      · exact (Bool.and_eq_false_iff.mpr (.inl (by rw [flight]; rfl)) : canStart s = false)
    refine select_refused h ?_
    simp only [handleSelectSource, sourceOf_code, waits, if_true]
  · have can' : canStart (heard s) = true := can
    have no' : available (heard s) q = false ∨ (heard s).spc.feeding = some q := no
    refine select_refused h ?_
    simp only [handleSelectSource, sourceOf_code, can', Bool.true_eq_false, if_false, if_pos no']
  · obtain ⟨⟨flight, recorded⟩, closes, opens⟩ := select_started tag can (q := q)
    have examined := select_examined (tag := tag) (q := q) h
    refine ⟨_, _, select_accepted h can av other, examined, ?_⟩
    generalize startSwitchover .hostSelect s.spc.feeding q [] (selectOwed tag s) = u at *
    generalize arbitrate (settle false u) = t at *
    obtain ⟨paths, sw, -, dead, loss⟩ := examined.quiet (.inl flight)
    have path : ∀ x, t.path x = u.path x := fun x => congrArg (PerSource.get · x) paths
    have deadTimer := dead.trans (congrArg (·.spc.deadTimer) recorded)
    refine ⟨?_, loss.trans (congrArg (·.spc.lossTimer) recorded), sw.trans (congrArg (·.spc.sw) recorded),
      (congrArg Spc.feeding examined.supply).trans (congrArg (·.spc.feeding) recorded), fun close => ?_,
      fun f gap feeds => ?_⟩
    · rw [paths, sw, dead, loss, recorded]
      rfl
    · have closing := closeOrdered_record (available_opened av other)
      have ordered := (path q).trans ((closes close q).trans ((if_pos rfl).trans closing))
      exact ⟨deadTimer.trans (if_neg (started_phase_close .hostSelect close)), gateDrive_ramping ordered, ordered,
        fun x ne => (path x).trans ((closes close x).trans (if_neg ne))⟩
    · have off := (path f).trans ((opens f gap feeds f).trans (if_pos rfl))
      exact ⟨gateDrive_off (gate_off (by rw [off]; exact openOrdered_off _)),
        deadTimer.trans (if_pos (started_phase_open .hostSelect gap feeds)),
        fun x ne => (path x).trans ((opens f gap feeds x).trans (if_neg ne))⟩

end Sys2Proof.Switchovers

/-! ## PACK_INFO (O23) -/

namespace Sys2Proof.PackInfo

open Sys2Proof.Machine Sys2Proof.Safety Sys2Proof.SourcePaths Sys2Proof.Snapshots

variable {tag charge : Byte} {bay : Bay} {s : State} {p : List Byte}

theorem packInfo_allowed (len : p.length = 1 ∨ p.length = 2) : lengthAllowed .packInfo p = true := by
  rcases len with len | len <;> simp [lengthAllowed, len, Config.maxPayload]

/-- R44: a bay that is not present, or is commanded UNLOCKED, is refused. -/
theorem packInfo_refused (h : Ready s) (len : p.length = 1 ∨ p.length = 2) (named : bayOf (at8 p 0) = some bay)
    (no : present s (baySource bay) = false ∨ (s.latch bay).commanded = .unlocked) :
    exec (.packInfo tag p) s = .next (answered .packInfo tag .notAllowed [] s) := by
  have no' : present (heard s) (baySource bay) = false ∨ ((heard s).latch bay).commanded = .unlocked := no
  refine exec_answers .packInfo h (packInfo_allowed len) ?_
  simp only [handleOwned, handlePackInfo, named, if_pos no']
  rfl

/-- R44: the result of PACK_INFO after a charge has been stored or cleared. -/
def packResult (bay : Bay) (stored : Option Nat) : List Byte := u8 (bayCode bay) ++ flag stored.isSome ++ u8 (stored.getD 0)

/-- R44, R45: a charge is stored, at most 100, or cleared, and the triggers are examined. -/
theorem packInfo_stores (h : Ready s) (len : p.length = 1 ∨ p.length = 2) (named : bayOf (at8 p 0) = some bay)
    (here : present s (baySource bay) = true) (locked : (s.latch bay).commanded = .locked) :
    ∃ t, exec (.packInfo tag p) s = .next t ∧
      Examined
        (replied { heard s with spc := s.spc.packStored bay (chargeAt p) }
          (replyOf .packInfo tag (okOr ((chargeAt p).any (fun c => decide (100 < c))))
            (packResult bay ((chargeAt p).map (min 100))))) t := by
  have may : ¬(present (heard s) (baySource bay) = false ∨ ((heard s).latch bay).commanded = .unlocked) := by
    rintro (away | unlocked)
    · exact absurd (here.symm.trans away) (by decide)
    · exact absurd (locked.symm.trans unlocked) (by decide)
  have info := (calm_settle { heard s with spc := s.spc.packStored bay (chargeAt p) }).packInfo
  have shown : u8 (bayCode bay) ++ packBytes (settle false { heard s with spc := s.spc.packStored bay (chargeAt p) }) bay =
      packResult bay ((chargeAt p).map (min 100)) := by
    unfold packBytes packResult
    rw [info, List.append_assoc]
    simp only [Spc.packStored, PerBay.get_set, if_true]
  refine ⟨_, exec_ready .packInfo tag p s h (packInfo_allowed len), ?_⟩
  have handled : handleOwned .packInfo tag p (heard s) =
      answer tag .packInfo (okOr ((chargeAt p).any (fun c => decide (100 < c)))) (packResult bay ((chargeAt p).map (min 100)))
        (settle false { heard s with spc := s.spc.packStored bay (chargeAt p) }) := by
    rw [← shown]
    simp only [handleOwned, handlePackInfo, named, if_neg may]
    rfl
  rw [handled]
  exact examined_answered _ _ _ _ _ h.transmitter

/-- Settles O23. -/
theorem packInfoStoresCharge : Obligations.PackInfoStoresCharge := by
  intro tag charge bay s h
  have one : bayOf (at8 [BitVec.ofNat 8 (bayCode bay)] 0) = some bay := bayOf_code bay
  have two : bayOf (at8 [BitVec.ofNat 8 (bayCode bay), charge] 0) = some bay := bayOf_code bay
  refine ⟨fun here locked => ⟨?_, packInfo_stores h (.inl rfl) one here locked⟩,
    fun no => ⟨packInfo_refused h (.inr rfl) two no, packInfo_refused h (.inl rfl) one no⟩, fun p len none => ?_⟩
  · obtain ⟨t, taken, examined⟩ := packInfo_stores (tag := tag) h (.inr rfl) two here locked
    have charged : chargeAt [BitVec.ofNat 8 (bayCode bay), charge] = some charge.toNat := rfl
    have status : okOr ((some charge.toNat).any (fun c => decide (100 < c))) =
        if 100 < charge.toNat then .adjusted else .ok := by
      simp only [okOr, Option.any_some, decide_eq_true_eq]
    rw [charged, status] at examined
    exact ⟨t, taken, examined⟩
  · refine exec_answers .packInfo h (packInfo_allowed len) ?_
    simp only [handleOwned, handlePackInfo, none]
    rfl

end Sys2Proof.PackInfo

/-! ## START and PREEMPT (O33, O36) -/

namespace Sys2Proof.Triggers

open Sys2Proof.Machine Sys2Proof.Safety Sys2Proof.SourcePaths Sys2Proof.Switchovers

/-! ### START from NONE (R47) -/

section
variable {u : State} {q : Source}

/-- R47: with NONE feeding, the examination closes the path of START's target and moves no other. -/
theorem settle_start_paths (can : canStart u = true) (none : u.spc.feeding = none) (target : chooseTarget u .none [] = some q) :
    (settle false u).spc.paths = u.spc.paths.set q (u.path q).closeOrdered := by
  let v := updatePreempt { u with spc := { u.spc with soleSource := false } }
  have quiet : heldCondition u = .none := by
    unfold heldCondition
    rw [none]
  have held : examineHeld u = { u with spc := { u.spc with soleSource := false } } := (examineHeld_cases u).1 quiet
  have noPreempt : examinePreempt v = v := if_neg fun may => by
    have feeds : u.spc.feeding.isSome = true := may.2.2
    rw [none] at feeds
    exact absurd feeds (by decide)
  have can' : canStart v = true := can
  have none' : v.spc.feeding = .none := none
  have target' : chooseTarget v .none [] = some q := target
  have starts : examineStart v = startSwitchover .start .none q [] v := by
    unfold examineStart
    simp only [can', none', target', and_self, if_true]
  rw [settle_false, held]
  unfold afterReleases
  rw [publishSituation_spc]
  change (examineStart (examinePreempt v)).spc.paths = _
  rw [noPreempt, starts]
  rfl

end

/-- R47: with no switchover and no from source, the target is the first available source in the preference order. -/
theorem chooseTarget_none (s : State) : chooseTarget s none [] = s.spc.settings.order.find? (fun x => available s x) := by
  unfold chooseTarget
  refine congrArg (List.find? · s.spc.settings.order) (funext fun x => ?_)
  simp

/-- Settles O33. -/
theorem startUpEndStartsFirstAvailable : Obligations.StartUpEndStartsFirstAvailable := by
  intro s idle startUp none phase
  let u : State := { s with spc := { s.spc with startUp := false } }
  have can : canStart u = true := (canStart_iff u).mpr ⟨by simp [inFlight, u, phase], rfl⟩
  have quiet : heldCondition u = .none := by
    unfold heldCondition
    rw [show u.spc.feeding = .none from none]
  have examined : Examined u (arbitrate (settle false u)) := examined_event idle rfl
  have taken := examined.triggers
  refine ⟨_, if_pos startUp, ?_, ?_, examined, fun q first => ?_, fun empty => ?_⟩
  · rw [examined.supply]
  · rw [examined.supply]
    exact none
  · have target : chooseTarget u .none [] = some q := (chooseTarget_none u).trans first
    have opened : (s.path q).state = .opened :=
      available_opened (chooseTarget_spec target).1 (by rw [show u.spc.feeding = .none from none]; exact nofun)
    have path : (arbitrate (settle false u)).path q = _ :=
      (congrArg (PerSource.get · q) (settle_start_paths can none target)).trans
        ((setPath_path u q _ q).trans ((if_pos rfl).trans (closeOrdered_record opened)))
    refine ⟨?_, gateDrive_ramping path, path⟩
    rw [taken.start q can none target, startedRecord_phase, show u.spc.feeding = .none from none]
    rfl
  · have same := taken.idle can quiet (.inl ⟨none, (chooseTarget_none u).trans empty⟩)
    unfold inFlight
    rw [same]
    exact ((canStart_iff u).mp can).1

/-! ### PREEMPT (R36) -/

section
variable {p : Source} {s : State}

/-- R36: the event leaves its timer at 500 ms. -/
def preemptHeld (p : Source) (s : State) : State :=
  { s with spc := { s.spc with preempt := s.spc.preempt.set p (some Config.preemptTicks) } }

/-- R36: a timer that alone holds at 500 ms, and runs, is due. -/
theorem preemptDue_alone (runs : preemptRuns s p = true) (others : ∀ q, q ≠ p → s.spc.preempt.get q ≠ some 5000) :
    preemptDue (preemptHeld p s) = some p := by
  have timer : ∀ q, (preemptHeld p s).spc.preempt.get q = if q = p then some 5000 else s.spc.preempt.get q :=
    PerSource.get_set s.spc.preempt p (v := some 5000)
  obtain ⟨-, -, before, after, order, -⟩ := (preemptRuns_iff s p).mp runs
  have listed : p ∈ (preemptHeld p s).spc.settings.order := by
    rw [show (preemptHeld p s).spc.settings.order = s.spc.settings.order from rfl, order]
    exact List.mem_append_right _ (List.mem_cons_self ..)
  have holds : (preemptRuns (preemptHeld p s) p && (preemptHeld p s).spc.preempt.get p == some 5000) = true := by
    rw [show preemptRuns (preemptHeld p s) p = true from runs, timer, if_pos rfl]
    rfl
  have found : (preemptDue (preemptHeld p s)).isSome = true := List.find?_isSome.mpr ⟨p, listed, holds⟩
  obtain ⟨q, first⟩ := Option.isSome_iff_exists.mp found
  have same : q = p := by
    by_contra other
    unfold preemptDue at first
    have due := List.find?_some first
    rw [timer, if_neg other] at due
    exact others q other (eq_of_beq (Bool.and_eq_true_iff.mp due).2)
  exact first.trans (congrArg some same)

end

/-- Settles O36. -/
theorem preemptionExpiryStartsPreempt : Obligations.PreemptionExpiryStartsPreempt := by
  intro p s
  have timer : ∀ q, (preemptHeld p s).spc.preempt.get q = if q = p then some 5000 else s.spc.preempt.get q :=
    PerSource.get_set s.spc.preempt p (v := some 5000)
  refine ⟨fun stopped => if_neg (by simp [stopped]), preemptRuns_iff s p, fun idle runs => ?_⟩
  have examined : Examined (preemptHeld p s) (arbitrate (settle false (preemptHeld p s))) := examined_event idle rfl
  refine ⟨arbitrate (settle false (preemptHeld p s)), if_pos (Option.isSome_iff_ne_none.mpr runs), examined, ?_, fun q other => ?_,
    fun can still quiet due feeds others => ?_⟩
  · rw [examined.timers, timer, if_pos rfl]
    rfl
  · rw [examined.timers, timer, if_neg other]
  · have started := examined.triggers.preempt p can quiet feeds still (preemptDue_alone due others)
    rw [startedRecord_phase] at started
    unfold inFlight
    rw [started]
    exact ⟨rfl, rfl, rfl, bne_iff_ne.mpr (startPhase_ne_idle _ _)⟩

end Sys2Proof.Triggers

/-! ## The dead time and the overlap time (O34, O35) -/

namespace Sys2Proof.SwitchoverTimers

open Sys2Proof.Machine Sys2Proof.Safety Sys2Proof.SourcePaths

/-! ### What an examination closes (R27, R29, R31) -/

/-- An examination drives a gate that was off only as that of the target of the switchover it starts. -/
structure DrivesTarget (s t : State) : Prop where
  flight : inFlight s = true → Same s t
  driven : ∀ p, gateDriven s p = false → gateDriven t p = true → inFlight t = true ∧ t.spc.sw.toSrc = p

theorem drivesTarget_same {s t : State} (h : Same s t) : DrivesTarget s t :=
  ⟨fun _ => h, fun p off on => absurd ((gateDriven_eq (congrArg PathRecord.state (h.path p))).symm.trans on) (by simp [off])⟩

theorem DrivesTarget.trans {s t u : State} (h : DrivesTarget s t) (g : DrivesTarget t u) : DrivesTarget s u := by
  refine ⟨fun flight => ?_, fun p off on => ?_⟩
  · have same := h.flight flight
    exact same.trans (g.flight (same.inFlight.trans flight))
  · cases between : gateDriven t p with
    | false => exact g.driven p between on
    | true =>
      obtain ⟨flight, target⟩ := h.driven p off between
      have same := g.flight flight
      exact ⟨same.inFlight.trans flight, (congrArg Switchover.toSrc same.sw).trans target⟩

/-- R29 to R31: the first order of a start closes its target, or opens its from path. -/
theorem target_of_order {s t : State} {p : Source} {f : Prop}
    (path : t.path p = s.path p ∨ (t.spc.sw.toSrc = p ∧ t.path p = (s.path p).closeOrdered) ∨
      (f ∧ t.path p = (s.path p).openOrdered)) (off : gateDriven s p = false) (on : gateDriven t p = true) :
    t.spc.sw.toSrc = p := by
  rcases path with same | ⟨target, -⟩ | ⟨-, opened⟩
  · exact absurd ((gateDriven_eq (congrArg PathRecord.state same)).symm.trans on) (by simp [off])
  · exact target
  · exact absurd on (by rw [gate_off (by rw [opened]; exact openOrdered_off _)]; exact Bool.false_ne_true)

theorem drivesTarget_atMostOne {s t : State} (h : AtMostOne s t) : DrivesTarget s t := by
  rcases h with same | started
  · exact drivesTarget_same same
  · exact ⟨fun flight => absurd flight (by simp [started.before]),
      fun p off on => ⟨started.after, target_of_order (started.path p) off on⟩⟩

theorem drivesTarget_start (reason : SwReason) (t : Source) (tried : List Source) {s : State} (idle : inFlight s = false) :
    DrivesTarget s (startSwitchover reason s.spc.feeding t tried s) := by
  have sw := (canStart_false_of_started reason s.spc.feeding t tried s).1
  have flight : inFlight (startSwitchover reason s.spc.feeding t tried s) = true := by
    rw [inFlight_iff, sw]
    exact startPhase_ne_idle _ _
  refine ⟨fun busy => absurd busy (by simp [idle]), fun p off on =>
    ⟨flight, target_of_order (f := s.spc.feeding = some p) ?_ off on⟩⟩
  rw [sw]
  exact (startSwitchover_path reason s.spc.feeding t tried s p).imp_right (Or.imp_left fun h => ⟨h.1.symm, h.2⟩)

theorem drivesTarget_askRelease (bay : Bay) (s : State) : DrivesTarget s (askRelease bay s) := by
  cases flight : inFlight s with
  | true =>
    rw [askRelease_wait bay flight]
    exact drivesTarget_same (same_setLatch s bay _)
  | false =>
    by_cases feeds : s.spc.feeding = some (baySource bay)
    · obtain ⟨starts, refuses⟩ := askRelease_feeds flight feeds
      cases target : chooseTarget s s.spc.feeding [] with
      | some t =>
        rw [starts t target]
        exact (drivesTarget_start _ _ _ flight).trans (drivesTarget_same (same_setLatch _ bay _))
      | none =>
        rw [refuses target]
        exact drivesTarget_same (same_refuseBay bay s)
    · rw [askRelease_moved flight feeds]
      exact drivesTarget_same (same_grantBay bay s)

theorem drivesTarget_evaluate (bay : Bay) (s : State) : DrivesTarget s (evaluate bay s) := by
  have pend : ∀ cause, DrivesTarget s (pendFor bay cause s) := fun _ => drivesTarget_same (same_setLatch s bay _)
  unfold evaluate
  split
  · exact pend _
  · split
    · exact pend _
    · split
      · exact pend _
      · exact drivesTarget_askRelease bay s

theorem drivesTarget_evaluateDue (bay : Bay) (s : State) : DrivesTarget s (evaluateDue bay s) := by
  unfold evaluateDue
  split
  · exact drivesTarget_evaluate bay s
  · exact drivesTarget_same (Same.refl s)

/-- R32: the examination that ends an event. -/
theorem drivesTarget_settle (b : Bool) (s : State) : DrivesTarget s (settle b s) := by
  cases b with
  | false => exact drivesTarget_atMostOne (atMostOne_settle s)
  | true =>
    rw [settle_true]
    have held := drivesTarget_atMostOne (atMostOne_examineHeld s)
    exact ((held.trans (drivesTarget_evaluateDue _ _)).trans (drivesTarget_evaluateDue _ _)).trans
      (drivesTarget_atMostOne (atMostOne_afterReleases _))

/-- R32, step 4: the answer to what started a switchover that has not failed. -/
theorem drivesTarget_answerStarter (reason : SwReason) (f : Option Source) (o : SwOutcome) (fail : FailReason) (s : State) :
    DrivesTarget s (answerStarter reason f o fail s) := by
  unfold answerStarter
  split
  case h_1 => split <;> exact drivesTarget_same (same_spc (answerSelect_spc _ _ s).1)
  case h_2 =>
    split
    · unfold answerAsk
      split
      · split
        · exact drivesTarget_evaluate _ _
        · exact drivesTarget_same (same_refuseBay _ _)
      · exact drivesTarget_same (Same.refl s)
    · exact drivesTarget_same (Same.refl s)
  all_goals exact drivesTarget_same (Same.refl s)

theorem drivesTarget_endSwitchover (fail : FailReason) (s : State) :
    DrivesTarget (endedState .completed s) (endSwitchover .completed fail s) :=
  (drivesTarget_answerStarter _ _ _ _ _).trans (drivesTarget_settle true _)

/-! ### The end of a switchover, in an event that has ordered paths alone (R32, R48, R55) -/

/-- What an event has done before its switchover ends: it has ordered paths. -/
structure PathsOnly (s v : State) : Prop where
  eq : v = { s with spc := { s.spc with paths := v.spc.paths } }

/-- The event that ends a switchover, up to its last step. -/
def ending (o : SwOutcome) (fail : FailReason) (v : State) : State := settle false (endSwitchover o fail v)

section Ending

variable {s v : State} (o : SwOutcome) (fail : FailReason) (only : PathsOnly s v)

theorem reported_ending : Reported v (ending o fail v) :=
  (reported_endSwitchover o fail v).trans (kept_settle false _).toReported

/-- R32: what feeds after the event, and how the switchover ended. -/
theorem ending_feeds (v : State) :
    (arbitrate (ending o fail v)).spc.feeding = (v.spc.ended o).feeding ∧
      (arbitrate (ending o fail v)).spc.sw.outcome = o := by
  unfold ending
  obtain ⟨ended, -⟩ := ended_endSwitchover o fail v
  have carried := carries_event (endSwitchover o fail v)
  exact ⟨carried.feeding.trans ended.feeding, carried.outcome.trans ended.outcome⟩

include only

theorem PathsOnly.slu : v.slu = s.slu := congrArg (·.slu) only.eq
theorem PathsOnly.ltc : v.ltc = s.ltc := congrArg (·.ltc) only.eq
theorem PathsOnly.ddt : v.ddt = s.ddt := congrArg (·.ddt) only.eq
theorem PathsOnly.sw : v.spc.sw = s.spc.sw := congrArg (·.spc.sw) only.eq
theorem PathsOnly.feeding : v.spc.feeding = s.spc.feeding := congrArg (·.spc.feeding) only.eq

theorem PathsOnly.latch (bay : Bay) : v.latch bay = s.latch bay := congrArg (fun l : Ltc => l.latches.get bay) only.ltc

theorem PathsOnly.sameAsk : SameAsk v s :=
  ⟨only.latch, only.ddt, congrArg Slu.tx only.slu, congrArg Slu.noticeMask only.slu, congrArg Slu.owedRelease only.slu,
    congrArg (·.outbox.release) only.slu⟩

theorem PathsOnly.ask {bay : Bay} (ask : AskInFlight bay s) : AskInFlight bay v :=
  ⟨(congrArg Switchover.reason only.sw).trans ask.reason, (congrArg Switchover.fromSrc only.sw).trans ask.source,
    (congrArg LatchRecord.release (only.latch bay)).trans ask.pending,
    (congrArg LatchRecord.cause (only.latch bay)).trans ask.cause⟩

/-- R32: a reply that the end of the switchover has pushed first is made. -/
theorem madeReply_ending {w : State} {r : Reply} (ok : TransmitterOk s) (ends : endSwitchover o fail v = settle true w)
    (first : w.slu.fifo = (endedState o v).slu.fifo ++ [r]) : MadeReply s (arbitrate (ending o fail v)) r := by
  have reported := reported_ending (v := v) o fail
  have tx : (ending o fail v).slu.tx = s.slu.tx := by rw [reported.link, only.slu]
  have drop : (ending o fail v).slu.outbox.dropAlert = s.slu.outbox.dropAlert := by
    rw [← only.slu]
    exact reported.kinds .dropAlert (by decide) (by decide)
  refine madeReply_arbitrate ok tx drop ?_
  have fifo : (endedState o v).slu.fifo = s.slu.fifo := (endedState_slu _ _).2.1.trans (congrArg Slu.fifo only.slu)
  rw [← fifo, ← first, ending, ends]
  exact (kept_settle true w).grows.trans (kept_settle false _).grows

/-- R32, R48: the reply of a SELECT_SOURCE shows the switchover as it ended. -/
theorem ending_select (ok : TransmitterOk s) (tag : Byte) (reason : s.spc.sw.reason = .hostSelect)
    (owed : s.slu.owedSelect = some tag) :
    (arbitrate (ending o fail v)).slu.owedSelect = none ∧
      MadeReply s (arbitrate (ending o fail v))
        { tag := tag
          payload :=
            replyPayload (ReqKind.byte .selectSource) (if o = .completed then .ok else .failed)
              (if o = .completed then none else some fail)
              (u8 (sourceCode (v.spc.ended o).feeding) ++
                switchoverBytes { s.spc.sw with phase := .idle, tried := [], outcome := o }) } := by
  have reason' : v.spc.sw.reason = .hostSelect := (congrArg Switchover.reason only.sw).trans reason
  have owed' : v.slu.owedSelect = some tag := (congrArg Slu.owedSelect only.slu).trans owed
  have ends : endSwitchover o fail v =
      settle true (answerSelect (if o = .completed then .ok else .failed) (if o = .completed then none else some fail)
        (endedState o v)) := by
    show settle true (retryHeld v.spc.sw.reason _ o (answerStarter v.spc.sw.reason _ o fail (endedState o v))) = _
    rw [reason']
    cases o <;> rfl
  obtain ⟨-, answered⟩ := ended_endSwitchover o fail v
  obtain ⟨answeredOnce, -⟩ := answered tag reason' owed'
  refine ⟨(carries_event _).owedSelect.trans answeredOnce,
    madeReply_ending o fail only ok ends ((answerSelect_fifo ((endedState_slu _ _).1.trans owed')).trans ?_)⟩
  obtain ⟨record, feeding, -⟩ := endedState_spc o v
  rw [selectBytes, record, feeding, only.sw]

section Ask

variable {bay : Bay} (ask : AskInFlight bay s) (moved : o ≠ .failed) (off : (v.spc.ended o).feeding ≠ some (baySource bay))
include ask moved off

/-- R55: the ask of the bay that the switchover has freed of the load, with the transmitter busy. -/
theorem ending_asked : AskMoved (Joins s (arbitrate (ending o fail v))) bay s (arbitrate (ending o fail v)) := by
  have reported := reported_endSwitchover o fail v
  have freed := askMoved_endSwitchover o fail bay v (only.ask ask) moved off
  exact only.sameAsk.moved
    (askMoved_event false (by rw [reported.link]) (by rw [reported.rest]) (only.ask ask).pending freed)

/-- R53, R55: in STILL, where the other bay does not hold it, the bay is granted before the triggers are examined. -/
theorem ending_grants (still : s.ddt.phase = .still) (other : (s.latch (otherBay bay)).release ≠ .granted)
    (asks : askRuns s (otherBay bay) = false) :
    endSwitchover o fail v = settle true (grantBay bay (endedState o v)) := by
  obtain ⟨latch, -, -, -, motion⟩ := endedState_kept o v
  obtain ⟨record, feeding, -⟩ := endedState_spc o v
  have same : ∀ x, (endedState o v).latch x = s.latch x := fun x => (latch x).trans (only.latch x)
  have idle : inFlight (endedState o v) = false := by
    rw [inFlight, record]
    rfl
  have grants : evaluate bay (endedState o v) = grantBay bay (endedState o v) :=
    evaluate_grants (by rw [motion, only.ddt]; exact still) (by rw [same]; exact other)
      ((askRuns_latch (same _)).trans asks) idle (by rw [feeding]; exact off)
  rw [endSwitchover_ask o fail bay v (only.ask ask), if_neg moved, grants]

/-- R55: the ask of that bay is answered MOVED, and the reply owed is the first of the event. -/
theorem ending_ask (ok : TransmitterOk s) :
    AskMoved (MadeReply s (arbitrate (ending o fail v))) bay s (arbitrate (ending o fail v)) := by
  have answered := ending_asked o fail only ask moved off
  refine ⟨answered.waits, fun still other asks => ?_⟩
  have granted := answered.granted still other asks
  refine ⟨granted.record, granted.pack, granted.notice, fun tag owes owed => ?_⟩
  obtain ⟨none, -⟩ := granted.answered tag owes owed
  obtain ⟨latch, -, owedSame, -, -⟩ := endedState_kept o v
  have same : (endedState o v).latch bay = s.latch bay := (latch bay).trans (only.latch bay)
  have owed' : (endedState o v).slu.owedRelease = some tag :=
    owedSame.trans ((congrArg Slu.owedRelease only.slu).trans owed)
  have fifo := grantBay_fifo (s := endedState o v) (by rw [same]; exact owes) owed'
  have record : (arbitrate (ending o fail v)).latch bay = (grantBay bay (endedState o v)).latch bay := by
    rw [granted.record, grantBay_latch, same]
    rfl
  have bytes : latchBytes (arbitrate (ending o fail v)) bay = latchBytes (grantBay bay (endedState o v)) bay := by
    unfold latchBytes
    rw [record]
  rw [bytes]
  exact ⟨none, madeReply_ending o fail only ok (ending_grants o fail only ask moved off still other asks) fifo⟩

end Ask

end Ending

/-! ### The overlap time (R30, R32) -/

theorem exec_overlapTimerExpiry {s : State} (phase : s.spc.sw.phase = .ovlHold) :
    exec .overlapTimerExpiry s = .next (arbitrate (settle false (overlapExpiry s))) := if_pos phase

section Overlap

variable {f : Source} {s : State} (from_ : s.spc.sw.fromSrc = some f)

/-- R30: the event opens the from path and ends the switchover. -/
def overlapEnding (f : Source) (s : State) : State := ending .completed .targetTripped (openOrder f s)

theorem pathsOnly_openOrder (f : Source) (s : State) : PathsOnly s (openOrder f s) := ⟨rfl⟩

include from_ in
theorem overlapExpiry_ends : settle false (overlapExpiry s) = overlapEnding f s := by
  unfold overlapExpiry overlapEnding ending
  rw [from_]

theorem overlapEnding_feeds (f : Source) (s : State) :
    ((openOrder f s).spc.ended .completed).feeding = some s.spc.sw.toSrc := ended_feeding _ _

/-- R30, R32: the to source feeds, and the from path is off, or the target of a switchover that starts in the same event. -/
theorem overlapEnding_opens (f : Source) (s : State) :
    let t := arbitrate (overlapEnding f s)
    t.spc.feeding = some s.spc.sw.toSrc ∧ t.spc.sw.outcome = .completed ∧
      (gateDriven t f = true → inFlight t = true ∧ t.spc.sw.toSrc = f) := by
  unfold overlapEnding
  obtain ⟨feeds, outcome⟩ := ending_feeds .completed .targetTripped (openOrder f s)
  refine ⟨feeds.trans (overlapEnding_feeds f s), outcome, ?_⟩
  unfold ending
  have drives := ((drivesTarget_endSwitchover .targetTripped (openOrder f s)).trans (drivesTarget_settle false _)).trans
      (drivesTarget_same (same_spc (arbitrate_spc _)))
  have opened : (endedState .completed (openOrder f s)).path f = (s.path f).openOrdered :=
    ((same_publishSituation _).path f).trans ((path_ended _ _ f).trans ((openOrder_path f s f).trans (if_pos rfl)))
  exact drives.driven f (gate_off (by rw [opened]; exact openOrdered_off _))

end Overlap

/-- Settles O35. -/
theorem overlapExpiryCompletes : Obligations.OverlapExpiryCompletes := by
  intro f s ok phase from_ ne
  have only := pathsOnly_openOrder f s
  have feeding := overlapEnding_feeds f s
  have frame : SupplyFrame s (arbitrate (settle false (overlapExpiry s))) := supplyFrame_event (reported_overlapExpiry s)
  obtain ⟨feeds, outcome, opens⟩ := overlapEnding_opens f s
  rw [overlapExpiry_ends from_] at frame
  refine ⟨arbitrate (overlapEnding f s), ?_, frame, feeds, outcome, opens, fun tag reason owed => ?_, fun bay ask => ?_⟩
  · rw [exec_overlapTimerExpiry phase, overlapExpiry_ends from_]
  · have answered := ending_select .completed .targetTripped only ok tag reason owed
    rw [feeding] at answered
    exact answered
  · refine ending_ask .completed .targetTripped only ask (by decide) ?_ ok
    rw [feeding]
    intro same
    exact ne (Option.some.inj (from_.symm.trans (ask.source.trans same.symm)))

/-! ### The dead time (R31, R28) -/

theorem exec_deadTimeExpiry {s : State} (phase : s.spc.sw.phase = .gapDead) :
    exec .deadTimeExpiry s = .next (arbitrate (settle false (deadTimeExpiry s))) := if_pos phase

/-- R31: the record of a switchover whose dead time has passed, while `x` closes. -/
def closingRecord (x : Source) (tried : List Source) (w : Switchover) : Switchover :=
  { w with phase := .gapClose, toSrc := x, tried := tried }

/-- R31: in GAP_CLOSE the switchover is in flight, and the rest of the event keeps the orders it was given. -/
theorem closing_event {s v : State} {x : Source} {tried : List Source} (spc : v.spc = (closeTarget x tried s).spc) :
    let t := arbitrate (settle false v)
    t.spc.sw = closingRecord x tried s.spc.sw ∧ t.spc.deadTimer = none ∧
      ∀ p, t.path p = if p = x then (s.path x).closeOrdered else s.path p := by
  have flight : inFlight v = true := by
    rw [inFlight, spc]
    rfl
  have same := ((startsOnce_settle false v).flight flight).trans (same_spc (arbitrate_spc _))
  refine ⟨same.sw.trans (congrArg Spc.sw spc), same.deadTimer.trans (congrArg Spc.deadTimer spc), fun p => ?_⟩
  have ordered : v.path p = (closeTarget x tried s).path p := congrArg (fun c : Spc => c.paths.get p) spc
  exact (same.path p).trans (ordered.trans (setPath_path _ x _ p))

section DeadTime

variable {s : State}

theorem deadTimeExpiry_available (can : available s s.spc.sw.toSrc = true) :
    deadTimeExpiry s = closeTarget s.spc.sw.toSrc s.spc.sw.tried s := if_pos can

section Unavailable

variable (gone : available s s.spc.sw.toSrc = false)
include gone

theorem deadTimeExpiry_next {x : Source}
    (next : chooseTarget s s.spc.sw.fromSrc (s.spc.sw.tried ++ [s.spc.sw.toSrc]) = some x) :
    deadTimeExpiry s = failSelect .targetUnavailable (closeTarget x (s.spc.sw.tried ++ [s.spc.sw.toSrc]) s) := by
  unfold deadTimeExpiry
  simp only [gone, Bool.false_eq_true, if_false, next]

theorem deadTimeExpiry_none (none : chooseTarget s s.spc.sw.fromSrc (s.spc.sw.tried ++ [s.spc.sw.toSrc]) = .none) :
    settle false (deadTimeExpiry s) = ending .fellToNone .targetUnavailable s := by
  unfold deadTimeExpiry ending
  simp only [gone, Bool.false_eq_true, if_false, none]

end Unavailable

theorem failSelect_spc (fail : FailReason) (v : State) : (failSelect fail v).spc = v.spc := by
  unfold failSelect
  split
  · exact (answerSelect_spc _ _ v).1
  · rfl

/-- R48: a SELECT_SOURCE whose target is not available is answered FAILED, and shows the switchover with its new target. -/
theorem failSelect_event {v : State} (ok : TransmitterOk s) (slu : v.slu = s.slu) (reason : v.spc.sw.reason = .hostSelect)
    {tag : Byte} (owed : s.slu.owedSelect = some tag) (fail : FailReason) :
    (arbitrate (settle false (failSelect fail v))).slu.owedSelect = none ∧
      MadeReply s (arbitrate (settle false (failSelect fail v)))
        { tag := tag, payload := replyPayload (ReqKind.byte .selectSource) .failed (some fail) (selectBytes v) } := by
  have fails : failSelect fail v = answerSelect .failed (some fail) v := if_pos reason
  have owed' : v.slu.owedSelect = some tag := (congrArg Slu.owedSelect slu).trans owed
  have fifo := answerSelect_fifo (st := .failed) (f := some fail) owed'
  have kept := kept_settle false (answerSelect .failed (some fail) v)
  have none : (answerSelect .failed (some fail) v).slu.owedSelect = .none := by simp [answerSelect, owed']
  have tx : (answerSelect .failed (some fail) v).slu.tx = s.slu.tx :=
    (answerSelect_spc _ _ v).2.1.trans (congrArg Slu.tx slu)
  have notices : (answerSelect .failed (some fail) v).slu.outbox = v.slu.outbox := by simp [answerSelect, owed', Slu.pushReply]
  have drop : (answerSelect .failed (some fail) v).slu.outbox = s.slu.outbox := notices.trans (congrArg Slu.outbox slu)
  rw [fails]
  refine ⟨(carries_event _).owedSelect.trans none, madeReply_arbitrate ok ?_ ?_ ?_⟩
  · rw [settle_tx, tx]
  · exact (kept.kinds .dropAlert (by decide) (by decide)).trans (congrArg (·.dropAlert) drop)
  · rw [← slu, ← fifo]
    exact kept.grows

/-- R42: bus-low is left by the end of a switchover as the change of the feeding source has it. -/
theorem busLow_endSwitchover (o : SwOutcome) (fail : FailReason) (s : State) :
    (endSwitchover o fail s).spc.busLow = (s.spc.ended o).busLow := by
  have answers : ∀ v : State, (answerStarter s.spc.sw.reason s.spc.sw.fromSrc o fail v).spc.busLow = v.spc.busLow := by
    intro v
    unfold answerStarter
    split
    case h_1 => split <;> rw [(answerSelect_spc _ _ v).1]
    case h_2 =>
      split
      · exact (kept_answerAsk _ _ v).busLow
      · rfl
    all_goals rfl
  calc (endSwitchover o fail s).spc.busLow
      = (retryHeld s.spc.sw.reason s.spc.sw.toSrc o
          (answerStarter s.spc.sw.reason s.spc.sw.fromSrc o fail (endedState o s))).spc.busLow := (kept_settle true _).busLow
    _ = (endedState o s).spc.busLow := (calm_retryHeld _ _ _ _).busLow.trans (answers _)
    _ = (s.spc.ended o).busLow := (calm_publishSituation _).busLow

/-- R42: with NONE feeding bus-low is inactive. -/
theorem busLow_feedNone {c : Spc} (feeds : c.feeding ≠ none) : (c.feed none).busLow = false := by
  unfold Spc.feed
  rw [if_neg fun same => feeds same.symm]
  exact Bool.and_false _

theorem ending_none_busLow (fail : FailReason) {s : State} (feeds : s.spc.feeding ≠ none) :
    (arbitrate (ending .fellToNone fail s)).spc.busLow = false := by
  unfold ending
  rw [arbitrate_spc]
  exact (kept_settle false _).busLow.trans ((busLow_endSwitchover .fellToNone fail s).trans (busLow_feedNone feeds))

end DeadTime

/-- Settles O34. -/
theorem deadTimeExpiryClosesTarget : Obligations.DeadTimeExpiryClosesTarget := by
  intro s ok phase
  have frame : SupplyFrame s (arbitrate (settle false (deadTimeExpiry s))) := supplyFrame_event (reported_deadTimeExpiry s)
  refine ⟨arbitrate (settle false (deadTimeExpiry s)), exec_deadTimeExpiry phase, frame, fun can => ?_,
    fun gone x next => ?_, fun gone none => ?_⟩
  · rw [deadTimeExpiry_available can]
    obtain ⟨sw, dead, path⟩ := closing_event (s := s) (x := s.spc.sw.toSrc) (tried := s.spc.sw.tried) rfl
    exact ⟨sw, dead, (path _).trans (if_pos rfl), fun p other => (path p).trans (if_neg other)⟩
  · rw [deadTimeExpiry_next gone next]
    obtain ⟨sw, dead, path⟩ := closing_event (failSelect_spc .targetUnavailable
      (closeTarget x (s.spc.sw.tried ++ [s.spc.sw.toSrc]) s))
    refine ⟨sw, dead, (path _).trans (if_pos rfl), fun tag reason owed => ?_⟩
    rw [sw]
    exact failSelect_event (v := closeTarget x (s.spc.sw.tried ++ [s.spc.sw.toSrc]) s) ok rfl reason owed .targetUnavailable
  · rw [deadTimeExpiry_none gone none]
    have only : PathsOnly s s := ⟨rfl⟩
    have feeding : (s.spc.ended .fellToNone).feeding = .none := ended_feeding _ _
    obtain ⟨feeds, outcome⟩ := ending_feeds .fellToNone .targetUnavailable s
    refine ⟨feeds.trans feeding, outcome, ending_none_busLow .targetUnavailable, fun tag reason owed => ?_,
      fun bay ask => ?_⟩
    · have answered := ending_select .fellToNone .targetUnavailable only ok tag reason owed
      rw [feeding] at answered
      exact answered
    · refine ending_ask .fellToNone .targetUnavailable only ask (by decide) ?_ ok
      rw [feeding]
      exact nofun

end Sys2Proof.SwitchoverTimers

/-! ## Bus-low (O28) -/

namespace Sys2Proof.BusLow

open Sys2Proof.Machine Sys2Proof.Safety Sys2Proof.SourcePaths

/-! ### The counters at a sample (R42) -/

/-- R42: the sample that activates bus-low. -/
theorem busLowHere_iff (v : State) :
    busLowHere v = true ↔
      v.spc.feeding ≠ none ∧ v.spc.busLow = false ∧ v.spc.busVoltage < v.spc.settings.busLowMv ∧ 3 ≤ v.spc.belowCount + 1 := by
  unfold busLowHere
  simp only [Bool.and_eq_true, Option.isSome_iff_ne_none, Bool.not_eq_true', decide_eq_true_eq, and_assoc]
  exact Iff.rfl

/-- R42: while bus-low is inactive a sample counts below the threshold, and the third in a row activates it. -/
theorem busLowStep_inactive {v : State} (feeds : v.spc.feeding ≠ none) (off : v.spc.busLow = false) :
    (busLowStep v).spc.belowCount =
        (if v.spc.busVoltage < v.spc.settings.busLowMv then v.spc.belowCount + 1 else 0) ∧
      (busLowStep v).spc.recoveryTimer = v.spc.recoveryTimer ∧ (busLowStep v).spc.busLow = busLowHere v := by
  have fed : v.spc.feeding.isNone = false := Option.isNone_eq_false_iff.mpr (Option.isSome_iff_ne_none.mpr feeds)
  rw [busLowStep_spc]
  unfold busLowCounters
  by_cases below : v.spc.busVoltage < v.spc.settings.busLowMv <;>
    simp only [fed, off, below, Bool.false_eq_true, if_false, if_true, Bool.false_or, and_self]

/-- R42: while bus-low is active a sample runs the recovery timer, or stops it. -/
theorem busLowStep_active {v : State} (feeds : v.spc.feeding ≠ none) (on : v.spc.busLow = true) :
    (busLowStep v).spc.busLow = true ∧ (busLowStep v).spc.belowCount = v.spc.belowCount ∧
      (busLowStep v).spc.recoveryTimer =
        if v.spc.settings.busLowMv + 500 ≤ v.spc.busVoltage then
          some (v.spc.recoveryTimer.elim 0 (fun n => min 99 (n + 1)))
        else none := by
  have fed : v.spc.feeding.isNone = false := Option.isNone_eq_false_iff.mpr (Option.isSome_iff_ne_none.mpr feeds)
  rw [busLowStep_spc]
  unfold busLowCounters
  simp only [fed, on, Bool.false_eq_true, if_false, if_true, Bool.true_or, true_and]
  cases v.spc.recoveryTimer <;> rfl

/-! ### The BUS_LOW notice (R42, R174) -/

/-- BUS_LOW has not been raised between `s` and `t`. -/
def NoBusLow (s t : State) : Prop := t.slu.outbox.busLow = s.slu.outbox.busLow

section Quiet

variable (p : Source) (s : State)

theorem noBusLow_reported {s t : State} (h : Reported s t) : NoBusLow s t := h.kinds .busLow (by decide) (by decide)

theorem noBusLow_trip (cause : FaultCause) : NoBusLow s (trip p cause s) := raised_other s.slu .pathFault .busLow (by decide)

theorem noBusLow_tripAndReport (cause : FaultCause) : NoBusLow s (tripAndReport p cause s) :=
  (noBusLow_reported (reported_pathDown p .tripped _)).trans (noBusLow_trip p s cause)

theorem noBusLow_openAndReport (d : DownReport) : NoBusLow s (openAndReport p d s) :=
  noBusLow_reported (reported_openAndReport p d s)

theorem noBusLow_overStep : NoBusLow s (overStep p s) := by
  unfold overStep
  dsimp only
  split
  · split
    · rfl
    · exact noBusLow_tripAndReport p s .overcurrent
  · rfl

theorem noBusLow_protect : NoBusLow s (protect p s) := by
  unfold protect
  split
  case h_1 =>
    split
    · exact noBusLow_openAndReport p s .dropped
    · split
      · exact noBusLow_tripAndReport p s .short
      · rfl
  case h_2 =>
    split
    · exact noBusLow_openAndReport p s .overvolt
    · split
      · exact noBusLow_tripAndReport p s .short
      · exact noBusLow_overStep p s
  all_goals rfl

theorem noBusLow_holdDropout : NoBusLow s (holdDropout s) := by
  unfold holdDropout
  split
  · exact noBusLow_openAndReport _ s .dropped
  · rfl

theorem noBusLow_lossStep : NoBusLow s (lossStep s) := by
  unfold lossStep
  split
  · exact noBusLow_openAndReport _ s .lost
  · split <;> rfl

theorem noBusLow_removeBattery (was : Bool) (bay : Bay) : NoBusLow s (removeBattery was bay s) := by
  unfold removeBattery
  split
  · exact noBusLow_reported (kept_endWindow bay .removed s).toReported
  · rfl

/-- R10 to R13, R33, R57: what a sample does before it judges the bus voltage raises no BUS_LOW. -/
theorem noBusLow_sample (r : Readings) : NoBusLow s (lossStep (sampledPaths r s)) := by
  have stored : NoBusLow s (sampled r s) := by
    unfold NoBusLow
    rw [(stored_sampled r s).link]
  calc (lossStep (sampledPaths r s)).slu.outbox.busLow
      = (sampledPaths r s).slu.outbox.busLow := noBusLow_lossStep _
    _ = (sampledRemoved r s).slu.outbox.busLow := by
        rw [sampledPaths_eq]
        exact (noBusLow_holdDropout _).trans ((noBusLow_protect .bayB _).trans
          ((noBusLow_protect .bayA _).trans (noBusLow_protect .dcIn _)))
    _ = (sampled r s).slu.outbox.busLow := (noBusLow_removeBattery _ _ .b).trans (noBusLow_removeBattery _ _ .a)
    _ = s.slu.outbox.busLow := stored

end Quiet

/-! ### The sample that activates bus-low (R42, R45) -/

section Activates

variable {r : Readings} {s : State}

/-- What a sample has made of the part when it judges the bus voltage. -/
def judged (r : Readings) (s : State) : State := lossStep (sampledPaths r s)

theorem exec_busLowActivate (here : busLowHere (judged r s) = true) :
    exec (.busLowActivate r) s = .next (arbitrate (monitorSample r s)) := if_pos here

theorem exec_busLowActivate_not (no : busLowHere (judged r s) = false) : exec (.busLowActivate r) s = .next s :=
  if_neg (by rw [show busLowHere (lossStep (sampledPaths r s)) = false from no]; exact Bool.false_ne_true)

theorem judged_settings (r : Readings) (s : State) : (judged r s).spc.settings = s.spc.settings := by
  rw [judged, ((guarded_sampledPaths r s).trans (guarded_lossStep _)).settings, (stored_sampled r s).supply]

theorem judged_mask (r : Readings) (s : State) : (judged r s).slu.noticeMask = s.slu.noticeMask := by
  rw [judged, ((guarded_sampledPaths r s).trans (guarded_lossStep _)).link, (stored_sampled r s).link]

theorem sample_kept (r : Readings) (s : State) : Kept (busLowStep (judged r s)) (monitorSample r s) := kept_settle _ _

/-- R42: the judgement of the bus voltage leaves the rest of the supply. -/
theorem busLowStep_rest (v : State) :
    (busLowStep v).spc.feeding = v.spc.feeding ∧ (busLowStep v).spc.settings = v.spc.settings ∧
      (busLowStep v).spc.busVoltage = v.spc.busVoltage := by
  rw [busLowStep_spc, busLowCounters_frame]
  exact ⟨rfl, rfl, rfl⟩

variable (here : busLowHere (judged r s) = true)
include here

/-- R42: the third sample in a row below the threshold. -/
theorem activates_spec :
    let t := arbitrate (monitorSample r s)
    t.spc.busLow = true ∧ t.spc.busVoltage < t.spc.settings.busLowMv ∧ t.spc.feeding ≠ none ∧
      t.spc.belowCount = (judged r s).spc.belowCount + 1 := by
  intro t
  obtain ⟨feeds, off, below, -⟩ := (busLowHere_iff _).mp here
  obtain ⟨count, -, active⟩ := busLowStep_inactive feeds off
  obtain ⟨feeding, settings, volts⟩ := busLowStep_rest (judged r s)
  have kept := sample_kept r s
  refine ⟨kept.busLow.trans (active.trans here), ?_, ?_, kept.belowCount.trans (count.trans (if_pos below))⟩
  · show (monitorSample r s).spc.busVoltage < (monitorSample r s).spc.settings.busLowMv
    rw [kept.supply]
    show (busLowStep (judged r s)).spc.busVoltage < (busLowStep (judged r s)).spc.settings.busLowMv
    rw [volts, settings]
    exact below
  · show (monitorSample r s).spc.feeding ≠ none
    rw [kept.feeding, feeding]
    exact feeds

/-- R45, R46: with action SHED the situation is SHED, and the allowance cap its cap. -/
theorem activates_sheds (action : s.spc.settings.busLowAction = .shed) :
    let t := arbitrate (monitorSample r s)
    t.spc.situation = .shed ∧ t.spc.cap = s.spc.settings.caps.shed := by
  intro t
  have settings : t.spc.settings = s.spc.settings :=
    (congrArg Spc.settings (sample_kept r s).supply).trans
      ((busLowStep_rest _).2.1.trans (judged_settings r s))
  obtain ⟨situation, cap⟩ : SituationOk t := situationOk_arbitrate _ (situationOk_settle _ _)
  have shed : situationOf t = .shed :=
    (situationOf_spec t).1.mpr (.inl ⟨(activates_spec here).1, by rw [settings]; exact action⟩)
  rw [shed] at situation
  refine ⟨situation, cap.trans ?_⟩
  rw [situation, settings]
  rfl

/-- R42, R174: BUS_LOW is raised. -/
theorem activates_raises (busy : s.slu.tx ≠ none) (mask : inMask s.slu.noticeMask .busLow = true) :
    (arbitrate (monitorSample r s)).slu.outbox.busLow = min 255 (s.slu.outbox.busLow + 1) := by
  obtain ⟨-, -, sending, -⟩ := sampledRemoved_spec r s
  have tx : (monitorSample r s).slu.tx = s.slu.tx := (ran_monitorSample r s).tx.trans sending
  have raised : (busLowStep (judged r s)).slu = (judged r s).slu.raised .busLow := by
    unfold busLowStep
    rw [here]
    rfl
  rw [arbitrate_busy (by rw [tx]; exact busy)]
  calc (monitorSample r s).slu.outbox.busLow
      = (busLowStep (judged r s)).slu.outbox.busLow := noBusLow_reported (sample_kept r s).toReported
    _ = min 255 ((judged r s).slu.outbox.busLow + 1) := by
        rw [raised]
        exact raised_get _ .busLow (by rw [judged_mask]; exact mask)
    _ = min 255 (s.slu.outbox.busLow + 1) := by rw [show (judged r s).slu.outbox.busLow = _ from noBusLow_sample s r]

end Activates

/-- R42: the counters that a sample leaves while every source is calm. -/
theorem sample_counts {r : Readings} {s : State} (calm : ∀ x, CalmSource r s x) (feeds : s.spc.feeding ≠ none) :
    let mv := min 65535 r.vBus
    let t := arbitrate (monitorSample r s)
    (s.spc.busLow = false →
      t.spc.belowCount = (if mv < s.spc.settings.busLowMv then s.spc.belowCount + 1 else 0) ∧
      t.spc.recoveryTimer = s.spc.recoveryTimer ∧ t.spc.busLow = busLowHere (judged r s) ∧
      (busLowHere (judged r s) = true ↔ mv < s.spc.settings.busLowMv ∧ 3 ≤ s.spc.belowCount + 1)) ∧
    (s.spc.busLow = true →
      t.spc.busLow = true ∧ t.spc.belowCount = s.spc.belowCount ∧
      t.spc.recoveryTimer =
        (if s.spc.settings.busLowMv + 500 ≤ mv then some (s.spc.recoveryTimer.elim 0 (fun n => min 99 (n + 1))) else none)) := by
  obtain ⟨v, eq, feeding, low, settings, count, timer, volts, busLow, belowCount, recovery⟩ := busLow_monitorSample r s calm
  have feeds' : v.spc.feeding ≠ none := by rw [feeding]; exact feeds
  simp only [arbitrate_spc, busLow, belowCount, recovery]
  rw [show judged r s = v from eq, ← settings, ← count, ← timer, ← low, ← volts]
  refine ⟨fun off => ?_, fun on => busLowStep_active feeds' on⟩
  obtain ⟨below, same, active⟩ := busLowStep_inactive feeds' off
  refine ⟨below, same, active, (busLowHere_iff v).trans ?_⟩
  simp only [ne_eq, feeds', not_false_eq_true, off, true_and]

/-- Settles O28. -/
theorem busLowActivatesAndRecovers : Obligations.BusLowActivatesAndRecovers := by
  refine ⟨busLowHere_iff, fun r s => ⟨fun calm feeds => ?_, fun here => ?_, exec_busLowActivate_not,
    fun idle low runs => ?_, fun stopped => ?_⟩⟩
  · intro mv third
    obtain ⟨inactive, active⟩ := sample_counts calm feeds
    refine ⟨_, rfl, fun off => ?_, active⟩
    obtain ⟨count, timer, busLow, here⟩ := inactive off
    refine ⟨count, timer, by rw [busLow]; exact here, fun low => exec_busLowActivate (here.mpr low), fun high => ?_⟩
    exact exec_busLowActivate_not (Bool.eq_false_iff.mpr fun low => high (here.mp low))
  · obtain ⟨low, below, feeds, count⟩ := activates_spec here
    exact ⟨_, exec_busLowActivate here, rfl, low, below, feeds, count, activates_sheds here, activates_raises here⟩
  · have examined : Examined { s with spc := { s.spc with busLow := false, belowCount := 0, recoveryTimer := none } } _ :=
      examined_event idle rfl
    refine ⟨_, if_pos ⟨low, Option.isSome_iff_ne_none.mpr runs⟩, ?_, ?_, ?_, examined⟩ <;> rw [examined.supply]
  · refine if_neg fun runs => ?_
    rcases stopped with off | none
    · exact absurd (runs.1.symm.trans off) (by decide)
    · exact absurd runs.2 (by simp [none])

end Sys2Proof.BusLow

/-! ## A declared loss (O27) -/

namespace Sys2Proof.Loss

open Sys2Proof.Machine Sys2Proof.Safety Sys2Proof.SourcePaths Sys2Proof.Switchovers Sys2Proof.SwitchoverTimers
  Sys2Proof.BusLow

/-! ### A path that has opened with its source gone stays open (R5) -/

/-- A path that has opened and is not to be closed. -/
structure StaysOpen (p : Source) (s : State) : Prop where
  shut : Shut s p
  opened : (s.path p).state = .opened

section StaysOpen

variable {p : Source} {s t : State}

theorem staysOpen_of (path : t.path p = s.path p) (shut : Shut t p) (h : StaysOpen p s) : StaysOpen p t :=
  ⟨shut, by rw [path]; exact h.opened⟩

/-- R29 to R31: an examination orders the close of no such path. -/
theorem staysOpen_startsOnce (starts : StartsOnce s t) (shut : Shut t p) (h : StaysOpen p s) : StaysOpen p t := by
  refine ⟨shut, ?_⟩
  rcases starts.path p with same | ⟨-, -, closed | opened⟩
  · rw [same]
    exact h.opened
  · have on : gateDriven t p = true := by simp [gateDriven, closed, closeOrdered_opened h.opened]
    exact absurd (on.symm.trans shut.1) (by decide)
  · rw [opened, PathRecord.openOrdered, h.opened]
    exact h.opened

theorem staysOpen_settle (b : Bool) (h : StaysOpen p s) : StaysOpen p (settle b s) :=
  staysOpen_startsOnce (startsOnce_settle b s) ((carries_settle b s).shut p h.shut) h

theorem staysOpen_endSwitchover (o : SwOutcome) (fail : FailReason) (h : StaysOpen p s) :
    StaysOpen p (endSwitchover o fail s) := by
  obtain ⟨ended, -⟩ := ended_endSwitchover o fail s
  have path : (endedState o s).path p = s.path p := ((same_publishSituation _).path p).trans (path_ended _ _ p)
  have volts : ∀ q, ((endedState o s).path q).voltage = (s.path q).voltage := fun q =>
    congrArg PathRecord.voltage (((same_publishSituation _).path q).trans (path_ended _ _ q))
  have left : StaysOpen p (endedState o s) :=
    staysOpen_of path (shut_of (congrArg PathRecord.state path) volts h.shut) h
  exact staysOpen_startsOnce (startsOnce_endSwitchover o fail s) (ended.shut p h.shut) left

/-- What leaves the paths alone. -/
theorem staysOpen_paths (path : ∀ q, t.path q = s.path q) (h : StaysOpen p s) : StaysOpen p t :=
  staysOpen_of (path p) (shut_of (congrArg PathRecord.state (path p)) (fun q => congrArg PathRecord.voltage (path q)) h.shut) h

theorem staysOpen_toFailed (fail : FailReason) (h : StaysOpen p s) : StaysOpen p (toFailed fail s) := by
  unfold toFailed
  dsimp only
  split
  · split
    · refine staysOpen_paths (s := s) (fun q => ?_) h
      unfold State.path
      rw [failSelect_spc]
      rfl
    · exact staysOpen_endSwitchover _ _ h
  · exact staysOpen_endSwitchover _ _ h

theorem staysOpen_fromLost (h : StaysOpen p s) : StaysOpen p (fromLost s) := by
  have gap : StaysOpen p (lostGap s) := staysOpen_paths (s := s) (fun _ => rfl) h
  by_cases hold : s.spc.sw.phase = .ovlHold
  · rw [fromLost_hold hold]
    exact staysOpen_endSwitchover _ _ gap
  · rw [show fromLost s = lostGap s from if_neg hold]
    exact gap

theorem staysOpen_feedingLost (reason : SwReason) (idle : inFlight s = false) (h : StaysOpen p s) :
    StaysOpen p (feedingLost reason s) := by
  unfold feedingLost
  split
  · rename_i target
    exact staysOpen_startsOnce (startsOnce_start reason _ [] idle)
      ((carries_start reason _ _ [] s idle (chooseTarget_available target)).shut p h.shut) h
  · exact staysOpen_endSwitchover _ _ (staysOpen_paths (s := s) (fun _ => rfl) h)

/-- R33, R38 to R41: whatever the report of an opened path makes of the switchover. -/
theorem staysOpen_pathDown (d : DownReport) (h : StaysOpen p s) : StaysOpen p (pathDown p d s) := by
  unfold pathDown
  split
  · exact staysOpen_toFailed _ h
  · split
    · exact staysOpen_fromLost h
    · split
      · rename_i idle
        exact staysOpen_feedingLost _ idle.1 h
      · exact h

end StaysOpen

/-! ### The declaration (R33) -/

/-- R33: the loss timer of a sample not present has run `k` samples, `k` at least 1. -/
theorem le_nextLoss (v : State) {k : Nat} (pos : 0 < k) :
    k ≤ nextLoss v ↔ ∃ n, v.spc.lossTimer = some n ∧ k ≤ n + 1 := by
  unfold nextLoss
  cases v.spc.lossTimer with
  | none => simp [Nat.not_le.mpr pos]
  | some n => simp

theorem declares_iff (v : State) :
    declares v (nextLoss v) = true ↔
      if v.ddt.phase = .still then ∃ n, v.spc.lossTimer = some n ∧ 2 ≤ n + 1
      else (∃ n, v.spc.lossTimer = some n ∧ v.spc.settings.rideMs * 10 ≤ n + 1) ∨
        v.spc.busVoltage < v.spc.settings.busLowMv ∨ v.spc.settings.rideMs = 0 := by
  unfold declares rideThroughArmed
  by_cases still : v.ddt.phase = .still
  · simp only [still, bne_self_eq_false, Bool.false_eq_true, if_false, if_true, decide_eq_true_eq]
    exact le_nextLoss v (k := 2) (by decide)
  · simp only [still, bne_iff_ne.mpr still, if_true, if_false, Bool.or_eq_true, decide_eq_true_eq]
    rcases Nat.eq_zero_or_pos v.spc.settings.rideMs with none | some
    · simp [none]
    · rw [show v.spc.settings.rideMs * Config.samplesPerMs = v.spc.settings.rideMs * 10 from rfl,
        le_nextLoss v (Nat.mul_pos some (by decide))]
      simp [Nat.pos_iff_ne_zero.mp some]

theorem gapRunning_false_iff (v : State) :
    gapRunning v = false ↔ v.spc.sw.phase = .idle ∨ v.spc.sw.phase = .ovlClose ∨ v.spc.sw.phase = .ovlHold := by
  unfold gapRunning
  cases v.spc.sw.phase <;> simp

theorem lossWatched_iff (v : State) (f : Source) :
    lossWatched v = some f ↔ v.spc.feeding = some f ∧ (v.path f).state = .closed ∧ gapRunning v = false := by
  unfold lossWatched
  cases v.spc.feeding with
  | none => simp
  | some g =>
    simp only [Option.ite_none_right_eq_some, Option.some.injEq]
    constructor
    · rintro ⟨watched, rfl⟩
      exact ⟨rfl, watched⟩
    · rintro ⟨rfl, watched⟩
      exact ⟨watched, rfl⟩

/-- R33: the loss that a sample declares. -/
theorem lossHere_iff (v : State) (f : Source) :
    lossHere v = some f ↔
      v.spc.feeding = some f ∧ (v.path f).state = .closed ∧
        (v.spc.sw.phase = .idle ∨ v.spc.sw.phase = .ovlClose ∨ v.spc.sw.phase = .ovlHold) ∧ present v f = false ∧
        (if v.ddt.phase = .still then ∃ n, v.spc.lossTimer = some n ∧ 2 ≤ n + 1
         else (∃ n, v.spc.lossTimer = some n ∧ v.spc.settings.rideMs * 10 ≤ n + 1) ∨
           v.spc.busVoltage < v.spc.settings.busLowMv ∨ v.spc.settings.rideMs = 0) := by
  rw [← declares_iff, ← gapRunning_false_iff]
  have watched : lossHere v = some f ↔ lossWatched v = some f ∧ present v f = false ∧ declares v (nextLoss v) = true := by
    unfold lossHere
    cases lossWatched v with
    | none => simp
    | some g =>
      simp only [Option.ite_none_right_eq_some, Option.some.injEq]
      constructor
      · rintro ⟨declared, rfl⟩
        exact ⟨rfl, declared⟩
      · rintro ⟨rfl, declared⟩
        exact ⟨declared, rfl⟩
  rw [watched, lossWatched_iff]
  simp only [and_assoc]

/-! ### The judgement of the bus voltage and a RELEASE ask (R42, R55) -/

/-- What the judgement of the bus voltage leaves of what an answered ask shows. -/
structure AskKept (s t : State) : Prop where
  latch : ∀ bay, t.latch bay = s.latch bay
  motion : t.ddt = s.ddt
  tx : t.slu.tx = s.slu.tx
  fifo : t.slu.fifo = s.slu.fifo
  owed : t.slu.owedRelease = s.slu.owedRelease
  notices : t.slu.outbox.release = s.slu.outbox.release
  pack : t.spc.packInfo = s.spc.packInfo

theorem busLowStep_ask (s : State) : AskKept s (busLowStep s) := by
  have pack : (busLowCounters s).packInfo = s.spc.packInfo := by rw [busLowCounters_frame]
  unfold busLowStep raiseIf
  dsimp only
  cases busLowHere s with
  | true =>
    exact ⟨fun _ => rfl, rfl, raised_tx _ s.slu, raised_fifo _ s.slu, raised_owedRelease _ s.slu,
      raised_other s.slu .busLow .release (by decide), pack⟩
  | false => exact ⟨fun _ => rfl, rfl, rfl, rfl, rfl, rfl, pack⟩

theorem askMoved_busLowStep {w s : State} {bay : Bay} (h : AskMoved (Joins w s) bay w s) :
    AskMoved (Joins w (busLowStep s)) bay w (busLowStep s) := by
  obtain ⟨latch, -, -, fifo, owed, notices, pack⟩ := busLowStep_ask s
  refine ⟨fun moves => (latch bay).trans (h.waits moves), fun still other asks => ?_⟩
  obtain ⟨record, cleared, notice, answered⟩ := h.granted still other asks
  refine ⟨(latch bay).trans record, by rw [pack]; exact cleared,
    fun busy mask => by rw [notices]; exact notice busy mask, fun tag owes owedTag => ?_⟩
  obtain ⟨none, made⟩ := answered tag owes owedTag
  have bytes : latchBytes (busLowStep s) bay = latchBytes s bay := by
    unfold latchBytes
    rw [latch]
  rw [bytes]
  exact ⟨owed.trans none, fun busy => by rw [fifo]; exact made busy⟩

/-! ### The event (R28, R33, R40) -/

section Declared

variable {r : Readings} {s : State} {f : Source}

/-- R33: the event after the report of the lost path. -/
theorem sample_declares (declared : lossHere (sampledPaths r s) = some f) :
    judged r s = pathDown f .lost (openOrder f (sampledPaths r s)) := by
  unfold judged lossStep
  rw [declared]
  rfl

theorem exec_lossDeclared (declared : lossHere (sampledPaths r s) = some f) :
    exec (.lossDeclared r) s = .next (arbitrate (monitorSample r s)) := if_pos (by rw [declared]; rfl)

/-- The rest of the sample carries on what the report has left. -/
theorem carries_judged (r : Readings) (s : State) : Carries (judged r s) (arbitrate (monitorSample r s)) :=
  ((carries_busLowStep _).trans (carries_settle _ _)).trans (carries_arbitrate _)

/-- R33: the lost path has opened, and its source is gone. -/
theorem lost_staysOpen {v : State} (declared : lossHere v = some f) : StaysOpen f (openOrder f v) := by
  obtain ⟨-, closed, -, gone, -⟩ := (lossHere_iff v f).mp declared
  refine ⟨shut_opened gone, ?_⟩
  rw [openOrder_path, if_pos rfl, PathRecord.openOrdered, closed]

theorem declared_opens (declared : lossHere (sampledPaths r s) = some f) :
    ((arbitrate (monitorSample r s)).path f).state = .opened := by
  have left : StaysOpen f (judged r s) := by
    rw [sample_declares declared]
    exact staysOpen_pathDown .lost (lost_staysOpen declared)
  have judgedBus : StaysOpen f (busLowStep (judged r s)) := staysOpen_paths (busLowStep_path _) left
  exact (staysOpen_settle (removesBattery s (sampled r s)) judgedBus).opened

/-- R45: a GAP switchover past its opening sheds. -/
theorem situation_gap {t : State} (ok : SituationOk t) (phase : t.spc.sw.phase = .gapDead ∨ t.spc.sw.phase = .gapClose) :
    t.spc.situation = .shed :=
  ok.situation.trans ((situationOf_spec t).1.mpr (.inr (.inr (phase.imp_right .inl))))

theorem sample_situation (r : Readings) (s : State) : SituationOk (arbitrate (monitorSample r s)) :=
  situationOk_arbitrate _ (situationOk_settle _ _)

/-- R42: with no target left bus-low is inactive. -/
theorem busLow_feedingLost (reason : SwReason) {w : State} (feeds : w.spc.feeding = some f)
    (none : chooseTarget w (some f) [] = .none) : (feedingLost reason w).spc.busLow = false := by
  unfold feedingLost
  simp only [feeds, none]
  rw [busLow_endSwitchover]
  exact busLow_feedNone (Option.some_ne_none f)

section Feeding

variable (declared : lossHere (sampledPaths r s) = some f) (idle : inFlight (sampledPaths r s) = false)
include declared idle

omit idle in
theorem lost_feeds : (openOrder f (sampledPaths r s)).spc.feeding = some f := ((lossHere_iff _ f).mp declared).1

/-- R33: outside a switchover the report leaves the feeding source. -/
theorem judged_feedingLost : judged r s = feedingLost .loss (openOrder f (sampledPaths r s)) := by
  have feeds := lost_feeds declared
  have phase : (openOrder f (sampledPaths r s)).spc.sw.phase = .idle := (bne_eq_false_iff_eq.mp idle :)
  have idle' : inFlight (openOrder f (sampledPaths r s)) = false := idle
  rw [sample_declares declared]
  simp [pathDown, overlapping, phase, idle', feeds, DownReport.reason]

omit idle in
/-- R29: the lost path is open, so the switchover from it is GAP. -/
theorem lost_gap (q : Source) : chooseMode (openOrder f (sampledPaths r s)) (some f) q = .gap := by
  unfold chooseMode
  dsimp only
  rw [if_neg]
  rintro ⟨closed, -⟩
  exact absurd ((lost_staysOpen declared).opened.symm.trans closed) (by decide)

/-- R28, R33: a loss with a target starts its GAP switchover. -/
theorem declared_starts {x : Source} (target : chooseTarget (openOrder f (sampledPaths r s)) (some f) [] = some x) :
    let t := arbitrate (monitorSample r s)
    t.spc.sw =
        { reason := .loss, fromSrc := some f, toSrc := x, mode := .gap, phase := .gapDead, tried := []
          outcome := (openOrder f (sampledPaths r s)).spc.sw.outcome } ∧
      t.spc.deadTimer = some s.spc.settings.deadUs ∧ t.spc.lossTimer = none := by
  intro t
  have carried : Carries _ t := carries_judged r s
  have feeds := lost_feeds declared
  rw [judged_feedingLost declared idle] at carried
  obtain ⟨-, -, starts, -⟩ := feedingLost_spec .loss f _ feeds idle (lost_gap declared) (lost_staysOpen declared).shut
  obtain ⟨sw, dead, -⟩ := starts x target
  have flight : inFlight (feedingLost .loss (openOrder f (sampledPaths r s))) = true := by
    rw [inFlight, sw]
    rfl
  have settings : (openOrder f (sampledPaths r s)).spc.settings = s.spc.settings := by
    show (sampledPaths r s).spc.settings = _
    rw [(guarded_sampledPaths r s).settings, (stored_sampled r s).supply]
  have loss : (feedingLost .loss (openOrder f (sampledPaths r s))).spc.lossTimer = none := by
    have start : feedingLost .loss (openOrder f (sampledPaths r s)) =
        startSwitchover .loss (openOrder f (sampledPaths r s)).spc.feeding x [] (openOrder f (sampledPaths r s)) := by
      unfold feedingLost
      rw [feeds, target]
    rw [start, startSwitchover_recorded]
    show (startRecorded .loss x (openOrder f (sampledPaths r s))).spc.lossTimer = none
    rw [startRecorded_spc]
    exact if_neg (by rw [feeds, lost_gap declared]; decide)
  rw [settings] at dead
  obtain ⟨keepsSw, keepsDead⟩ := carried.flight flight
  exact ⟨keepsSw.trans sw, keepsDead.trans dead, carried.loss flight loss⟩

/-- R28, R42: a loss without one leaves NONE feeding, and bus-low inactive. -/
theorem declared_none (none : chooseTarget (openOrder f (sampledPaths r s)) (some f) [] = .none) :
    let t := arbitrate (monitorSample r s)
    t.spc.feeding = .none ∧ t.spc.sw.outcome = .fellToNone ∧ t.spc.busLow = false := by
  intro t
  have feeds := lost_feeds declared
  have judgedIs := judged_feedingLost declared idle
  obtain ⟨-, -, -, falls⟩ := feedingLost_spec .loss f _ feeds idle (lost_gap declared) (lost_staysOpen declared).shut
  obtain ⟨feeding, outcome⟩ := falls none
  have carried : Carries (judged r s) t := carries_judged r s
  rw [← judgedIs] at feeding outcome
  have low : (judged r s).spc.busLow = false := by
    rw [judgedIs]
    exact busLow_feedingLost .loss feeds none
  have here : busLowHere (judged r s) = false :=
    Bool.eq_false_iff.mpr fun here => ((busLowHere_iff _).mp here).1 feeding
  refine ⟨carried.feeding.trans feeding, carried.outcome.trans outcome, (sample_kept r s).busLow.trans ?_⟩
  rw [busLowStep_spc]
  exact Bool.or_eq_false_iff.mpr ⟨low, here⟩

end Feeding

/-- R40: in an OVERLAP switchover the loss of its from path. -/
theorem declared_fromPath (declared : lossHere (sampledPaths r s) = some f)
    (from_ : (sampledPaths r s).spc.sw.fromSrc = some f) (target : (sampledPaths r s).spc.sw.toSrc ≠ f)
    (phase : (sampledPaths r s).spc.sw.phase = .ovlClose ∨ (sampledPaths r s).spc.sw.phase = .ovlHold) :
    let t := arbitrate (monitorSample r s)
    FromPathLost (sampledPaths r s) t ∧
      ((sampledPaths r s).spc.sw.phase = .ovlHold → ∀ bay, AskInFlight bay (sampledPaths r s) →
        AskMoved (Joins (sampledPaths r s) t) bay (sampledPaths r s) t) := by
  intro t
  have carried : Carries (judged r s) t := carries_judged r s
  have only := pathsOnly_openOrder f (sampledPaths r s)
  have reported := reported_pathDown f .lost (openOrder f (sampledPaths r s))
  obtain ⟨-, reports⟩ := pathDown_spec f .lost (openOrder f (sampledPaths r s))
  obtain ⟨lost, moved⟩ := reports from_ target phase
  rw [← sample_declares declared] at lost moved reported
  refine ⟨fromPathLost_agree (fromPathLost_carried lost (fun busy => by rw [reported.link]; exact busy) carried)
    rfl rfl rfl rfl, fun hold bay ask => only.sameAsk.moved ?_⟩
  have asked := askMoved_busLowStep (moved hold bay (only.ask ask))
  have frame := busLowStep_ask (judged r s)
  have tx := frame.tx.trans (congrArg Slu.tx reported.link)
  have motion := frame.motion.trans (congrArg State.ddt reported.rest)
  exact askMoved_event _ tx motion (only.ask ask).pending asked

end Declared

/-- Settles O27. -/
theorem lossOpensAndLeavesTheSource : Obligations.LossOpensAndLeavesTheSource := by
  intro r s
  refine ⟨fun f declared => ⟨_, exec_lossDeclared declared, rfl, declared_opens declared, fun idle => ?_,
    fun from_ target phase => ?_⟩, fun none => if_neg (by simp [none]), lossHere_iff⟩
  · refine ⟨fun x choice => ?_, declared_none declared idle⟩
    obtain ⟨sw, dead, loss⟩ := declared_starts declared idle choice
    rw [sw]
    exact ⟨rfl, rfl, rfl, rfl, rfl, rfl, dead, loss, situation_gap (sample_situation r s) (.inl (by rw [sw]))⟩
  · obtain ⟨lost, moved⟩ := declared_fromPath declared from_ target phase
    refine ⟨lost, fun closing => situation_gap (sample_situation r s) (.inr ?_), moved⟩
    obtain ⟨sw, -⟩ := lost.closing closing
    rw [sw]

end Sys2Proof.Loss

/-! ## Release requests (O40, O41) -/

namespace Sys2Proof.ReleaseRequests

open Sys2Proof.Machine Sys2Proof.Safety Sys2Proof.SourcePaths Sys2Proof.SupplyLaws

/-! ### What a release request leaves alone (R51 to R53) -/

section Request

variable (bay : Bay) (o : Origin) (s : State)

theorem releaseRequest_idle {bay : Bay} {s : State} (idle : (s.latch bay).release = .idle) :
    releaseRequest bay o s = startRelease bay o s := by
  unfold releaseRequest
  rw [idle]

/-- R53: a request joins a release that is under way. -/
theorem releaseRequest_joins {bay : Bay} {s : State} (busy : (s.latch bay).release ≠ .idle) :
    releaseRequest bay o s = s.setLatch bay ((s.latch bay).joined o) := by
  unfold releaseRequest
  cases release : (s.latch bay).release with
  | idle => exact absurd release busy
  | pending | granted => rfl

theorem startRelease_other : (startRelease bay o s).latch (otherBay bay) = s.latch (otherBay bay) := by
  unfold startRelease
  rw [evaluate_other bay _ (otherBay_ne bay), examineHeld_pend_latch, pendRelease_other]

theorem releaseRequest_other : (releaseRequest bay o s).latch (otherBay bay) = s.latch (otherBay bay) := by
  by_cases idle : (s.latch bay).release = .idle
  · rw [releaseRequest_idle o idle, startRelease_other]
  · rw [releaseRequest_joins o idle, setLatch_latch, if_neg (otherBay_ne bay)]

theorem startRelease_kept : Kept (pendRelease bay o s) (startRelease bay o s) :=
  (calm_examineHeld _).toKept.trans (kept_evaluate bay _)

/-- A request changes its own block, and then what an evaluation of a release changes. -/
theorem releaseRequest_kept :
    ∃ l : Ltc, l.armed = s.ltc.armed ∧ Kept { s with ltc := l } (releaseRequest bay o s) := by
  by_cases idle : (s.latch bay).release = .idle
  · rw [releaseRequest_idle o idle]
    exact ⟨(pendRelease bay o s).ltc, rfl, startRelease_kept bay o s⟩
  · rw [releaseRequest_joins o idle]
    exact ⟨(s.setLatch bay ((s.latch bay).joined o)).ltc, rfl, Kept.refl _⟩

/-- The event of a request. -/
def requested : State := arbitrate (settle false (releaseRequest bay o s))

theorem requested_latch (x : Bay) : (requested bay o s).latch x = (releaseRequest bay o s).latch x := settle_latch _ x

/-- What the event of a request leaves alone. -/
structure RequestFrame (bay : Bay) (s t : State) : Prop where
  armed : t.ltc.armed = s.ltc.armed
  other : t.latch (otherBay bay) = s.latch (otherBay bay)
  motion : t.mpt = s.mpt ∧ t.ddt = s.ddt
  sense : t.scv = s.scv
  settings : t.spc.settings = s.spc.settings
  feeding : t.spc.feeding = s.spc.feeding
  path : ∀ p, SamePath (s.path p) (t.path p)
  caps : CapFrame s t
  situation : SituationOk t

theorem requested_frame : RequestFrame bay s (requested bay o s) := by
  obtain ⟨l, armed, kept⟩ := releaseRequest_kept bay o s
  have event := kept.trans (kept_settle false _)
  refine ⟨?_, (requested_latch bay o s _).trans (releaseRequest_other bay o s), ⟨?_, ?_⟩, ?_, ?_, event.feeding, event.path,
    ⟨event.caps.bre, event.caps.lmd⟩, situationOk_arbitrate _ (situationOk_settle false _)⟩
  · show (settle false (releaseRequest bay o s)).ltc.armed = _
    rw [event.latches]
    exact armed
  · show (settle false (releaseRequest bay o s)).mpt = _
    rw [event.rest]
  · show (settle false (releaseRequest bay o s)).ddt = _
    rw [event.rest]
  · show (settle false (releaseRequest bay o s)).scv = _
    rw [event.rest]
  · show (settle false (releaseRequest bay o s)).spc.settings = _
    rw [event.supply]

end Request

/-! ### A request on an IDLE bay (R32, R37, R53, R56) -/

section Idle

variable {bay : Bay} (o : Origin) {s : State} (idle : (s.latch bay).release = .idle)
include idle

theorem requested_idle (x : Bay) : (requested bay o s).latch x = (startRelease bay o s).latch x := by
  rw [requested_latch, releaseRequest_idle o idle]

/-- R32: an EMPTY or HOT that RESET has left to begin starts before the ask. -/
theorem requested_held {r : SwReason} {x : Source} (held : HeldFirst s bay r x) :
    (requested bay o s).spc.sw = startedRecord s r x := by
  have sw := (startRelease_waits bay o s).1 r x held
  have flight : inFlight (startRelease bay o s) = true := by
    rw [inFlight_iff, sw, startedRecord_phase]
    exact startPhase_ne_idle _ _
  unfold requested
  rw [arbitrate_spc, releaseRequest_idle o idle]
  exact (settle_sw _ flight).trans sw

end Idle

/-! ### The replies of a request (R52, R172, R176) -/

/-- R53: a bay that its ask leaves PENDING is made no reply. -/
theorem askRelease_pending_slu {bay : Bay} {v : State} :
    ((askRelease bay v).latch bay).release = .pending → (askRelease bay v).slu = v.slu := by
  unfold askRelease
  cases askAnswer v bay with
  | wait => exact fun _ => rfl
  | moved =>
    intro pending
    rw [grantBay_latch] at pending
    cases pending
  | noTarget =>
    intro pending
    rw [refuseBay_latch] at pending
    cases pending
  | started t => exact fun _ => (startSwitchover_ltc .release v.spc.feeding t [] v).2.1

theorem evaluate_pending_slu {bay : Bay} {v : State} :
    ((evaluate bay v).latch bay).release = .pending → (evaluate bay v).slu = v.slu := by
  unfold evaluate
  split
  · exact fun _ => rfl
  · split
    · exact fun _ => rfl
    · split
      · exact fun _ => rfl
      · exact askRelease_pending_slu

/-- R176: with no reply waiting, the transmitter takes none. -/
theorem arbitrate_fifo {v : State} (ok : v.slu.tx = none → v.slu.fifo = []) : (arbitrate v).slu.fifo = v.slu.fifo := by
  show (arbitrated v).fifo = v.slu.fifo
  unfold arbitrated noticeSent
  cases tx : v.slu.tx with
  | some x => rfl
  | none =>
    have empty := ok tx
    simp only [empty]
    repeat' split
    all_goals first | exact empty | rfl

section Owed

variable {bay : Bay} (o : Origin) {s : State}

theorem pendRelease_slu (bay : Bay) (s : State) : (pendRelease bay o s).slu = s.slu := rfl

/-- R52: while the bay is PENDING its reply stays owed. -/
theorem requested_owed (ok : s.slu.tx = none → s.slu.fifo = [])
    (pending : ((requested bay o s).latch bay).release = .pending) :
    (requested bay o s).slu.owedRelease = s.slu.owedRelease ∧ (requested bay o s).slu.fifo = s.slu.fifo := by
  rw [requested_latch] at pending
  have kept : (releaseRequest bay o s).slu.owedRelease = s.slu.owedRelease ∧ (releaseRequest bay o s).slu.fifo = s.slu.fifo ∧
      (releaseRequest bay o s).slu.tx = s.slu.tx := by
    by_cases idle : (s.latch bay).release = .idle
    · rw [releaseRequest_idle o idle] at pending ⊢
      have held := calm_examineHeld (pendRelease bay o s)
      rw [show (startRelease bay o s).slu = (examineHeld (pendRelease bay o s)).slu from evaluate_pending_slu pending]
      exact ⟨held.owedRelease, held.fifo, by rw [held.link, pendRelease_slu]⟩
    · rw [releaseRequest_joins o idle]
      exact ⟨rfl, rfl, rfl⟩
  obtain ⟨owed, fifo, tx⟩ := kept
  have settled := calm_settle (releaseRequest bay o s)
  have empty : (settle false (releaseRequest bay o s)).slu.tx = none → (settle false (releaseRequest bay o s)).slu.fifo = [] := by
    rw [settle_tx, settled.fifo, tx, fifo]
    exact ok
  exact ⟨(arbitrate_owed _).trans (settled.owedRelease.trans owed), (arbitrate_fifo empty).trans (settled.fifo.trans fifo)⟩

end Owed

/-! ### An ask with no switchover in flight (R37, R53, R55, R56) -/

/-- R37, R53: the LTC asks for an IDLE bay, in STILL, and the supply is free to answer. -/
structure Asks (bay : Bay) (s : State) : Prop where
  release : (s.latch bay).release = .idle
  still : s.ddt.phase = .still
  other : (s.latch (otherBay bay)).release ≠ .granted
  idle : inFlight s = false
  asks : askRuns s (otherBay bay) = false
  held : ∀ r x, ¬HeldFirst s bay r x

section Asks

variable {bay : Bay} (o : Origin) {s : State} (h : Asks bay s)

/-- The state in which the ask is made. -/
def asking (bay : Bay) (o : Origin) (s : State) : State := examineHeld (pendRelease bay o s)

theorem asking_latch (bay : Bay) (s : State) :
    (asking bay o s).latch bay = { (s.latch bay).joined o with release := .pending } := by
  rw [asking, examineHeld_pend_latch, pendRelease_latch]

theorem asking_calm (bay : Bay) (s : State) : Calm (pendRelease bay o s) (asking bay o s) := calm_examineHeld _

include h

theorem asking_noted : Noted (pendRelease bay o s) (asking bay o s) := (examineHeld_pendRelease bay o s).2 h.held

theorem asking_idle : inFlight (asking bay o s) = false := by
  rw [(asking_noted o h).eq]
  exact h.idle

theorem startRelease_asked : startRelease bay o s = askRelease bay (asking bay o s) := by
  have other : (asking bay o s).latch (otherBay bay) = s.latch (otherBay bay) := by
    rw [asking, examineHeld_pend_latch, pendRelease_other]
  have asks : askRuns (asking bay o s) (otherBay bay) = false := (askRuns_latch other).trans h.asks
  have still : (asking bay o s).ddt.phase = .still := by
    rw [asking, examineHeld_pend_ddt]
    exact h.still
  show evaluate bay (asking bay o s) = _
  rw [evaluate_asks still (by rw [other]; exact h.other), if_neg (by simp [asks])]

/-- R28: the feeding bay is no target, so its request leaves the choice. -/
theorem asking_target (feeds : s.spc.feeding = some (baySource bay)) :
    chooseTarget (asking bay o s) (asking bay o s).spc.feeding [] = chooseTarget s s.spc.feeding [] := by
  have feeding : (asking bay o s).spc.feeding = s.spc.feeding := (asking_calm o bay s).feeding
  calc chooseTarget (asking bay o s) (asking bay o s).spc.feeding []
      = chooseTarget (pendRelease bay o s) s.spc.feeding [] := by rw [feeding, (asking_noted o h).eq]; rfl
    _ = chooseTarget s s.spc.feeding [baySource bay] := chooseTarget_pendRelease bay o s _
    _ = chooseTarget s s.spc.feeding [] := by rw [feeds]; exact chooseTarget_from s _

/-- R55, R56: a bay that does not feed is granted. -/
theorem startRelease_moved (off : s.spc.feeding ≠ some (baySource bay)) :
    startRelease bay o s = grantBay bay (asking bay o s) := by
  rw [startRelease_asked o h, askRelease_moved (asking_idle o h) (by rw [(asking_calm o bay s).feeding]; exact off)]

/-- R37, R53: a bay that feeds asks for a switchover away from it. -/
theorem startRelease_feeds (feeds : s.spc.feeding = some (baySource bay)) :
    (∀ x, chooseTarget s s.spc.feeding [] = some x →
      startRelease bay o s =
        pendFor bay .switchover (startSwitchover .release s.spc.feeding x [] (asking bay o s))) ∧
    (chooseTarget s s.spc.feeding [] = none → startRelease bay o s = refuseBay bay (asking bay o s)) := by
  have feeding : (asking bay o s).spc.feeding = s.spc.feeding := (asking_calm o bay s).feeding
  obtain ⟨starts, refuses⟩ := askRelease_feeds (asking_idle o h) (feeding.trans feeds)
  rw [asking_target o h feeds] at refuses
  refine ⟨fun x target => ?_, fun none => (startRelease_asked o h).trans (refuses none)⟩
  have started := starts x ((asking_target o h feeds).trans target)
  rw [feeding] at started
  exact (startRelease_asked o h).trans started

/-- R44, R56: the record of a bay granted in the event of its request. -/
theorem requested_granted (off : s.spc.feeding ≠ some (baySource bay)) :
    (requested bay o s).latch bay =
        { (s.latch bay).joined o with
          release := .granted, cause := .none, commanded := .unlocked, windowMs := 10000, faultTimer := 0, stuckTimer := 0
          lastEvent := .granted, hostOwed := false } ∧
      (requested bay o s).spc.packInfo.get bay = none := by
  refine ⟨?_, ?_⟩
  · rw [requested_idle o h.release, startRelease_moved o h off, grantBay_latch, asking_latch]
    rfl
  · show (settle false (releaseRequest bay o s)).spc.packInfo.get bay = none
    rw [(calm_settle _).packInfo, releaseRequest_idle o h.release, startRelease_moved o h off]
    show (answerRelease _ _ _ _).spc.packInfo.get bay = none
    rw [answerRelease_spc]
    exact (PerBay.get_set ..).trans (if_pos rfl)

section Feeds

variable (feeds : s.spc.feeding = some (baySource bay))
include feeds

/-- R53: the record of a bay whose ask has started a RELEASE switchover. -/
theorem requested_started {x : Source} (target : chooseTarget s s.spc.feeding [] = some x) :
    (requested bay o s).latch bay = { (s.latch bay).joined o with release := .pending, cause := .switchover } ∧
      (requested bay o s).spc.sw.reason = .release ∧ (requested bay o s).spc.sw.fromSrc = s.spc.feeding ∧
      (requested bay o s).spc.sw.toSrc = x ∧ inFlight (requested bay o s) = true := by
  have starts := (startRelease_feeds o h feeds).1 x target
  obtain ⟨record, -⟩ := canStart_false_of_started .release s.spc.feeding x [] (asking bay o s)
  obtain ⟨ltc, -⟩ := startSwitchover_ltc .release s.spc.feeding x [] (asking bay o s)
  have sw : (startRelease bay o s).spc.sw = _ := (congrArg (fun v : State => v.spc.sw) starts).trans record
  have flight : inFlight (startRelease bay o s) = true := by
    rw [inFlight_iff, sw]
    exact startPhase_ne_idle _ _
  have kept : (requested bay o s).spc.sw = (startRelease bay o s).spc.sw := by
    unfold requested
    rw [arbitrate_spc, releaseRequest_idle o h.release]
    exact settle_sw _ flight
  refine ⟨?_, ?_, ?_, ?_, ?_⟩
  · rw [requested_idle o h.release, starts, pendFor_latch]
    rw [show (startSwitchover .release s.spc.feeding x [] (asking bay o s)).latch bay = (asking bay o s).latch bay from
      congrArg (fun l : Ltc => l.latches.get bay) ltc, asking_latch]
  · rw [kept, sw]
  · rw [kept, sw]
  · rw [kept, sw]
  · rw [inFlight, kept]
    exact flight

/-- R53: the record of a bay whose ask has found no target. -/
theorem requested_refused (none : chooseTarget s s.spc.feeding [] = .none) :
    (requested bay o s).latch bay =
      { s.latch bay with
        release := .idle, byButton := false, byHost := false, cause := .none, windowMs := 0, lastEvent := .refused
        hostOwed := false } := by
  rw [requested_idle o h.release, (startRelease_feeds o h feeds).2 none, refuseBay_latch, asking_latch]
  cases o <;> rfl

end Feeds

end Asks

/-! ### The records of a bay that owes no reply (R52) -/

theorem granted_notOwed {l : LatchRecord} (free : l.hostOwed = false) :
    ({ l with
        release := .granted, cause := .none, commanded := .unlocked, windowMs := 10000, faultTimer := 0, stuckTimer := 0
        lastEvent := .granted, hostOwed := false } : LatchRecord) =
      { l with
        release := .granted, cause := .none, commanded := .unlocked, windowMs := 10000, faultTimer := 0, stuckTimer := 0
        lastEvent := .granted } := by
  rw [free]

theorem refused_notOwed {l : LatchRecord} (idle : l.release = .idle) (free : l.hostOwed = false) :
    ({ l with
        release := .idle, byButton := false, byHost := false, cause := .none, windowMs := 0, lastEvent := .refused
        hostOwed := false } : LatchRecord) =
      { l with byButton := false, byHost := false, cause := .none, windowMs := 0, lastEvent := .refused } := by
  rw [idle, free]

/-! ### A button press (R51) -/

section Button

variable {bay : Bay} {s : State}

/-- R51: the press is taken. -/
def pressed (bay : Bay) (s : State) : State := { s with ltc := { s.ltc with armed := s.ltc.armed.set bay false } }

theorem exec_buttonPress (armed : s.ltc.armed.get bay = true) :
    exec (.buttonPress bay) s = .next (requested bay .button (pressed bay s)) := if_pos armed

/-- R53: the press of a button on a bay whose release is under way. -/
theorem pressed_joins (busy : (s.latch bay).release ≠ .idle) :
    (requested bay .button (pressed bay s)).latch bay = { s.latch bay with byButton := true } := by
  rw [requested_latch, releaseRequest_joins .button (s := pressed bay s) busy, setLatch_latch, if_pos rfl]
  rfl

end Button

/-- Settles O40. -/
theorem buttonPressStartsRelease : Obligations.ButtonPressStartsRelease := by
  intro bay s
  refine ⟨fun inactive => if_neg (by simp [inactive]), rfl, fun _ armed => ?_⟩
  have frame := requested_frame bay .button (pressed bay s)
  refine ⟨_, exec_buttonPress armed, frame.armed, frame.other, frame.motion.1, frame.motion.2, frame.sense, frame.settings,
    frame.path, ⟨frame.caps.bre, frame.caps.lmd⟩, frame.situation, pressed_joins, fun idle free => ?_⟩
  have idle' : ((pressed bay s).latch bay).release = .idle := idle
  obtain ⟨-, motion, grant, busy⟩ := startRelease_waits bay .button (pressed bay s)
  simp only [← requested_idle .button idle'] at motion grant busy
  refine ⟨fun reason x held => requested_held .button idle' held, motion, grant, fun still other => ⟨busy still other, ?_⟩⟩
  intro quiet asks held
  have asking : Asks bay (pressed bay s) := ⟨idle, still, other, quiet, asks, held⟩
  refine ⟨fun off => ?_, fun feeds => ⟨fun x target => requested_started .button asking feeds target, fun none => ?_⟩⟩
  · obtain ⟨record, pack⟩ := requested_granted .button asking off
    exact ⟨record.trans (granted_notOwed (l := { s.latch bay with byButton := true }) free), pack⟩
  · exact (requested_refused .button asking feeds none).trans (refused_notOwed idle free)

end Sys2Proof.ReleaseRequests

/-! ## Power-on outside the supply (O3), and the requests of the sense converter (O45, O46) -/

namespace Sys2Proof.SenseConverter

open Sys2Proof.Machine Sys2Proof.Safety Sys2Proof.SourcePaths Sys2Proof.Snapshots

/-! ### Power-on (R81, R104, R123, R137, R160, R184) -/

section PowerOn

variable (btnA btnB : Bool) (lsnsA lsnsB : LatchPos) (pending : List Instr)

theorem powerOn_record (c : Channel) :
    (State.powerOn btnA btnB lsnsA lsnsB pending).scv.records.get c = .powerOn := by cases c <;> rfl

theorem powerOn_enable (c : Channel) : (State.powerOn btnA btnB lsnsA lsnsB pending).scv.enable.get c = true := by
  cases c <;> rfl

theorem powerOn_string (i : LedString) :
    (State.powerOn btnA btnB lsnsA lsnsB pending).lmd.strings.get i = .powerOn := by cases i <;> rfl

end PowerOn

/-- Settles O3: each block is at its power-on value, and the channels and the strings are alike. -/
theorem powerOnOtherBlocks : Obligations.PowerOnOtherBlocks := by
  intro btnA btnB lsnsA lsnsB s
  refine ⟨.powerOn btnA btnB lsnsA lsnsB s.pending, rfl, ?_⟩
  and_intros
  any_goals rfl
  · exact powerOn_record btnA btnB lsnsA lsnsB s.pending
  · exact powerOn_enable btnA btnB lsnsA lsnsB s.pending
  · intro i
    rw [powerOn_string]
    exact ⟨rfl, rfl, rfl, rfl, rfl, rfl⟩

/-! ### CONVERT_NOW (R77) -/

section ConvertNow

variable {tag b : Byte} {c : Channel} {s : State}

theorem at8_one (b : Byte) : at8 [b] 0 = b.toNat := rfl

/-- R169: a CONVERT_NOW that its handler refuses. -/
theorem convertNow_refused {st : Status} (h : Ready s)
    (refused : handleConvertNow tag [b] (heard s) = refuse tag .convertNow st (heard s)) :
    exec (.convertNow tag [b]) s = .next (answered .convertNow tag st [] s) :=
  exec_answers .convertNow h rfl refused

/-- R77: a CONVERT_NOW that is accepted takes the slot. -/
theorem handleConvertNow_takes (named : channelOf b.toNat = some c) (free : s.scv.oneShot = none)
    (may : ¬(isLight c = true ∧ s.slu.platform = .standby)) :
    handleConvertNow tag [b] s =
      { s with scv := s.scv.request c, slu := { s.slu with owedConvert := some tag } } := by
  simp only [handleConvertNow, at8_one, named, free, if_neg may]
  rfl

end ConvertNow

/-- Settles O46, by the order of R171's tests: the value, the one-shot outstanding, the platform state. -/
theorem convertNowIsDeferred : Obligations.ConvertNowIsDeferred := by
  intro tag b s h
  refine ⟨fun none => convertNow_refused h ?_, fun c named => ⟨fun taken => convertNow_refused h ?_,
    fun free light standby => convertNow_refused h ?_, fun free may => ?_⟩⟩
  · simp only [handleConvertNow, at8_one, none]
  · have taken' : (heard s).scv.oneShot.isSome = true := Option.isSome_iff_ne_none.mpr taken
    simp only [handleConvertNow, at8_one, named, if_pos taken']
  · have free' : ¬(heard s).scv.oneShot.isSome = true := by simp [show (heard s).scv.oneShot = none from free]
    have barred : isLight c = true ∧ (heard s).slu.platform = .standby := ⟨light, standby⟩
    simp only [handleConvertNow, at8_one, named, if_neg free', if_pos barred]
  · refine (exec_ready .convertNow tag [b] s h rfl).trans ?_
    rw [show handleOwned .convertNow tag [b] (heard s) = _ from handleConvertNow_takes (s := heard s) named free may]
    exact congrArg _ (arbitrate_idle _ h.transmitter)

/-! ### SET_SENSE (R73, R75) -/

/-- R73: what the start of the walk writes. -/
theorem startWalk_frame (q : Platform) (v : Scv) :
    v.startWalk q = { v with activity := (v.startWalk q).activity, resume := (v.startWalk q).resume } := by
  unfold Scv.startWalk
  split <;> rfl

theorem startWalk_found {q : Platform} {v : Scv} {i : Nat} {c : Channel} (found : findSlot q v = some (i, c)) :
    v.startWalk q = { v with activity := .walk (i + 1) c, resume := if i + 1 = v.slots.length then 1 else i + 2 } := by
  simp only [Scv.startWalk, found]

theorem startWalk_none {q : Platform} {v : Scv} (none : findSlot q v = none) : v.startWalk q = { v with activity := .idle } := by
  simp only [Scv.startWalk, none]

/-- R75: the settings as SET_SENSE stores them, before a converter that is IDLE starts. -/
def senseStored (a : SenseArgs) (v : Scv) : Scv :=
  { v with slots := a.slots, enable := a.enable, calFront := max 1 a.calFront, calRear := max 1 a.calRear, resume := 1 }

section SetSense

variable (q : Platform) (a : SenseArgs) (v : Scv)

theorem stored_idle (idle : v.activity = .idle) : v.stored q a = (senseStored a v).startWalk q := if_pos idle

theorem stored_busy (busy : v.activity ≠ .idle) : v.stored q a = senseStored a v := if_neg busy

/-- R75: the settings are stored; the records, the table and the one-shot stay. -/
theorem stored_settings :
    let u := v.stored q a
    u.slots = a.slots ∧ u.enable = a.enable ∧ u.calFront = max 1 a.calFront ∧ u.calRear = max 1 a.calRear ∧
      u.records = v.records ∧ u.table = v.table ∧ u.oneShot = v.oneShot := by
  by_cases idle : v.activity = .idle
  · rw [stored_idle q a v idle, startWalk_frame]
    exact ⟨rfl, rfl, rfl, rfl, rfl, rfl, rfl⟩
  · rw [stored_busy q a v idle]
    exact ⟨rfl, rfl, rfl, rfl, rfl, rfl, rfl⟩

/-- R73, R75: the search from slot 1, in the slots and the enable set just stored. -/
theorem stored_search :
    let can := fun c : Channel => a.enable.get c = true ∧ (q = .standby → isLight c = false)
    let u := (senseStored a v).startWalk q
    (∀ i c, a.slots[i]? = some c → can c → (∀ j d, j < i → a.slots[j]? = some d → ¬can d) →
      u.activity = .walk (i + 1) c ∧ u.resume = if i + 1 = a.slots.length then 1 else i + 2) ∧
    ((∀ c ∈ a.slots, ¬can c) → u.activity = .idle ∧ u.resume = 1) := by
  intro can u
  have can_iff : ∀ c, eligible q (senseStored a v) c = true ↔ can c := eligible_iff q (senseStored a v)
  have cannot : ∀ c, ¬can c → eligible q (senseStored a v) c = false := fun c no =>
    Bool.eq_false_iff.mpr fun yes => no ((can_iff c).mp yes)
  refine ⟨fun i c here ok first => ?_, fun no => ?_⟩
  · have found := findSlot_first q (senseStored a v) rfl i c here ((can_iff c).mpr ok) fun j d before at_j =>
      cannot d (first j d before at_j)
    rw [show u = _ from startWalk_found found]
    exact ⟨rfl, rfl⟩
  · have none := findSlot_none q (senseStored a v) rfl fun c mem => cannot c (no c mem)
    rw [show u = _ from startWalk_none none]
    exact ⟨rfl, rfl⟩

end SetSense

theorem okOr_calibration (x y : Nat) : okOr (x == 0 || y == 0) = if x = 0 ∨ y = 0 then .adjusted else .ok := by
  simp only [okOr, Bool.or_eq_true, beq_iff_eq]

/-- R75, R170: SET_SENSE stores, and answers with the settings stored. -/
theorem exec_setSense (tag : Byte) {p : List Byte} {a : SenseArgs} {s : State} (h : Ready s)
    (len : lengthAllowed .setSense p = true) (args : senseArgs p = some a) :
    exec (.setSense tag p) s =
      .next
        (replied { heard s with scv := s.scv.stored s.slu.platform a }
          (replyOf .setSense tag (if a.calFront = 0 ∨ a.calRear = 0 then .adjusted else .ok)
            (senseSettingsBytes (s.scv.stored s.slu.platform a)))) := by
  refine (exec_ready .setSense tag p s h len).trans (congrArg _ ?_)
  rw [← okOr_calibration]
  simp only [handleOwned, handleSetSense, args]
  exact arbitrate_answer .setSense tag _ _ _ h.transmitter

/-! ### LOAD_THERMISTOR (R72) -/

/-- R169: a table has 12 points of 4 characters. -/
theorem exec_loadThermistor (tag : Byte) {p : List Byte} {s : State} (h : Ready s) (len : p.length = 48) :
    exec (.loadThermistor tag p) s = .next (arbitrate (handleLoadThermistor tag p (heard s))) :=
  exec_ready .loadThermistor tag p s h (by simp [lengthAllowed, len, Config.maxPayload])

theorem okOr_table (t pts : List (Nat × Int)) : okOr (t != pts) = if t = pts then .ok else .adjusted := by
  unfold okOr
  by_cases same : t = pts <;> simp [same]

/-- Settles O45: the settings and the search of SET_SENSE, and the table of LOAD_THERMISTOR. -/
theorem senseSettingsAndTableAreStored : Obligations.SenseSettingsAndTableAreStored := by
  intro tag p s h
  refine ⟨fun a len args => ?_, fun len none => ?_, fun len => ⟨fun ordered => ?_, fun unordered => ?_⟩⟩
  · obtain ⟨slots, enable, front, rear, records, table, oneShot⟩ := stored_settings s.slu.platform a s.scv
    refine ⟨{ heard s with scv := s.scv.stored s.slu.platform a }, exec_setSense tag h len args, rfl, slots, enable, front, rear,
      records, table, oneShot, fun busy => ?_, fun idle => ?_⟩
    · simp only [stored_busy _ a _ busy]
      exact ⟨rfl, rfl⟩
    · have started := stored_idle s.slu.platform a s.scv idle
      refine ⟨started, ?_⟩
      dsimp only
      rw [started]
      exact stored_search s.slu.platform a s.scv
  · refine exec_answers .setSense h len ?_
    simp only [handleOwned, handleSetSense, none]
    rfl
  · rw [exec_loadThermistor tag h len, ← okOr_table]
    refine congrArg _ ?_
    have ordered' : thermistorOrdered ((thermistorPoints p 12 0).map clampThermistor) = true := ordered
    simp only [handleLoadThermistor, if_pos ordered']
    exact arbitrate_answer .loadThermistor tag _ _ _ h.transmitter
  · rw [exec_loadThermistor tag h len]
    have unordered' : ¬thermistorOrdered ((thermistorPoints p 12 0).map clampThermistor) = true := by
      rw [Bool.not_eq_true]
      exact unordered
    simp only [handleLoadThermistor, if_neg unordered']
    rw [refused_eq _ _ _ _ h]

end Sys2Proof.SenseConverter

/-! ## Light conversions (O43) -/

namespace Sys2Proof.SenseConverter

open Sys2Proof.Machine Sys2Proof.Safety Sys2Proof.SourcePaths Sys2Proof.SupplyLaws

/-! ### The record (R65, R67 to R69, R79) -/

theorem lightStores_eq (n range : Nat) : lightStores n range = decide (n < 65535 ∨ 2 ≤ range) :=
  (Bool.decide_or ..).symm

/-- R65, R67 to R69: the record after a light conversion, field by field. -/
theorem lightResult_eq (r : ChannelRecord) (n cal : Nat) :
    r.lightResult n cal =
      { value := if n < 65535 ∨ 2 ≤ r.range then ((min 200000 (n * 4 ^ r.range * cal / 1024) : Nat) : Int) else r.value
        valid := r.valid || decide (n < 65535 ∨ 2 ≤ r.range)
        fault := if n < 65535 then .none else .over
        raw := n
        range := if 49152 ≤ n then min 2 (r.range + 1) else if 8192 ≤ n then r.range else r.range - 1
        age := if n < 65535 ∨ 2 ≤ r.range then 0 else r.age
        stale := r.stale && !decide (n < 65535 ∨ 2 ≤ r.range) } := by
  unfold ChannelRecord.lightResult
  rw [lightStores_eq]
  by_cases stores : n < 65535 ∨ 2 ≤ r.range
  · simp only [stores, decide_true, if_true, Bool.or_true, Bool.not_true, Bool.and_false]
    rfl
  · simp only [stores, decide_false, if_false, Bool.or_false, Bool.not_false, Bool.and_true]
    rfl

/-- R79: a light conversion raises SENSE_FAULT on a new OVER alone. -/
theorem newFault_lightResult (r : ChannelRecord) {n : Nat} (le : n ≤ 65535) (cal : Nat) :
    newFault r.fault (r.lightResult n cal).fault = decide (n = 65535 ∧ r.fault ≠ .over) := by
  rw [lightResult_eq]
  by_cases below : n < 65535
  · simp [newFault, below, Nat.ne_of_lt below]
  · have full : n = 65535 := by omega
    cases fault : r.fault <;> simp [newFault, full]

/-! ### The end of a one-shot (R64, R78) -/

section OneShot

variable {c : Channel} {w : State}

/-- R64: a one-shot that ends empties its slot; beside it the link alone changes. -/
theorem finishOneShot_frame (on : w.scv.activity = .oneShot c ∨ ∃ i, w.scv.activity = .walk i c) :
    finishOneShot c w =
      { w with
        slu := (finishOneShot c w).slu
        scv := { w.scv with oneShot := if w.scv.activity = .oneShot c then none else w.scv.oneShot } } := by
  rcases on with one | ⟨i, walk⟩
  · simp only [finishOneShot, one, if_true, answerConvert]
    split <;> rfl
  · have other : ¬Activity.walk i c = .oneShot c := nofun
    simp only [finishOneShot, walk, if_neg other]
    rw [← walk]

/-- R78, R172: what the owed reply may change of the link. -/
theorem finishOneShot_link (c : Channel) (w : State) :
    (finishOneShot c w).slu =
      { w.slu with fifo := (finishOneShot c w).slu.fifo, owedConvert := (finishOneShot c w).slu.owedConvert } := by
  unfold finishOneShot answerConvert
  repeat' split
  all_goals rfl

/-- R78, R172: the CONVERT_NOW that is owed its reply. -/
theorem finishOneShot_answers {tag : Byte} (one : w.scv.activity = .oneShot c) (owed : w.slu.owedConvert = some tag) :
    (finishOneShot c w).slu.owedConvert = none ∧
      (finishOneShot c w).slu.fifo = w.slu.fifo ++ [replyOf .convertNow tag .ok (channelBytes (w.scv.records.get c))] := by
  have answered : finishOneShot c w = answerConvert .ok c { w with scv := { w.scv with oneShot := none } } := by
    simp only [finishOneShot, one]
  rw [answered]
  simp only [answerConvert, owed]
  exact ⟨trivial, rfl⟩

end OneShot

/-! ### The conversion (R64, R65, R76, R83) -/

/-- R65: the record that the conversion of a light channel ends with, at a count of `n`. -/
def lightRecord (c : Channel) (n : Nat) (s : State) : ChannelRecord :=
  (s.scv.records.get c).lightResult n (calibration s.scv c)

/-- R64, steps 1 and 2: the record is stored, a new OVER is raised, and the BRE takes the publication. -/
def lightStored (c : Channel) (n : Nat) (s : State) : State :=
  storeResult c (lightStores n (s.scv.records.get c).range) (lightRecord c n s) s

/-- R64: the conversion has ended, and the next one has started. -/
def lightEnded (c : Channel) (n : Nat) (s : State) : State := startNextConversion (finishOneShot c (lightStored c n s))

/-- R83, R86 to R101: the BRE after the publication. -/
def lightBre (c : Channel) (n : Nat) (s : State) : Bre :=
  let records := s.scv.records.set c (lightRecord c n s)
  s.bre.lightPublished c (lightStores n (s.scv.records.get c).range) (lightRecord c n s) (records.get .alsFront).value.toNat
    (records.get .alsRear).value.toNat

/-- R79: the link after the raise. -/
def lightRaised (c : Channel) (n : Nat) (s : State) : Slu :=
  if n = 65535 ∧ (s.scv.records.get c).fault ≠ .over then s.slu.raised .senseFault else s.slu

section Conversion

variable {c : Channel} {n : Nat} {s : State}

theorem isLight_light (light : c = .alsFront ∨ c = .alsRear) : isLight c = true := by
  rcases light with rfl | rfl <;> rfl

theorem channel_of_converting (on : s.scv.activity = .oneShot c ∨ ∃ i, s.scv.activity = .walk i c) :
    s.scv.activity.channel = some c := by
  rcases on with one | ⟨i, walk⟩
  · rw [one]; rfl
  · rw [walk]; rfl

/-- R76: a one-shot, and a WALK conversion of an enabled channel, are not discarded. -/
theorem discards_false
    (on : s.scv.activity = .oneShot c ∨ (∃ i, s.scv.activity = .walk i c) ∧ s.scv.enable.get c = true) :
    discards s.scv = false := by
  rcases on with one | ⟨⟨i, walk⟩, enabled⟩
  · simp only [discards, one]
  · simp only [discards, walk, enabled, Bool.not_true]

/-- R64, R67: the end of a light conversion that is not discarded. -/
theorem exec_lightConversionEnd (edges : Nat) (light : c = .alsFront ∨ c = .alsRear)
    (on : s.scv.activity = .oneShot c ∨ (∃ i, s.scv.activity = .walk i c) ∧ s.scv.enable.get c = true) :
    exec (.lightConversionEnd edges) s = .next (arbitrate (lightEnded c (min 65535 edges) s)) := by
  have channel : converting s true = some c :=
    converting_of_channel (channel_of_converting (on.imp_right And.left)) (isLight_light light)
  show execLightConversionEnd edges s = _
  simp only [execLightConversionEnd, channel, conversionEnd, discards_false on]
  rfl

/-- R64, R65, R79, R83: what is stored, raised and published. -/
theorem lightStored_eq (light : c = .alsFront ∨ c = .alsRear) (le : n ≤ 65535) :
    lightStored c n s =
      ({ s with
          slu := lightRaised c n s
          scv := { s.scv with records := s.scv.records.set c (lightRecord c n s) } } : State).withBre (lightBre c n s) := by
  have raised : raiseIf (newFault (s.scv.records.get c).fault (lightRecord c n s).fault) .senseFault
        (s.setChannel c (lightRecord c n s)) =
      { s with
        slu := lightRaised c n s
        scv := { s.scv with records := s.scv.records.set c (lightRecord c n s) } } := by
    unfold lightRecord lightRaised
    rw [newFault_lightResult _ le]
    by_cases new : n = 65535 ∧ (s.scv.records.get c).fault ≠ .over
    · rw [if_pos new, decide_eq_true new]
      rfl
    · rw [if_neg new, decide_eq_false new]
      rfl
  have own : (s.scv.records.set c (lightRecord c n s)).get c = lightRecord c n s := by simp
  have published : ∀ v, publishChannel c (lightStores n (s.scv.records.get c).range) v =
      breLight c (lightStores n (s.scv.records.get c).range) v := by
    rcases light with rfl | rfl <;> exact fun _ => rfl
  unfold lightStored storeResult
  rw [raised, published]
  unfold breLight lightBre
  dsimp only
  rw [own]
  rfl

/-- R79: the raise leaves the reply FIFO, the transmitter and what else the link is asked for. -/
theorem lightRaised_link (c : Channel) (n : Nat) (s : State) :
    lightRaised c n s =
        { s.slu with outbox := (lightRaised c n s).outbox, wake := (lightRaised c n s).wake } ∧
      (lightRaised c n s).outbox.dropAlert = s.slu.outbox.dropAlert := by
  unfold lightRaised
  split
  · exact ⟨raised_link .., raised_other s.slu .senseFault .dropAlert (by decide)⟩
  · exact ⟨rfl, rfl⟩

theorem lightRaised_senseFault (mask : inMask s.slu.noticeMask .senseFault = true) :
    (lightRaised c n s).outbox.senseFault =
      if n = 65535 ∧ (s.scv.records.get c).fault ≠ .over then min 255 (s.slu.outbox.senseFault + 1)
      else s.slu.outbox.senseFault := by
  unfold lightRaised
  split
  · exact raised_senseFault s.slu mask
  · rfl

end Conversion

/-! ### The whole event -/

section Ended

variable {c : Channel} {n : Nat} {s : State} (light : c = .alsFront ∨ c = .alsRear) (le : n ≤ 65535)
  (on : s.scv.activity = .oneShot c ∨ ∃ i, s.scv.activity = .walk i c)

include light le

theorem lightStored_slu : (lightStored c n s).slu = lightRaised c n s := by rw [lightStored_eq light le]; rfl

theorem lightStored_scv :
    (lightStored c n s).scv = { s.scv with records := s.scv.records.set c (lightRecord c n s) } := by
  rw [lightStored_eq light le]; rfl

/-- R64, R78: the link that the end of the conversion leaves. -/
theorem lightEnded_slu :
    (lightEnded c n s).slu =
      { s.slu with
        outbox := (lightRaised c n s).outbox, wake := (lightRaised c n s).wake, fifo := (lightEnded c n s).slu.fifo
        owedConvert := (lightEnded c n s).slu.owedConvert } := by
  have link := finishOneShot_link c (lightStored c n s)
  rw [lightStored_slu light le, (lightRaised_link c n s).1] at link
  exact link

/-- R78, R172: the owed reply is the first that the event makes. -/
theorem lightEnded_answers {tag : Byte} (one : s.scv.activity = .oneShot c) (owed : s.slu.owedConvert = some tag) :
    (lightEnded c n s).slu.owedConvert = none ∧
      (lightEnded c n s).slu.fifo = s.slu.fifo ++ [replyOf .convertNow tag .ok (channelBytes (lightRecord c n s))] := by
  have link := (lightRaised_link c n s).1
  have scv := lightStored_scv (s := s) light le
  have slu := lightStored_slu (s := s) light le
  have answers := finishOneShot_answers (c := c) (w := lightStored c n s) (tag := tag) (by rw [scv]; exact one)
    (by rw [slu, link]; exact owed)
  rw [scv, slu, link] at answers
  simp only [PerChannel.get_set, if_true] at answers
  exact answers

include on

/-- R64, R83: what the end of the conversion leaves outside the link: the BRE's publication reaches the LMD, and the next
conversion starts. -/
theorem lightEnded_eq :
    lightEnded c n s =
      { s with
        slu := (lightEnded c n s).slu
        scv :=
          ({ s.scv with
              records := s.scv.records.set c (lightRecord c n s)
              oneShot := if s.scv.activity = .oneShot c then none else s.scv.oneShot } : Scv).startNext s.slu.platform
        bre := lightBre c n s
        lmd := (s.withBre (lightBre c n s)).lmd } := by
  have scv := lightStored_scv (s := s) light le
  have frame := finishOneShot_frame (c := c) (w := lightStored c n s) (by rw [scv]; exact on)
  have platform : (finishOneShot c (lightStored c n s)).slu.platform = s.slu.platform :=
    (congrArg Slu.platform (lightEnded_slu (s := s) light le) :)
  rw [scv] at frame
  have next : (finishOneShot c (lightStored c n s)).scv =
      { s.scv with
        records := s.scv.records.set c (lightRecord c n s)
        oneShot := if s.scv.activity = .oneShot c then none else s.scv.oneShot } := by rw [frame]
  show startNextConversion _ = { s with slu := (startNextConversion _).slu, scv := _, bre := _, lmd := _ }
  unfold startNextConversion
  rw [platform, next, frame, lightStored_eq light le]
  rfl

end Ended

/-- R83, R106, R114: the LMD hears of a Yc or a cap that has changed, and a cap below A cuts it. -/
theorem published_lmd (s : State) (e : Bre) :
    (e.yc = s.bre.yc → e.cap = s.bre.cap → (s.withBre e).lmd = s.lmd) ∧
      (e.yc ≠ s.bre.yc ∨ e.cap ≠ s.bre.cap →
        (s.withBre e).lmd.ycCopy = e.yc ∧ (s.withBre e).lmd.capCopy = e.cap ∧ (s.withBre e).lmd.a = min s.lmd.a e.cap) := by
  refine ⟨fun yc cap => if_pos ⟨yc, cap⟩, fun changed => ?_⟩
  rw [show (s.withBre e).lmd = s.lmd.published e.yc e.cap from if_neg (by rwa [not_and_or])]
  obtain ⟨yc, cap⟩ := published_copies s.lmd e.yc e.cap
  exact ⟨yc, cap, published_level ..⟩

/-- R176: what the transmitter's choice does not touch. -/
theorem arbitrated_keeps (s : State) :
    (arbitrate s).slu.queue = s.slu.queue ∧ (arbitrate s).slu.platform = s.slu.platform ∧
      (arbitrate s).slu.owedConvert = s.slu.owedConvert := by
  rw [arbitrate_slu, arbitrated_frame]
  exact ⟨rfl, rfl, rfl⟩

/-- Settles O43: the record, the next conversion, the raise, the reply, and the publication to the BRE and the LMD. -/
theorem lightConversionStores : Obligations.LightConversionStores := by
  intro edges c s ok light on n r
  have le : n ≤ 65535 := Nat.min_le_left ..
  have ended := lightEnded_eq light le (on.imp_right And.left)
  have link := lightEnded_slu (s := s) light le
  have scv := congrArg State.scv ended
  have records : (arbitrate (lightEnded c n s)).scv.records = s.scv.records.set c (lightRecord c n s) := by
    rw [arbitrate_scv, scv]
    exact startNext_records ..
  have bre : (arbitrate (lightEnded c n s)).bre = lightBre c n s := congrArg State.bre ended
  have lmd : (arbitrate (lightEnded c n s)).lmd = (s.withBre (lightBre c n s)).lmd := (congrArg State.lmd ended :)
  have tx : (lightEnded c n s).slu.tx = s.slu.tx := (congrArg Slu.tx link :)
  obtain ⟨queue, platform, owedConvert⟩ := arbitrated_keeps (lightEnded c n s)
  obtain ⟨lampKept, lampTold⟩ := published_lmd s (lightBre c n s)
  refine ⟨_, exec_lightConversionEnd edges light on, ?_, fun d other => ?_, ?_, (congrArg State.spc ended :),
    (congrArg State.ltc ended :), (congrArg State.mpt ended :), (congrArg State.ddt ended :), (congrArg State.pending ended :),
    queue.trans (congrArg Slu.queue link :), platform.trans (congrArg Slu.platform link :), fun busy mask => ?_,
    fun tag one owed => ?_, ?_, ?_, ?_⟩
  · rw [records, PerChannel.get_set, if_pos rfl]
    exact lightResult_eq ..
  · rw [records, PerChannel.get_set, if_neg other]
  · rw [records]
    exact scv
  · rw [arbitrate_busy (by rw [tx]; exact busy), link]
    exact lightRaised_senseFault mask
  · obtain ⟨cleared, made⟩ := lightEnded_answers light le one owed
    refine ⟨owedConvert.trans cleared, madeReply_arbitrate ok tx ?_ ?_⟩
    · rw [link]
      exact (lightRaised_link c n s).2
    · rw [records, PerChannel.get_set, if_pos rfl, made]
  · rw [bre, records]
    rw [← lightStores_eq]
    refine lightPublished_bre s.bre c light _ _ ?_ _ _
    exact (usableAt_lightResult ..).trans (lightStores_eq ..).symm
  · rw [bre, lmd]
    exact lampKept
  · rw [bre, lmd]
    exact lampTold

end Sys2Proof.SenseConverter

/-! ## Every step keeps the law of the light side (O49) -/

namespace Sys2Proof.LightSide

open Sys2Proof.Machine Sys2Proof.Safety Sys2Proof.SourcePaths Sys2Proof.SupplyLaws

/-! ### What the law reads -/

/-- `t` is as `s` in all that the law of the light side reads: the allowance cap, the panel temperature, the BRE, the LMD and the
platform state. -/
structure SameLight (s t : State) : Prop where
  cap : t.spc.cap = s.spc.cap
  panel : panelTemp t = panelTemp s
  bre : t.bre = s.bre
  lmd : t.lmd = s.lmd
  platform : t.slu.platform = s.slu.platform

theorem lampOk_same {s t : State} (h : LampOk s) (same : SameLight s t) : LampOk t where
  allowance := by rw [same.bre, same.cap]; exact h.allowance
  thermal := by rw [same.bre, same.panel]; exact h.thermal
  cap := by rw [same.bre]; exact h.cap
  yc := by rw [same.bre]; exact h.yc
  ycCopy := by rw [same.lmd, same.bre]; exact h.ycCopy
  capCopy := by rw [same.lmd, same.bre]; exact h.capCopy
  level := by rw [same.lmd]; exact h.level
  dark := by rw [same.lmd, same.platform]; exact h.dark

/-- R99: the panel temperature is read from the record of TH_PANEL. -/
theorem panelTemp_eq {s t : State} (records : t.scv.records = s.scv.records) : panelTemp t = panelTemp s := by
  unfold panelTemp
  rw [records]

theorem lampOk_slu {s : State} (u : Slu) (platform : u.platform = s.slu.platform) (h : LampOk s) :
    LampOk { s with slu := u } :=
  lampOk_same h ⟨rfl, rfl, rfl, rfl, platform⟩

theorem lampOk_spc {s : State} (c : Spc) (cap : c.cap = s.spc.cap) (h : LampOk s) : LampOk { s with spc := c } :=
  lampOk_same h ⟨cap, rfl, rfl, rfl, rfl⟩

/-- A converter that keeps its records. -/
theorem lampOk_scv {s : State} (v : Scv) (records : v.records = s.scv.records) (h : LampOk s) : LampOk { s with scv := v } :=
  lampOk_same h ⟨rfl, panelTemp_eq records, rfl, rfl, rfl⟩

/-- The latches, the motion port and the drop detector are none of the light side's. -/
theorem lampOk_beside {s : State} (l : Ltc) (m : Mpt) (d : Ddt) (waiting : List Instr) (h : LampOk s) :
    LampOk { s with ltc := l, mpt := m, ddt := d, pending := waiting } :=
  lampOk_same h ⟨rfl, rfl, rfl, rfl, rfl⟩

theorem lampOk_setPath {s : State} (p : Source) (r : PathRecord) (h : LampOk s) : LampOk (s.setPath p r) :=
  lampOk_spc _ rfl h

theorem lampOk_setLatch {s : State} (bay : Bay) (l : LatchRecord) (h : LampOk s) : LampOk (s.setLatch bay l) :=
  lampOk_beside _ _ _ _ h

theorem lampOk_raise {s : State} (k : NoticeKind) (h : LampOk s) : LampOk (raise k s) := lampOk_slu _ (raised_platform ..) h

theorem lampOk_raiseIf {s : State} (b : Bool) (k : NoticeKind) (h : LampOk s) : LampOk (raiseIf b k s) := by
  cases b
  · exact h
  · exact lampOk_raise k h

theorem lampOk_answer {s : State} (tag : Byte) (k : ReqKind) (st : Status) (res : List Byte) (h : LampOk s) :
    LampOk (answer tag k st res s) := lampOk_slu _ rfl h

theorem lampOk_arbitrate {s : State} (h : LampOk s) : LampOk (arbitrate s) :=
  lampOk_slu _ (by rw [arbitrated_frame]) h

/-- The end of an event of the supply. -/
theorem lampOk_event {s : State} (b : Bool) (h : LampOk s) : LampOk (arbitrate (settle b s)) :=
  lampOk_arbitrate ((kept_settle b s).lamp h)

/-! ### Power-on and RESET (R104, R105, R183) -/

theorem lampOk_powerOn (btnA btnB : Bool) (lsnsA lsnsB : LatchPos) (pending : List Instr) :
    LampOk (.powerOn btnA btnB lsnsA lsnsB pending) :=
  lampOk_same lampOk_reset ⟨rfl, rfl, rfl, rfl, rfl⟩

/-- R124, R183: the other blocks reset first, and leave the level and the copies; the BRE's results then reach the LMD. -/
theorem lampOk_resetBlocks {s : State} (h : LampOk s) : LampOk (resetBlocks s) := by
  have lamp : LampOk { s with lmd := s.lmd.reset } := lampOk_levelKept s _ h (levelKept_reset _ _)
  have rest :
      LampOk
        { s with
          lmd := s.lmd.reset, ltc := s.ltc.reset, mpt := s.mpt.reset, ddt := s.ddt.reset
          bre := { s.bre with motionHold := false } } :=
    lampOk_beside _ _ _ _ (lampOk_breMotion false _ lamp)
  exact lampOk_withBre _ s.spc.reset s.slu.reset (s.scv.reset s.slu.platform) _ rest rfl h.allowance rfl

theorem lampOk_examineReset {s : State} (h : LampOk s) : LampOk (examineReset s) := by
  unfold examineReset examineHeldWith
  refine (calm_updatePreempt _).lamp ?_
  repeat' split
  · exact lampOk_spc _ rfl h
  · exact h
  · unfold markSole
    split
    · exact h
    · exact lampOk_raise _ (lampOk_spc _ rfl h)
  · exact h

theorem lampOk_answerConvert {s : State} (st : Status) (c : Channel) (h : LampOk s) : LampOk (answerConvert st c s) := by
  unfold answerConvert
  split
  · exact h
  · exact lampOk_slu _ rfl h

theorem lampOk_resetRequest {s : State} (tag : Byte) (p : List Byte) (h : LampOk s) : LampOk (handleReset tag p s) := by
  unfold handleReset cancelOwed
  split
  · exact lampOk_answer _ _ _ _ h
  · have blocks := lampOk_examineReset ((calm_publishSituation _).lamp (lampOk_resetBlocks h))
    have cancelled := (kept_answerRelease .b .cancelled none _).lamp ((kept_answerRelease .a .cancelled none _).lamp blocks)
    refine lampOk_answer _ _ _ _ ?_
    dsimp only
    split
    · exact lampOk_answerConvert _ _ cancelled
    · exact cancelled

/-! ### A monitor sample (R1) -/

/-- R1, R66: a sample ages the panel's record, and leaves its value, and that it is valid and not stale. -/
theorem lampOk_sampled {s : State} (r : Readings) (h : LampOk s) : LampOk (sampled r s) := by
  have stored := stored_sampled r s
  obtain ⟨bre, lmd, -, -⟩ := stored.rest
  refine lampOk_same h ⟨by rw [stored.supply], ?_, bre, lmd, by rw [stored.link]⟩
  have record : (sampled r s).scv.records.thPanel = _ := stored.record .thPanel
  unfold panelTemp
  rw [record]
  rfl

theorem lampOk_tripAndReport {s : State} (p : Source) (c : FaultCause) (h : LampOk s) : LampOk (tripAndReport p c s) :=
  (reported_pathDown _ _ _).lamp (lampOk_raise _ (lampOk_setPath _ _ h))

theorem lampOk_openAndReport {s : State} (p : Source) (d : DownReport) (h : LampOk s) : LampOk (openAndReport p d s) :=
  (reported_openAndReport p d s).lamp h

theorem lampOk_overStep {s : State} (p : Source) (h : LampOk s) : LampOk (overStep p s) := by
  unfold overStep
  dsimp only
  split
  · split
    · exact lampOk_setPath _ _ h
    · exact lampOk_tripAndReport _ _ h
  · exact lampOk_setPath _ _ h

theorem lampOk_protect {s : State} (p : Source) (h : LampOk s) : LampOk (protect p s) := by
  unfold protect
  cases (s.path p).state with
  | closing => exact iteInduction (fun _ => lampOk_openAndReport _ _ h) fun _ =>
      iteInduction (fun _ => lampOk_tripAndReport _ _ h) fun _ => h
  | closed => exact iteInduction (fun _ => lampOk_openAndReport _ _ h) fun _ =>
      iteInduction (fun _ => lampOk_tripAndReport _ _ h) fun _ => lampOk_overStep p h
  | opened | tripped | lockedOut => exact h

theorem lampOk_removeBattery {s : State} (was : Bool) (bay : Bay) (h : LampOk s) : LampOk (removeBattery was bay s) := by
  unfold removeBattery
  split
  · exact (kept_endWindow _ _ _).lamp h
  · exact h

theorem lampOk_sampledPaths {s : State} (r : Readings) (h : LampOk s) : LampOk (sampledPaths r s) := by
  have removals := lampOk_removeBattery (present s .bayB) .b
    (lampOk_removeBattery (present s .bayA) .a (lampOk_sampled r h))
  have protections := lampOk_protect .bayB (lampOk_protect .bayA (lampOk_protect .dcIn removals))
  unfold sampledPaths holdDropout
  dsimp only
  split
  · exact lampOk_openAndReport _ _ protections
  · exact protections

theorem lampOk_lossStep {s : State} (h : LampOk s) : LampOk (lossStep s) := by
  unfold lossStep
  split
  · exact lampOk_openAndReport _ _ h
  · split
    · exact lampOk_spc _ rfl h
    · exact h

theorem lampOk_busLowStep {s : State} (h : LampOk s) : LampOk (busLowStep s) :=
  lampOk_raiseIf _ _ (lampOk_spc _ (by rw [busLowCounters_frame]) h)

theorem lampOk_sample {s : State} (r : Readings) (h : LampOk s) : LampOk (arbitrate (monitorSample r s)) :=
  lampOk_event _ (lampOk_busLowStep (lampOk_lossStep (lampOk_sampledPaths r h)))

/-! ### The switchover's timed events and the releases -/

theorem lampOk_blankingEnd {s : State} (p : Source) (h : LampOk s) : LampOk (blankingEnd p s) := by
  unfold blankingEnd
  split
  · exact lampOk_tripAndReport _ _ h
  · exact (reported_pathClosed _ _).lamp (lampOk_setPath _ _ h)

theorem lampOk_releaseRequest {s : State} (bay : Bay) (o : Origin) (h : LampOk s) : LampOk (releaseRequest bay o s) := by
  unfold releaseRequest
  cases (s.latch bay).release with
  | idle =>
    have asked : LampOk (pendRelease bay o s) := lampOk_beside _ _ _ _ (lampOk_setLatch bay _ h)
    exact (kept_evaluate _ _).lamp ((calm_examineHeld _).lamp asked)
  | pending | granted => exact lampOk_setLatch _ _ h

/-! ### Conversions and staleness (R64 to R66, R83) -/

/-- A channel's record is stored and published to its reader: the BRE takes a new panel temperature up at once. -/
theorem lampOk_published {s : State} (c : Channel) (b : Bool) (r : ChannelRecord) (h : LampOk s) (stored : Bool) :
    LampOk (publishChannel c stored (raiseIf b .senseFault (s.setChannel c r))) ∧
      LampOk (publishStale c (raiseIf b .senseFault (s.setChannel c r))) := by
  have kept (other : panelTemp (s.setChannel c r) = panelTemp s) : LampOk (raiseIf b .senseFault (s.setChannel c r)) :=
    lampOk_raiseIf _ _ (lampOk_same h ⟨rfl, other, rfl, rfl, rfl⟩)
  cases c with
  | alsFront | alsRear => exact ⟨lampOk_breLight _ _ _ (kept rfl), lampOk_breLightStale _ _ (kept rfl)⟩
  | thBayA | thBayB => exact ⟨(kept_settle _ _).lamp (kept rfl), (kept_settle _ _).lamp (kept rfl)⟩
  | thPanel =>
    have panel : LampOk (brePanel (raiseIf b .senseFault (s.setChannel .thPanel r))) := by
      cases b
      · exact lampOk_brePanel s _ _ h rfl
      · exact lampOk_brePanel s _ _ h (raised_platform ..)
    exact ⟨panel, panel⟩

theorem lampOk_finishOneShot {s : State} (c : Channel) (h : LampOk s) : LampOk (finishOneShot c s) := by
  unfold finishOneShot
  split
  · exact lampOk_answerConvert _ _ (lampOk_scv _ rfl h)
  · exact h
  · exact h

theorem lampOk_conversion {s : State} (c : Channel) (stored : Bool) (r : ChannelRecord) (h : LampOk s) :
    LampOk (arbitrate (conversionEnd c stored r s)) := by
  refine lampOk_arbitrate (lampOk_scv _ (startNext_records _ _) (lampOk_finishOneShot c ?_))
  split
  · exact h
  · exact (lampOk_published c _ r h stored).1

theorem lampOk_lightConversionEnd {s : State} (edges : Nat) (h : LampOk s) :
    Leads LampOk (execLightConversionEnd edges s) := by
  unfold execLightConversionEnd
  split
  · exact leads_next (lampOk_conversion _ _ _ h)
  · exact leads_next h

theorem lampOk_thermistorConversionEnd {s : State} (count : Nat) (h : LampOk s) :
    Leads LampOk (execThermistorConversionEnd count s) := by
  unfold execThermistorConversionEnd
  split
  · exact leads_next (lampOk_conversion _ _ _ h)
  · exact leads_next h

theorem lampOk_thermistorTimeout {s : State} (h : LampOk s) : Leads LampOk (execThermistorTimeout s) := by
  unfold execThermistorTimeout
  split
  · exact leads_next (lampOk_conversion _ _ _ h)
  · exact leads_next h

/-! ### The motion phase (R93, R141) -/

theorem lampOk_publishPhase {s : State} (before after : MotionPhase) (h : LampOk s) : LampOk (publishPhase before after s) := by
  unfold publishPhase
  split
  · exact (kept_settle _ _).lamp (lampOk_breMotion _ _ ((kept_revokeBay _ _).lamp ((kept_revokeBay _ _).lamp h)))
  · split
    · exact (kept_settle _ _).lamp (lampOk_breMotion _ _ h)
    · exact h

theorem lampOk_frameTaken {s : State} (f : AccelFrame) (h : LampOk s) : LampOk (frameTaken f s) :=
  lampOk_publishPhase _ _
    (lampOk_raiseIf _ _ (lampOk_raiseIf _ _ (lampOk_raiseIf _ _ (lampOk_beside _ _ _ _ h))))

theorem lampOk_frameEnd {s : State} (f : AccelFrame) (h : LampOk s) : LampOk (frameEnd f s) := by
  unfold frameEnd
  split
  · exact h
  · exact lampOk_beside _ _ _ _ h
  · exact lampOk_arbitrate (lampOk_frameTaken f h)

theorem lampOk_frameEndWith {s : State} (e : MotionEvent) (f : AccelFrame) (h : LampOk s) : LampOk (frameEndWith e f s) := by
  unfold frameEndWith
  split
  · exact lampOk_frameEnd f h
  · exact h

/-! ### The strings (R116 to R119) -/

theorem lampOk_measurement {s : State} (delivered : Nat) (r : StringReadings) (h : LampOk s) :
    LampOk (arbitrate (stringMeasurement delivered r s)) := by
  unfold stringMeasurement
  refine lampOk_arbitrate ?_
  split
  · exact lampOk_raiseIf _ _ (lampOk_raiseIf _ _ (lampOk_raiseIf _ _ (lampOk_raiseIf _ _
      (lampOk_levelKept s _ h (levelKept_measuredWith _ r _)))))
  · exact h

/-! ### The requests -/

section Requests

variable {s : State} (tag : Byte) (p : List Byte) (h : LampOk s)
include h

theorem lampOk_setPathRequest : LampOk (handleSetPath tag p s) := by
  unfold handleSetPath
  split
  · exact lampOk_answer _ _ _ _ h
  · split
    · exact lampOk_answer _ _ _ _ h
    · rename_i a _ _
      exact lampOk_answer _ _ _ _ ((kept_settle _ _).lamp
        (onMembers_keeps a.members (fun q r => r.stored (a.stored q)) (fun _ _ hv => lampOk_setPath _ _ hv) h))

theorem lampOk_getPathRequest : LampOk (handleGetPath tag p s) := by
  unfold handleGetPath
  split
  · exact lampOk_answer _ _ _ _ h
  · refine lampOk_answer _ _ _ _ ?_
    unfold readPath
    dsimp only
    split
    · exact lampOk_setPath _ _ h
    · exact (kept_settle _ _).lamp (lampOk_setPath _ _ h)

theorem lampOk_clearPathRequest : LampOk (handleClearPath tag p s) := by
  unfold handleClearPath
  split
  · exact lampOk_answer _ _ _ _ h
  · exact lampOk_answer _ _ _ _ ((kept_settle _ _).lamp
      (onMembers_keeps _ (fun _ r => r.cleared) (fun _ _ hv => lampOk_setPath _ _ hv) h))

theorem lampOk_setSupplyRequest : LampOk (handleSetSupply tag p s) := by
  unfold handleSetSupply
  split
  · exact lampOk_answer _ _ _ _ h
  · exact lampOk_answer _ _ _ _ ((kept_settle _ _).lamp (lampOk_spc _ rfl h))

theorem lampOk_selectSourceRequest : LampOk (handleSelectSource tag p s) := by
  unfold handleSelectSource
  split
  · exact lampOk_answer _ _ _ _ h
  · split
    · exact lampOk_answer _ _ _ _ h
    · split
      · exact lampOk_answer _ _ _ _ h
      · exact (kept_settle _ _).lamp ((calm_startSwitchover _ _ _ _ _).lamp (lampOk_slu _ rfl h))

theorem lampOk_packInfoRequest : LampOk (handlePackInfo tag p s) := by
  unfold handlePackInfo
  split
  · exact lampOk_answer _ _ _ _ h
  · split
    · exact lampOk_answer _ _ _ _ h
    · exact lampOk_answer _ _ _ _ ((kept_settle _ _).lamp (lampOk_spc _ rfl h))

theorem lampOk_releaseBayRequest : LampOk (handleReleaseBay tag p s) := by
  unfold handleReleaseBay
  split
  · exact lampOk_answer _ _ _ _ h
  · split
    · exact lampOk_answer _ _ _ _ h
    · split
      · exact lampOk_answer _ _ _ _ (lampOk_releaseRequest _ _ h)
      · exact (kept_settle _ _).lamp (lampOk_releaseRequest _ _ (lampOk_slu _ rfl (lampOk_setLatch _ _ h)))

theorem lampOk_convertNowRequest : LampOk (handleConvertNow tag p s) := by
  unfold handleConvertNow
  split
  · exact lampOk_answer _ _ _ _ h
  · split
    · exact lampOk_answer _ _ _ _ h
    · split
      · exact lampOk_answer _ _ _ _ h
      · exact lampOk_same h ⟨rfl, rfl, rfl, rfl, rfl⟩

theorem lampOk_setMotionRequest : LampOk (handleSetMotion tag p s) := by
  unfold handleSetMotion
  split
  · exact lampOk_answer _ _ _ _ h
  · split
    · exact lampOk_answer _ _ _ _ h
    · exact lampOk_answer _ _ _ _ (lampOk_raiseIf _ _ (lampOk_beside _ _ _ _ h))

/-- R107, R178: a platform state other than RUN takes the level to 0. -/
theorem lampOk_setPlatformRequest : LampOk (handleSetPlatform tag p s) := by
  unfold handleSetPlatform
  split
  · rename_i q mask _ _
    refine lampOk_answer _ _ _ _ ?_
    unfold publishPlatform
    dsimp only
    split
    · rename_i stays
      exact lampOk_slu _ stays h
    · refine lampOk_scv _ ?_ (lampOk_platform s { s.slu with platform := q, wakeMask := mask } h)
      dsimp only
      split
      · exact scvWake_records _ _
      · rfl
  · exact lampOk_answer _ _ _ _ h
  · exact lampOk_answer _ _ _ _ h

theorem lampOk_handled (k : ReqKind) : LampOk (handleOwned k tag p s) := by
  cases k with
  | setPath => exact lampOk_setPathRequest tag p h
  | getPath => exact lampOk_getPathRequest tag p h
  | clearPath => exact lampOk_clearPathRequest tag p h
  | setSupply => exact lampOk_setSupplyRequest tag p h
  | selectSource => exact lampOk_selectSourceRequest tag p h
  | packInfo => exact lampOk_packInfoRequest tag p h
  | releaseBay => exact lampOk_releaseBayRequest tag p h
  | convertNow => exact lampOk_convertNowRequest tag p h
  | setMotion => exact lampOk_setMotionRequest tag p h
  | setPlatform => exact lampOk_setPlatformRequest tag p h
  | reset => exact lampOk_resetRequest tag p h
  | getSupply | getSense | getBrightness | getMotion | getStatus | getIdent => exact lampOk_answer _ _ _ _ h
  | getLatch =>
    unfold handleOwned handleGetLatch
    dsimp only
    split <;> exact lampOk_answer _ _ _ _ h
  | setSense =>
    unfold handleOwned handleSetSense
    dsimp only
    split
    · exact lampOk_answer _ _ _ _ h
    · exact lampOk_answer _ _ _ _ (lampOk_scv _ (scvWake_records _ _) h)
  | loadThermistor =>
    unfold handleOwned handleLoadThermistor
    dsimp only
    split
    · exact lampOk_answer _ _ _ _ (lampOk_scv _ rfl h)
    · exact lampOk_answer _ _ _ _ h
  | setBrightness =>
    unfold handleOwned handleSetBrightness
    dsimp only
    split
    · exact lampOk_answer _ _ _ _ h
    · exact lampOk_answer _ _ _ _ (lampOk_breStored _ _ h)
  | loadCurve =>
    unfold handleOwned handleLoadCurve
    dsimp only
    split
    · exact lampOk_answer _ _ _ _ h
    · exact lampOk_answer _ _ _ _ (lampOk_breLoaded _ _ h)
  | setLamp =>
    unfold handleOwned handleSetLamp
    dsimp only
    split
    · exact lampOk_answer _ _ _ _ h
    · exact lampOk_answer _ _ _ _ (lampOk_levelKept _ _ h (levelKept_stored _ _ _))
  | getLamp =>
    unfold handleOwned handleGetLamp
    dsimp only
    split <;> exact lampOk_answer _ _ _ _ h
  | lampClear =>
    unfold handleOwned handleLampClear
    dsimp only
    split
    · exact lampOk_answer _ _ _ _ h
    · exact lampOk_answer _ _ _ _ (lampOk_levelKept _ _ h (levelKept_clearStrings _ _ _))
  | readDrop =>
    unfold handleOwned handleReadDrop
    dsimp only
    split
    · exact lampOk_answer _ _ _ _ h
    · exact lampOk_answer _ _ _ _ (lampOk_beside _ _ _ _ h)
  | eraseDrops => exact lampOk_answer _ _ _ _ (lampOk_beside _ _ _ _ h)
  | setNoticeMask =>
    unfold handleOwned handleSetNoticeMask
    dsimp only
    split
    · exact lampOk_answer _ _ _ _ (lampOk_slu _ rfl h)
    · exact lampOk_answer _ _ _ _ h

end Requests

/-! ### The link (R162 to R169) -/

theorem lampOk_dispatch {s : State} (h : LampOk s) : LampOk (dispatchOne s) := by
  unfold dispatchOne
  split
  · exact h
  · rename_i r rest _
    have taken : LampOk { s with slu := { s.slu with queue := rest } } := lampOk_slu _ rfl h
    unfold handleRequest
    split
    · exact lampOk_slu _ rfl taken
    · split
      · exact lampOk_handled _ _ taken _
      · exact lampOk_slu _ rfl taken

theorem lampOk_finishLink {s : State} (before : State) (h : LampOk s) : LampOk (finishLink before s) := by
  unfold finishLink
  dsimp only
  split
  · exact lampOk_arbitrate (lampOk_dispatch (lampOk_arbitrate h))
  · exact lampOk_arbitrate h

theorem lampOk_offerRequest {s : State} (r : Request) (h : LampOk s) : LampOk (offerRequest r s) := by
  unfold offerRequest
  split
  · exact lampOk_slu _ rfl h
  · split <;> exact lampOk_slu _ rfl h

theorem lampOk_receiveRequest {s : State} (r : Request) (h : LampOk s) : LampOk (receiveRequest r s) :=
  lampOk_finishLink s (lampOk_offerRequest r (lampOk_slu _ rfl h))

theorem lampOk_takeReceived {s : State} (r : Received) (h : LampOk s) : LampOk (takeReceived r s) := by
  cases r with
  | goOn | discarded => exact lampOk_slu _ rfl h
  | frame r => exact lampOk_finishLink s (lampOk_offerRequest r (lampOk_slu _ rfl h))

theorem lampOk_rxFrame {s : State} (check : Byte) (stop : Bool) (h : LampOk s) :
    Leads LampOk (execRxFrame check stop s) := by
  unfold execRxFrame
  split
  · exact leads_next (lampOk_takeReceived _ h)
  all_goals exact leads_next h

/-! ### Every command -/

/-- An event that changes nothing when its condition does not hold. -/
theorem lampOk_ite {s t : State} {c : Prop} [Decidable c] (h : LampOk s) (acts : LampOk t) :
    Leads LampOk (if c then .next t else .next s) :=
  leads_ite (fun _ => leads_next acts) fun _ => leads_next h

theorem lampOk_exec {s : State} (c : Instr) (h : LampOk s) : Leads LampOk (exec c s) := by
  cases c with
  | powerOnReset => exact leads_next (lampOk_powerOn ..)
  -- The link.
  | rxFrame check stop => exact lampOk_rxFrame check stop h
  | rxCharacter char stop => exact leads_next (lampOk_takeReceived _ h)
  | frameGapTimeout => exact leads_next (lampOk_slu _ rfl h)
  | lineBreak =>
    exact leads_ite (fun _ => leads_next h) fun _ =>
      leads_next (lampOk_slu _ rfl (lampOk_setLatch .b _ (lampOk_setLatch .a _ h)))
  | breakEnd => exact lampOk_ite h (lampOk_slu _ rfl h)
  | requestDispatch => exact lampOk_ite h (lampOk_arbitrate (lampOk_dispatch h))
  | txFrameEnd => exact lampOk_ite h (lampOk_finishLink s (lampOk_slu _ rfl h))
  -- The requests.
  | setPath tag p | getPath tag p | clearPath tag p | setSupply tag p | getSupply tag p | selectSource tag p
  | packInfo tag p | releaseBay tag p | getLatch tag p | setSense tag p | getSense tag p | loadThermistor tag p
  | convertNow tag p | setBrightness tag p | getBrightness tag p | loadCurve tag p | setLamp tag p | getLamp tag p
  | lampClear tag p | setMotion tag p | getMotion tag p | readDrop tag p | eraseDrops tag p | setPlatform tag p
  | setNoticeMask tag p | getStatus tag p | getIdent tag p | resetRequest tag p => exact leads_next (lampOk_receiveRequest _ h)
  -- The source paths and the supply.
  | monitorSample r => exact leads_next (lampOk_sample r h)
  | lossDeclared r | busLowActivate r => exact lampOk_ite h (lampOk_sample r h)
  | emptyTimerExpiry bay => exact lampOk_ite h (lampOk_event false (lampOk_setPath _ _ h))
  | blankingEnd p => exact lampOk_ite h (lampOk_event false (lampOk_blankingEnd p h))
  | retryTimerExpiry p => exact lampOk_ite h (lampOk_event false (lampOk_setPath _ _ h))
  | goodCloseInterval p => exact lampOk_ite h (lampOk_setPath _ _ h)
  | startUpIntervalEnd | preemptionTimerExpiry _ | busLowRecovery =>
    exact lampOk_ite h (lampOk_event false (lampOk_spc _ rfl h))
  | deadTimeExpiry => exact lampOk_ite h (lampOk_event false ((reported_deadTimeExpiry s).lamp h))
  | overlapTimerExpiry => exact lampOk_ite h (lampOk_event false ((reported_overlapExpiry s).lamp h))
  -- The bay latches.
  | buttonPress bay =>
    exact lampOk_ite h
      (lampOk_event false (lampOk_releaseRequest bay .button (lampOk_beside _ _ _ _ h)))
  | buttonInactive bay => exact leads_next (lampOk_beside _ _ _ _ h)
  | latchSenseChange bay pos => exact leads_next (lampOk_setLatch _ _ h)
  | releaseWindowExpiry bay => exact lampOk_ite h (lampOk_event true ((kept_endWindow _ _ _).lamp h))
  | latchFaultTimerExpiry bay => exact lampOk_ite h (lampOk_event false (lampOk_raise _ (lampOk_setLatch _ _ h)))
  | latchStuckTimerExpiry bay => exact lampOk_ite h (lampOk_arbitrate (lampOk_raise _ (lampOk_setLatch _ _ h)))
  -- The sense converter.
  | lightConversionEnd edges => exact lampOk_lightConversionEnd edges h
  | thermistorConversionEnd count => exact lampOk_thermistorConversionEnd count h
  | thermistorTimeout => exact lampOk_thermistorTimeout h
  | channelStale c => exact lampOk_ite h (lampOk_arbitrate (lampOk_published c true _ h false).2)
  -- The lamp driver.
  | frameStart time => exact leads_next (lampOk_levelKept s _ h (levelKept_frameStart _ time _))
  | frameTimeout => exact leads_next (lampOk_levelKept s _ h (levelKept_frameTimeout _ _))
  | periodStart => exact leads_next (lampOk_levelKept s _ h (levelKept_periodStart _ _))
  | stringMeasurement delivered r => exact leads_next (lampOk_measurement delivered r h)
  | stringFaultConfirm delivered r => exact lampOk_ite h (lampOk_measurement delivered r h)
  -- The motion port and the drop detector.
  | sampleEvent => exact lampOk_ite h (lampOk_beside _ _ _ _ h)
  | frameEnd f => exact leads_next (lampOk_frameEnd f h)
  | linkLostEntry f | linkRecovery f | fallQualified f | softLanding f | fallTimeout f | impactExit f | settled f
  | settleTimeout f | blindHoldEnd f | traceFreeze f => exact leads_next (lampOk_frameEndWith _ f h)

/-- Settles O49, command by command. -/
theorem stepKeepsLampLaws : Obligations.StepKeepsLampLaws := by
  intro s t h steps
  unfold step at steps
  split at steps
  · exact Host.Outcome.next.inj steps ▸ h
  · rename_i rest _
    exact lampOk_exec (s := { s with pending := rest }) _ (lampOk_beside _ _ _ _ h) t steps

end Sys2Proof.LightSide

/-! ## The light level, the filter and the curve (O47) -/

namespace Sys2Proof.LightSide

open Sys2Proof.Machine Sys2Proof.Safety

/-! ### Stage 3 (R89) -/

/-- R89: between two powers of 2 the level rises in a straight line from one octave to the next. -/
theorem logLevel_octave {e p : Nat} (low : 2 ^ p ≤ e + 1) (high : e + 1 < 2 ^ (p + 1)) :
    logLevel e = 16 * p + (e + 1 - 2 ^ p) * 16 / 2 ^ p := by
  have octave : Nat.log2 (e + 1) = p := (Nat.log2_eq_iff (Nat.succ_ne_zero e)).mpr ⟨low, high⟩
  unfold logLevel
  rw [octave]

/-- R89: the sixteenths above an octave are at most 15. -/
theorem sixteenths_lt {x p : Nat} (high : x < 2 ^ (p + 1)) : (x - 2 ^ p) * 16 / 2 ^ p < 16 := by
  rw [Nat.div_lt_iff_lt_mul (Nat.two_pow_pos p)]
  rw [Nat.pow_succ] at high
  omega

/-- R67, R89: 200,000 lux lie in the octave of 2 ^ 17, 8 whole sixteenths above it. -/
theorem logLevel_le {e : Nat} (le : e ≤ 200000) : logLevel e ≤ 280 := by
  have low : 2 ^ Nat.log2 (e + 1) ≤ e + 1 := Nat.log2_self_le (Nat.succ_ne_zero e)
  have high : e + 1 < 2 ^ (Nat.log2 (e + 1) + 1) := Nat.lt_log2_self
  generalize Nat.log2 (e + 1) = p at low high
  rw [logLevel_octave low high]
  have top : p < 18 := (Nat.pow_lt_pow_iff_right (a := 2) (by decide)).mp (by omega)
  by_cases last : p = 17
  · subst last
    omega
  · have := sixteenths_lt high
    omega

/-! ### The filter (R91) -/

/-- R91: a step over a distance, at a rate of at most 16 sixteenths, is at least 1 and within the distance. -/
theorem filterDistance_bounds {d rate : Nat} (apart : 0 < d) (le : rate ≤ 16) :
    1 ≤ max 1 (d * rate / 16) ∧ max 1 (d * rate / 16) ≤ d := by
  have within : d * rate / 16 ≤ d := Nat.div_le_of_le_mul (by rw [Nat.mul_comm]; exact Nat.mul_le_mul_right d le)
  omega

/-- R91: 16 sixteenths are the whole distance. -/
theorem filterDistance_whole {d : Nat} (apart : 0 < d) : max 1 (d * 16 / 16) = d := by
  rw [Nat.mul_div_cancel d (by decide)]
  exact Nat.max_eq_right apart

section Filter

variable {c : BrightSettings} {lf l : Nat}

theorem filterStep_up (below : lf < l) : filterStep c lf l = lf + max 1 ((l - lf) * c.upRate / 16) := if_pos below

theorem filterStep_down (above : l < lf) : filterStep c lf l = lf - max 1 ((lf - l) * c.downRate / 16) :=
  (if_neg (Nat.not_lt_of_gt above)).trans (if_pos above)

theorem filterStep_at : filterStep c l l = l := (if_neg (lt_irrefl l)).trans (if_neg (lt_irrefl l))

theorem filterStep_up_bounds (rate : c.upRate ≤ 16) (below : lf < l) :
    lf + 1 ≤ filterStep c lf l ∧ filterStep c lf l ≤ l := by
  have := filterDistance_bounds (Nat.sub_pos_of_lt below) rate
  rw [filterStep_up below]
  omega

theorem filterStep_down_bounds (rate : c.downRate ≤ 16) (above : l < lf) :
    l ≤ filterStep c lf l ∧ filterStep c lf l + 1 ≤ lf := by
  have := filterDistance_bounds (Nat.sub_pos_of_lt above) rate
  rw [filterStep_down above]
  omega

theorem filterStep_up_whole (rate : c.upRate = 16) (below : lf < l) : filterStep c lf l = l := by
  rw [filterStep_up below, rate, filterDistance_whole (Nat.sub_pos_of_lt below)]
  omega

theorem filterStep_down_whole (rate : c.downRate = 16) (above : l < lf) : filterStep c lf l = l := by
  rw [filterStep_down above, rate, filterDistance_whole (Nat.sub_pos_of_lt above)]
  omega

end Filter

/-- Settles O47: the octaves of stage 3, the bounds of a filter step, and the lines of the curve. -/
theorem lightLevelAndFilter : Obligations.LightLevelAndFilter := by
  refine ⟨fun _ _ => logLevel_octave, fun _ => logLevel_le, fun c lf l up down => ⟨filterStep_up_bounds up,
    filterStep_down_bounds down, fun same => ?_, fun below rate => filterStep_up_whole rate below,
    fun above rate => filterStep_down_whole rate above⟩, fun _ _ _ => rfl, curveAt_spec⟩
  subst same
  exact filterStep_at

end Sys2Proof.LightSide

/-! ## SET_BRIGHTNESS and LOAD_CURVE (O48) -/

namespace Sys2Proof.LightSide

open Sys2Proof.Machine Sys2Proof.Safety Sys2Proof.SourcePaths Sys2Proof.Snapshots

/-! ### The publication to the LMD (R83, R106, R114) -/

/-- R83: with copies that are up to date, a recomputation leaves them up to date, whether or not it is published. -/
theorem withBre_copies {s : State} (h : LampOk s) (e : Bre) :
    (s.withBre e).lmd.ycCopy = e.yc ∧ (s.withBre e).lmd.capCopy = e.cap ∧ (s.withBre e).lmd.a = min s.lmd.a e.cap := by
  obtain ⟨keeps, told⟩ := SenseConverter.published_lmd s e
  by_cases same : e.yc = s.bre.yc ∧ e.cap = s.bre.cap
  · have level : s.lmd.a ≤ s.bre.cap := h.capCopy ▸ h.level
    rw [keeps same.1 same.2, same.1, same.2]
    exact ⟨h.ycCopy, h.capCopy, (Nat.min_eq_left level).symm⟩
  · exact told (not_and_or.mp same)

/-! ### Stages 6 and 7 (R96 to R101) -/

/-- R96 to R98: stage 6 writes Yb and CLAMPED. -/
theorem stage6_frame (e : Bre) : e.stage6 = { e with yb := e.stage6.yb, clamped := e.stage6.clamped } := by
  unfold Bre.stage6
  split <;> rfl

/-- R96 to R98: stage 6 by the mode in force. -/
theorem stage6_bias (e : Bre) : BiasApplied e e.stage6 := biasApplied_stage6 e e rfl rfl rfl

/-! ### SET_BRIGHTNESS (R86, R88, R98, R102) -/

/-- R86, R88, R98, R102: the BRE with the settings stored, before stage 6. -/
def storedInputs (e : Bre) (c : BrightSettings) : Bre :=
  { e with
    settings := c
    frozen := e.frozenFor c.mode
    rearUsable := e.rearUsable && decide (c.rearWeight ≠ 0)
    ambientUnknown := e.ambientUnknown || (decide (c.rearWeight = 0) && !e.frontUsable)
    y := if e.seeded then e.y else c.fallback }

/-- R102: stages 6 and 7 run on the stored settings. -/
theorem stored_eq (e : Bre) (c : BrightSettings) (panel : Option Int) :
    e.stored c panel = ((storedInputs e c).stage6.thermal panel).limit := by
  have weight :
      (if c.rearWeight = 0 then
          Bre.noteUnknown { e with settings := c, frozen := e.frozenFor c.mode, rearUsable := false }
        else { e with settings := c, frozen := e.frozenFor c.mode }) =
        { storedInputs e c with y := e.y } := by
    unfold storedInputs Bre.noteUnknown
    by_cases none : c.rearWeight = 0
    · cases e.frontUsable <;> simp [none]
    · simp [none]
  unfold Bre.stored
  dsimp only
  rw [weight]
  by_cases seeded : e.seeded = true
  · simp [storedInputs, seeded]
  · simp [storedInputs, seeded, Bre.stage5]

/-- R84, R86, R88, R99 to R102: the whole BRE after SET_BRIGHTNESS, but for stage 6. -/
theorem stored_frame (e : Bre) (c : BrightSettings) (panel : Option Int) :
    let g := e.stored c panel
    g =
      { storedInputs e c with
        yb := g.yb, clamped := g.clamped, panelKnown := panel.isSome, thermalCap := thermalCapOf c panel
        cap := min e.allowance (thermalCapOf c panel)
        yc := min (max g.yb c.ymin) (min e.allowance (thermalCapOf c panel)) } := by
  rw [stored_eq, stage6_frame]
  rfl

/-- R96 to R98: stage 6 on the stored settings. -/
theorem stored_bias (e : Bre) (c : BrightSettings) (panel : Option Int) :
    BiasApplied (storedInputs e c) (e.stored c panel) := by
  obtain ⟨auto, fixed, frozen⟩ := stage6_bias (storedInputs e c)
  rw [stored_eq]
  exact ⟨auto, fixed, frozen⟩

/-- R171: ADJUSTED says that clamping has changed a value. -/
theorem okOr_bne {α : Type} [BEq α] [LawfulBEq α] [DecidableEq α] (x y : α) :
    okOr (x != y) = if x = y then .ok else .adjusted := by
  by_cases same : x = y <;> simp [okOr, same]

theorem setBrightness_allowed {p : List Byte} (len : p.length = 18) : lengthAllowed .setBrightness p = true := by
  simp [lengthAllowed, len, Config.maxPayload]

/-- R102, R170: SET_BRIGHTNESS stores, runs the pipeline, and answers with the settings stored. -/
theorem exec_setBrightness (tag : Byte) {p : List Byte} {a : BrightSettings} {s : State} (h : Ready s) (len : p.length = 18)
    (args : brightArgs p = some a) :
    exec (.setBrightness tag p) s =
      .next
        (replied ((heard s).withBre (s.bre.stored a.clamped (panelTemp s)))
          (replyOf .setBrightness tag (if a.clamped = a then .ok else .adjusted) (brightSettingsBytes a.clamped))) := by
  refine (exec_ready .setBrightness tag p s h (setBrightness_allowed len)).trans (congrArg _ ?_)
  have settings : ((heard s).bre.stored a.clamped (panelTemp (heard s))).settings = a.clamped := by rw [stored_frame]; rfl
  simp only [handleOwned, handleSetBrightness, args]
  rw [okOr_bne, withBre_bre, settings]
  exact arbitrate_answer .setBrightness tag _ _ ((heard s).withBre _) h.transmitter

/-! ### LOAD_CURVE (R95) -/

/-- R94, R95: the BRE with a table stored and stage 5 run on it. -/
def loadedInputs (e : Bre) (t : List (Nat × Nat)) : Bre :=
  { e with curve := t, y := if e.seeded then curveAt t e.lused else e.settings.fallback }

/-- R94, R95, R100, R101: the whole BRE after LOAD_CURVE, but for stage 6. -/
theorem loaded_frame (e : Bre) (t : List (Nat × Nat)) :
    let g := e.loaded t
    g =
      { loadedInputs e t with
        yb := g.yb, clamped := g.clamped, cap := min e.allowance e.thermalCap
        yc := min (max g.yb e.settings.ymin) (min e.allowance e.thermalCap) } := by
  have inputs : e.loaded t = (loadedInputs e t).stage6.limit := rfl
  rw [inputs, stage6_frame]
  rfl

/-- R95 to R98: stage 6 on the stored table. -/
theorem loaded_bias (e : Bre) (t : List (Nat × Nat)) : BiasApplied e (e.loaded t) := by
  obtain ⟨auto, fixed, frozen⟩ := biasApplied_stage6 e (loadedInputs e t) rfl rfl rfl
  exact ⟨auto, fixed, frozen⟩

/-- R95, R170: a table of 2 to 12 points in order is stored, and answered. -/
theorem exec_loadCurve_stores (tag : Byte) {p : List Byte} {pts tab : List (Nat × Nat)} {s : State} (h : Ready s)
    (len : lengthAllowed .loadCurve p = true) (points : curvePoints p (at8 p 0) 1 = pts) (table : pts.map clampCurve = tab)
    (two : 2 ≤ at8 p 0) (twelve : at8 p 0 ≤ 12) (ordered : curveOrdered tab = true) :
    exec (.loadCurve tag p) s =
      .next
        (replied ((heard s).withBre (s.bre.loaded tab))
          (replyOf .loadCurve tag (if tab = pts then .ok else .adjusted) (curveBytes tab))) := by
  have passes : ¬(at8 p 0 < 2 ∨ 12 < at8 p 0 ∨ curveOrdered tab = false) := by
    rintro (few | many | unordered)
    · exact Nat.not_lt_of_ge two few
    · exact Nat.not_lt_of_ge twelve many
    · exact Bool.false_ne_true (unordered.symm.trans ordered)
  have curve : ((heard s).bre.loaded tab).curve = tab := congrArg Bre.curve (loaded_frame (heard s).bre tab)
  refine (exec_ready .loadCurve tag p s h len).trans (congrArg _ ?_)
  unfold handleOwned handleLoadCurve
  dsimp only
  rw [points, table, if_neg passes, okOr_bne, withBre_bre, curve]
  exact arbitrate_answer .loadCurve tag _ _ ((heard s).withBre _) h.transmitter

/-- R95, R171: any other table is refused. -/
theorem exec_loadCurve_refuses (tag : Byte) {p : List Byte} {s : State} (h : Ready s)
    (len : lengthAllowed .loadCurve p = true)
    (fails : at8 p 0 < 2 ∨ 12 < at8 p 0 ∨ curveOrdered ((curvePoints p (at8 p 0) 1).map clampCurve) = false) :
    exec (.loadCurve tag p) s = .next (answered .loadCurve tag .badValue [] s) :=
  exec_answers .loadCurve h len (if_pos fails)

/-- Settles O48: the inputs that each request stores, stage 6 by the mode, and stage 7 down to the LMD's copies. -/
theorem brightnessRequestsRunThePipeline : Obligations.BrightnessRequestsRunThePipeline := by
  intro tag p s h lamp
  have heardLamp : LampOk (heard s) := lampOk_slu _ rfl lamp
  refine ⟨fun a len args => ?_, fun len none => ?_, fun len => ⟨fun two twelve ordered => ?_, exec_loadCurve_refuses tag h len⟩⟩
  · obtain ⟨auto, fixed, kept⟩ := stored_bias s.bre a.clamped (panelTemp s)
    have frame := stored_frame s.bre a.clamped (panelTemp s)
    have copies := withBre_copies heardLamp (s.bre.stored a.clamped (panelTemp s))
    have executes := exec_setBrightness tag h len args
    generalize s.bre.stored a.clamped (panelTemp s) = g at auto fixed kept frame copies executes
    have frozen : g.frozen = s.bre.frozenFor a.mode := congrArg Bre.frozen frame
    have thermal : g.thermalCap = thermalCapOf a.clamped (panelTemp s) := congrArg Bre.thermalCap frame
    have cap : g.cap = min s.bre.allowance (thermalCapOf a.clamped (panelTemp s)) := congrArg Bre.cap frame
    have yc : g.yc = min (max g.yb a.clamped.ymin) (min s.bre.allowance (thermalCapOf a.clamped (panelTemp s))) :=
      congrArg Bre.yc frame
    refine ⟨(heard s).withBre g, executes, rfl, ?_, fun mode => ?_, fun mode => ?_, fun mode => ?_, thermal.trans ?_, ?_,
      yc.trans ?_, copies⟩
    · rw [withBre_bre, frame]
      rfl
    · exact ⟨(auto mode).1, (auto mode).2, frozen.trans (by rw [mode]; rfl)⟩
    · exact ⟨(fixed mode).1, (fixed mode).2, frozen.trans (by rw [mode]; rfl)⟩
    · exact ⟨(kept mode).1, (kept mode).2, frozen.trans (by rw [mode]; rfl)⟩
    · cases panelTemp s <;> rfl
    · rw [withBre_bre, cap, lamp.allowance, thermal]
    · rw [withBre_bre, cap]
  · refine exec_answers .setBrightness h (setBrightness_allowed len) ?_
    simp only [handleOwned, handleSetBrightness, none]
    rfl
  · have executes := exec_loadCurve_stores tag h len rfl rfl two twelve ordered
    refine ⟨_, executes, rfl, ?_, loaded_bias s.bre _, ?_, withBre_copies heardLamp _⟩
    · rw [withBre_bre, loaded_frame, ← lamp.cap]
      rfl
    · rw [withBre_bre, lamp.cap]
      exact congrArg Bre.yc (loaded_frame s.bre _)

end Sys2Proof.LightSide

/-! ## The drive and the frame lock (O50, O51, O52) -/

namespace Sys2Proof.LampDriver

open Sys2Proof.Machine Sys2Proof.Safety

/-! ### The drive (R112, R115) -/

section Drive

variable (c : LampSettings) {a : Nat}

theorem driveFor_zero : driveFor c 0 = { duty := 0, current := 0 } := rfl

theorem driveFor_full (pos : 0 < c.crossover) (above : c.crossover ≤ a) :
    driveFor c a = { duty := 4096, current := c.iMax * a / 1000 } :=
  (if_neg (Nat.ne_of_gt (pos.trans_le above))).trans (if_pos above)

theorem driveFor_dimmed (on : 0 < a) (below : a < c.crossover) :
    driveFor c a = { duty := 4096 * a / c.crossover, current := c.iMax * c.crossover / 1000 } :=
  (if_neg (Nat.ne_of_gt on)).trans (if_neg (Nat.not_le_of_gt below))

/-- R112: a share of at most 1000 thousandths of I_max. -/
theorem thousandths_le (i : Nat) {x : Nat} (le : x ≤ 1000) : i * x / 1000 ≤ i :=
  Nat.div_le_of_le_mul ((Nat.mul_le_mul_left i le).trans_eq (Nat.mul_comm i 1000))

/-- R112: in each of the table's rows the duty and the current keep their bounds. -/
theorem driveFor_bounds (pos : 0 < c.crossover) (crossover : c.crossover ≤ 1000) (level : a ≤ 1000) :
    (driveFor c a).duty ≤ 4096 ∧ (driveFor c a).current ≤ c.iMax := by
  rcases Nat.eq_zero_or_pos a with rfl | on
  · exact ⟨Nat.zero_le _, Nat.zero_le _⟩
  · rcases Nat.lt_or_ge a c.crossover with below | above
    · rw [driveFor_dimmed c on below]
      exact ⟨Nat.div_le_of_le_mul ((Nat.mul_le_mul_left 4096 below.le).trans_eq (Nat.mul_comm ..)),
        thousandths_le _ crossover⟩
    · rw [driveFor_full c pos above]
      exact ⟨Nat.le_refl _, thousandths_le _ level⟩

theorem clamp_bounds {lo hi : Nat} (ordered : lo ≤ hi) (v : Nat) : lo ≤ clamp lo hi v ∧ clamp lo hi v ≤ hi :=
  ⟨Nat.le_max_left .., Nat.max_le.mpr ⟨ordered, Nat.min_le_left ..⟩⟩

/-- R115: the sink of a string that is not ENABLED is off. -/
theorem sinkCurrent_off {s : State} {i : LedString} (off : (s.lmd.strings.get i).state ≠ .enabled) : sinkCurrent s i = 0 :=
  if_neg fun on => off on.1

end Drive

/-- Settles O50, by the rows of R112's table. -/
theorem driveFollowsTheTable : Obligations.DriveFollowsTheTable := by
  refine ⟨fun c a pos crossover level => ?_, fun c => ?_, rfl, rfl, fun _ _ => sinkCurrent_off⟩
  · exact ⟨driveFor_full c pos, driveFor_dimmed c, driveFor_zero c, driveFor_bounds c pos crossover level⟩
  · obtain ⟨kLow, kHigh⟩ := clamp_bounds (lo := 50) (hi := 500) (by decide) c.crossover
    obtain ⟨iLow, iHigh⟩ := clamp_bounds (lo := 50) (hi := 400) (by decide) c.iMax
    exact ⟨kLow, kHigh, iLow, iHigh⟩

/-! ### A period start (R109, R113, R115, R117) -/

/-- R109, R113, R117: a period of `n` ns has started between `l` and `m`. -/
structure StartsPeriod (n : Nat) (l m : Lmd) : Prop where
  length : m.pwmPeriod = n
  drive : m.inForce = if l.stagedPending then l.staged else l.inForce
  unchanged : m.changed = false
  unmeasured : m.measured = false
  strings : m.strings = (l.endPeriod.startPeriod n).strings

/-- R109, R113: what a period start leaves of the LMD but for the string records. -/
theorem startPeriod_frame (n : Nat) (l : Lmd) :
    l.endPeriod.startPeriod n =
      { l with
        pwmPeriod := n, inForce := if l.stagedPending then l.staged else l.inForce, stagedPending := false
        changed := false, measured := false, strings := (l.endPeriod.startPeriod n).strings } := by
  unfold Lmd.endPeriod
  split <;> rfl

theorem startsPeriod_startPeriod (n : Nat) (l : Lmd) : StartsPeriod n l (l.endPeriod.startPeriod n) where
  length := rfl
  drive := by rw [startPeriod_frame]
  unchanged := rfl
  unmeasured := rfl
  strings := rfl

/-- R113: a dimming update stages its drive, and does not put it in force. -/
theorem StartsPeriod.dimmingUpdate {n : Nat} {l m : Lmd} (h : StartsPeriod n l m) (p : Platform) :
    StartsPeriod n l (m.dimmingUpdate p) :=
  { h with }

/-- R117: the string records at a period start, in the terms of the statements. -/
theorem StartsPeriod.started {n : Nat} {s t : State} (h : StartsPeriod n s.lmd t.lmd) : PeriodStarted s t where
  fresh := ⟨h.unmeasured, h.unchanged⟩
  strings i := by rw [h.strings, periodString_startPeriod]

/-! ### A dimming update (R110, R111) -/

/-- What a dimming update reads is the same. -/
structure SameInputs (l m : Lmd) : Prop where
  level : m.a = l.a
  yc : m.ycCopy = l.ycCopy
  entry : m.runEntry = l.runEntry
  settings : m.settings = l.settings

theorem sameInputs_startPeriod (n : Nat) (l : Lmd) : SameInputs l (l.endPeriod.startPeriod n) := by
  rw [startPeriod_frame]
  exact ⟨rfl, rfl, rfl, rfl⟩

/-- R110, R111: the level by the platform state and the Yc copy. -/
theorem updatedLevel_eq {s : State} {l : Lmd} (same : SameInputs s.lmd l) : updatedLevel s.slu.platform l = updatedA s := by
  unfold updatedLevel updatedA rampStep
  rw [same.level, same.yc, same.entry, same.settings]
  cases s.slu.platform <;> rfl

theorem dimmingUpdate_made {s t : State} {l : Lmd} (same : SameInputs s.lmd l)
    (updated : t.lmd = l.dimmingUpdate s.slu.platform) : DimmingUpdate s t := by
  have level := updatedLevel_eq same
  have staged : t.lmd.staged = driveFor s.lmd.settings (updatedA s) := by
    rw [updated, ← level, ← same.settings]
    rfl
  refine ⟨by rw [updated, ← level]; rfl, staged, ?_, fun run => ?_⟩
  · rw [updated]
    simp [Lmd.dimmingUpdate, bne, beq_eq_decide]
  · rw [updated]
    simp [Lmd.dimmingUpdate, run]

/-! ### Frame starts (R108 to R110) -/

section Frame

variable {l : Lmd} {p : Platform} {time ref interval : Nat}

/-- R108: 50 ms of silence end LOCKED with the interval last measured. -/
theorem frameTimeout_eq (l : Lmd) :
    l.frameTimeout =
      { l with
        reference := none, runCount := 0, locked := false
        internalInterval := if l.locked then l.lastInterval else l.internalInterval
        freeCount := if l.locked then 0 else l.freeCount
        internalNext := l.locked || l.internalNext } := by
  unfold Lmd.frameTimeout
  cases l.locked <;> rfl

theorem frameStart_glitch (known : l.reference = some ref) (early : time < ref + 2000000) : l.frameStart p time = l := by
  have soon : time - ref < Config.frameGlitchNs := by unfold Config.frameGlitchNs; omega
  simp only [Lmd.frameStart, known, if_pos soon]

theorem frameStart_taken (known : l.reference = some ref) (low : ref + 2000000 ≤ time) (high : time ≤ ref + 50000000) :
    l.frameStart p time = l.frameTaken p time (time - ref) := by
  have edge : ¬time - ref < Config.frameGlitchNs := by unfold Config.frameGlitchNs; omega
  have scanning : ¬Config.frameSilenceNs < time - ref := by unfold Config.frameSilenceNs; omega
  simp only [Lmd.frameStart, known, if_neg edge, if_neg scanning]

theorem frameStart_silent (known : l.reference = some ref) (late : ref + 50000000 < time) :
    l.frameStart p time = { l.frameTimeout with reference := some time, runCount := 0 } := by
  have edge : ¬time - ref < Config.frameGlitchNs := by unfold Config.frameGlitchNs; omega
  have silent : Config.frameSilenceNs < time - ref := by unfold Config.frameSilenceNs; omega
  simp only [Lmd.frameStart, known, if_neg edge, if_pos silent]

/-- R108: the interval counts on where it is consistent, and as the first where it is not. -/
theorem nextRunCount_eq (l : Lmd) (interval : Nat) :
    nextRunCount l interval =
      if l.runCount = 0 then 1
      else if distance l.lastInterval interval * 20 ≤ l.lastInterval then l.runCount + 1 else 1 := by
  simp [nextRunCount, consistent]

/-- R108: the frame lock in LOCKED, with the frame start and its interval taken. -/
def lockedTo (time interval count : Nat) (ever : Bool) (l : Lmd) : Lmd :=
  { l with reference := some time, lastInterval := interval, runCount := count, locked := true, everLocked := ever }

theorem lockedTo_endPeriod (time interval count : Nat) (ever : Bool) (l : Lmd) :
    (lockedTo time interval count ever l).endPeriod = lockedTo time interval count ever l.endPeriod := by
  unfold Lmd.endPeriod lockedTo
  split <;> rfl

/-- R108: a frame start taken in LOCKED, or the fourth of consistent intervals. -/
theorem frameTaken_locks
    (locks : l.locked = true ∨ 3 ≤ l.runCount ∧ distance l.lastInterval interval * 20 ≤ l.lastInterval) :
    ∃ count ever, l.frameTaken p time interval = (lockedTo time interval count ever l).lockedFrame p := by
  by_cases locked : l.locked = true
  · refine ⟨l.runCount, l.everLocked, ?_⟩
    simp only [Lmd.frameTaken, lockedTo, ← locked, if_true]
  · obtain ⟨three, agrees⟩ := locks.resolve_left locked
    have count : nextRunCount l interval = l.runCount + 1 := by
      rw [nextRunCount_eq, if_neg (by omega), if_pos agrees]
    have four : Config.lockCount ≤ l.runCount + 1 := Nat.succ_le_succ three
    refine ⟨l.runCount + 1, true, ?_⟩
    simp only [Lmd.frameTaken, if_neg locked, count, if_pos four]
    rfl

/-- R108: any other frame start taken in FREE_RUN is counted. -/
theorem frameTaken_counts (free : l.locked = false)
    (short : l.runCount < 3 ∨ l.lastInterval < distance l.lastInterval interval * 20) :
    l.frameTaken p time interval =
      { l with reference := some time, lastInterval := interval, runCount := nextRunCount l interval } := by
  have few : ¬Config.lockCount ≤ nextRunCount l interval := by
    rw [nextRunCount_eq]
    unfold Config.lockCount
    split_ifs <;> omega
  simp only [Lmd.frameTaken, free, Bool.false_eq_true, if_false, if_neg few]

end Frame

/-- R109, R110: a frame start in LOCKED starts a period and makes a dimming update. -/
theorem lockedFrame_starts {s t : State} {time interval count : Nat} {ever : Bool}
    (frame : t.lmd = (lockedTo time interval count ever s.lmd).lockedFrame s.slu.platform) :
    StartsPeriod (interval / s.lmd.settings.multiple) s.lmd t.lmd ∧ DimmingUpdate s t := by
  have inputs := sameInputs_startPeriod (interval / s.lmd.settings.multiple) (lockedTo time interval count ever s.lmd)
  have starts : StartsPeriod (interval / s.lmd.settings.multiple) (lockedTo time interval count ever s.lmd) t.lmd := by
    rw [frame]
    exact (startsPeriod_startPeriod _ _).dimmingUpdate _
  have strings : t.lmd.strings = (s.lmd.endPeriod.startPeriod (interval / s.lmd.settings.multiple)).strings := by
    rw [frame, Lmd.lockedFrame, lockedTo_endPeriod]
    rfl
  obtain ⟨level, yc, entry, settings⟩ := inputs
  refine ⟨{ starts with strings := strings }, dimmingUpdate_made ⟨level, yc, entry, settings⟩ frame⟩

/-- The frame lock that a frame start in LOCKED leaves. -/
theorem lockedFrame_lock (p : Platform) (l : Lmd) :
    (l.lockedFrame p).locked = l.locked ∧ (l.lockedFrame p).reference = l.reference ∧
      (l.lockedFrame p).lastInterval = l.lastInterval := by
  unfold Lmd.lockedFrame
  rw [startPeriod_frame]
  exact ⟨rfl, rfl, rfl⟩

/-- Settles O51, by the time since the reference. -/
theorem frameStartsLockAndDim : Obligations.FrameStartsLockAndDim := by
  intro time s
  refine ⟨fun unknown => ?_, fun ref known => ⟨fun early => ?_, fun low high => ⟨fun locks => ?_, fun free short => ?_⟩,
    fun late => ?_⟩⟩
  · simp only [exec, execFrameStart, Lmd.frameStart, unknown]
  · simp only [exec, execFrameStart, frameStart_glitch known early]
  · obtain ⟨count, ever, taken⟩ := frameTaken_locks (p := s.slu.platform) (time := time) locks
    obtain ⟨locked, reference, interval⟩ := lockedFrame_lock s.slu.platform (lockedTo time (time - ref) count ever s.lmd)
    refine ⟨{ s with lmd := (lockedTo time (time - ref) count ever s.lmd).lockedFrame s.slu.platform }, ?_, rfl, locked,
      reference, interval, ?_⟩
    · simp only [exec, execFrameStart, frameStart_taken known low high, taken]
    · obtain ⟨starts, dimmed⟩ := lockedFrame_starts (s := s) (t := { s with lmd := _ }) rfl
      exact ⟨starts.length, starts.drive, dimmed, starts.started⟩
  · simp only [exec, execFrameStart, frameStart_taken known low high, frameTaken_counts free short, nextRunCount_eq]
  · simp only [exec, execFrameStart, frameStart_silent known late, frameTimeout_eq]

/-! ### PERIOD_START (R109, R110) -/

section Period

variable {l : Lmd} {p : Platform}

/-- R109: the length of the next period. -/
def nextLength (l : Lmd) : Nat := if l.locked then l.pwmPeriod else l.internalInterval / l.settings.multiple

/-- R110: which period start in FREE_RUN is the internal frame start. -/
theorem nextFreeCount_zero_iff (l : Lmd) :
    nextFreeCount l = 0 ↔ l.internalNext = true ∨ l.settings.multiple ≤ l.freeCount + 1 := by
  unfold nextFreeCount
  cases l.internalNext
  · simp only [Bool.false_eq_true, if_false, false_or]
    split <;> omega
  · simp

theorem periodStart_locked (locked : l.locked = true) : l.periodStart p = l.endPeriod.startPeriod (nextLength l) := by
  simp [Lmd.periodStart, nextLength, locked]

theorem periodStart_plain (free : l.locked = false) (more : nextFreeCount l ≠ 0) :
    l.periodStart p =
      { l.endPeriod.startPeriod (nextLength l) with freeCount := nextFreeCount l, internalNext := false } := by
  simp [Lmd.periodStart, nextLength, free, more]

theorem periodStart_internal (free : l.locked = false) (last : nextFreeCount l = 0) :
    l.periodStart p =
      ({ l.endPeriod.startPeriod (nextLength l) with freeCount := 0, internalNext := false } : Lmd).dimmingUpdate p := by
  simp [Lmd.periodStart, nextLength, free, last]

/-- R109: whatever the mode, a period of the next length starts. -/
theorem periodStart_starts (l : Lmd) (p : Platform) : StartsPeriod (nextLength l) l (l.periodStart p) := by
  have starts := startsPeriod_startPeriod (nextLength l) l
  by_cases locked : l.locked = true
  · rw [periodStart_locked locked]
    exact starts
  · have free : l.locked = false := Bool.eq_false_of_not_eq_true locked
    by_cases last : nextFreeCount l = 0
    · rw [periodStart_internal free last]
      exact { starts with }
    · rw [periodStart_plain free last]
      exact { starts with }

/-- R110: a period start that is no frame start leaves the level, and the staged drive has been put in force. -/
theorem periodStart_keeps (plain : l.locked = true ∨ l.internalNext = false ∧ l.freeCount + 1 < l.settings.multiple) :
    (l.periodStart p).a = l.a ∧ (l.periodStart p).stagedPending = false := by
  have level := (sameInputs_startPeriod (nextLength l) l).level
  by_cases locked : l.locked = true
  · rw [periodStart_locked locked]
    exact ⟨level, rfl⟩
  · obtain ⟨next, count⟩ := plain.resolve_left locked
    have more : nextFreeCount l ≠ 0 := by
      rw [ne_eq, nextFreeCount_zero_iff, next]
      simpa using count
    rw [periodStart_plain (Bool.eq_false_of_not_eq_true locked) more]
    exact ⟨level, rfl⟩

end Period

/-- Settles O52: the period start by the lock mode and the free-run count. -/
theorem periodsFollowTheLockMode : Obligations.PeriodsFollowTheLockMode := by
  intro s
  have starts := periodStart_starts s.lmd s.slu.platform
  refine ⟨by simp only [exec, execFrameTimeout, frameTimeout_eq], { s with lmd := s.lmd.periodStart s.slu.platform }, rfl,
    rfl, starts.drive, starts.started, starts.length, periodStart_keeps, fun free last => ?_⟩
  have internal := periodStart_internal (p := s.slu.platform) free ((nextFreeCount_zero_iff _).mpr last)
  obtain ⟨level, yc, entry, settings⟩ := sameInputs_startPeriod (nextLength s.lmd) s.lmd
  refine ⟨dimmingUpdate_made ?_ internal, ?_⟩
  · exact ⟨level, yc, entry, settings⟩
  · show (s.lmd.periodStart s.slu.platform).freeCount = 0
    rw [internal]
    rfl

end Sys2Proof.LampDriver

/-! ## The measurement of the strings (O53) -/

namespace Sys2Proof.LampDriver

open Sys2Proof.Machine Sys2Proof.Safety

/-! ### Raises (R119, R174) -/

section Raises

variable (k : NoticeKind) (f : LedString → Bool) (is : List LedString) (s : State)

/-- R119: a kind is raised once for each string that `f` holds of. -/
def raisedFor : State := is.foldl (fun v i => raiseIf (f i) k v) s

theorem raisedFor_cons (i : LedString) : raisedFor k f (i :: is) s = raisedFor k f is (raiseIf (f i) k s) := rfl

/-- R174: raises reach the outbox and WAKE alone. -/
theorem raisedFor_frame :
    raisedFor k f is s = { s with slu := (raisedFor k f is s).slu } ∧ (raisedFor k f is s).slu.tx = s.slu.tx := by
  induction is generalizing s with
  | nil => exact ⟨rfl, rfl⟩
  | cons i is ih =>
    rw [raisedFor_cons]
    cases f i with
    | false => exact ih s
    | true =>
      obtain ⟨frame, tx⟩ := ih (raise k s)
      exact ⟨frame, tx.trans (raised_tx k s.slu)⟩

/-- R174: further raises do not take an entry below a count that it can hold. -/
theorem raisedFor_counts {n : Nat} (cap : n ≤ 255) (waits : n ≤ s.slu.outbox.get k) :
    n ≤ (raisedFor k f is s).slu.outbox.get k := by
  induction is generalizing s with
  | nil => exact waits
  | cons i is ih =>
    rw [raisedFor_cons]
    cases f i with
    | false => exact ih s waits
    | true => exact ih (raise k s) (raised_counts s.slu k k n cap waits)

/-- R119, R174: one string is enough to count the entry up. -/
theorem raisedFor_raises (mask : inMask s.slu.noticeMask k = true) {i : LedString} (member : i ∈ is) (holds : f i = true) :
    min 255 (s.slu.outbox.get k + 1) ≤ (raisedFor k f is s).slu.outbox.get k := by
  induction is with
  | nil => exact absurd member List.not_mem_nil
  | cons j is ih =>
    rw [raisedFor_cons]
    cases first : f j with
    | true => exact raisedFor_counts k f is (raise k s) (Nat.min_le_left ..) (SourcePaths.raised_get s.slu k mask).ge
    | false =>
      refine ih ((List.mem_cons.mp member).resolve_left ?_)
      rintro rfl
      exact Bool.false_ne_true (first.symm.trans holds)

end Raises

/-! ### One string (R116, R118) -/

section OneString

variable {r : StringRecord} {inForce : Nat} {x : StringReading}

/-- R116: what a reading counts for. -/
def faultOf (inForce : Nat) (x : StringReading) : CountedFault :=
  if x.current * 2 < inForce then .openCircuit else if 6000 < x.headroom then .short else .none

theorem measureString_counts (inForce : Nat) (x : StringReading) : (measureString inForce x).counts = faultOf inForce x := by
  unfold measureString faultOf Config.shortHeadroomMv
  split_ifs <;> rfl

theorem measureString_eq (inForce : Nat) (x : StringReading) :
    measureString inForce x =
      if faultOf inForce x = .openCircuit then .openCircuit
      else if faultOf inForce x = .short then .short else .regulating := by
  unfold measureString faultOf Config.shortHeadroomMv
  split_ifs <;> trivial

/-- R118: a run of three faults of one kind; no fault makes no run. -/
theorem confirmedState_eq (r : StringRecord) (f : CountedFault) :
    confirmedState f (nextFaultCount r f) =
      if nextFaultCount r f < 3 then .enabled else if f = .openCircuit then .faultOpen else .faultShort := by
  unfold confirmedState Config.stringFaultCount
  cases f <;> rfl

theorem confirmedState_cases (f : CountedFault) (n : Nat) :
    confirmedState f n = .enabled ∨ confirmedState f n = .faultOpen ∨ confirmedState f n = .faultShort := by
  unfold confirmedState
  cases f <;> split <;> simp

theorem measurable_iff : r.measurable = true ↔ r.state = .enabled ∧ r.driven = true := by
  simp [StringRecord.measurable]

/-- R116, log entry 42: a string that is not ENABLED, or was not driven, is left alone. -/
theorem measuredAs_skips (out : r.state ≠ .enabled ∨ r.driven = false) : r.measuredAs inForce x = r := by
  refine if_neg fun measurable => ?_
  obtain ⟨enabled, driven⟩ := measurable_iff.mp measurable
  exact out.elim (· enabled) fun off => Bool.false_ne_true (off.symm.trans driven)

/-- R116, R118: the record of a string that is measured. -/
theorem measuredAs_measures (enabled : r.state = .enabled) (driven : r.driven = true) :
    r.measuredAs inForce x =
      { r with
        meas := measureString inForce x, counted := faultOf inForce x
        count := nextFaultCount r (faultOf inForce x), current := x.current, headroom := x.headroom
        state := confirmedState (faultOf inForce x) (nextFaultCount r (faultOf inForce x)) } := by
  rw [← measureString_counts]
  exact if_pos (measurable_iff.mpr ⟨enabled, driven⟩)

/-- R118: a reading that confirms a fault leaves the string in it. -/
theorem measuredAs_confirms (confirms : r.confirms inForce x = true) :
    (r.measuredAs inForce x).state = .faultOpen ∨ (r.measuredAs inForce x).state = .faultShort := by
  obtain ⟨enabled, driven, -⟩ := (confirms_iff ..).mp confirms
  have left : (r.measuredAs inForce x).state ≠ .enabled := by
    simpa using (Bool.and_eq_true_iff.mp confirms).2
  rw [measuredAs_measures enabled driven] at left ⊢
  exact (confirmedState_cases ..).resolve_left left

end OneString

/-! ### The event (R116 to R119) -/

section Event

variable {delivered : Nat} {r : StringReadings} {s : State}

theorem measuredWith_get (l : Lmd) (r : StringReadings) (i : LedString) :
    (l.measuredWith r).strings.get i = (l.strings.get i).measuredAs l.inForce.current (readingOf r i) := by
  cases i <;> rfl

/-- The strings whose fault a measurement confirms. -/
def confirmed (l : Lmd) (r : StringReadings) (i : LedString) : Bool :=
  (l.strings.get i).confirms l.inForce.current (readingOf r i)

/-- R119: LAMP_FAULT is raised for each string confirmed. -/
theorem raiseLampFaults_eq (l : Lmd) (r : StringReadings) (s : State) :
    raiseLampFaults l r s = raisedFor .lampFault (confirmed l r) LedString.all s := rfl

/-- R116, R119: the state after a measured period, before the transmitter's choice. -/
def measuredState (r : StringReadings) (s : State) : State :=
  raisedFor .lampFault (confirmed s.lmd r) LedString.all { s with lmd := s.lmd.measuredWith r }

theorem exec_stringMeasurement (measures : s.lmd.measures delivered = true) :
    exec (.stringMeasurement delivered r) s = .next (arbitrate (measuredState r s)) := by
  simp only [exec, execStringMeasurement, stringMeasurement, measures, if_true, raiseLampFaults_eq]
  rfl

/-- R118: a STRING_FAULT_CONFIRM that confirms is the measurement. -/
theorem exec_stringFaultConfirm (confirms : confirmsFault delivered r s.lmd = true) :
    exec (.stringFaultConfirm delivered r) s = exec (.stringMeasurement delivered r) s := by
  simp only [exec, execStringFaultConfirm, confirms, if_true]
  rfl

/-- R116: a measurement changes the strings and the link. -/
theorem arbitrate_measuredState (r : StringReadings) (s : State) :
    arbitrate (measuredState r s) =
      { s with lmd := s.lmd.measuredWith r, slu := (arbitrate (measuredState r s)).slu } :=
  congrArg (fun v : State => { v with slu := (arbitrate (measuredState r s)).slu }) (raisedFor_frame ..).1

theorem measuredState_get (r : StringReadings) (s : State) (i : LedString) :
    (arbitrate (measuredState r s)).lmd.strings.get i =
      (s.lmd.strings.get i).measuredAs s.lmd.inForce.current (readingOf r i) := by
  rw [arbitrate_measuredState]
  exact measuredWith_get ..

/-- R119: a string that is confirmed raises LAMP_FAULT, which waits while the transmitter is busy. -/
theorem measuredState_raises (busy : s.slu.tx ≠ none) (mask : inMask s.slu.noticeMask .lampFault = true) {i : LedString}
    (confirms : confirmed s.lmd r i = true) :
    min 255 (s.slu.outbox.lampFault + 1) ≤ (arbitrate (measuredState r s)).slu.outbox.lampFault := by
  have tx : (measuredState r s).slu.tx = s.slu.tx := (raisedFor_frame ..).2
  rw [arbitrate_busy (by rwa [tx])]
  exact raisedFor_raises .lampFault _ LedString.all { s with lmd := s.lmd.measuredWith r } mask (by cases i <;> decide) confirms

end Event

/-- Settles O53: each string's record by what its reading counts for, and the run of three that confirms a fault. -/
theorem stringMeasurementConfirmsFaults : Obligations.StringMeasurementConfirmsFaults := by
  intro delivered r s
  refine ⟨fun measures => ?_, fun no idle => ?_, fun confirms => ?_, fun no => ?_, measures_iff .., confirmsFault_iff ..⟩
  · have frame := arbitrate_measuredState r s
    refine ⟨_, exec_stringMeasurement measures, ?_, fun i out => ?_, fun i enabled driven => ?_⟩
    · rw [frame]
      rfl
    · rw [measuredState_get, measuredAs_skips out]
    · rw [measuredState_get, measuredAs_measures enabled driven, measureString_eq, confirmedState_eq]
      rfl
  · simp only [exec, execStringMeasurement, stringMeasurement, no, Bool.false_eq_true, if_false, arbitrate_idle s idle]
  · obtain ⟨measures, i, enabled, driven, run⟩ := (confirmsFault_iff ..).mp confirms
    have confirmsHere : confirmed s.lmd r i = true := (confirms_iff ..).mpr ⟨enabled, driven, run⟩
    have executes := exec_stringMeasurement (r := r) measures
    have fault := measuredAs_confirms confirmsHere
    rw [← measuredState_get] at fault
    refine ⟨_, (exec_stringFaultConfirm confirms).trans executes, executes, ⟨i, enabled, fault, sinkCurrent_off ?_⟩,
      fun busy mask => measuredState_raises busy mask confirmsHere⟩
    rcases fault with fault | fault <;> rw [fault] <;> decide
  · simp only [exec, execStringFaultConfirm, no, Bool.false_eq_true, if_false]

end Sys2Proof.LampDriver

/-! ## SET_LAMP and LAMP_CLEAR (O54) -/

namespace Sys2Proof.LampDriver

open Sys2Proof.Machine Sys2Proof.Safety Sys2Proof.Snapshots

/-! ### Stored settings (R115, R120) -/

section Stored

variable {l : Lmd} {c : LampSettings}

/-- R115: a string's record after a change of the enable set. -/
theorem stored_string (l : Lmd) (c : LampSettings) (i : LedString) :
    (l.stored c).strings.get i =
      (l.strings.get i).enabledChanged (l.settings.enable.get i) (c.enable.get i) := by
  unfold Lmd.stored Lmd.putInForce
  dsimp only
  split_ifs <;> cases i <;> rfl

/-- R120: what stored settings never touch. -/
theorem stored_frame (l : Lmd) (c : LampSettings) :
    (l.stored c).settings = c ∧ (l.stored c).a = l.a ∧ (l.stored c).pwmPeriod = l.pwmPeriod ∧
      (l.stored c).internalInterval = l.internalInterval := by
  unfold Lmd.stored
  dsimp only
  split_ifs <;> exact ⟨rfl, rfl, rfl, rfl⟩

/-- R120: another K or I_max puts the drive for A in force at once. -/
theorem stored_newDrive (changed : c.crossover ≠ l.settings.crossover ∨ c.iMax ≠ l.settings.iMax) :
    (l.stored c).inForce = driveFor c l.a ∧ (l.stored c).staged = (l.stored c).inForce ∧
      (l.stored c).stagedPending = false := by
  unfold Lmd.stored
  dsimp only
  rw [if_pos changed]
  split_ifs <;> exact ⟨rfl, rfl, rfl⟩

theorem stored_sameDrive (crossover : c.crossover = l.settings.crossover) (iMax : c.iMax = l.settings.iMax) :
    (l.stored c).inForce = l.inForce ∧ (l.stored c).staged = l.staged := by
  have same : ¬(c.crossover ≠ l.settings.crossover ∨ c.iMax ≠ l.settings.iMax) := fun changed =>
    changed.elim (· crossover) (· iMax)
  unfold Lmd.stored
  dsimp only
  rw [if_neg same]
  split_ifs <;> exact ⟨rfl, rfl⟩

/-- R120: another multiple restarts the free-run count, in FREE_RUN alone. -/
theorem stored_freeCount (l : Lmd) (c : LampSettings) :
    (l.stored c).freeCount = (if c.multiple ≠ l.settings.multiple ∧ l.locked = false then 0 else l.freeCount) ∧
      (l.stored c).internalNext =
        (if c.multiple ≠ l.settings.multiple ∧ l.locked = false then true else l.internalNext) := by
  unfold Lmd.stored
  dsimp only
  split_ifs <;> exact ⟨rfl, rfl⟩

end Stored

theorem setLamp_allowed {p : List Byte} (len : p.length = 9) : lengthAllowed .setLamp p = true := by
  simp [lengthAllowed, len, Config.maxPayload]

/-- R120, R170: SET_LAMP stores, and answers with the settings stored. -/
theorem exec_setLamp (tag : Byte) {p : List Byte} {a : LampSettings} {s : State} (h : Ready s) (len : p.length = 9)
    (args : lampArgs p = some a) :
    exec (.setLamp tag p) s =
      .next
        (replied { heard s with lmd := s.lmd.stored a.clamped }
          (replyOf .setLamp tag (if a.clamped = a then .ok else .adjusted) (lampSettingsBytes a.clamped))) := by
  refine (exec_ready .setLamp tag p s h (setLamp_allowed len)).trans (congrArg _ ?_)
  have settings : ((heard s).lmd.stored a.clamped).settings = a.clamped := (stored_frame ..).1
  simp only [handleOwned, handleSetLamp, args]
  rw [LightSide.okOr_bne, settings]
  exact arbitrate_answer .setLamp tag _ _ { heard s with lmd := _ } h.transmitter

/-! ### LAMP_CLEAR (R121) -/

theorem clearStrings_get (m : PerString Bool) (l : Lmd) (i : LedString) :
    (l.clearStrings m).strings.get i = if m.get i then (l.strings.get i).cleared else l.strings.get i := by
  cases i <;> rfl

/-- R121: the readings stay, and the run of faults ends. -/
theorem cleared_counts (r : StringRecord) :
    r.cleared.count = 0 ∧ r.cleared.counted = .none ∧ r.cleared.current = r.current ∧ r.cleared.headroom = r.headroom := by
  unfold StringRecord.cleared
  split <;> exact ⟨rfl, rfl, rfl, rfl⟩

/-- R121: a faulted string returns to ENABLED. -/
theorem cleared_faulted {r : StringRecord} (faulted : r.state = .faultOpen ∨ r.state = .faultShort) :
    r.cleared.state = .enabled ∧ r.cleared.meas = .notMeasured := by
  unfold StringRecord.cleared
  rcases faulted with state | state <;> rw [state] <;> exact ⟨rfl, rfl⟩

theorem cleared_other {r : StringRecord} (other : r.state = .enabled ∨ r.state = .disabled) :
    r.cleared.state = r.state ∧ r.cleared.meas = r.meas := by
  unfold StringRecord.cleared
  rcases other with state | state <;> simp only [state] <;> exact ⟨trivial, trivial⟩

theorem lampClear_allowed {p : List Byte} (len : p.length = 1) : lengthAllowed .lampClear p = true := by
  simp [lengthAllowed, len, Config.maxPayload]

/-- R121, R170: LAMP_CLEAR clears the members, and answers with the lowest member's record. -/
theorem exec_lampClear (tag : Byte) {p : List Byte} {m : PerString Bool} {s : State} (h : Ready s) (len : p.length = 1)
    (args : stringSet (at8 p 0) = some m) :
    exec (.lampClear tag p) s =
      .next
        (replied { heard s with lmd := s.lmd.clearStrings m }
          (replyOf .lampClear tag .ok (stringBytes (s.lmd.clearStrings m) (lowestString m)))) := by
  refine (exec_ready .lampClear tag p s h (lampClear_allowed len)).trans (congrArg _ ?_)
  simp only [handleOwned, handleLampClear, args]
  exact arbitrate_answer .lampClear tag _ _ { heard s with lmd := _ } h.transmitter

/-- Settles O54, by the two answers of each request. -/
theorem lampRequestsAct : Obligations.LampRequestsAct := by
  intro tag p s h
  refine ⟨fun a len args => ?_, fun len none => ?_, fun m len args => ?_, fun len none => ?_⟩
  · obtain ⟨settings, level, period, interval⟩ := stored_frame s.lmd a.clamped
    obtain ⟨count, next⟩ := stored_freeCount s.lmd a.clamped
    refine ⟨_, exec_setLamp tag h len args, rfl, settings, level, fun i same => ?_, fun i differs => ?_, stored_newDrive,
      stored_sameDrive, period, interval, fun kept => ?_, fun differs free => ?_⟩
    · exact (stored_string ..).trans (if_pos same.symm)
    · exact (stored_string ..).trans (if_neg differs.symm)
    · have kept : ¬(a.clamped.multiple ≠ s.lmd.settings.multiple ∧ s.lmd.locked = false) := fun ⟨differs, free⟩ =>
        kept.elim differs fun locked => Bool.false_ne_true (free.symm.trans locked)
      exact ⟨count.trans (if_neg kept), next.trans (if_neg kept)⟩
    · exact ⟨count.trans (if_pos ⟨differs, free⟩), next.trans (if_pos ⟨differs, free⟩)⟩
  · refine exec_answers .setLamp h (setLamp_allowed len) ?_
    simp only [handleOwned, handleSetLamp, none]
    rfl
  · refine ⟨_, exec_lampClear tag h len args, rfl, fun i out => ?_, fun i member => ?_⟩
    · exact (clearStrings_get ..).trans (if_neg (by simp [out]))
    · obtain ⟨count, counted, current, headroom⟩ := cleared_counts (s.lmd.strings.get i)
      have cleared : (s.lmd.clearStrings m).strings.get i = (s.lmd.strings.get i).cleared :=
        (clearStrings_get ..).trans (if_pos member)
      dsimp only
      rw [cleared]
      exact ⟨count, counted, current, headroom, cleared_faulted, cleared_other⟩
  · refine exec_answers .lampClear h (lampClear_allowed len) ?_
    simp only [handleOwned, handleLampClear, none]
    rfl

end Sys2Proof.LampDriver

/-! ## Every step keeps the laws of the motion side (O60) -/

namespace Sys2Proof.Motion

open Sys2Proof.Machine Sys2Proof.Safety Sys2Proof.SourcePaths Sys2Proof.SupplyLaws

/-! ### What the other blocks leave alone -/

/-- `t` has the motion port and the drop detector of `s`. -/
structure SameMotion (s t : State) : Prop where
  port : t.mpt = s.mpt
  detector : t.ddt = s.ddt

theorem SameMotion.refl (s : State) : SameMotion s s := ⟨rfl, rfl⟩

theorem SameMotion.trans {s t u : State} (h : SameMotion s t) (g : SameMotion t u) : SameMotion s u :=
  ⟨g.port.trans h.port, g.detector.trans h.detector⟩

/-- A change of the other blocks and of the queue of commands. -/
theorem SameMotion.aside {s t : State} (h : SameMotion s t) {u : Slu} {c : Spc} {l : Ltc} {v : Scv} {e : Bre} {d : Lmd}
    {q : List Instr} :
    SameMotion s { t with slu := u, spc := c, ltc := l, scv := v, bre := e, lmd := d, pending := q } :=
  ⟨h.port, h.detector⟩

/-- The switchover logic, the latches and the examination of the triggers. -/
theorem sameMotion_reported {s t : State} (h : Reported s t) : SameMotion s t :=
  ⟨by rw [h.rest], by rw [h.rest]⟩

theorem sameMotion_settle (b : Bool) (s : State) : SameMotion s (settle b s) :=
  sameMotion_reported (kept_settle b s).toReported

/-- The end of an event of the supply. -/
theorem SameMotion.event {s t : State} (h : SameMotion s t) (b : Bool) : SameMotion s (arbitrate (settle b t)) :=
  (h.trans (sameMotion_settle b t)).aside

theorem sameMotion_raiseIf (b : Bool) (k : NoticeKind) (s : State) : SameMotion s (raiseIf b k s) := by
  cases b <;> exact ⟨rfl, rfl⟩

theorem sameMotion_answerConvert (st : Status) (c : Channel) (s : State) : SameMotion s (answerConvert st c s) := by
  unfold answerConvert
  split <;> exact ⟨rfl, rfl⟩

/-- R1: the measurements of a sample, its protection and its end. -/
theorem sameMotion_sample (r : Readings) (s : State) : SameMotion s (arbitrate (monitorSample r s)) := by
  obtain ⟨-, -, port, detector⟩ := (stored_sampled r s).rest
  have after := (guarded_sampleEnd r s).rest
  exact ⟨by rw [after]; exact port, by rw [after]; exact detector⟩

theorem sameMotion_blankingEnd (p : Source) (s : State) : SameMotion s (blankingEnd p s) := by
  unfold blankingEnd
  split
  · have after := (guarded_tripAndReport p .inrush s).rest
    exact ⟨by rw [after], by rw [after]⟩
  · exact (SameMotion.refl s).aside.trans (sameMotion_reported (reported_pathClosed _ _))

theorem sameMotion_releaseRequest (bay : Bay) (o : Origin) (s : State) : SameMotion s (releaseRequest bay o s) := by
  unfold releaseRequest
  cases (s.latch bay).release with
  | idle =>
    exact (SameMotion.refl s).aside.trans
      (sameMotion_reported ((calm_examineHeld (pendRelease bay o s)).toKept.trans (kept_evaluate _ _)).toReported)
  | pending | granted => exact ⟨rfl, rfl⟩

/-- R65, R66: the readers of a channel's record. -/
theorem sameMotion_published (c : Channel) (stored : Bool) (s : State) :
    SameMotion s (publishChannel c stored s) ∧ SameMotion s (publishStale c s) := by
  cases c with
  | alsFront | alsRear | thPanel => exact ⟨⟨rfl, rfl⟩, ⟨rfl, rfl⟩⟩
  | thBayA | thBayB => exact ⟨sameMotion_settle _ _, sameMotion_settle _ _⟩

theorem sameMotion_finishOneShot (c : Channel) (s : State) : SameMotion s (finishOneShot c s) := by
  unfold finishOneShot
  split
  · exact (SameMotion.refl s).aside.trans (sameMotion_answerConvert _ _ _)
  · exact .refl s
  · exact .refl s

theorem sameMotion_conversion (c : Channel) (stored : Bool) (r : ChannelRecord) (s : State) :
    SameMotion s (arbitrate (conversionEnd c stored r s)) := by
  have result : SameMotion s (if discards s.scv then s else storeResult c stored r s) := by
    split
    · exact .refl s
    · exact ((SameMotion.refl s).aside.trans (sameMotion_raiseIf _ _ (s.setChannel c r))).trans
        (sameMotion_published c stored _).1
  exact (result.trans (sameMotion_finishOneShot c _)).aside

theorem sameMotion_measurement (delivered : Nat) (r : StringReadings) (s : State) :
    SameMotion s (arbitrate (stringMeasurement delivered r s)) := by
  unfold stringMeasurement raiseLampFaults
  refine SameMotion.aside ?_
  split
  · exact ((((SameMotion.refl s).aside.trans (sameMotion_raiseIf _ _ _)).trans (sameMotion_raiseIf _ _ _)).trans
      (sameMotion_raiseIf _ _ _)).trans (sameMotion_raiseIf _ _ _)
  · exact .refl s

/-! ### The requests of the other blocks -/

/-- The requests that act on the motion port or the drop detector. -/
def actsOnMotion (k : ReqKind) : Bool :=
  match k with
  | .setMotion | .readDrop | .eraseDrops | .reset => true
  | _ => false

theorem sameMotion_setPath (tag : Byte) (p : List Byte) (s : State) : SameMotion s (handleSetPath tag p s) := by
  unfold handleSetPath
  split
  · exact ⟨rfl, rfl⟩
  · rename_i a _
    split
    · exact ⟨rfl, rfl⟩
    · have stored : SameMotion s (onMembers a.members (changePath fun q r => r.stored (a.stored q)) s) :=
        onMembers_keeps _ _ (fun _ _ h => h.aside) (.refl s)
      exact (stored.trans (sameMotion_settle false _)).aside

theorem sameMotion_getPath (tag : Byte) (p : List Byte) (s : State) : SameMotion s (handleGetPath tag p s) := by
  unfold handleGetPath
  split
  · exact ⟨rfl, rfl⟩
  · refine SameMotion.aside (t := readPath _ s) ?_
    unfold readPath
    dsimp only
    split
    · exact ⟨rfl, rfl⟩
    · exact (SameMotion.refl s).aside.trans (sameMotion_settle _ _)

theorem sameMotion_clearPath (tag : Byte) (p : List Byte) (s : State) : SameMotion s (handleClearPath tag p s) := by
  unfold handleClearPath
  split
  · exact ⟨rfl, rfl⟩
  · rename_i m _
    have cleared : SameMotion s (onMembers m (changePath fun _ r => r.cleared) s) :=
      onMembers_keeps _ _ (fun _ _ h => h.aside) (.refl s)
    exact (cleared.trans (sameMotion_settle false _)).aside

theorem sameMotion_selectSource (tag : Byte) (p : List Byte) (s : State) : SameMotion s (handleSelectSource tag p s) := by
  unfold handleSelectSource
  split
  · exact ⟨rfl, rfl⟩
  · split
    · exact ⟨rfl, rfl⟩
    · split
      · exact ⟨rfl, rfl⟩
      · exact (SameMotion.refl s).aside.trans
          (sameMotion_reported ((calm_startSwitchover _ _ _ _ _).toKept.trans (kept_settle false _)).toReported)

theorem sameMotion_releaseBay (tag : Byte) (p : List Byte) (s : State) : SameMotion s (handleReleaseBay tag p s) := by
  unfold handleReleaseBay
  split
  · exact ⟨rfl, rfl⟩
  · split
    · exact ⟨rfl, rfl⟩
    · split
      · exact (sameMotion_releaseRequest _ _ s).aside
      · exact ((SameMotion.refl s).aside.trans (sameMotion_releaseRequest _ _ (oweRelease tag _ s))).trans
          (sameMotion_settle _ _)

theorem sameMotion_handled (k : ReqKind) (other : actsOnMotion k = false) (tag : Byte) (p : List Byte) (s : State) :
    SameMotion s (handleOwned k tag p s) := by
  cases k with
  | setMotion | readDrop | eraseDrops | reset => cases other
  | getSupply | getSense | getBrightness | getMotion | getStatus | getIdent => exact ⟨rfl, rfl⟩
  | setPath => exact sameMotion_setPath tag p s
  | getPath => exact sameMotion_getPath tag p s
  | clearPath => exact sameMotion_clearPath tag p s
  | setSupply =>
    unfold handleOwned handleSetSupply
    dsimp only
    split
    · exact ⟨rfl, rfl⟩
    · exact ((SameMotion.refl s).aside.trans (sameMotion_settle false _)).aside
  | selectSource => exact sameMotion_selectSource tag p s
  | packInfo =>
    unfold handleOwned handlePackInfo
    dsimp only
    split
    · exact ⟨rfl, rfl⟩
    · split
      · exact ⟨rfl, rfl⟩
      · exact ((SameMotion.refl s).aside.trans (sameMotion_settle false _)).aside
  | releaseBay => exact sameMotion_releaseBay tag p s
  | getLatch =>
    unfold handleOwned handleGetLatch
    dsimp only
    split <;> exact ⟨rfl, rfl⟩
  | setSense =>
    unfold handleOwned handleSetSense
    dsimp only
    split <;> exact ⟨rfl, rfl⟩
  | loadThermistor =>
    unfold handleOwned handleLoadThermistor
    dsimp only
    split <;> exact ⟨rfl, rfl⟩
  | convertNow =>
    unfold handleOwned handleConvertNow
    dsimp only
    split
    · exact ⟨rfl, rfl⟩
    · split
      · exact ⟨rfl, rfl⟩
      · split <;> exact ⟨rfl, rfl⟩
  | setBrightness =>
    unfold handleOwned handleSetBrightness
    dsimp only
    split <;> exact ⟨rfl, rfl⟩
  | loadCurve =>
    unfold handleOwned handleLoadCurve
    dsimp only
    split <;> exact ⟨rfl, rfl⟩
  | setLamp =>
    unfold handleOwned handleSetLamp
    dsimp only
    split <;> exact ⟨rfl, rfl⟩
  | getLamp =>
    unfold handleOwned handleGetLamp
    dsimp only
    split <;> exact ⟨rfl, rfl⟩
  | lampClear =>
    unfold handleOwned handleLampClear
    dsimp only
    split <;> exact ⟨rfl, rfl⟩
  | setPlatform =>
    unfold handleOwned handleSetPlatform publishPlatform
    dsimp only
    split
    · split <;> exact ⟨rfl, rfl⟩
    · exact ⟨rfl, rfl⟩
    · exact ⟨rfl, rfl⟩
  | setNoticeMask =>
    unfold handleOwned handleSetNoticeMask
    dsimp only
    split <;> exact ⟨rfl, rfl⟩

/-! ### The law of the motion side -/

/-- R132, R133, R135, R148, R154: the records and the port are within their laws. -/
structure MotionOk (s : State) : Prop where
  records : RecordsOk s.ddt
  port : PortOk s.mpt

theorem SameMotion.keeps {s t : State} (same : SameMotion s t) (h : MotionOk s) : MotionOk t :=
  ⟨same.detector ▸ h.records, same.port ▸ h.port⟩

/-- R125, R126: a port law does not speak of the transfer. -/
theorem motionOk_transfer {s : State} (x : Transfer) (h : MotionOk s) :
    MotionOk { s with mpt := { s.mpt with transfer := x } } :=
  ⟨h.records, ⟨h.port.ring, h.port.history, h.port.rejectedRun, h.port.recoveryRun⟩⟩

theorem motionOk_powerOn (btnA btnB : Bool) (lsnsA lsnsB : LatchPos) (pending : List Instr) :
    MotionOk (.powerOn btnA btnB lsnsA lsnsB pending) :=
  ⟨recordsOk_reset, SourcePaths.portOk_reset⟩

/-! #### The requests -/

/-- R136, R158: SET_MOTION stores settings, and a new rate empties the port. -/
theorem motionOk_setMotion {s : State} (tag : Byte) (p : List Byte) (h : MotionOk s) : MotionOk (handleSetMotion tag p s) := by
  unfold handleSetMotion
  split
  · exact ⟨h.records, h.port⟩
  · rename_i rate a _
    split
    · exact ⟨h.records, h.port⟩
    · have records : RecordsOk (s.ddt.stored a.clamped) :=
        recordsOk_of _ (tableOk_same (tableOk_of _ h.records) rfl rfl rfl) h.records.still
      have port : PortOk (s.mpt.stored rate) := by
        unfold Mpt.stored
        split
        · exact h.port
        · exact portOk_rateChanged _ _
      have stored : MotionOk { s with mpt := s.mpt.stored rate, ddt := s.ddt.stored a.clamped } := ⟨records, port⟩
      exact (sameMotion_raiseIf _ _ _).aside.keeps stored

/-- R156: a read flag is no sequence number. -/
theorem recordsOk_markRead {d : Ddt} (n : Nat) (h : RecordsOk d) : RecordsOk { d with table := markRead n d.table } := by
  have same := markRead_sequences n d.table
  have below : ∀ x, (∀ r ∈ d.table, r.core.sequence < x) → ∀ r ∈ markRead n d.table, r.core.sequence < x := by
    intro x lower r member
    have listed : r.core.sequence ∈ (markRead n d.table).map (fun r => r.core.sequence) := List.mem_map_of_mem member
    rw [same] at listed
    obtain ⟨q, old, e⟩ := List.mem_map.mp listed
    exact e ▸ lower q old
  exact {
    count := by simpa only [markRead, List.length_map] using h.count
    ascending := by
      show ((markRead n d.table).map _).Pairwise _
      rw [same]
      exact h.ascending
    closed := below _ h.closed
    inProgress := fun o held => ⟨(h.inProgress o held).1, below _ (h.inProgress o held).2⟩
    still := h.still }

theorem motionOk_readDrop {s : State} (tag : Byte) (p : List Byte) (h : MotionOk s) : MotionOk (handleReadDrop tag p s) := by
  unfold handleReadDrop
  split
  · exact ⟨h.records, h.port⟩
  · exact ⟨recordsOk_markRead _ h.records, h.port⟩

/-- R157: the emptied table. -/
theorem recordsOk_erased {d : Ddt} (h : RecordsOk d) : RecordsOk { d with table := [] } where
  count := Nat.zero_le _
  ascending := List.Pairwise.nil
  closed := fun _ member => absurd member List.not_mem_nil
  inProgress := fun o held => ⟨(h.inProgress o held).1, fun _ member => absurd member List.not_mem_nil⟩
  still := h.still

/-- R161: RESET keeps the closed records and drops the one in progress. -/
theorem recordsOk_resetDetector {d : Ddt} (h : RecordsOk d) : RecordsOk d.reset where
  count := h.count
  ascending := h.ascending
  closed := h.closed
  inProgress := fun _ held => nomatch held
  still := fun _ => rfl

theorem sameMotion_examineReset (s : State) : SameMotion s (examineReset s) := by
  unfold examineReset examineHeldWith updatePreempt
  split
  · exact ⟨rfl, rfl⟩
  · split
    · split
      · exact ⟨rfl, rfl⟩
      · unfold markSole
        split <;> exact ⟨rfl, rfl⟩
    · exact ⟨rfl, rfl⟩

theorem sameMotion_cancelOwed (oneShot : Option Channel) (s : State) : SameMotion s (cancelOwed oneShot s) := by
  have releases := sameMotion_reported
    ((kept_answerRelease .a .cancelled none s).trans (kept_answerRelease .b .cancelled none _)).toReported
  unfold cancelOwed
  cases oneShot with
  | none => exact releases
  | some c => exact releases.trans (sameMotion_answerConvert _ _ _)

/-- R138, R161, R183: RESET resets both blocks; the rest of it is the supply's and the link's. -/
theorem motionOk_resetRequest {s : State} (tag : Byte) (p : List Byte) (h : MotionOk s) : MotionOk (handleReset tag p s) := by
  unfold handleReset
  split
  · exact ⟨h.records, h.port⟩
  · have blocks : MotionOk (resetBlocks s) := ⟨recordsOk_resetDetector h.records, Machine.portOk_reset _ h.port⟩
    have examined := (sameMotion_reported (calm_publishSituation (resetBlocks s)).toReported).trans (sameMotion_examineReset _)
    exact (examined.trans (sameMotion_cancelOwed _ _)).aside.keeps blocks

theorem motionOk_handled {s : State} (k : ReqKind) (tag : Byte) (p : List Byte) (h : MotionOk s) :
    MotionOk (handleOwned k tag p s) := by
  cases acts : actsOnMotion k
  · exact (sameMotion_handled k acts tag p s).keeps h
  · cases k with
    | setMotion => exact motionOk_setMotion tag p h
    | readDrop => exact motionOk_readDrop tag p h
    | eraseDrops => exact ⟨recordsOk_erased h.records, h.port⟩
    | reset => exact motionOk_resetRequest tag p h
    | _ => cases acts

/-! #### The link -/

theorem motionOk_dispatch {s : State} (h : MotionOk s) : MotionOk (dispatchOne s) := by
  unfold dispatchOne
  split
  · exact h
  · rename_i r rest _
    have taken : MotionOk { s with slu := { s.slu with queue := rest } } := ⟨h.records, h.port⟩
    unfold handleRequest
    split
    · exact ⟨h.records, h.port⟩
    · split
      · exact motionOk_handled _ _ _ taken
      · exact ⟨h.records, h.port⟩

theorem motionOk_finishLink {s : State} (before : State) (h : MotionOk s) : MotionOk (finishLink before s) := by
  have chosen : MotionOk (arbitrate s) := ⟨h.records, h.port⟩
  unfold finishLink
  dsimp only
  split
  · exact (SameMotion.refl _).aside.keeps (motionOk_dispatch chosen)
  · exact chosen

theorem sameMotion_offerRequest (r : Request) (s : State) : SameMotion s (offerRequest r s) := by
  unfold offerRequest
  split
  · exact ⟨rfl, rfl⟩
  · split <;> exact ⟨rfl, rfl⟩

theorem motionOk_receiveRequest {s : State} (r : Request) (h : MotionOk s) : MotionOk (receiveRequest r s) :=
  motionOk_finishLink s (((SameMotion.refl s).aside.trans (sameMotion_offerRequest r _)).keeps h)

theorem motionOk_takeReceived {s : State} (r : Received) (h : MotionOk s) : MotionOk (takeReceived r s) := by
  cases r with
  | goOn | discarded => exact ⟨h.records, h.port⟩
  | frame r => exact motionOk_finishLink s (((SameMotion.refl s).aside.trans (sameMotion_offerRequest r _)).keeps h)

theorem motionOk_rxFrame {s : State} (check : Byte) (stop : Bool) (h : MotionOk s) :
    Leads MotionOk (execRxFrame check stop s) := by
  unfold execRxFrame
  split
  · exact leads_next (motionOk_takeReceived _ h)
  all_goals exact leads_next h

/-! #### The frames -/

/-- R130: a frame takes the port and then the detector to their next values. -/
theorem motionOk_frameEnd {s : State} (f : AccelFrame) (h : MotionOk s) : MotionOk (frameEnd f s) := by
  unfold frameEnd
  split
  · exact h
  · exact motionOk_transfer .idle h
  · obtain ⟨port, detector⟩ := frameTaken_motion f s
    refine ⟨?_, ?_⟩
    · show RecordsOk (frameTaken f s).ddt
      rw [detector]
      exact recordsOk_ddtStep _ _ _ h.records
    · show PortOk (frameTaken f s).mpt
      rw [port]
      exact portOk_frameTaken _ _ h.port

theorem motionOk_frameEndWith {s : State} (e : MotionEvent) (f : AccelFrame) (h : MotionOk s) :
    MotionOk (frameEndWith e f s) := by
  unfold frameEndWith
  split
  · exact motionOk_frameEnd f h
  · exact h

/-! #### Every command -/

/-- An event that changes nothing when its condition does not hold. -/
theorem motionOk_ite {s t : State} {c : Prop} [Decidable c] (h : MotionOk s) (acts : MotionOk t) :
    Leads MotionOk (if c then .next t else .next s) :=
  leads_ite (fun _ => leads_next acts) fun _ => leads_next h

theorem motionOk_conversionEnds {s : State} (h : MotionOk s) :
    (∀ edges, Leads MotionOk (execLightConversionEnd edges s)) ∧
      (∀ count, Leads MotionOk (execThermistorConversionEnd count s)) ∧ Leads MotionOk (execThermistorTimeout s) := by
  have ended : ∀ c stored r, Leads MotionOk (.next (arbitrate (conversionEnd c stored r s))) := fun c stored r =>
    leads_next ((sameMotion_conversion c stored r s).keeps h)
  refine ⟨fun edges => ?_, fun count => ?_, ?_⟩
  · unfold execLightConversionEnd
    split
    · exact ended _ _ _
    · exact leads_next h
  · unfold execThermistorConversionEnd
    split
    · exact ended _ _ _
    · exact leads_next h
  · unfold execThermistorTimeout
    split
    · exact ended _ _ _
    · exact leads_next h

theorem motionOk_exec {s : State} (c : Instr) (h : MotionOk s) : Leads MotionOk (exec c s) := by
  have aside : ∀ t, SameMotion s t → MotionOk t := fun t same => same.keeps h
  obtain ⟨lightEnd, thermistorEnd, timeout⟩ := motionOk_conversionEnds h
  cases c with
  | powerOnReset => exact leads_next (motionOk_powerOn ..)
  -- The link.
  | rxFrame check stop => exact motionOk_rxFrame check stop h
  | rxCharacter char stop => exact leads_next (motionOk_takeReceived _ h)
  | frameGapTimeout => exact leads_next (aside _ ⟨rfl, rfl⟩)
  | lineBreak => exact leads_ite (fun _ => leads_next h) fun _ => leads_next (aside _ ⟨rfl, rfl⟩)
  | breakEnd => exact motionOk_ite h (aside _ ⟨rfl, rfl⟩)
  | requestDispatch => exact motionOk_ite h ((SameMotion.refl _).aside.keeps (motionOk_dispatch h))
  | txFrameEnd => exact motionOk_ite h (motionOk_finishLink s (aside _ ⟨rfl, rfl⟩))
  -- The requests.
  | setPath tag p | getPath tag p | clearPath tag p | setSupply tag p | getSupply tag p | selectSource tag p
  | packInfo tag p | releaseBay tag p | getLatch tag p | setSense tag p | getSense tag p | loadThermistor tag p
  | convertNow tag p | setBrightness tag p | getBrightness tag p | loadCurve tag p | setLamp tag p | getLamp tag p
  | lampClear tag p | setMotion tag p | getMotion tag p | readDrop tag p | eraseDrops tag p | setPlatform tag p
  | setNoticeMask tag p | getStatus tag p | getIdent tag p | resetRequest tag p => exact leads_next (motionOk_receiveRequest _ h)
  -- The source paths and the supply.
  | monitorSample r => exact leads_next (aside _ (sameMotion_sample r s))
  | lossDeclared r | busLowActivate r => exact motionOk_ite h (aside _ (sameMotion_sample r s))
  | blankingEnd p => exact motionOk_ite h (aside _ ((sameMotion_blankingEnd p s).event false))
  | goodCloseInterval p => exact motionOk_ite h (aside _ ⟨rfl, rfl⟩)
  | emptyTimerExpiry _ | retryTimerExpiry _ | startUpIntervalEnd | preemptionTimerExpiry _ | busLowRecovery =>
    exact motionOk_ite h (aside _ ((SameMotion.refl s).aside.event false))
  | deadTimeExpiry => exact motionOk_ite h (aside _ ((sameMotion_reported (reported_deadTimeExpiry s)).event false))
  | overlapTimerExpiry => exact motionOk_ite h (aside _ ((sameMotion_reported (reported_overlapExpiry s)).event false))
  -- The bay latches.
  | buttonPress bay =>
    exact motionOk_ite h
      (aside _ (((SameMotion.refl s).aside.trans (sameMotion_releaseRequest bay .button _)).event false))
  | buttonInactive _ | latchSenseChange _ _ => exact leads_next (aside _ ⟨rfl, rfl⟩)
  | releaseWindowExpiry bay =>
    exact motionOk_ite h (aside _ ((sameMotion_reported (kept_endWindow bay .expired s).toReported).event true))
  | latchFaultTimerExpiry bay => exact motionOk_ite h (aside _ ((SameMotion.refl s).aside.event false))
  | latchStuckTimerExpiry bay => exact motionOk_ite h (aside _ ⟨rfl, rfl⟩)
  -- The sense converter.
  | lightConversionEnd edges => exact lightEnd edges
  | thermistorConversionEnd count => exact thermistorEnd count
  | thermistorTimeout => exact timeout
  | channelStale c =>
    have published := (sameMotion_published c false (raise .senseFault (s.setChannel c (s.scv.records.get c).staled))).2
    exact motionOk_ite h (aside _ ((SameMotion.refl s).aside.trans published).aside)
  -- The lamp driver.
  | frameStart _ | frameTimeout | periodStart => exact leads_next (aside _ ⟨rfl, rfl⟩)
  | stringMeasurement delivered r => exact leads_next (aside _ (sameMotion_measurement delivered r s))
  | stringFaultConfirm delivered r => exact motionOk_ite h (aside _ (sameMotion_measurement delivered r s))
  -- The motion port and the drop detector.
  | sampleEvent => exact motionOk_ite h (motionOk_transfer .inFlight h)
  | frameEnd f => exact leads_next (motionOk_frameEnd f h)
  | linkLostEntry f | linkRecovery f | fallQualified f | softLanding f | fallTimeout f | impactExit f | settled f
  | settleTimeout f | blindHoldEnd f | traceFreeze f => exact leads_next (motionOk_frameEndWith _ f h)

/-- Settles O60, command by command: only the frames, SET_MOTION, READ_DROP, ERASE_DROPS and the two resets touch what the law
speaks of. -/
theorem stepKeepsMotionLaws : Obligations.StepKeepsMotionLaws := by
  intro s t ⟨records, port⟩ steps
  have kept : MotionOk t := by
    unfold step at steps
    split at steps
    · exact Host.Outcome.next.inj steps ▸ ⟨records, port⟩
    · rename_i rest _
      exact motionOk_exec (s := { s with pending := rest }) _ ⟨records, port⟩ t steps
  exact ⟨kept.records, kept.port⟩

end Sys2Proof.Motion

/-! ## SET_MOTION (O57) -/

namespace Sys2Proof.Motion

open Sys2Proof.Machine Sys2Proof.Safety Sys2Proof.SourcePaths Sys2Proof.Snapshots

/-- R174: a raise touches neither the replies nor the frame on SYS_TX, nor another kind's entry. -/
theorem raiseIf_link (b : Bool) (k : NoticeKind) (s : State) :
    (raiseIf b k s).slu.tx = s.slu.tx ∧ (raiseIf b k s).slu.fifo = s.slu.fifo ∧
      ∀ x, x ≠ k → (raiseIf b k s).slu.outbox.get x = s.slu.outbox.get x := by
  cases b
  · exact ⟨rfl, rfl, fun _ _ => rfl⟩
  · exact ⟨raised_tx .., raised_fifo .., fun x other => raised_other _ _ _ other⟩

theorem setMotion_allowed {p : List Byte} (len : p.length = 9) : lengthAllowed .setMotion p = true := by
  simp [lengthAllowed, len, Config.maxPayload]

section Stored

variable (tag : Byte) {p : List Byte} {rate : SampleRate} {a : MotionSettings} {s : State}

/-- R136, R158: the port and the detector with a rate and settings stored. -/
def motionStored (rate : SampleRate) (a : MotionSettings) (s : State) : State :=
  { s with mpt := s.mpt.stored rate, ddt := s.ddt.stored a }

/-- R134, R136: the event up to its reply: a rate change that ends LOST is reported. -/
def motionReported (rate : SampleRate) (a : MotionSettings) (s : State) : State :=
  raiseIf (rate != s.mpt.rate && s.mpt.link == .lost) .motionLink (motionStored rate a s)

theorem motionReported_frame (rate : SampleRate) (a : MotionSettings) (s : State) :
    let v := motionReported rate a s
    v.mpt = s.mpt.stored rate ∧ v.ddt = s.ddt.stored a ∧ v.spc = s.spc ∧ v.ltc = s.ltc ∧ v.scv = s.scv ∧ v.bre = s.bre ∧
      v.lmd = s.lmd := by
  unfold motionReported raiseIf
  split <;> exact ⟨rfl, rfl, rfl, rfl, rfl, rfl, rfl⟩

/-- R170: the reply shows the settings and the rate alone. -/
theorem motionSettingsBytes_reported (rate : SampleRate) (a : MotionSettings) (s : State) :
    motionSettingsBytes (motionReported rate a s) = motionSettingsBytes (motionStored rate a s) := by
  obtain ⟨port, detector, -⟩ := motionReported_frame rate a s
  unfold motionSettingsBytes
  rw [port, detector]
  rfl

/-- R136, R158, R170: SET_MOTION in STILL stores, and answers with the settings stored. -/
theorem exec_setMotion (h : Ready s) (len : p.length = 9) (args : motionArgs p = some (rate, a)) (still : s.ddt.phase = .still) :
    exec (.setMotion tag p) s =
      .next
        (arbitrate
          (answer tag .setMotion (if a.clamped = a then .ok else .adjusted)
            (motionSettingsBytes (motionStored rate a.clamped s)) (motionReported rate a.clamped (heard s)))) := by
  refine (exec_ready .setMotion tag p s h (setMotion_allowed len)).trans (congrArg _ ?_)
  have moving : ¬(heard s).ddt.phase ≠ .still := not_not.mpr still
  have bytes := motionSettingsBytes_reported rate a.clamped (heard s)
  simp only [handleOwned, handleSetMotion, args, if_neg moving, LightSide.okOr_bne]
  exact congrArg (fun b => arbitrate (answer tag .setMotion _ b (motionReported rate a.clamped (heard s)))) bytes

/-- R173, R176: the reply goes out at once, or joins the FIFO; a MOTION_LINK raised before it waits behind. -/
theorem setMotion_replies (h : Ready s) (st : Status) (res : List Byte) :
    MadeReply s (arbitrate (answer tag .setMotion st res (motionReported rate a (heard s))))
      (replyOf .setMotion tag st res) := by
  obtain ⟨tx, fifo, outbox⟩ :=
    raiseIf_link (rate != s.mpt.rate && s.mpt.link == .lost) .motionLink (motionStored rate a (heard s))
  refine madeReply_arbitrate h.transmitter tx (outbox .dropAlert (by decide)) ?_
  show _ <+: (motionReported rate a (heard s)).slu.fifo ++ [_]
  rw [show (motionReported rate a (heard s)).slu.fifo = s.slu.fifo from fifo]
  exact List.prefix_rfl

end Stored

/-- R136: a new rate empties the port. -/
theorem stored_newRate {m : Mpt} {rate : SampleRate} (new : rate ≠ m.rate) :
    m.stored rate =
      { m with
        rate := rate, transfer := if m.transfer = .inFlight then .discard else m.transfer, ring := []
        primed := false, lastCount := none, history := List.replicate 16 false, rejectedRun := 0, recoveryRun := 0
        counters := ⟨0, 0, 0, 0, 0, 0, 0, 0, 0, 0⟩, link := .ok } := by
  unfold Mpt.stored
  rw [if_neg new]
  rfl

/-- Settles O57, by the three answers of the request. -/
theorem setMotionStores : Obligations.SetMotionStores := by
  intro tag p s h len
  refine ⟨fun rate a args still => ?_, fun rate a args moving => ?_, fun none => ?_⟩
  · obtain ⟨port, detector, supply, latches, sense, light, lamp⟩ := motionReported_frame rate a.clamped (heard s)
    exact ⟨motionStored rate a.clamped s, _, exec_setMotion tag h len args still, rfl, port, detector, supply, latches, sense,
      light, lamp, fun same => if_pos same, fun new => stored_newRate new, setMotion_replies tag h _ _⟩
  · refine exec_answers .setMotion h (setMotion_allowed len) ?_
    simp only [handleOwned, handleSetMotion, args]
    exact if_pos moving
  · refine exec_answers .setMotion h (setMotion_allowed len) ?_
    simp only [handleOwned, handleSetMotion, none]
    rfl

end Sys2Proof.Motion

/-! ## The end of a transfer (O55) -/

namespace Sys2Proof.Motion

open Sys2Proof.Machine Sys2Proof.Safety Sys2Proof.SourcePaths

/-! ### What a frame end leaves alone -/

/-- What the event of a frame leaves alone: the queue of commands, the converter, the stored supply settings, the requests. -/
structure BesideFrame (s t : State) : Prop where
  pending : t.pending = s.pending
  sense : t.scv = s.scv
  settings : t.spc.settings = s.spc.settings
  queue : t.slu.queue = s.slu.queue

theorem BesideFrame.trans {s t u : State} (h : BesideFrame s t) (g : BesideFrame t u) : BesideFrame s u :=
  ⟨g.pending.trans h.pending, g.sense.trans h.sense, g.settings.trans h.settings, g.queue.trans h.queue⟩

theorem besideFrame_kept {s t : State} (h : Kept s t) : BesideFrame s t :=
  ⟨by rw [h.rest], by rw [h.rest], by rw [h.supply], by rw [h.link]⟩

theorem besideFrame_breMotion (hold : Bool) (s : State) : BesideFrame s (breMotion hold s) := ⟨rfl, rfl, rfl, rfl⟩

/-- R141: the publication of a phase. -/
theorem besideFrame_publishPhase (before after : MotionPhase) (s : State) : BesideFrame s (publishPhase before after s) := by
  unfold publishPhase motionLeft motionReturned
  split
  · exact ((besideFrame_kept ((kept_revokeBay .a s).trans (kept_revokeBay .b _))).trans (besideFrame_breMotion _ _)).trans
      (besideFrame_kept (kept_settle _ _))
  · split
    · exact (besideFrame_breMotion _ _).trans (besideFrame_kept (kept_settle _ _))
    · exact ⟨rfl, rfl, rfl, rfl⟩

theorem frameEnd_inFlight (f : AccelFrame) {s : State} (transfer : s.mpt.transfer = .inFlight) :
    frameEnd f s = arbitrate (frameTaken f s) := by
  unfold frameEnd
  rw [transfer]

theorem besideFrame_frameEnd (f : AccelFrame) {s : State} (transfer : s.mpt.transfer = .inFlight) :
    BesideFrame s (frameEnd f s) := by
  obtain ⟨o, w, raised, -⟩ := raiseMotion_slu (frameEvents f s) { s with mpt := s.mpt.frameTaken f, ddt := (ddtAfter f s).1 }
  have noted : BesideFrame s
      (raiseMotion (frameEvents f s) { s with mpt := s.mpt.frameTaken f, ddt := (ddtAfter f s).1 }) := by
    rw [raised]
    exact ⟨rfl, rfl, rfl, rfl⟩
  have taken : BesideFrame s (frameTaken f s) := noted.trans (besideFrame_publishPhase _ _ _)
  rw [frameEnd_inFlight f transfer]
  refine ⟨taken.pending, taken.sense, taken.settings, ?_⟩
  rw [arbitrate_slu, arbitrated_frame]
  exact taken.queue

/-- R130: the port and the detector after the end of a transfer. -/
theorem frameEnd_motion (f : AccelFrame) {s : State} (transfer : s.mpt.transfer = .inFlight) :
    (frameEnd f s).mpt = s.mpt.frameTaken f ∧ (frameEnd f s).ddt = (ddtAfter f s).1 := by
  rw [frameEnd_inFlight f transfer]
  exact frameTaken_motion f s

/-! ### The verdict on a frame (R127, R128) -/

section Verdict

variable {f : AccelFrame} {last : Option Nat}

theorem judge_checkFailed (bad : f.check ≠ frameCheck f) : judge last f = .checkFailed := if_pos bad

theorem judge_mbzFailed (good : f.check = frameCheck f) (mbz : f.status.getLsbD 0 = true) : judge last f = .mbzFailed := by
  unfold judge
  rw [if_neg (not_not.mpr good), if_pos mbz]

/-- R128: a flagged frame, or one with the count of the last, is taken and produces nothing of its own. -/
theorem judge_passedOver (good : f.check = frameCheck f) (clear : f.status.getLsbD 0 = false)
    (passed : f.status.getLsbD 1 = true ∨ f.status.getLsbD 2 = true ∨ last = some (frameCount f)) :
    (judge last f).rejected = false ∧ (judge last f).isAccepted = false := by
  unfold judge
  rw [if_neg (not_not.mpr good), if_neg (Bool.eq_false_iff.mp clear)]
  split
  · exact ⟨rfl, rfl⟩
  · rename_i unflagged
    have same : last = some (frameCount f) := by
      rcases passed with stale | test | same
      · exact absurd (by rw [flagSet, stale, Bool.or_true]) unflagged
      · exact absurd (by rw [flagSet, test, Bool.true_or]) unflagged
      · exact same
    rw [same]
    dsimp only
    rw [if_pos rfl]
    exact ⟨rfl, rfl⟩

/-- R128: any other frame is accepted, with a jump where its count does not follow the last. -/
theorem judge_taken (good : f.check = frameCheck f) (clear : f.status.getLsbD 0 = false) (fresh : f.status.getLsbD 1 = false)
    (live : f.status.getLsbD 2 = false) (new : last ≠ some (frameCount f)) :
    ∃ j, judge last f = .accepted j ∧ (j = true ↔ ∃ n, last = some n ∧ frameCount f ≠ (n + 1) % 16) := by
  unfold judge
  rw [if_neg (not_not.mpr good), if_neg (Bool.eq_false_iff.mp clear), if_neg (by rw [flagSet, fresh, live]; decide)]
  cases last with
  | none => exact ⟨false, rfl, by simp⟩
  | some n =>
    have differs : ¬frameCount f = n := fun same => new (by rw [same])
    exact ⟨_, if_neg differs, by simp⟩

theorem rejected_notAccepted {v : Verdict} (rejected : v.rejected = true) : v.isAccepted = false := by
  cases v with
  | checkFailed | mbzFailed => rfl
  | flagged | duplicate | accepted _ => cases rejected

/-- R129: a frame that is not accepted repeats the last values, on a primed port. -/
theorem producedSample_held {m : Mpt} (passed : (judge m.lastCount f).isAccepted = false) :
    producedSample m f = if m.primed then some (heldSample m.last) else none := by
  unfold producedSample
  cases v : judge m.lastCount f with
  | accepted j => rw [v] at passed; cases passed
  | checkFailed | mbzFailed | flagged | duplicate => rfl

theorem producedSample_taken {m : Mpt} {j : Bool} (accepted : judge m.lastCount f = .accepted j) :
    producedSample m f = some (frameSample f j) := by
  unfold producedSample
  rw [accepted]

end Verdict

/-! ### The magnitude that a sample leaves (R139) -/

theorem openRecord_lastM2 (d : Ddt) (c : MotionContext) (k : Option DropKind) (a : Option Attitude) (e : Sample) :
    (d.openRecord c k a e).lastM2 = d.lastM2 := by
  unfold Ddt.openRecord
  split <;> rfl

theorem stillStep_lastM2 (c : MotionContext) (m2 : Nat) (e : Sample) (d : Ddt) : (stillStep c m2 e d).1.lastM2 = d.lastM2 := by
  unfold stillStep
  dsimp only
  split_ifs
  · rfl
  · exact openRecord_lastM2 ..
  · exact openRecord_lastM2 ..
  · rfl
  · rfl

theorem fallOn_lastM2 (c : MotionContext) (d : Ddt) : (fallOn c d).1.lastM2 = d.lastM2 := by
  unfold fallOn
  split <;> rfl

theorem fallingStep_lastM2 (c : MotionContext) (m2 : Nat) (e : Sample) (d : Ddt) :
    (fallingStep c m2 e d).1.lastM2 = d.lastM2 := by
  unfold fallingStep
  dsimp only
  split_ifs
  · rfl
  · exact fallOn_lastM2 ..
  · rfl
  · exact fallOn_lastM2 ..

/-- R142 to R146: no row of a phase touches the last M2. -/
theorem phaseStep_lastM2 (c : MotionContext) (m2 : Nat) (e : Sample) (d : Ddt) : (phaseStep c m2 e d).1.lastM2 = d.lastM2 := by
  unfold phaseStep
  cases d.phase with
  | still => exact stillStep_lastM2 ..
  | falling => exact fallingStep_lastM2 ..
  | impact =>
    unfold impactStep
    dsimp only
    split_ifs <;> rfl
  | settling =>
    unfold blindStep settlingStep
    dsimp only
    split_ifs <;> rfl

theorem linkStep_lastM2 (c : MotionContext) (d : Ddt) : (linkStep c d).lastM2 = d.lastM2 := by
  unfold linkStep Ddt.enterBlind
  dsimp only
  split_ifs <;> rfl

/-- R139: the detector keeps the magnitude of the sample it is handed. -/
theorem ddtAfter_lastM2 (f : AccelFrame) (s : State) :
    (ddtAfter f s).1.lastM2 = (producedSample s.mpt f).elim s.ddt.lastM2 (sampleM2 s.ddt.lastM2) := by
  unfold ddtAfter ddtStep
  cases producedSample s.mpt f with
  | none => exact linkStep_lastM2 ..
  | some e => exact (linkStep_lastM2 ..).trans (phaseStep_lastM2 ..)

/-! ### The port after a frame (R128 to R133) -/

/-- R129, R131: a frame that is not accepted holds the last sample on a primed port, and counts as no accepted one. -/
theorem heldSample_frameEnd {f : AccelFrame} {s : State} (transfer : s.mpt.transfer = .inFlight)
    (passed : (judge s.mpt.lastCount f).isAccepted = false) : HeldSample s (frameEnd f s) := by
  obtain ⟨port, detector⟩ := frameEnd_motion f transfer
  have m2 := ddtAfter_lastM2 f s
  have ring : (s.mpt.frameTaken f).ring = (producedSample s.mpt f).elim s.mpt.ring (pushSample s.mpt.ring) := rfl
  have accepted : (s.mpt.frameTaken f).counters.accepted = countIf (judge s.mpt.lastCount f).isAccepted s.mpt.counters.accepted :=
    rfl
  rw [producedSample_held passed] at m2 ring
  refine ⟨fun primed => ?_, fun unprimed => ⟨?_, ?_⟩, ?_⟩
  · rw [port, ring, primed]
    rfl
  · rw [port, ring, unprimed]
    rfl
  · rw [detector, m2, unprimed]
    rfl
  · rw [port, accepted, passed]
    rfl

/-- R127, R131, R133: a rejected frame. -/
theorem frameTaken_rejected {f : AccelFrame} {m : Mpt} (rejected : (judge m.lastCount f).rejected = true) :
    (m.frameTaken f).lastCount = m.lastCount ∧ (m.frameTaken f).rejectedRun = min 8 (m.rejectedRun + 1) :=
  ⟨if_pos rejected, if_pos rejected⟩

/-- R128, R133: a frame that is not rejected. -/
theorem frameTaken_kept {f : AccelFrame} {m : Mpt} (kept : (judge m.lastCount f).rejected = false) :
    (m.frameTaken f).lastCount = some (f.status.toNat / 16) ∧ (m.frameTaken f).rejectedRun = 0 :=
  have not : ¬(judge m.lastCount f).rejected = true := by simp [kept]
  ⟨if_neg not, if_neg not⟩

/-- R127, R128, R131, R135: an accepted frame. -/
theorem frameTaken_accepted {f : AccelFrame} {m : Mpt} {j : Bool} (accepted : judge m.lastCount f = .accepted j) :
    (m.frameTaken f).primed = true ∧ (m.frameTaken f).counters.accepted = min 4294967295 (m.counters.accepted + 1) ∧
      (m.frameTaken f).ring = (frameSample f j :: m.ring).take 1024 := by
  unfold Mpt.frameTaken nextCounters
  rw [accepted, producedSample_taken accepted]
  exact ⟨Bool.or_true _, rfl, rfl⟩

/-- R131: a frame counts in the counter of what it failed. -/
theorem frameTaken_failures {f : AccelFrame} {m : Mpt} :
    (judge m.lastCount f = .checkFailed →
      (m.frameTaken f).counters.checkFailures = min 4294967295 (m.counters.checkFailures + 1)) ∧
    (judge m.lastCount f = .mbzFailed →
      (m.frameTaken f).counters.mbzFailures = min 4294967295 (m.counters.mbzFailures + 1)) := by
  unfold Mpt.frameTaken nextCounters
  constructor <;> intro failed <;> rw [failed] <;> rfl

/-- Settles O55, verdict by verdict. -/
theorem transferEndsAreJudged : Obligations.TransferEndsAreJudged := by
  intro f s
  refine ⟨fun idle => if_pos idle, fun discard => ?_, fun transfer => ?_⟩
  · refine congrArg _ (?_ : frameEnd f s = _)
    unfold frameEnd
    rw [discard]
  · obtain ⟨port, detector⟩ := frameEnd_motion f transfer
    have beside := besideFrame_frameEnd f transfer
    refine ⟨frameEnd f s, rfl, ?_, ?_, ?_, beside.pending, beside.sense, beside.settings, beside.queue, fun bad => ?_,
      fun good => ⟨fun mbz => ?_, fun clear passed => ?_, fun clear fresh live new => ?_⟩⟩
    · rw [port]; rfl
    · rw [port]; rfl
    · rw [port]; rfl
    · have failed : judge s.mpt.lastCount f = .checkFailed := judge_checkFailed bad
      have rejected : (judge s.mpt.lastCount f).rejected = true := by rw [failed]; rfl
      obtain ⟨count, run⟩ := frameTaken_rejected rejected
      rw [port]
      exact ⟨frameTaken_failures.1 failed, count, run, heldSample_frameEnd transfer (rejected_notAccepted rejected)⟩
    · have failed : judge s.mpt.lastCount f = .mbzFailed := judge_mbzFailed good mbz
      have rejected : (judge s.mpt.lastCount f).rejected = true := by rw [failed]; rfl
      obtain ⟨count, run⟩ := frameTaken_rejected rejected
      rw [port]
      exact ⟨frameTaken_failures.2 failed, count, run, heldSample_frameEnd transfer (rejected_notAccepted rejected)⟩
    · obtain ⟨kept, notAccepted⟩ := judge_passedOver (last := s.mpt.lastCount) good clear passed
      obtain ⟨count, run⟩ := frameTaken_kept kept
      rw [port]
      exact ⟨count, run, heldSample_frameEnd transfer notAccepted⟩
    · obtain ⟨j, accepted, jump⟩ := judge_taken good clear fresh live new
      obtain ⟨count, run⟩ := frameTaken_kept (m := s.mpt) (f := f) (by rw [accepted]; rfl)
      obtain ⟨primed, counted, ring⟩ := frameTaken_accepted accepted
      have m2 := ddtAfter_lastM2 f s
      rw [producedSample_taken accepted] at m2
      rw [port, detector]
      exact ⟨count, primed, run, counted, frameSample f j, ring, rfl, rfl, rfl, rfl, rfl, jump, m2⟩

end Sys2Proof.Motion

/-! ## What a frame end brings about (O56) -/

namespace Sys2Proof.Motion

open Sys2Proof.Machine Sys2Proof.Safety Sys2Proof.SourcePaths

/-! ### Heights, peaks and axes (R149, R150) -/

theorem peakMg_of_root {p : Peak} {r : Nat} (low : r ^ 2 ≤ p.m2) (high : p.m2 < (r + 1) ^ 2) : peakMg p = r * 1000 / 2048 := by
  unfold peakMg
  rw [isqrt_unique p.m2 r low high]

/-- R150: the axis of the largest magnitude, X before Y before Z among equals. -/
theorem dominantAxis_spec (p : Peak) :
    (p.y.natAbs ≤ p.x.natAbs → p.z.natAbs ≤ p.x.natAbs → dominantAxis p = if p.x < 0 then 1 else 0) ∧
    (p.x.natAbs < p.y.natAbs → p.z.natAbs ≤ p.y.natAbs → dominantAxis p = if p.y < 0 then 3 else 2) ∧
    (p.x.natAbs < p.z.natAbs → p.y.natAbs < p.z.natAbs → dominantAxis p = if p.z < 0 then 5 else 4) := by
  unfold dominantAxis
  refine ⟨fun y z => if_pos ⟨y, z⟩, fun x z => ?_, fun x y => ?_⟩
  · rw [if_neg (fun top => Nat.not_le.mpr x top.1), if_pos z]
  · rw [if_neg (fun top => Nat.not_le.mpr x top.2), if_neg (Nat.not_le.mpr y)]

/-! ### The rows that name an event (log entry 4) -/

theorem frameEndWith_happens {e : MotionEvent} {f : AccelFrame} {s : State} (transfer : s.mpt.transfer = .inFlight)
    (brings : (frameEvents f s).contains e = true) : frameEndWith e f s = frameEnd f s := if_pos ⟨transfer, brings⟩

theorem frameEndWith_otherwise {e : MotionEvent} {f : AccelFrame} {s : State} (brings : (frameEvents f s).contains e = false) :
    frameEndWith e f s = s := if_neg fun h => Bool.false_ne_true (brings.symm.trans h.2)

/-! ### The link (R133) -/

theorem linkLost_loses {f : AccelFrame} {s : State} :
    (frameEvents f s).contains .linkLost = true ↔ losesLink s.mpt (judge s.mpt.lastCount f) = true := by
  have none : ¬(ddtAfter f s).2.contains .linkLost = true := fun h => (ddtAfter_link f s _ h).1 rfl
  rw [frameEvents_contains]
  simp only [none, reduceCtorEq, false_and, or_false, true_and]

theorem linkRecovered_recovers {f : AccelFrame} {s : State} :
    (frameEvents f s).contains .linkRecovered = true ↔ recoversLink s.mpt (judge s.mpt.lastCount f) = true := by
  have none : ¬(ddtAfter f s).2.contains .linkRecovered = true := fun h => (ddtAfter_link f s _ h).2 rfl
  rw [frameEvents_contains]
  simp only [none, reduceCtorEq, false_and, or_false, false_or, true_and]

/-- R133: a lost link starts its recovery from 0. -/
theorem frameTaken_loses {f : AccelFrame} {m : Mpt} (loses : losesLink m (judge m.lastCount f) = true) :
    (m.frameTaken f).link = .lost ∧ (m.frameTaken f).recoveryRun = 0 ∧ m.link ≠ .lost := by
  refine ⟨if_pos loses, if_pos loses, ?_⟩
  simp only [losesLink, Bool.and_eq_true, bne_iff_ne] at loses
  exact loses.1

theorem windowState_not_lost (h : List Bool) : windowState h ≠ .lost := by
  unfold windowState
  split <;> decide

/-- R132, R133: a recovered link is judged by the history again. -/
theorem frameTaken_recovers {f : AccelFrame} {m : Mpt} (recovers : recoversLink m (judge m.lastCount f) = true) :
    m.link = .lost ∧ (m.frameTaken f).link ≠ .lost := by
  have lost : m.link = .lost := by
    simp only [recoversLink, Bool.and_eq_true, beq_iff_eq] at recovers
    exact recovers.1
  have loses : ¬losesLink m (judge m.lastCount f) = true := by simp [losesLink, lost]
  refine ⟨lost, ?_⟩
  show nextLink m (judge m.lastCount f) ≠ .lost
  unfold nextLink
  rw [if_neg loses, if_neg (by simp [recovers])]
  exact windowState_not_lost _

/-! ### The link state after a sample (R146) -/

/-- R146, R149: a record in progress as the blind settle is entered; a fall that was running ends there. -/
def blinded (c : MotionContext) (d : Ddt) (o : OpenRecord) : OpenRecord :=
  { o with
    blind := true
    kind := if d.phase = .falling then some .drop else o.kind
    fallUs := if d.phase = .falling then some (d.fallIntervals * c.rate.intervalUs) else o.fallUs }

theorem linkStep_cases (c : MotionContext) (d : Ddt) :
    linkStep c d = d ∨
      d.phase ≠ .still ∧ linkStep c d = { atPhase .settling d with blind := true, record := d.record.map (blinded c d) } := by
  by_cases blinds : c.link = .lost ∧ d.phase ≠ .still ∧ d.blind = false
  · obtain ⟨lost, moving, sees⟩ := blinds
    exact .inr ⟨moving, (linkSeen_linkStep c d).blinded lost moving sees⟩
  · exact .inl (if_neg blinds)

theorem linkStep_still {c : MotionContext} {d : Ddt} (still : d.phase = .still) : linkStep c d = d :=
  (linkStep_cases c d).resolve_right fun h => h.1 still

/-- R153: after a close the phase is STILL, no record is in progress, and a LOST link is no matter. -/
theorem linkStep_closing {c : MotionContext} {d e : Ddt} (closed : d = closing e) :
    (linkStep c d).phase = .still ∧ (linkStep c d).record = none := by
  have still : d.phase = .still := by rw [closed]; rfl
  rw [linkStep_still still, closed]
  exact ⟨rfl, rfl⟩

theorem linkStep_moving {c : MotionContext} {d : Ddt} (moving : d.phase ≠ .still) : (linkStep c d).phase ≠ .still := by
  rcases linkStep_cases c d with same | ⟨-, blinds⟩
  · rw [same]; exact moving
  · rw [blinds]; exact fun h => nomatch h

theorem linkStep_settling {c : MotionContext} {d : Ddt} (settling : d.phase = .settling) : (linkStep c d).phase = .settling := by
  rcases linkStep_cases c d with same | ⟨-, blinds⟩
  · rw [same]; exact settling
  · rw [blinds]; rfl

/-- R146: the blind settle changes a record in progress, but for its number and its trace. -/
theorem linkStep_record {α : Type} (g : OpenRecord → α) (kept : ∀ c d o, g (blinded c d o) = g o) (c : MotionContext)
    (d : Ddt) :
    (linkStep c d).record.map g = d.record.map g ∧ (linkStep c d).table = d.table ∧
      (linkStep c d).nextSequence = d.nextSequence := by
  rcases linkStep_cases c d with same | ⟨-, blinds⟩
  · rw [same]; exact ⟨rfl, rfl, rfl⟩
  · rw [blinds]
    refine ⟨?_, rfl, rfl⟩
    cases record : d.record with
    | none => rfl
    | some o => exact congrArg some (kept c d o)

/-! ### A sample that brings an event about -/

/-- R130, R139, R146: the detector takes the sample of a frame, and then sees the link. -/
theorem ddtAfter_taken {f : AccelFrame} {s : State} {e : Sample} (produced : producedSample s.mpt f = some e) :
    SampleTaken (motionContext s (s.mpt.frameTaken f)) e s.ddt (takeSample (motionContext s (s.mpt.frameTaken f)) e s.ddt).1 ∧
      LinkSeen (motionContext s (s.mpt.frameTaken f)) (takeSample (motionContext s (s.mpt.frameTaken f)) e s.ddt).1
        (ddtAfter f s).1 := by
  rw [ddtAfter_some f s e produced]
  exact ⟨sampleTaken_takeSample _ _ _, linkSeen_linkStep _ _⟩

section Events

variable {f : AccelFrame} {s : State} (transfer : s.mpt.transfer = .inFlight)
include transfer

/-- R130, R139: the detector's event of a frame is that of the sample the frame produces. -/
theorem detector_event {x : MotionEvent} (brings : (frameEvents f s).contains x = true) (lost : x ≠ .linkLost)
    (recovered : x ≠ .linkRecovered) :
    ∃ e, EventsAre (motionContext s (s.mpt.frameTaken f)) e s.ddt (frameEvents f s) ∧
      SampleTaken (motionContext s (s.mpt.frameTaken f)) e s.ddt (takeSample (motionContext s (s.mpt.frameTaken f)) e s.ddt).1 ∧
      (frameEnd f s).ddt =
        linkStep (motionContext s (s.mpt.frameTaken f)) (takeSample (motionContext s (s.mpt.frameTaken f)) e s.ddt).1 := by
  cases produced : producedSample s.mpt f with
  | none =>
    rw [frameEvents_contains, ddtAfter_none f s produced] at brings
    simp [lost, recovered] at brings
  | some e =>
    exact ⟨e, eventsAre_frameEvents f s e produced, (ddtAfter_taken produced).1,
      (frameEnd_motion f transfer).2.trans (by rw [ddtAfter_some f s e produced])⟩

/-- R142, R148: a qualified fall leaves STILL and opens the record, while there are sequence numbers. -/
theorem fallQualified_frameEnd (brings : (frameEvents f s).contains .fallQualified = true) :
    s.ddt.phase = .still ∧ (frameEnd f s).ddt.phase ≠ .still ∧
      (s.ddt.nextSequence ≤ 4294967295 →
        (frameEnd f s).ddt.record.map (·.sequence) = some s.ddt.nextSequence ∧
          (frameEnd f s).ddt.nextSequence = s.ddt.nextSequence + 1) := by
  obtain ⟨e, events, taken, after⟩ := detector_event transfer brings (by decide) (by decide)
  obtain ⟨still, judged, notAbove, below, qualified⟩ := events.fallQualified.mp brings
  have row := (taken.still still).falls judged notAbove below qualified
  obtain ⟨record, -, next⟩ := linkStep_record (·.sequence) (fun _ _ _ => rfl) (motionContext s (s.mpt.frameTaken f))
    (takeSample (motionContext s (s.mpt.frameTaken f)) e s.ddt).1
  rw [after]
  refine ⟨still, linkStep_moving ?_, fun numbers => ?_⟩
  · rw [row]
    exact fun h => nomatch h
  · rw [record, next, row]
    have left : (seen (motionContext s (s.mpt.frameTaken f)) e s.ddt).nextSequence ≤ 4294967295 := numbers
    dsimp only [opening, nextAfterOpening]
    rw [if_pos left, if_pos left]
    exact ⟨rfl, rfl⟩

/-- R143, R144: the rows that end a fall or an impact enter SETTLING. -/
theorem softLanding_frameEnd (brings : (frameEvents f s).contains .softLanding = true) :
    s.ddt.phase = .falling ∧ (frameEnd f s).ddt.phase = .settling := by
  obtain ⟨e, events, taken, after⟩ := detector_event transfer brings (by decide) (by decide)
  obtain ⟨falling, notAbove, notBelow, landed⟩ := events.softLanding.mp brings
  rw [after]
  exact ⟨falling, linkStep_settling (by rw [(taken.falling falling).lands notAbove notBelow landed]; rfl)⟩

theorem fallTimeout_frameEnd (brings : (frameEvents f s).contains .fallTimeout = true) :
    s.ddt.phase = .falling ∧ (frameEnd f s).ddt.phase = .settling := by
  obtain ⟨e, events, taken, after⟩ := detector_event transfer brings (by decide) (by decide)
  obtain ⟨falling, notAbove, falls, timedOut⟩ := events.fallTimeout.mp brings
  rw [after]
  exact ⟨falling, linkStep_settling (by rw [(taken.falling falling).timesOut notAbove falls timedOut]; rfl)⟩

theorem impactExit_frameEnd (brings : (frameEvents f s).contains .impactExit = true) :
    s.ddt.phase = .impact ∧ (frameEnd f s).ddt.phase = .settling := by
  obtain ⟨e, events, taken, after⟩ := detector_event transfer brings (by decide) (by decide)
  obtain ⟨impact, notAbove, quiet⟩ := events.impactExit.mp brings
  rw [after]
  exact ⟨impact, linkStep_settling (by rw [(taken.impact impact).leaves notAbove quiet]; rfl)⟩

/-- R145, R153: the rows that end SETTLING close the record. -/
theorem settled_frameEnd (brings : (frameEvents f s).contains .settled = true) :
    s.ddt.phase = .settling ∧ (frameEnd f s).ddt.phase = .still ∧ (frameEnd f s).ddt.record = none := by
  obtain ⟨e, events, taken, after⟩ := detector_event transfer brings (by decide) (by decide)
  obtain ⟨settling, sees, notAbove, calm⟩ := events.settled.mp brings
  rw [after]
  exact ⟨settling, linkStep_closing ((taken.settling settling sees).settles notAbove calm)⟩

theorem settleTimeout_frameEnd (brings : (frameEvents f s).contains .settleTimeout = true) :
    s.ddt.phase = .settling ∧ (frameEnd f s).ddt.phase = .still ∧ (frameEnd f s).ddt.record = none := by
  obtain ⟨e, events, taken, after⟩ := detector_event transfer brings (by decide) (by decide)
  obtain ⟨settling, sees, notAbove, shaky, timedOut⟩ := events.settleTimeout.mp brings
  rw [after]
  exact ⟨settling, linkStep_closing ((taken.settling settling sees).givesUp notAbove shaky timedOut)⟩

/-- R146, R153: the end of the blind settle. -/
theorem blindHoldEnd_frameEnd (brings : (frameEvents f s).contains .blindHoldEnd = true) :
    s.ddt.blind = true ∧ (frameEnd f s).ddt.phase = .still ∧ (frameEnd f s).ddt.record = none := by
  obtain ⟨e, events, taken, after⟩ := detector_event transfer brings (by decide) (by decide)
  obtain ⟨settling, blind, held⟩ := events.blindHoldEnd.mp brings
  rw [after]
  exact ⟨blind, linkStep_closing ((taken.blind settling blind).ends held)⟩

end Events

/-! ### The trace (R152) -/

/-- The record in progress carries a trace. -/
def Carries (d : Ddt) (x : Trace) : Prop := d.record.bind (·.trace) = some x

/-- The record in progress, or the newest of the table, carries a trace. -/
def Traced (d : Ddt) (x : Trace) : Prop := Carries d x ∨ d.table.getLast?.bind (·.core.trace) = some x

theorem carries_onRecord {d : Ddt} {x : Trace} {g : OpenRecord → OpenRecord} (h : Carries d x)
    (kept : ∀ o, (g o).trace = o.trace) : Carries (d.onRecord g) x := by
  unfold Carries Ddt.onRecord
  unfold Carries at h
  cases record : d.record with
  | none => rw [record] at h; cases h
  | some o =>
    rw [record] at h
    exact (kept o).trans h

theorem offer_trace (o : OpenRecord) (m2 : Nat) (e : Sample) : (o.offer m2 e).trace = o.trace := by
  rw [offer_offered]
  rfl

theorem carries_endFall {d : Ddt} {x : Trace} (h : Carries d x) (r : SampleRate) (n : Nat) (k : DropKind) :
    Carries (d.endFall r n k) x := carries_onRecord h fun _ => rfl

theorem carries_enter {d : Ddt} {x : Trace} (h : Carries d x) (p : MotionPhase) : Carries (d.enter p) x := h

theorem carries_enterImpact {d : Ddt} {x : Trace} (h : Carries d x) (m2 : Nat) (e : Sample) :
    Carries (d.enterImpact m2 e) x := carries_onRecord (carries_enter h .impact) fun o => offer_trace o m2 e

/-- R154: a record that closes is the newest of the table. -/
theorem appendRecord_newest (t : List DropRecord) (r : OpenRecord) :
    (appendRecord t r).getLast?.map (·.core) = some r := by
  unfold appendRecord
  split <;> rw [List.getLast?_concat] <;> rfl

theorem traced_close {d : Ddt} {x : Trace} (h : Carries d x) : Traced d.close x := by
  unfold Carries at h
  refine .inr ?_
  cases record : d.record with
  | none => rw [record] at h; cases h
  | some o =>
    rw [record] at h
    have table : d.close.table = appendRecord d.table o := by simp [Ddt.close, record]
    have newest := appendRecord_newest d.table o
    rw [table]
    cases last : (appendRecord d.table o).getLast? with
    | none => rw [last] at newest; cases newest
    | some r =>
      rw [last] at newest
      have core : r.core = o := Option.some.inj newest
      show r.core.trace = some x
      rw [core]
      exact h

theorem carries_fallOn {c : MotionContext} {d : Ddt} {x : Trace} (h : Carries d x) : Carries (fallOn c d).1 x := by
  unfold fallOn
  split
  · exact carries_enter (carries_endFall h _ _ _) _
  · exact h

theorem carries_fallingStep {c : MotionContext} {m2 : Nat} {e : Sample} {d : Ddt} {x : Trace} (h : Carries d x) :
    Carries (fallingStep c m2 e d).1 x := by
  have counted : Carries { d with fallIntervals := d.fallIntervals + 1 } x := h
  unfold fallingStep
  dsimp only
  split_ifs
  · exact carries_enterImpact (carries_onRecord (g := OpenRecord.struck) (carries_endFall counted _ _ _) fun _ => rfl) _ _
  · exact carries_fallOn h
  · exact carries_enter (carries_endFall counted _ _ _) _
  · exact carries_fallOn h

theorem carries_impactStep {c : MotionContext} {m2 : Nat} {e : Sample} {d : Ddt} {x : Trace} (h : Carries d x) :
    Carries (impactStep c m2 e d).1 x := by
  have offered : Carries (d.onRecord fun r => r.offer m2 e) x := carries_onRecord h fun o => offer_trace o m2 e
  unfold impactStep
  dsimp only
  split_ifs
  · exact offered
  · exact carries_enter offered _
  · exact offered

theorem reclassified_trace (o : OpenRecord) : o.reclassified.trace = o.trace := by
  rw [reclassified_kind]

theorem traced_settlingStep {c : MotionContext} {m2 : Nat} {e : Sample} {d : Ddt} {x : Trace} (h : Carries d x) :
    Traced (settlingStep c m2 e d).1 x := by
  unfold settlingStep
  simp only [settleRun_after]
  split
  · exact .inl (carries_enterImpact (carries_onRecord h fun o => reclassified_trace o.struck) _ _)
  · split
    · exact traced_close h
    · split
      · exact traced_close (carries_onRecord h fun _ => rfl)
      · exact .inl h

theorem traced_blindStep {c : MotionContext} {d : Ddt} {x : Trace} (h : Carries d x) : Traced (blindStep c d).1 x := by
  unfold blindStep
  split
  · exact traced_close (carries_onRecord h fun _ => rfl)
  · exact .inl h

/-- R143 to R146: outside STILL a sample keeps the trace with its record, which may close. -/
theorem traced_phaseStep {c : MotionContext} {m2 : Nat} {e : Sample} {d : Ddt} {x : Trace} (moving : d.phase ≠ .still)
    (h : Carries d x) : Traced (phaseStep c m2 e d).1 x := by
  unfold phaseStep
  cases phase : d.phase with
  | still => exact absurd phase moving
  | falling => exact .inl (carries_fallingStep h)
  | impact => exact .inl (carries_impactStep h)
  | settling =>
    dsimp only
    split
    · exact traced_blindStep h
    · exact traced_settlingStep h

theorem bind_trace (r : Option OpenRecord) : r.bind (·.trace) = (r.map (·.trace)).join := by cases r <;> rfl

theorem traced_linkStep {c : MotionContext} {d : Ddt} {x : Trace} (h : Traced d x) : Traced (linkStep c d) x := by
  obtain ⟨record, table, -⟩ := linkStep_record (·.trace) (fun _ _ _ => rfl) c d
  unfold Traced Carries at h ⊢
  rw [bind_trace, record, ← bind_trace, table]
  exact h

/-- R152: a record whose trace count ends carries the trace of the ring. -/
theorem seen_carries {c : MotionContext} {e : Sample} {d : Ddt} {o : OpenRecord} {n : Nat} (record : d.record = some o)
    (count : o.traceCount = some n) (ends : 23 ≤ n + 1) :
    Carries (seen c e d) { lead := (c.ring.take 32).length - 24, entries := (c.ring.take 32).reverse } := by
  have last : o.traceCount.any (fun n => decide (23 ≤ n + 1)) = true := by
    rw [count]
    exact decide_eq_true ends
  unfold Carries seen noted
  rw [record]
  exact if_pos last

/-- R139: a sample is noted, and then judged by the rows of its phase. -/
theorem takeSample_phaseStep (c : MotionContext) (e : Sample) (d : Ddt) :
    (takeSample c e d).1 = (phaseStep c (magnitude d e) e (seen c e d)).1 := by
  rw [← seen_noted]
  rfl

/-- R152: a trace that freezes is the record's; in STILL none is in progress. -/
theorem traceFrozen_frameEnd {f : AccelFrame} {s : State} (transfer : s.mpt.transfer = .inFlight) (ok : RecordsOk s.ddt)
    (brings : (frameEvents f s).contains .traceFrozen = true) :
    Traced (frameEnd f s).ddt
      { lead := ((frameEnd f s).mpt.ring.take 32).length - 24, entries := ((frameEnd f s).mpt.ring.take 32).reverse } := by
  obtain ⟨e, events, -, after⟩ := detector_event transfer brings (by decide) (by decide)
  obtain ⟨o, n, record, count, ends⟩ := events.traceFrozen.mp brings
  have moving : s.ddt.phase ≠ .still := fun still => by
    rw [ok.still still] at record
    cases record
  rw [after, (frameEnd_motion f transfer).1]
  refine traced_linkStep ?_
  rw [takeSample_phaseStep]
  exact traced_phaseStep moving (seen_carries record count ends)

/-! ### The other blocks as the phase changes (R58, R93, R141) -/

theorem settle_motionHold (b : Bool) (s : State) : (settle b s).bre.motionHold = s.bre.motionHold := by
  rw [(kept_settle b s).caps.bre]

theorem motionLeft_motionHold (s : State) : (motionLeft s).bre.motionHold = true :=
  settle_motionHold (anyGranted s) (breMotion true (revokeBay .b (revokeBay .a s)))

theorem motionReturned_motionHold (s : State) : (motionReturned s).bre.motionHold = false :=
  settle_motionHold true (breMotion false s)

/-- R93, R141: motion hold is set as the phase leaves STILL, and clears as it returns. -/
theorem frameEnd_motionHold {f : AccelFrame} {s : State} (transfer : s.mpt.transfer = .inFlight) :
    (s.ddt.phase = .still → (frameEnd f s).ddt.phase ≠ .still → (frameEnd f s).bre.motionHold = true) ∧
      (s.ddt.phase ≠ .still → (frameEnd f s).ddt.phase = .still → (frameEnd f s).bre.motionHold = false) := by
  rw [(frameEnd_motion f transfer).2, frameEnd_inFlight f transfer, arbitrate_bre]
  unfold frameTaken publishPhase
  dsimp only
  refine ⟨fun still leaves => ?_, fun moving returns => ?_⟩
  · rw [if_pos ⟨still, leaves⟩, motionLeft_motionHold]
  · rw [if_neg (fun h => moving h.1), if_pos ⟨moving, returns⟩, motionReturned_motionHold]

/-- R58: a revoked bay is PENDING, and no other is GRANTED. -/
theorem revoked_notGranted {s t : State} {bay : Bay} (h : Revoked s t bay) : (t.latch bay).release ≠ .granted := by
  cases release : (s.latch bay).release with
  | granted =>
    rw [(h.granted release).1]
    exact fun granted => nomatch granted
  | pending => rw [h.pending release]; exact fun granted => nomatch release.symm.trans granted
  | idle => rw [h.idle release, release]; decide

/-- R130 to R133, R139 to R146: the frame end itself: the port takes the sample, the detector judges it, and sees the link. -/
theorem frameEnd_takes {f : AccelFrame} {s : State} (transfer : s.mpt.transfer = .inFlight) :
    (producedSample s.mpt f = none →
      LinkSeen (motionContext s (frameEnd f s).mpt) s.ddt (frameEnd f s).ddt ∧
        ∀ e ∈ frameEvents f s, e = .linkLost ∨ e = .linkRecovered) ∧
    (∀ e, producedSample s.mpt f = some e →
      (frameEnd f s).mpt.ring = (e :: s.mpt.ring).take 1024 ∧
      (∃ d, SampleTaken (motionContext s (frameEnd f s).mpt) e s.ddt d ∧
        LinkSeen (motionContext s (frameEnd f s).mpt) d (frameEnd f s).ddt) ∧
      EventsAre (motionContext s (frameEnd f s).mpt) e s.ddt (frameEvents f s)) := by
  obtain ⟨port, detector⟩ := frameEnd_motion f transfer
  rw [port, detector]
  refine ⟨fun none => ⟨?_, fun x brings => ?_⟩, fun e produced =>
    ⟨?_, ⟨_, ddtAfter_taken produced⟩, eventsAre_frameEvents f s e produced⟩⟩
  · rw [ddtAfter_none f s none]
    exact linkSeen_linkStep _ _
  · have found := (frameEvents_contains f s x).mp (List.contains_iff_mem.mpr brings)
    rw [ddtAfter_none f s none] at found
    simpa using found.imp And.left (Or.imp And.left id)
  · show (producedSample s.mpt f).elim _ _ = _
    rw [produced]
    rfl

/-- Settles O56: the frame end itself, the link by its counters, and each named event by its row. -/
theorem namedMotionEventsHappen : Obligations.NamedMotionEventsHappen := by
  refine ⟨fun _ => rfl, fun _ _ => peakMg_of_root, dominantAxis_spec, by decide, fun f s transfer => ?_⟩
  dsimp only
  obtain ⟨port, -⟩ := frameEnd_motion f transfer
  obtain ⟨leaves, returns⟩ := frameEnd_motionHold (f := f) transfer
  obtain ⟨unproduced, taken⟩ := frameEnd_takes (f := f) transfer
  have rate : (frameEnd f s).mpt.rate = s.mpt.rate := by rw [port]; rfl
  have happens : ∀ {e}, (frameEvents f s).contains e = true →
      (Host.Outcome.next (frameEndWith e f s) : Host.Outcome State Fault Refusal) = .next (frameEnd f s) := fun brings =>
    congrArg _ (frameEndWith_happens transfer brings)
  refine ⟨⟨frameEnd f s, rfl, sampleOf_producedSample s.mpt f, ?_⟩, ?_, linkRecovered_iff f s, fun ok =>
    ⟨fun brings => ?_, fun brings => ?_, fun brings => ?_,
      fun brings => ⟨_, happens brings, rfl, softLanding_frameEnd transfer brings⟩,
      fun brings => ⟨_, happens brings, rfl, fallTimeout_frameEnd transfer brings⟩,
      fun brings => ⟨_, happens brings, rfl, impactExit_frameEnd transfer brings⟩,
      fun brings => ?_,
      fun brings => ⟨_, happens brings, rfl, settleTimeout_frameEnd transfer brings⟩,
      fun brings => ⟨_, happens brings, rfl, blindHoldEnd_frameEnd transfer brings⟩,
      fun brings => ⟨_, happens brings, rfl, _, traceFrozen_frameEnd transfer ok brings, rfl, ?_⟩,
      fun e c row brings => ?_⟩⟩
  · rw [← rate]
    exact ⟨unproduced, taken⟩
  · rw [linkLost_iff, judge_rejected]
  · obtain ⟨lost, run, was⟩ := frameTaken_loses (linkLost_loses.mp brings)
    rw [← port] at lost run
    exact ⟨_, happens brings, rfl, lost, was, run⟩
  · obtain ⟨was, back⟩ := frameTaken_recovers (linkRecovered_recovers.mp brings)
    rw [← port] at back
    exact ⟨_, happens brings, rfl, was, back⟩
  · obtain ⟨still, moving, opens⟩ := fallQualified_frameEnd transfer brings
    have bays := fun bay => revoked_notGranted ((frameEnd_bays f s transfer bay).1 still moving)
    exact ⟨_, happens brings, rfl, still, moving, bne_iff_ne.mpr moving, leaves still moving, bays .a, bays .b, opens⟩
  · obtain ⟨settling, still, record⟩ := settled_frameEnd transfer brings
    exact ⟨_, happens brings, rfl, settling, still, by rw [parkAsserted, still]; rfl, record,
      returns (by rw [settling]; decide) still⟩
  · rw [List.length_reverse]
    exact List.length_take_le _ _
  · have named : exec c s = .next (frameEndWith e f s) := by
      simp only [List.mem_cons, Prod.mk.injEq, List.not_mem_nil, or_false] at row
      rcases row with ⟨rfl, rfl⟩ | ⟨rfl, rfl⟩ | ⟨rfl, rfl⟩ | ⟨rfl, rfl⟩ | ⟨rfl, rfl⟩ | ⟨rfl, rfl⟩ | ⟨rfl, rfl⟩ | ⟨rfl, rfl⟩ |
        ⟨rfl, rfl⟩ | ⟨rfl, rfl⟩ <;> rfl
    rw [named, frameEndWith_otherwise brings]

end Sys2Proof.Motion

/-! ## ERASE_DROPS and READ_DROP (O58, O59) -/

namespace Sys2Proof.Motion

open Sys2Proof.Machine Sys2Proof.Safety Sys2Proof.Snapshots

/-- R169, R170: a request whose block changes `heard s` to `u` and then answers; the link's part of the state is as it was. -/
theorem exec_replies {tag : Byte} {p : List Byte} {st : Status} {res : List Byte} {s u : State} (k : ReqKind) (h : Ready s)
    (len : lengthAllowed k p = true) (link : u.slu = (heard s).slu)
    (handled : handleOwned k tag p (heard s) = answer tag k st res u) :
    exec (command k tag p) s = .next (replied u (replyOf k tag st res)) := by
  have idle : TransmitterOk u := by
    unfold TransmitterOk
    rw [link]
    exact transmitterOk_heard s h.transmitter
  rw [exec_ready k tag p s h len, handled, arbitrate_answer k tag st res u idle]

/-! ### ERASE_DROPS (R157) -/

/-- R157, R170: the table goes, in any phase, and the answer counts what it held. -/
theorem exec_eraseDrops (tag : Byte) {s : State} (h : Ready s) :
    exec (.eraseDrops tag []) s =
      .next
        (replied { heard s with ddt := { s.ddt with table := [] } }
          (replyOf .eraseDrops tag .ok [BitVec.ofNat 8 s.ddt.table.length])) :=
  exec_replies .eraseDrops h rfl rfl rfl

/-- R154: nothing is evicted from a table with room, so the record that joins it displaces none. -/
theorem appendRecord_room {t : List DropRecord} (r : OpenRecord) (room : t.length < Config.maxRecords) :
    appendRecord t r = t ++ [{ core := r, read := false, displaced := false }] := if_pos room

/-- R153, R154: the record in progress joins the table when it closes. -/
theorem close_table {d : Ddt} {o : OpenRecord} (record : d.record = some o) : d.close.table = appendRecord d.table o := by
  simp only [Ddt.close, record, Option.elim_some]

theorem close_emptyTable {d : Ddt} {o : OpenRecord} (empty : d.table = []) (record : d.record = some o) :
    d.close.table = [{ core := o, read := false, displaced := false }] := by
  rw [close_table record, empty]
  exact appendRecord_room o (by decide)

/-- R175, section 10.11: DROP_RECORD on an empty table: no record, none unread, and no kind (255). -/
theorem noticeContent_emptyTable {s : State} (empty : s.ddt.table = []) :
    noticeContent s .dropRecord = [0, 0, 0, 0, 0, 0, 255, 0] := by
  simp only [noticeContent, unreadCount, empty]
  rfl

/-- Settles O58, by the request, the close on the emptied table and the notice about it. -/
theorem eraseDropsEmptiesTheTable : Obligations.EraseDropsEmptiesTheTable :=
  ⟨fun tag _ h => ⟨exec_eraseDrops tag h, fun records => records.count⟩,
    fun _ _ empty record => ⟨close_emptyTable empty record, rfl⟩,
    fun _ empty => noticeContent_emptyTable empty⟩

/-! ### READ_DROP (R156) -/

theorem readDrop_allowed {p : List Byte} (len : p.length = 0 ∨ p.length = 4) : lengthAllowed .readDrop p = true := by
  rcases len with len | len <;> simp [lengthAllowed, len, Config.maxPayload]

/-- R156: without an argument, the oldest record that is not read. -/
theorem recordAsked_oldest {p : List Byte} (len : p.length = 0) (t : List DropRecord) :
    recordAsked p t = t.find? (fun r => !r.read) := if_neg (by omega)

/-- R156: with an argument, the record of that sequence number, read or not. -/
theorem recordAsked_numbered {p : List Byte} (len : p.length = 4) (t : List DropRecord) :
    recordAsked p t = t.find? (fun r => r.core.sequence == at32 p 0) := if_pos len

section Asked

variable (tag : Byte) {p : List Byte} {s : State}

theorem exec_readDrop_none (h : Ready s) (len : p.length = 0 ∨ p.length = 4) (absent : recordAsked p s.ddt.table = none) :
    exec (.readDrop tag p) s = .next (answered .readDrop tag .noData [] s) := by
  refine exec_answers .readDrop h (readDrop_allowed len) ?_
  have asked : recordAsked p (heard s).ddt.table = none := absent
  simp only [handleOwned, handleReadDrop, asked]
  rfl

/-- R156, R170: the record is marked read before the reply that shows it. -/
theorem exec_readDrop_some {r : DropRecord} (h : Ready s) (len : p.length = 0 ∨ p.length = 4)
    (found : recordAsked p s.ddt.table = some r) :
    exec (.readDrop tag p) s =
      .next
        (replied { heard s with ddt := { s.ddt with table := markRead r.core.sequence s.ddt.table } }
          (replyOf .readDrop tag .ok (dropBytes { r with read := true }))) := by
  refine exec_replies .readDrop h (readDrop_allowed len) rfl ?_
  have asked : recordAsked p (heard s).ddt.table = some r := found
  simp only [handleOwned, handleReadDrop, asked]
  rfl

end Asked

/-- Settles O59, by whether the record asked for, in either form of the request, is in the table. -/
theorem readDropMarksRead : Obligations.ReadDropMarksRead := by
  intro tag p s h
  refine ⟨fun len absent => ?_, fun len absent => ?_, fun r asked => ?_⟩
  · exact exec_readDrop_none tag h (.inl len) ((recordAsked_oldest len _).trans absent)
  · exact exec_readDrop_none tag h (.inr len) ((recordAsked_numbered len _).trans absent)
  · obtain ⟨len, found⟩ : (p.length = 0 ∨ p.length = 4) ∧ recordAsked p s.ddt.table = some r := by
      rcases asked with ⟨len, found⟩ | ⟨len, found⟩
      · exact ⟨.inl len, (recordAsked_oldest len _).trans found⟩
      · exact ⟨.inr len, (recordAsked_numbered len _).trans found⟩
    exact ⟨_, exec_readDrop_some tag h len found, rfl, rfl⟩

end Sys2Proof.Motion

/-! ## The command stream, the receiver and the transmitter (O1, O5, O6, O7, O9, O10) -/

namespace Sys2Proof.SystemLink

open Sys2Proof.Machine Sys2Proof.Safety

/-! ### The command stream -/

/-- Settles O1. -/
theorem stepTakesFrontCommand : Obligations.StepTakesFrontCommand := by
  refine ⟨fun c rest s waits => ?_, fun s empty => ?_⟩
  · unfold step
    rw [waits]
  · unfold step
    rw [empty]

/-! ### Raises (R174, R179) -/

theorem raised_outside {u : Slu} {k : NoticeKind} (h : inMask u.noticeMask k = false) : u.raised k = u :=
  if_neg (by rw [h]; decide)

theorem raised_inside {u : Slu} {k : NoticeKind} (h : inMask u.noticeMask k = true) :
    u.raised k =
      { u with
        outbox := u.outbox.set k (min Config.maxOccurrences (u.outbox.get k + 1))
        wake := u.wake || (u.platform == .standby && inMask u.wakeMask k) } := if_pos h

/-- Settles O10: a raise by whether its kind is in the notice mask. -/
theorem raiseCountsInsideTheMask : Obligations.RaiseCountsInsideTheMask := by
  intro k s
  refine ⟨fun outside => ?_, fun inside => ?_⟩
  · unfold raise
    rw [raised_outside outside]
  · have raised := raised_inside (u := s.slu) (k := k) inside
    refine ⟨?_, fun x other => raised_other s.slu k x other, ?_, ?_⟩
    · rw [raise_slu, raised, PerNotice.get_set, if_pos rfl]
      rfl
    · rw [raise_slu, raised]
      rfl
    · exact congrArg (fun u => { s with slu := u }) (raised_link s.slu k)

/-! ### The receiver (R162, R163, R166) -/

theorem foldl_sum (cs : List Byte) (x : Byte) : cs.foldl (· + ·) x = x + cs.foldl (· + ·) 0 := by
  induction cs generalizing x with
  | nil => exact (add_zero x).symm
  | cons c cs ih =>
    rw [List.foldl_cons, List.foldl_cons, ih (x + c), ih (0 + c), zero_add, add_assoc]

/-- R163: the 8-bit sum from length to check. -/
theorem frameSum_eq (len : Nat) (k tag : Byte) (got : List Byte) (c : Byte) :
    frameSum len k tag got c = BitVec.ofNat 8 len + k + tag + got.foldl (· + ·) 0 + c := by
  unfold frameSum sum8
  rw [List.foldl_cons, List.foldl_cons, List.foldl_cons, foldl_sum, zero_add]

/-- R162: what a character does is what the receiver makes of it. -/
theorem exec_rxCharacter {c : Byte} {stop : Bool} {s : State} {r : Received} (h : receive s.slu.rx c stop = r) :
    exec (.rxCharacter c stop) s = .next (takeReceived r s) := by
  subst h
  rfl

/-- A receiver state that stays is no change of the state. -/
theorem goOn_same {s : State} {rx : Receiver} (h : s.slu.rx = rx) : takeReceived (.goOn rx) s = s := by
  subst h
  rfl

/-- R163: inside a frame a low stop bit discards it. -/
theorem receive_framingError {rx : Receiver} (c : Byte) (hunt : rx ≠ .hunt) (lineBreak : rx ≠ .lineBreak) :
    receive rx c false = .discarded := by
  cases rx with
  | hunt => exact absurd rfl hunt
  | lineBreak => exact absurd rfl lineBreak
  | length | kind | tag | payload | check => rfl

/-- Settles O5, by the state of the receiver. -/
theorem charactersAssembleFrames : Obligations.CharactersAssembleFrames := by
  intro c s
  refine ⟨fun rx => ?_, fun rx legal => ?_, fun len rx => ?_, fun len k rx => ?_, fun len k tag got rx => ?_,
    fun rx stop => ?_, fun rx => ?_, fun bad => ?_, fun hunt lineBreak => ?_⟩
  · refine exec_rxCharacter (r := .goOn (if c = 0x5A then .length else .hunt)) ?_
    rw [rx]
    by_cases sync : c = 0x5A
    · rw [if_pos sync]
      exact if_pos ⟨rfl, sync⟩
    · rw [if_neg sync]
      exact if_neg fun found => sync found.2
  · refine exec_rxCharacter (r := .goOn (.kind c.toNat)) ?_
    rw [rx]
    exact if_pos ⟨rfl, legal⟩
  · exact exec_rxCharacter (r := .goOn (.tag len c)) (by rw [rx]; rfl)
  · refine exec_rxCharacter (r := .goOn (if len = 0 then .check len k c [] else .payload len k c [])) ?_
    rw [rx]
    by_cases empty : len = 0 <;> simp [receive, empty]
  · refine exec_rxCharacter
      (r := .goOn (if got.length + 1 < len then .payload len k tag (got ++ [c]) else .check len k tag (got ++ [c]))) ?_
    rw [rx]
    by_cases more : got.length + 1 < len
    · simp [receive, more, Nat.not_le.mpr more]
    · simp [receive, more, Nat.not_lt.mp more]
  · rw [exec_rxCharacter (r := .goOn .lineBreak) (by rw [rx]; rfl), goOn_same rx]
  · rw [exec_rxCharacter (r := .goOn .hunt) (by rw [rx]; rfl), goOn_same rx]
  · refine exec_rxCharacter (r := .discarded) ?_
    rcases bad with ⟨rx, long⟩ | ⟨len, k, tag, got, rx, sum⟩
    · rw [rx]
      exact if_neg fun legal => Nat.not_le.mpr long legal.2
    · rw [rx]
      exact if_neg fun valid => sum ((frameSum_eq len k tag got c).symm.trans valid.2)
  · exact exec_rxCharacter (r := .discarded) (receive_framingError c hunt lineBreak)

/-! ### Gaps and breaks (R164, R165) -/

/-- Settles O7. -/
theorem gapAndBreakDiscard : Obligations.GapAndBreakDiscard := by
  intro s
  refine ⟨fun other => ?_, fun rx => ?_, fun other => if_neg other, fun rx => if_pos rx, fun rx => if_pos rx⟩
  · have hunt : gapped s.slu.rx = .hunt := by
      cases rx : s.slu.rx with
      | lineBreak => exact absurd rx other
      | hunt | length | kind | tag | payload | check => rfl
    exact congrArg (fun rx => Host.Outcome.next (s.setRx rx)) hunt
  · have stays : gapped s.slu.rx = .lineBreak := by rw [rx]; rfl
    exact congrArg Host.Outcome.next ((congrArg s.setRx stays).trans (goOn_same rx))

/-! ### A valid frame (R163, R167, R169, R179) -/

/-- R163: the check character of a valid frame completes it, as a request that arrives. -/
theorem exec_rxFrame_valid {len : Nat} {k tag : Byte} {got : List Byte} {c : Byte} {s : State}
    (rx : s.slu.rx = .check len k tag got) (valid : BitVec.ofNat 8 len + k + tag + got.foldl (· + ·) 0 + c = 0) :
    exec (.rxFrame c true) s =
      .next (receiveRequest { kind := k, tag := tag, payload := got } { s with slu := { s.slu with rx := .hunt } }) := by
  have judged : receiveCheck len k tag got c true = .frame { kind := k, tag := tag, payload := got } :=
    if_pos ⟨rfl, (frameSum_eq len k tag got c).trans valid⟩
  show execRxFrame c true s = _
  unfold execRxFrame
  rw [rx]
  simp only [judged]
  rfl

/-- R163: the frame completes however its check character is given. -/
theorem exec_rxCharacter_check {len : Nat} {k tag : Byte} {got : List Byte} {s : State} (rx : s.slu.rx = .check len k tag got)
    (c : Byte) (stop : Bool) : exec (.rxCharacter c stop) s = exec (.rxFrame c stop) s := by
  show execRxCharacter c stop s = execRxFrame c stop s
  unfold execRxCharacter execRxFrame
  rw [rx]
  rfl

theorem dispatchReady_iff (s : State) : dispatchReady s = true ↔ s.slu.queue ≠ [] ∧ 1 ≤ freeSpace s := by
  simp [dispatchReady]

/-- R169: an event that has not made a dispatch possible ends in the transmitter's choice. -/
theorem finishLink_left {before s : State} (was : dispatchReady (arbitrate s) = true → dispatchReady before = true) :
    finishLink before s = arbitrate s := by
  refine if_neg fun ready => ?_
  rw [was ready.1] at ready
  exact absurd ready.2 (by decide)

/-- R170, R176: a reply of the dispatcher or of the queue, made when nothing else waits for the transmitter. -/
theorem arbitrate_answerRaw (r : Request) (st : Status) {s : State} (ok : TransmitterOk s) :
    arbitrate (answerRaw r st s) = replied s { tag := r.tag, payload := replyPayload r.kind st none [] } :=
  arbitrate_pushReply s _ (fun idle => (ok idle).1) (fun idle => (ok idle).2 .dropAlert)

section Arrives

variable {s : State} (r : Request) (ok : TransmitterOk s)
include ok

/-- R167, R169: a request that cannot be dispatched in its event joins a queue with room. -/
theorem receiveRequest_joins (waits : s.slu.queue ≠ [] ∨ freeSpace s = 0) (room : s.slu.queue.length < 4) :
    receiveRequest r s = { heard s with slu := { (heard s).slu with queue := s.slu.queue ++ [r] } } := by
  have offered : offerRequest r (heard s) = { heard s with slu := { (heard s).slu with queue := s.slu.queue ++ [r] } } :=
    if_pos room
  have idle : arbitrate { heard s with slu := { (heard s).slu with queue := s.slu.queue ++ [r] } } = _ := arbitrate_idle _ ok
  show finishLink s (offerRequest r (heard s)) = _
  rw [offered, finishLink_left, idle]
  rw [idle, dispatchReady_iff, dispatchReady_iff]
  rintro ⟨-, free⟩
  have free : 1 ≤ freeSpace s := free
  exact ⟨waits.resolve_right (by omega), free⟩

/-- R167: a full queue is answered where a reply finds room. -/
theorem receiveRequest_full (full : s.slu.queue.length = 4) (free : 1 ≤ freeSpace s) :
    receiveRequest r s = replied (heard s) { tag := r.tag, payload := replyPayload r.kind .queueFull none [] } := by
  have offered : offerRequest r (heard s) = answerRaw r .queueFull (heard s) :=
    (if_neg (Nat.not_lt.mpr full.ge)).trans (if_pos free)
  have waiting : s.slu.queue ≠ [] := List.ne_nil_of_length_pos (by omega)
  show finishLink s (offerRequest r (heard s)) = _
  rw [offered, finishLink_left fun _ => (dispatchReady_iff s).mpr ⟨waiting, free⟩]
  exact arbitrate_answerRaw r _ (transmitterOk_heard s ok)

/-- R166, R167: and is otherwise discarded and counted. -/
theorem receiveRequest_lost (full : s.slu.queue.length = 4) (busy : freeSpace s = 0) :
    receiveRequest r s = { heard s with slu := (heard s).slu.linkError } := by
  have offered : offerRequest r (heard s) = { heard s with slu := (heard s).slu.linkError } :=
    (if_neg (Nat.not_lt.mpr full.ge)).trans (if_neg (by rw [freeSpace_heard]; omega))
  have idle : arbitrate { heard s with slu := (heard s).slu.linkError } = _ := arbitrate_idle _ ok
  show finishLink s (offerRequest r (heard s)) = _
  rw [offered, finishLink_left, idle]
  rw [idle, dispatchReady_iff]
  rintro ⟨-, free⟩
  have free : 1 ≤ freeSpace s := free
  omega

end Arrives

/-- Settles O6, by what waits and what a reply finds. -/
theorem validFrameIsOffered : Obligations.ValidFrameIsOffered := by
  intro len k tag got c s ok rx valid
  have frame := exec_rxFrame_valid rx valid
  have heardOk : TransmitterOk { s with slu := { s.slu with rx := .hunt } } := ok
  refine ⟨fun waits room => ?_, fun full free => ?_, fun full busy => ?_, fun empty free none => ?_,
    fun c' stop => exec_rxCharacter_check rx c' stop, fun empty free k' same => ?_, fun k' waits room => ?_⟩
  · rw [frame, receiveRequest_joins _ heardOk waits room]
    rfl
  · rw [frame, receiveRequest_full _ heardOk full free]
    rfl
  · rw [frame, receiveRequest_lost _ heardOk full busy]
    rfl
  · have ready : Ready { s with slu := { s.slu with rx := .hunt } } := ⟨empty, free, heardOk⟩
    rw [frame, receiveRequest_ready _ _ ready]
    simp only [handleRequest, none]
    rw [arbitrate_answerRaw _ _ (transmitterOk_heard _ heardOk)]
    rfl
  · rw [frame, exec_command]
    subst same
    rfl
  · rw [exec_command, receiveRequest_joins _ ok waits room]
    rfl

/-! ### The transmitter (R173, R175, R176) -/

theorem firstNotice_none {o : PerNotice Nat} : firstNotice o = none ↔ ∀ k, o.get k = 0 := by
  rw [firstNotice, List.find?_eq_none]
  refine ⟨fun h k => ?_, fun h k _ => by rw [h k]; decide⟩
  have member : k ∈ NoticeKind.all := by cases k <;> decide
  simpa using h k member

/-- R173: the kind found first is the waiting kind of highest priority. -/
theorem firstNotice_some {o : PerNotice Nat} {k : NoticeKind} (waits : o.get k ≠ 0)
    (first : ∀ x, NoticeKind.priority x < NoticeKind.priority k → o.get x = 0) : firstNotice o = some k := by
  cases k <;> simp_all [firstNotice, NoticeKind.all, NoticeKind.priority]

section Chooses

variable {s : State} (idle : s.slu.tx = none)
include idle

theorem arbitrate_dropAlert (drop : s.slu.outbox.dropAlert ≠ 0) :
    arbitrate s = { s with slu := noticeSent s .dropAlert } := by
  simp [arbitrate, arbitrated, idle, drop]

theorem arbitrate_reply {r : Reply} {rest : List Reply} (drop : s.slu.outbox.dropAlert = 0) (waits : s.slu.fifo = r :: rest) :
    arbitrate s = { s with slu := { s.slu with tx := some (replyFrame r), fifo := rest } } := by
  simp [arbitrate, arbitrated, idle, drop, waits]

/-- R173: without a reply, the notice of highest priority goes, DROP_ALERT among them. -/
theorem arbitrate_notice {k : NoticeKind} (empty : s.slu.fifo = []) (first : firstNotice s.slu.outbox = some k) :
    arbitrate s = { s with slu := noticeSent s k } := by
  by_cases drop : s.slu.outbox.dropAlert = 0
  · simp [arbitrate, arbitrated, idle, drop, empty, first]
  · have found : firstNotice s.slu.outbox = some .dropAlert :=
      firstNotice_some drop fun x above => absurd above (by cases x <;> decide)
    rw [arbitrate_dropAlert idle drop, Option.some.inj (found.symm.trans first)]

end Chooses

/-- R176: the state as the frame on SYS_TX ends, before the choice. -/
def freed (s : State) : State := { s with slu := { s.slu with tx := none } }

theorem exec_txFrameEnd {s : State} (busy : s.slu.tx ≠ none) : exec .txFrameEnd s = .next (finishLink s (freed s)) :=
  if_pos (Option.isSome_iff_ne_none.mpr busy)

/-- R169: with no request queued there is none to dispatch. -/
theorem finishLink_empty {before s : State} (empty : s.slu.queue = []) : finishLink before s = arbitrate s := by
  refine finishLink_left fun ready => absurd ((dispatchReady_iff _).mp ready).1 ?_
  rw [arbitrate_slu, SourcePaths.arbitrated_frame]
  exact fun ne => ne empty

/-- Settles O9, in the order of the transmitter's choice. -/
theorem transmitterChoosesByPriority : Obligations.TransmitterChoosesByPriority := by
  intro s busy
  rw [exec_txFrameEnd busy]
  refine ⟨fun r rest waiting drop waits full => ?_, fun empty drop => ?_, fun r rest empty drop waits => ?_,
    fun k empty none waits first => ?_, fun empty none nothing => ?_⟩
  · have chosen := arbitrate_reply (s := freed s) rfl drop waits
    have was : dispatchReady s = false := by
      rw [← Bool.not_eq_true, dispatchReady_iff]
      rintro ⟨-, free⟩
      unfold freeSpace at free
      rw [full] at free
      exact absurd free (by decide)
    have ready : dispatchReady (arbitrate (freed s)) = true := by
      rw [waits, List.length_cons] at full
      refine (dispatchReady_iff _).mpr (chosen ▸ ⟨waiting, ?_⟩)
      show 1 ≤ Config.maxReplies - (rest.length + reservedSpace s)
      unfold Config.maxReplies
      omega
    have dispatched : finishLink s (freed s) = arbitrate (dispatchOne (arbitrate (freed s))) := if_pos ⟨ready, was⟩
    rw [dispatched]
    rw [chosen] at ready ⊢
    exact (if_pos ready).symm
  · rw [finishLink_empty (s := freed s) empty, arbitrate_dropAlert (s := freed s) rfl drop]
    rfl
  · rw [finishLink_empty (s := freed s) empty, arbitrate_reply (s := freed s) rfl drop waits]
    rfl
  · rw [finishLink_empty (s := freed s) empty,
      arbitrate_notice (s := freed s) rfl none (firstNotice_some waits first)]
    rfl
  · rw [finishLink_empty (s := freed s) empty, arbitrate_idle (freed s) fun _ => ⟨none, nothing⟩]
    rfl

end Sys2Proof.SystemLink

/-! ## Every step keeps the limits of the link and a busy transmitter (O11, O12) -/

namespace Sys2Proof.SystemLink

open Sys2Proof.Machine Sys2Proof.Safety Sys2Proof.SourcePaths Sys2Proof.SupplyLaws

/-! ### What the operations of a block do to the stores of the link -/

/-- R168: what the replies and the reserved space take up. -/
def replySpace (s : State) : Nat := s.slu.fifo.length + reservedSpace s

/-- `t` has at most `n` replies, made or owed, more than `s`, and no other store of the link grows beyond its limit. -/
structure LinkFrame (n : Nat) (s t : State) : Prop where
  queue : t.slu.queue.length ≤ s.slu.queue.length
  replies : replySpace t ≤ replySpace s + n
  outbox : (∀ k, s.slu.outbox.get k ≤ Config.maxOccurrences) → ∀ k, t.slu.outbox.get k ≤ Config.maxOccurrences
  errors : t.slu.linkErrors ≤ s.slu.linkErrors

theorem LinkFrame.trans {m n : Nat} {s t u : State} (h : LinkFrame m s t) (g : LinkFrame n t u) : LinkFrame (m + n) s u where
  queue := g.queue.trans h.queue
  replies := by
    have first := h.replies
    have second := g.replies
    omega
  outbox := fun ok => g.outbox (h.outbox ok)
  errors := g.errors.trans h.errors

/-- An operation that makes no reply, after one that makes `n`. -/
theorem LinkFrame.andThen {n : Nat} {s t u : State} (h : LinkFrame n s t) (g : LinkFrame 0 t u) : LinkFrame n s u := h.trans g

/-- An operation that makes `n` replies, after one that makes none. -/
theorem LinkFrame.before {n : Nat} {s t u : State} (g : LinkFrame n t u) (h : LinkFrame 0 s t) : LinkFrame n s u :=
  Nat.zero_add n ▸ h.trans g

/-- An operation outside the SLU. -/
theorem linkFrame_same {s t : State} (h : t.slu = s.slu) : LinkFrame 0 s t where
  queue := by rw [h]
  replies := by
    unfold replySpace reservedSpace
    rw [h]
    exact le_rfl
  outbox := by rw [h]; exact id
  errors := by rw [h]

/-- A further change outside the SLU. -/
theorem LinkFrame.aside {n : Nat} {s t : State} (h : LinkFrame n s t) {c : Spc} {l : Ltc} {v : Scv} {e : Bre} {d : Lmd}
    {m : Mpt} {x : Ddt} {q : List Instr} :
    LinkFrame n s { t with spc := c, ltc := l, scv := v, bre := e, lmd := d, mpt := m, ddt := x, pending := q } :=
  ⟨h.queue, h.replies, h.outbox, h.errors⟩

theorem LinkFrame.refl (s : State) : LinkFrame 0 s s := linkFrame_same rfl

/-- The switchover logic, the latches and the examination of the triggers make the replies that are owed, in their reserved space. -/
theorem linkFrame_reported {s t : State} (h : Reported s t) : LinkFrame 0 s t where
  queue := by rw [h.link]
  replies := h.used.le
  outbox := h.outbox
  errors := by rw [h.link]

theorem linkFrame_settle (b : Bool) (s : State) : LinkFrame 0 s (settle b s) := linkFrame_reported (kept_settle b s).toReported

theorem linkFrame_raise (k : NoticeKind) (s : State) : LinkFrame 0 s (raise k s) where
  queue := by rw [raise_slu, raised_queue]
  replies := by
    unfold replySpace
    rw [reservedSpace_raise, raise_slu, raised_fifo]
    exact le_rfl
  outbox := raised_outbox_le s.slu k
  errors := by rw [raise_slu, raised_linkErrors]

theorem linkFrame_raiseIf (b : Bool) (k : NoticeKind) (s : State) : LinkFrame 0 s (raiseIf b k s) := by
  cases b
  · exact .refl s
  · exact linkFrame_raise k s

/-- R78, R172: the owed CONVERT_NOW reply takes the space that was reserved for it. -/
theorem linkFrame_answerConvert (st : Status) (c : Channel) (s : State) : LinkFrame 0 s (answerConvert st c s) := by
  unfold answerConvert
  split
  · exact .refl s
  · rename_i tag owed
    refine ⟨le_rfl, ?_, id, le_rfl⟩
    simp [replySpace, reservedSpace, Slu.pushReply, owed]
    omega

/-- R170, R173: a reply that is made at dispatch joins the FIFO. -/
theorem linkFrame_pushReply (r : Reply) (s : State) : LinkFrame 1 s { s with slu := s.slu.pushReply r } := by
  refine ⟨le_rfl, ?_, id, le_rfl⟩
  simp [replySpace, reservedSpace, Slu.pushReply]
  omega

theorem linkFrame_answer (tag : Byte) (k : ReqKind) (st : Status) (res : List Byte) (s : State) :
    LinkFrame 1 s (answer tag k st res s) := linkFrame_pushReply _ s

/-- An operation that makes no reply, and the answer after it. -/
theorem LinkFrame.answered {s t : State} (h : LinkFrame 0 s t) (tag : Byte) (k : ReqKind) (st : Status) (res : List Byte) :
    LinkFrame 1 s (answer tag k st res t) := (linkFrame_answer tag k st res t).before h

/-- R175, R176: the transmitter's choice takes a reply or an entry away. -/
theorem linkFrame_arbitrate (s : State) : LinkFrame 0 s (arbitrate s) := by
  have taken : ∀ k, (∀ x, s.slu.outbox.get x ≤ Config.maxOccurrences) →
      ∀ x, (s.slu.outbox.set k 0).get x ≤ Config.maxOccurrences := fun k ok x => by
    rw [PerNotice.get_set]
    split
    · exact Nat.zero_le _
    · exact ok x
  unfold arbitrate arbitrated
  split
  · exact .refl s
  · split
    · exact ⟨le_rfl, le_rfl, taken .dropAlert, le_rfl⟩
    · split
      · rename_i r rest waits
        refine ⟨le_rfl, ?_, id, le_rfl⟩
        simp [replySpace, reservedSpace, waits]
      · split
        · rename_i k _
          exact ⟨le_rfl, le_rfl, taken k, le_rfl⟩
        · exact .refl s

/-! ### The events of the supply and the latches -/

theorem linkFrame_tripAndReport (p : Source) (cause : FaultCause) (s : State) : LinkFrame 0 s (tripAndReport p cause s) :=
  ((LinkFrame.refl s).aside.andThen (linkFrame_raise .pathFault _)).andThen
    (linkFrame_reported (reported_pathDown p .tripped (trip p cause s)))

theorem linkFrame_openAndReport (p : Source) (d : DownReport) (s : State) : LinkFrame 0 s (openAndReport p d s) :=
  linkFrame_reported (reported_openAndReport p d s)

theorem linkFrame_overStep (p : Source) (s : State) : LinkFrame 0 s (overStep p s) := by
  unfold overStep
  dsimp only
  split
  · split
    · exact linkFrame_same rfl
    · exact linkFrame_tripAndReport _ _ _
  · exact linkFrame_same rfl

theorem linkFrame_protect (p : Source) (s : State) : LinkFrame 0 s (protect p s) := by
  unfold protect
  cases (s.path p).state with
  | closing =>
    exact iteInduction (fun _ => linkFrame_openAndReport _ _ _) fun _ =>
      iteInduction (fun _ => linkFrame_tripAndReport _ _ _) fun _ => .refl s
  | closed =>
    exact iteInduction (fun _ => linkFrame_openAndReport _ _ _) fun _ =>
      iteInduction (fun _ => linkFrame_tripAndReport _ _ _) fun _ => linkFrame_overStep p s
  | opened | tripped | lockedOut => exact .refl s

theorem linkFrame_removeBattery (was : Bool) (bay : Bay) (s : State) : LinkFrame 0 s (removeBattery was bay s) := by
  unfold removeBattery
  split
  · exact linkFrame_reported (kept_endWindow _ _ _).toReported
  · exact .refl s

theorem linkFrame_holdDropout (s : State) : LinkFrame 0 s (holdDropout s) := by
  unfold holdDropout
  split
  · exact linkFrame_openAndReport _ _ _
  · exact .refl s

theorem linkFrame_lossStep (s : State) : LinkFrame 0 s (lossStep s) := by
  unfold lossStep
  split
  · exact linkFrame_openAndReport _ _ _
  · split <;> exact linkFrame_same rfl

/-- R1: time and measurements leave the stores of the link. -/
theorem linkFrame_sampled (r : Readings) (s : State) : LinkFrame 0 s (sampled r s) := by
  have link := (stored_sampled r s).link
  refine ⟨by rw [link], ?_, by rw [link]; exact id, by rw [link]⟩
  unfold replySpace reservedSpace
  rw [link]
  exact le_rfl

theorem linkFrame_sampledPaths (r : Readings) (s : State) : LinkFrame 0 s (sampledPaths r s) := by
  have removals := ((linkFrame_sampled r s).andThen (linkFrame_removeBattery (present s .bayA) .a _)).andThen
    (linkFrame_removeBattery (present s .bayB) .b _)
  have protections := ((removals.andThen (linkFrame_protect .dcIn _)).andThen (linkFrame_protect .bayA _)).andThen
    (linkFrame_protect .bayB _)
  exact protections.andThen (linkFrame_holdDropout _)

theorem linkFrame_busLowStep (s : State) : LinkFrame 0 s (busLowStep s) :=
  (LinkFrame.refl s).aside.andThen (linkFrame_raiseIf (busLowHere s) .busLow _)

theorem linkFrame_sample (r : Readings) (s : State) : LinkFrame 0 s (monitorSample r s) :=
  (((linkFrame_sampledPaths r s).andThen (linkFrame_lossStep _)).andThen (linkFrame_busLowStep _)).andThen
    (linkFrame_settle _ _)

theorem linkFrame_blankingEnd (p : Source) (s : State) : LinkFrame 0 s (blankingEnd p s) := by
  unfold blankingEnd
  split
  · exact linkFrame_tripAndReport _ _ _
  · exact (LinkFrame.refl s).aside.andThen (linkFrame_reported (reported_pathClosed p _))

theorem linkFrame_releaseRequest (bay : Bay) (o : Origin) (s : State) : LinkFrame 0 s (releaseRequest bay o s) := by
  unfold releaseRequest
  cases (s.latch bay).release with
  | idle =>
    have examined := (calm_examineHeld (pendRelease bay o s)).toKept.trans (kept_evaluate bay _)
    exact (LinkFrame.refl s).aside.andThen (linkFrame_reported examined.toReported)
  | pending | granted => exact linkFrame_same rfl

/-! ### Conversions, frames and measurements -/

theorem linkFrame_published (c : Channel) (stored : Bool) (s : State) :
    LinkFrame 0 s (publishChannel c stored s) ∧ LinkFrame 0 s (publishStale c s) := by
  cases c with
  | alsFront | alsRear | thPanel => exact ⟨linkFrame_same rfl, linkFrame_same rfl⟩
  | thBayA | thBayB => exact ⟨linkFrame_settle _ _, linkFrame_settle _ _⟩

theorem linkFrame_finishOneShot (c : Channel) (s : State) : LinkFrame 0 s (finishOneShot c s) := by
  unfold finishOneShot
  split
  · exact (LinkFrame.refl s).aside.andThen (linkFrame_answerConvert _ _ _)
  · exact .refl s
  · exact .refl s

theorem linkFrame_conversion (c : Channel) (stored : Bool) (r : ChannelRecord) (s : State) :
    LinkFrame 0 s (conversionEnd c stored r s) := by
  have result : LinkFrame 0 s (if discards s.scv then s else storeResult c stored r s) := by
    split
    · exact .refl s
    · have raised : LinkFrame 0 s (raiseIf (newFault (s.scv.records.get c).fault r.fault) .senseFault (s.setChannel c r)) :=
        (LinkFrame.refl s).aside.andThen (linkFrame_raiseIf _ _ _)
      exact raised.andThen (linkFrame_published c stored _).1
  exact (result.andThen (linkFrame_finishOneShot c _)).aside

theorem linkFrame_breMotion (hold : Bool) (s : State) : LinkFrame 0 s (breMotion hold s) := (LinkFrame.refl s).aside

theorem linkFrame_publishPhase (before after : MotionPhase) (s : State) : LinkFrame 0 s (publishPhase before after s) := by
  unfold publishPhase motionLeft motionReturned
  split
  · have revoked := (kept_revokeBay .a s).trans (kept_revokeBay .b _)
    exact ((linkFrame_reported revoked.toReported).andThen (linkFrame_breMotion true _)).andThen (linkFrame_settle _ _)
  · split
    · exact (linkFrame_breMotion false s).andThen (linkFrame_settle _ _)
    · exact .refl s

theorem linkFrame_frameTaken (f : AccelFrame) (s : State) : LinkFrame 0 s (frameTaken f s) := by
  have raised : LinkFrame 0 s (raiseMotion (frameEvents f s) { s with mpt := s.mpt.frameTaken f, ddt := (ddtAfter f s).1 }) :=
    (((LinkFrame.refl s).aside.andThen (linkFrame_raiseIf _ .motionLink _)).andThen (linkFrame_raiseIf _ .dropAlert _)).andThen
      (linkFrame_raiseIf _ .dropRecord _)
  exact raised.andThen (linkFrame_publishPhase _ _ _)

theorem linkFrame_measurement (delivered : Nat) (r : StringReadings) (s : State) :
    LinkFrame 0 s (stringMeasurement delivered r s) := by
  unfold stringMeasurement raiseLampFaults
  split
  · exact ((((LinkFrame.refl s).aside.andThen (linkFrame_raiseIf _ _ _)).andThen (linkFrame_raiseIf _ _ _)).andThen
      (linkFrame_raiseIf _ _ _)).andThen (linkFrame_raiseIf _ _ _)
  · exact .refl s

/-! ### The requests: each makes one reply, or owes one -/

theorem linkFrame_setPath (tag : Byte) (p : List Byte) (s : State) : LinkFrame 1 s (handleSetPath tag p s) := by
  unfold handleSetPath
  split
  · exact linkFrame_answer ..
  · rename_i a _
    split
    · exact linkFrame_answer ..
    · have stored : LinkFrame 0 s (onMembers a.members (changePath fun q r => r.stored (a.stored q)) s) :=
        onMembers_keeps _ _ (fun _ _ h => h.aside) (.refl s)
      exact (stored.andThen (linkFrame_settle false _)).answered ..

theorem linkFrame_getPath (tag : Byte) (p : List Byte) (s : State) : LinkFrame 1 s (handleGetPath tag p s) := by
  unfold handleGetPath
  split
  · exact linkFrame_answer ..
  · refine LinkFrame.answered (t := readPath _ s) ?_ ..
    unfold readPath
    dsimp only
    split
    · exact linkFrame_same rfl
    · exact (LinkFrame.refl s).aside.andThen (linkFrame_settle false _)

theorem linkFrame_clearPath (tag : Byte) (p : List Byte) (s : State) : LinkFrame 1 s (handleClearPath tag p s) := by
  unfold handleClearPath
  split
  · exact linkFrame_answer ..
  · rename_i m _
    have cleared : LinkFrame 0 s (onMembers m (changePath fun _ r => r.cleared) s) :=
      onMembers_keeps _ _ (fun _ _ h => h.aside) (.refl s)
    exact (cleared.andThen (linkFrame_settle false _)).answered ..

/-- R48, R168, R172: an accepted SELECT_SOURCE reserves the space of its reply. -/
theorem linkFrame_selectSource (tag : Byte) (p : List Byte) (s : State) : LinkFrame 1 s (handleSelectSource tag p s) := by
  unfold handleSelectSource
  split
  · exact linkFrame_answer ..
  · refine iteInduction (fun _ => linkFrame_answer ..) fun _ => iteInduction (fun _ => linkFrame_answer ..) fun _ => ?_
    have owed : LinkFrame 1 s { s with slu := { s.slu with owedSelect := some tag } } := by
      refine ⟨le_rfl, ?_, id, le_rfl⟩
      simp [replySpace, reservedSpace]
      omega
    exact owed.andThen
      (linkFrame_reported ((calm_startSwitchover _ _ _ _ _).toKept.trans (kept_settle false _)).toReported)

/-- R52, R168, R172: an accepted RELEASE_BAY reserves the space of its reply. -/
theorem linkFrame_releaseBay (tag : Byte) (p : List Byte) (s : State) : LinkFrame 1 s (handleReleaseBay tag p s) := by
  unfold handleReleaseBay
  split
  · exact linkFrame_answer ..
  · rename_i bay _
    refine iteInduction (fun _ => linkFrame_answer ..) fun _ =>
      iteInduction (fun _ => (linkFrame_releaseRequest bay .host s).answered ..) fun _ => ?_
    have owed : LinkFrame 1 s (oweRelease tag bay s) := by
      refine ⟨le_rfl, ?_, id, le_rfl⟩
      simp [replySpace, reservedSpace, oweRelease]
      omega
    exact (owed.andThen (linkFrame_releaseRequest bay .host _)).andThen (linkFrame_settle false _)

/-- R77, R168, R172: an accepted CONVERT_NOW reserves the space of its reply. -/
theorem linkFrame_convertNow (tag : Byte) (p : List Byte) (s : State) : LinkFrame 1 s (handleConvertNow tag p s) := by
  unfold handleConvertNow
  split
  · exact linkFrame_answer ..
  · refine iteInduction (fun _ => linkFrame_answer ..) fun _ => iteInduction (fun _ => linkFrame_answer ..) fun _ => ?_
    refine ⟨le_rfl, ?_, id, le_rfl⟩
    simp [replySpace, reservedSpace]
    omega

theorem linkFrame_setMotion (tag : Byte) (p : List Byte) (s : State) : LinkFrame 1 s (handleSetMotion tag p s) := by
  unfold handleSetMotion
  split
  · exact linkFrame_answer ..
  · rename_i rate a _
    exact iteInduction (fun _ => linkFrame_answer ..) fun _ =>
      ((LinkFrame.refl s).aside.andThen (linkFrame_raiseIf _ .motionLink _)).answered ..

/-- R178: the platform state and the wake mask are none of the stores. -/
theorem linkFrame_setPlatform (tag : Byte) (p : List Byte) (s : State) : LinkFrame 1 s (handleSetPlatform tag p s) := by
  unfold handleSetPlatform
  split
  · rename_i q mask _ _
    have masked : LinkFrame 0 s { s with slu := { s.slu with platform := q, wakeMask := mask } } :=
      ⟨le_rfl, le_rfl, id, le_rfl⟩
    refine LinkFrame.answered (masked.andThen ?_) ..
    unfold publishPlatform
    dsimp only
    split <;> exact linkFrame_same rfl
  · exact linkFrame_answer ..
  · exact linkFrame_answer ..

/-- R183: RESET empties the queue and the outbox, and takes the link error count to 0. -/
theorem linkFrame_resetBlocks (s : State) : LinkFrame 0 s (resetBlocks s) :=
  ⟨Nat.zero_le _, le_rfl, fun _ k => by cases k <;> exact Nat.zero_le _, Nat.zero_le _⟩

theorem linkFrame_examineReset (s : State) : LinkFrame 0 s (examineReset s) := by
  unfold examineReset examineHeldWith
  refine LinkFrame.aside ?_
  split
  · exact linkFrame_same rfl
  · split
    · split
      · exact .refl s
      · unfold markSole
        exact iteInduction (fun _ => .refl s) fun _ => (LinkFrame.refl s).aside.andThen (linkFrame_raise .supplyChange _)
    · exact .refl s

theorem linkFrame_cancelOwed (oneShot : Option Channel) (s : State) : LinkFrame 0 s (cancelOwed oneShot s) := by
  have releases := linkFrame_reported
    ((kept_answerRelease .a .cancelled none s).trans (kept_answerRelease .b .cancelled none _)).toReported
  unfold cancelOwed
  cases oneShot with
  | none => exact releases
  | some c => exact releases.andThen (linkFrame_answerConvert _ _ _)

theorem linkFrame_reset (tag : Byte) (p : List Byte) (s : State) : LinkFrame 1 s (handleReset tag p s) := by
  unfold handleReset
  exact iteInduction (fun _ => linkFrame_answer ..) fun _ =>
    ((((linkFrame_resetBlocks s).andThen (linkFrame_reported (calm_publishSituation _).toReported)).andThen
      (linkFrame_examineReset _)).andThen (linkFrame_cancelOwed _ _)).answered ..

theorem linkFrame_handled (k : ReqKind) (tag : Byte) (p : List Byte) (s : State) : LinkFrame 1 s (handleOwned k tag p s) := by
  cases k with
  | setPath => exact linkFrame_setPath tag p s
  | getPath => exact linkFrame_getPath tag p s
  | clearPath => exact linkFrame_clearPath tag p s
  | selectSource => exact linkFrame_selectSource tag p s
  | releaseBay => exact linkFrame_releaseBay tag p s
  | convertNow => exact linkFrame_convertNow tag p s
  | setMotion => exact linkFrame_setMotion tag p s
  | setPlatform => exact linkFrame_setPlatform tag p s
  | reset => exact linkFrame_reset tag p s
  | getSupply | getSense | getBrightness | getMotion | getStatus | getIdent => exact linkFrame_answer ..
  | eraseDrops => exact (LinkFrame.refl s).aside.answered ..
  | setSupply =>
    unfold handleOwned handleSetSupply
    dsimp only
    split
    · exact linkFrame_answer ..
    · exact ((LinkFrame.refl s).aside.andThen (linkFrame_settle false _)).answered ..
  | packInfo =>
    unfold handleOwned handlePackInfo
    dsimp only
    split
    · exact linkFrame_answer ..
    · exact iteInduction (fun _ => linkFrame_answer ..) fun _ =>
        ((LinkFrame.refl s).aside.andThen (linkFrame_settle false _)).answered ..
  | getLatch =>
    unfold handleOwned handleGetLatch
    dsimp only
    split <;> exact linkFrame_answer ..
  | setSense =>
    unfold handleOwned handleSetSense
    dsimp only
    split <;> exact (LinkFrame.refl s).aside.answered ..
  | loadThermistor =>
    unfold handleOwned handleLoadThermistor
    dsimp only
    split <;> exact (LinkFrame.refl s).aside.answered ..
  | setBrightness =>
    unfold handleOwned handleSetBrightness
    dsimp only
    split <;> exact (LinkFrame.refl s).aside.answered ..
  | loadCurve =>
    unfold handleOwned handleLoadCurve
    dsimp only
    split <;> exact (LinkFrame.refl s).aside.answered ..
  | setLamp =>
    unfold handleOwned handleSetLamp
    dsimp only
    split <;> exact (LinkFrame.refl s).aside.answered ..
  | getLamp =>
    unfold handleOwned handleGetLamp
    dsimp only
    split <;> exact linkFrame_answer ..
  | lampClear =>
    unfold handleOwned handleLampClear
    dsimp only
    split <;> exact (LinkFrame.refl s).aside.answered ..
  | readDrop =>
    unfold handleOwned handleReadDrop
    dsimp only
    split <;> exact (LinkFrame.refl s).aside.answered ..
  | setNoticeMask =>
    unfold handleOwned handleSetNoticeMask
    dsimp only
    split
    · rename_i mask _
      have masked : LinkFrame 0 s { s with slu := { s.slu with noticeMask := mask } } := ⟨le_rfl, le_rfl, id, le_rfl⟩
      exact masked.answered ..
    · exact linkFrame_answer ..

theorem linkFrame_request (r : Request) (s : State) : LinkFrame 1 s (handleRequest r s) := by
  unfold handleRequest
  split
  · exact linkFrame_pushReply _ s
  · exact iteInduction (fun _ => linkFrame_handled _ _ _ _) fun _ => linkFrame_pushReply _ s

/-! ### The limits (R166, R167, R168, R173, R174) -/

theorem LinkFrame.keeps {s t : State} (h : LinkFrame 0 s t) (ok : LinkOk s) : LinkOk t where
  queue := h.queue.trans ok.queue
  replies := h.replies.trans ok.replies
  outbox := h.outbox ok.outbox
  errors := h.errors.trans ok.errors

/-- R168: free reply space is room for one reply. -/
theorem LinkFrame.keeps_free {s t : State} (h : LinkFrame 1 s t) (ok : LinkOk s) (free : 1 ≤ freeSpace s) : LinkOk t where
  queue := h.queue.trans ok.queue
  replies := by
    have made := h.replies
    unfold replySpace at made
    unfold freeSpace at free
    omega
  outbox := h.outbox ok.outbox
  errors := h.errors.trans ok.errors

/-- R169: a dispatch makes or owes its one reply in the space that it found free. -/
theorem linkOk_dispatch {s : State} (h : LinkOk s) (ready : dispatchReady s = true) : LinkOk (dispatchOne s) := by
  unfold dispatchOne
  split
  · exact h
  · rename_i r rest waits
    have free := ((dispatchReady_iff s).mp ready).2
    have taken : LinkFrame 0 s { s with slu := { s.slu with queue := rest } } :=
      ⟨by rw [waits]; exact Nat.le_succ _, le_rfl, id, le_rfl⟩
    exact ((linkFrame_request r _).before taken).keeps_free h free

theorem linkOk_finishLink {s : State} (before : State) (h : LinkOk s) : LinkOk (finishLink before s) := by
  have chosen := (linkFrame_arbitrate s).keeps h
  unfold finishLink
  dsimp only
  split
  · rename_i ready
    exact (linkFrame_arbitrate _).keeps (linkOk_dispatch chosen ready.1)
  · exact chosen

/-- R166: the link error count stops at its limit. -/
theorem linkOk_linkError {s : State} (h : LinkOk s) : LinkOk { s with slu := s.slu.linkError } :=
  ⟨h.queue, h.replies, h.outbox, Nat.min_le_left _ _⟩

/-- R167: a frame joins a queue with room, or is answered in free reply space. -/
theorem linkOk_offerRequest {s : State} (r : Request) (h : LinkOk s) : LinkOk (offerRequest r s) := by
  unfold offerRequest
  split
  · rename_i room
    refine ⟨?_, h.replies, h.outbox, h.errors⟩
    rw [List.length_append]
    exact room
  · exact iteInduction (fun free => (linkFrame_pushReply _ s).keeps_free h free) fun _ => linkOk_linkError h

/-! ### The transmitter (R176) -/

/-- R176: after its choice, whatever it was, nothing waits for a transmitter that is IDLE. -/
theorem transmitterOk_arbitrate (s : State) : TransmitterOk (arbitrate s) := by
  intro idle
  rw [arbitrate_slu] at idle ⊢
  unfold arbitrated at idle ⊢
  cases tx : s.slu.tx with
  | some f => simp [tx] at idle
  | none =>
    by_cases drop : s.slu.outbox.dropAlert ≠ 0
    · simp [tx, drop, noticeSent] at idle
    · cases waits : s.slu.fifo with
      | cons r rest => simp [tx, drop, waits] at idle
      | nil =>
        cases first : firstNotice s.slu.outbox with
        | some k => simp [tx, drop, waits, first, noticeSent] at idle
        | none => simpa [tx, drop, waits, first] using firstNotice_none.mp first

theorem transmitterOk_finishLink (before s : State) : TransmitterOk (finishLink before s) := by
  unfold finishLink
  dsimp only
  split <;> exact transmitterOk_arbitrate _

/-! ### Every command -/

/-- A command that leads from `s` to `t` keeps both laws of the link. -/
structure Linked (s t : State) : Prop where
  limits : LinkOk s → LinkOk t
  busy : TransmitterOk s → TransmitterOk t

theorem Linked.refl (s : State) : Linked s s := ⟨id, id⟩

/-- An event outside the SLU, which makes no notice and no reply. -/
theorem linked_same {s t : State} (h : t.slu = s.slu) : Linked s t :=
  ⟨(linkFrame_same h).keeps, fun busy => by unfold TransmitterOk; rw [h]; exact busy⟩

/-- An event that ends in the transmitter's choice. -/
theorem linked_arbitrate {s v : State} (h : LinkFrame 0 s v) : Linked s (arbitrate v) :=
  ⟨(h.andThen (linkFrame_arbitrate v)).keeps, fun _ => transmitterOk_arbitrate v⟩

/-- The end of an event that examines the triggers. -/
theorem linked_event {s v : State} (b : Bool) (h : LinkFrame 0 s v) : Linked s (arbitrate (settle b v)) :=
  linked_arbitrate (h.andThen (linkFrame_settle b v))

/-- An event that changes nothing when its condition does not hold. -/
theorem linked_ite {s t : State} {c : Prop} [Decidable c] (acts : Linked s t) :
    Leads (Linked s) (if c then .next t else .next s) :=
  leads_ite (fun _ => leads_next acts) fun _ => leads_next (.refl s)

/-- R163, R167: a valid frame is offered to the queue. -/
theorem linked_offered (before : State) {s v : State} (r : Request) (h : LinkFrame 0 s v) :
    Linked s (finishLink before (offerRequest r v)) :=
  ⟨fun ok => linkOk_finishLink before (linkOk_offerRequest r (h.keeps ok)), fun _ => transmitterOk_finishLink _ _⟩

theorem linked_receiveRequest (r : Request) (s : State) : Linked s (receiveRequest r s) :=
  linked_offered s r ⟨le_rfl, le_rfl, id, le_rfl⟩

theorem linked_takeReceived (r : Received) (s : State) : Linked s (takeReceived r s) := by
  cases r with
  | goOn rx => exact ⟨fun h => ⟨h.queue, h.replies, h.outbox, h.errors⟩, id⟩
  | discarded => exact ⟨fun h => ⟨h.queue, h.replies, h.outbox, (linkOk_linkError h).errors⟩, id⟩
  | frame r => exact linked_offered s r ⟨le_rfl, le_rfl, id, le_rfl⟩

theorem linked_rxFrame (check : Byte) (stop : Bool) (s : State) : Leads (Linked s) (execRxFrame check stop s) := by
  unfold execRxFrame
  split
  · exact leads_next (linked_takeReceived _ s)
  all_goals exact leads_next (.refl s)

/-- R165: a break discards the queue, the FIFO and the replies owed. -/
theorem linked_break (s : State) : Linked s (breakLink s) :=
  ⟨fun h => ⟨Nat.zero_le _, Nat.zero_le _, h.outbox, h.errors⟩, fun busy idle => ⟨rfl, (busy idle).2⟩⟩

theorem linked_conversionEnds (s : State) :
    (∀ edges, Leads (Linked s) (execLightConversionEnd edges s)) ∧
      (∀ count, Leads (Linked s) (execThermistorConversionEnd count s)) ∧ Leads (Linked s) (execThermistorTimeout s) := by
  have ended : ∀ c stored r, Leads (Linked s) (.next (arbitrate (conversionEnd c stored r s))) := fun c stored r =>
    leads_next (linked_arbitrate (linkFrame_conversion c stored r s))
  refine ⟨fun edges => ?_, fun count => ?_, ?_⟩
  · unfold execLightConversionEnd
    split
    · exact ended _ _ _
    · exact leads_next (.refl s)
  · unfold execThermistorConversionEnd
    split
    · exact ended _ _ _
    · exact leads_next (.refl s)
  · unfold execThermistorTimeout
    split
    · exact ended _ _ _
    · exact leads_next (.refl s)

theorem linked_frameEnd (f : AccelFrame) (s : State) : Linked s (frameEnd f s) := by
  unfold frameEnd
  split
  · exact .refl s
  · exact linked_same rfl
  · exact linked_arbitrate (linkFrame_frameTaken f s)

theorem linked_frameEndWith (e : MotionEvent) (f : AccelFrame) (s : State) : Linked s (frameEndWith e f s) := by
  unfold frameEndWith
  split
  · exact linked_frameEnd f s
  · exact .refl s

theorem linked_exec (c : Instr) (s : State) : Leads (Linked s) (exec c s) := by
  have same : ∀ t, t.slu = s.slu → Linked s t := fun _ => linked_same
  obtain ⟨lightEnd, thermistorEnd, timeout⟩ := linked_conversionEnds s
  cases c with
  | powerOnReset =>
    exact leads_next
      ⟨fun _ => ⟨Nat.zero_le _, Nat.zero_le _, fun k => by cases k <;> exact Nat.zero_le _, Nat.zero_le _⟩,
        fun _ _ => ⟨rfl, fun k => by cases k <;> rfl⟩⟩
  -- The link.
  | rxFrame check stop => exact linked_rxFrame check stop s
  | rxCharacter char stop => exact leads_next (linked_takeReceived _ s)
  | frameGapTimeout => exact leads_next (linked_takeReceived (.goOn _) s)
  | lineBreak => exact leads_ite (fun _ => leads_next (.refl s)) fun _ => leads_next (linked_break s)
  | breakEnd => exact linked_ite (linked_takeReceived (.goOn .hunt) s)
  | requestDispatch =>
    exact leads_ite
      (fun ready => leads_next
        ⟨fun ok => (linkFrame_arbitrate _).keeps (linkOk_dispatch ok ready), fun _ => transmitterOk_arbitrate _⟩)
      fun _ => leads_next (.refl s)
  | txFrameEnd =>
    exact linked_ite
      ⟨fun ok => linkOk_finishLink s ⟨ok.queue, ok.replies, ok.outbox, ok.errors⟩, fun _ => transmitterOk_finishLink _ _⟩
  -- The requests.
  | setPath tag p | getPath tag p | clearPath tag p | setSupply tag p | getSupply tag p | selectSource tag p
  | packInfo tag p | releaseBay tag p | getLatch tag p | setSense tag p | getSense tag p | loadThermistor tag p
  | convertNow tag p | setBrightness tag p | getBrightness tag p | loadCurve tag p | setLamp tag p | getLamp tag p
  | lampClear tag p | setMotion tag p | getMotion tag p | readDrop tag p | eraseDrops tag p | setPlatform tag p
  | setNoticeMask tag p | getStatus tag p | getIdent tag p | resetRequest tag p =>
    exact leads_next (linked_receiveRequest _ s)
  -- The source paths and the supply.
  | monitorSample r => exact leads_next (linked_arbitrate (linkFrame_sample r s))
  | lossDeclared r | busLowActivate r => exact linked_ite (linked_arbitrate (linkFrame_sample r s))
  | blankingEnd p => exact linked_ite (linked_event false (linkFrame_blankingEnd p s))
  | goodCloseInterval p => exact linked_ite (same _ rfl)
  | emptyTimerExpiry _ | retryTimerExpiry _ | startUpIntervalEnd | preemptionTimerExpiry _ | busLowRecovery =>
    exact linked_ite (linked_event false (LinkFrame.refl s).aside)
  | deadTimeExpiry => exact linked_ite (linked_event false (linkFrame_reported (reported_deadTimeExpiry s)))
  | overlapTimerExpiry => exact linked_ite (linked_event false (linkFrame_reported (reported_overlapExpiry s)))
  -- The bay latches.
  | buttonPress bay =>
    exact linked_ite (linked_event false ((LinkFrame.refl s).aside.andThen (linkFrame_releaseRequest bay .button _)))
  | buttonInactive _ | latchSenseChange _ _ => exact leads_next (same _ rfl)
  | releaseWindowExpiry bay =>
    exact linked_ite (linked_event true (linkFrame_reported (kept_endWindow bay .expired s).toReported))
  | latchFaultTimerExpiry bay =>
    exact linked_ite (linked_event false ((LinkFrame.refl s).aside.andThen (linkFrame_raise .release _)))
  | latchStuckTimerExpiry bay =>
    exact linked_ite (linked_arbitrate ((LinkFrame.refl s).aside.andThen (linkFrame_raise .release _)))
  -- The sense converter.
  | lightConversionEnd edges => exact lightEnd edges
  | thermistorConversionEnd count => exact thermistorEnd count
  | thermistorTimeout => exact timeout
  | channelStale c =>
    have raised : LinkFrame 0 s (raise .senseFault (s.setChannel c (s.scv.records.get c).staled)) :=
      (LinkFrame.refl s).aside.andThen (linkFrame_raise .senseFault _)
    exact linked_ite (linked_arbitrate (raised.andThen (linkFrame_published c false _).2))
  -- The lamp driver.
  | frameStart _ | frameTimeout | periodStart => exact leads_next (same _ rfl)
  | stringMeasurement delivered r => exact leads_next (linked_arbitrate (linkFrame_measurement delivered r s))
  | stringFaultConfirm delivered r => exact linked_ite (linked_arbitrate (linkFrame_measurement delivered r s))
  -- The motion port and the drop detector.
  | sampleEvent => exact linked_ite (same _ rfl)
  | frameEnd f => exact leads_next (linked_frameEnd f s)
  | linkLostEntry f | linkRecovery f | fallQualified f | softLanding f | fallTimeout f | impactExit f | settled f
  | settleTimeout f | blindHoldEnd f | traceFreeze f => exact leads_next (linked_frameEndWith _ f s)

theorem linked_step {s t : State} (steps : step s = .next t) : Linked s t := by
  unfold step at steps
  split at steps
  · exact Host.Outcome.next.inj steps ▸ .refl s
  · rename_i rest _
    obtain ⟨limits, busy⟩ := linked_exec _ { s with pending := rest } t steps
    exact ⟨fun ok => limits ⟨ok.queue, ok.replies, ok.outbox, ok.errors⟩, busy⟩

/-- Settles O11: a reply that a dispatch makes or owes was given free space, and a deferred one goes into its reservation. -/
theorem stepKeepsLinkLimits : Obligations.StepKeepsLinkLimits := fun _ _ ok steps => (linked_step steps).limits ok

/-- Settles O12: an event that leaves something to send ends in the transmitter's choice. -/
theorem stepKeepsTransmitterBusy : Obligations.StepKeepsTransmitterBusy := fun _ _ ok steps => (linked_step steps).busy ok

end Sys2Proof.SystemLink

/-! ## Dispatch (O8) -/

namespace Sys2Proof.SystemLink

open Sys2Proof.Machine Sys2Proof.Safety

/-- R186: the byte of a kind names that kind alone. -/
theorem ofByte_some {b : Byte} {k : ReqKind} (h : ReqKind.ofByte b = some k) : b = k.byte :=
  (beq_iff_eq.mp (List.find?_some (p := fun k : ReqKind => k.byte == b) h)).symm

theorem byte_inj {j k : ReqKind} (h : j.byte = k.byte) : j = k :=
  Option.some.inj ((ofByte_byte j).symm.trans ((congrArg ReqKind.ofByte h).trans (ofByte_byte k)))

theorem resetAllowed_iff (p : List Byte) : lengthAllowed .reset p = true ↔ p = [] := by
  cases p <;> simp [lengthAllowed, Config.maxPayload]

/-- R183: the queue that a request leaves of the requests behind it: RESET, when it is taken, discards them. -/
def queueAfter (r : Request) (s : State) (q : List Request) : List Request :=
  if r.kind = ReqKind.byte .reset ∧ r.payload = [] ∧ inFlight s = false then [] else q

/-- R169, R179: what a request does is the same whatever waits behind it and, but for GET_STATUS, whether WAKE is asserted or
not. -/
theorem handleRequest_withQueue (r : Request) (s : State) (q : List Request) (w : Bool)
    (status : r.kind = ReqKind.byte .getStatus → w = false) :
    handleRequest r (s.withQueue q w) = (handleRequest r s).withQueue (queueAfter r s q) w := by
  cases kind : ReqKind.ofByte r.kind with
  | none =>
    have other : queueAfter r s q = q := if_neg fun reset => by
      rw [reset.1, ofByte_byte] at kind
      cases kind
    simp only [handleRequest, kind, other]
    rfl
  | some k =>
    have byte := ofByte_some kind
    by_cases reset : k = .reset
    · subst reset
      by_cases taken : r.payload = []
      · have allowed := (resetAllowed_iff r.payload).mpr taken
        simp only [handleRequest, kind, allowed, if_true, handleOwned]
        cases flight : inFlight s with
        | true =>
          rw [handleReset_declined _ _ _ _ _ flight, queueAfter, if_neg fun x => by simp [flight] at x]
        | false => rw [handleReset_taken _ _ _ _ _ flight, queueAfter, if_pos ⟨byte, taken, flight⟩]
      · have refused : lengthAllowed .reset r.payload = false := by
          rw [← Bool.not_eq_true, resetAllowed_iff]
          exact taken
        simp only [handleRequest, kind, refused, queueAfter, taken, false_and, and_false, if_false]
        rfl
    · have other : queueAfter r s q = q := if_neg fun x => reset (byte_inj (byte.symm.trans x.1))
      simp only [handleRequest, kind, other]
      exact ite_withQueue q w rfl
        (handleOwned_withQueue s q w k reset (fun x => status (by rw [byte, x])) r.tag r.payload) rfl

section Dispatch

variable {s : State} {r : Request} {rest : List Request} (waits : s.slu.queue = r :: rest) (free : 1 ≤ freeSpace s)
include waits free

/-- R169: a further dispatch takes the oldest request. -/
theorem exec_requestDispatch :
    exec .requestDispatch s = .next (arbitrate (handleRequest r { s with slu := { s.slu with queue := rest } })) := by
  have ready : dispatchReady s = true := (dispatchReady_iff s).mpr ⟨by rw [waits]; exact List.cons_ne_nil _ _, free⟩
  have taken : dispatchOne s = handleRequest r { s with slu := { s.slu with queue := rest } } := by
    unfold dispatchOne
    rw [waits]
  rw [← taken]
  exact if_pos ready

/-- R169: what it does is what the request does with nothing behind it. -/
theorem exec_requestDispatch_alone :
    exec .requestDispatch s =
      .next
        ((arbitrate (handleRequest r { s with slu := { s.slu with queue := [] } })).withQueue (queueAfter r s rest) false) := by
  have behind : ({ s with slu := { s.slu with queue := rest } } : State) =
      State.withQueue { s with slu := { s.slu with queue := [] } } rest false := rfl
  rw [exec_requestDispatch waits free, behind, handleRequest_withQueue _ _ _ _ fun _ => rfl, arbitrate_withQueue]
  rfl

end Dispatch

/-- R169, R179: with WAKE released, a request that arrives at an empty queue is handled there. -/
theorem exec_command_alone (k : ReqKind) (tag : Byte) (p : List Byte) {s : State} (ok : TransmitterOk s)
    (free : 1 ≤ freeSpace s) (wake : s.slu.wake = false) :
    exec (command k tag p) { s with slu := { s.slu with queue := [] } } =
      .next (arbitrate (handleRequest (requestFrame k tag p) { s with slu := { s.slu with queue := [] } })) := by
  have quiet : heard { s with slu := { s.slu with queue := [] } } = { s with slu := { s.slu with queue := [] } } := by
    unfold heard
    rw [← wake]
  have ready : Ready { s with slu := { s.slu with queue := [] } } := ⟨rfl, free, ok⟩
  rw [exec_command, receiveRequest_ready _ _ ready, quiet]

/-- R169: the reply to a payload length that the kind does not allow. -/
theorem handleRequest_badLength {k : ReqKind} {tag : Byte} {p : List Byte} (s : State) (bad : lengthAllowed k p = false) :
    handleRequest (requestFrame k tag p) s = answerRaw (requestFrame k tag p) .badLength s := by
  simp [handleRequest, requestFrame, ofByte_byte, bad]

/-- R179: a dispatch leaves WAKE asserted where it was, and does what it does with WAKE released. -/
theorem exec_requestDispatch_wake {s : State} {r : Request} {rest : List Request} (waits : s.slu.queue = r :: rest)
    (free : 1 ≤ freeSpace s) (wake : s.slu.wake = true) (other : r.kind ≠ ReqKind.byte .getStatus) :
    ∃ t : State, exec .requestDispatch { s with slu := { s.slu with wake := false } } = .next t ∧
      exec .requestDispatch s = .next { t with slu := { t.slu with wake := true } } := by
  let v : State := { s with slu := { s.slu with queue := rest, wake := false } }
  have asserted : ({ s with slu := { s.slu with queue := rest } } : State) = v.withQueue rest true := by
    show _ = { s with slu := { s.slu with queue := rest, wake := true } }
    rw [← wake]
  have queue : (handleRequest r v).slu.queue = queueAfter r v rest :=
    congrArg (fun t => t.slu.queue) (handleRequest_withQueue r v rest false fun _ => rfl)
  refine ⟨arbitrate (handleRequest r v), exec_requestDispatch (s := { s with slu := { s.slu with wake := false } }) waits free, ?_⟩
  have chosen : (arbitrate (handleRequest r v)).slu.queue = queueAfter r v rest := by
    rw [arbitrate_slu, SourcePaths.arbitrated_frame]
    exact queue
  rw [exec_requestDispatch waits free, asserted, handleRequest_withQueue _ _ _ _ fun x => absurd x other, arbitrate_withQueue,
    ← chosen]
  rfl

/-- Settles O8, by the judgement of the request at the head of the queue. -/
theorem dispatchJudgesRequests : Obligations.DispatchJudgesRequests := by
  intro s ok
  refine ⟨fun k tag p ready bad => ?_, fun r rest waits free none => ?_, fun k tag p waits free wake => ?_,
    fun k tag p rest waits free wake => ?_, fun r rest waits free => ?_, fun k tag p rest waits free bad => ?_,
    fun r rest waits free wake other => exec_requestDispatch_wake waits free wake other,
    fun tag rest waits free => ?_, fun nothing => ?_⟩
  · rw [exec_badLength k tag p s ready bad, arbitrate_answerRaw _ _ (transmitterOk_heard s ready.transmitter)]
    rfl
  · rw [exec_requestDispatch waits free]
    simp only [handleRequest, none]
    rw [arbitrate_answerRaw r .unknownKind (s := { s with slu := { s.slu with queue := rest } }) ok]
    rfl
  · rw [exec_command_alone k tag p ok free wake, exec_requestDispatch waits free]
    rfl
  · exact ⟨_, exec_command_alone k tag p ok free wake, by
      rw [exec_requestDispatch_alone waits free]
      by_cases reset : k = .reset
      · subst reset
        simp [queueAfter, requestFrame, State.withQueue]
      · have byte : k.byte ≠ ReqKind.byte .reset := fun x => reset (byte_inj x)
        simp [queueAfter, requestFrame, State.withQueue, reset, byte]⟩
  · exact ⟨_, exec_requestDispatch (s := { s with slu := { s.slu with queue := [r] } }) rfl free,
      exec_requestDispatch_alone waits free⟩
  · rw [exec_requestDispatch waits free]
    have judged := handleRequest_badLength (tag := tag) { s with slu := { s.slu with queue := rest } } bad
    unfold requestFrame at judged
    rw [judged, arbitrate_answerRaw _ .badLength (s := { s with slu := { s.slu with queue := rest } }) ok]
    rfl
  · rw [exec_requestDispatch waits free]
    have answers : ∀ v : State,
        handleRequest { kind := ReqKind.byte .getStatus, tag := tag, payload := [] } v =
          answer tag .getStatus .ok (statusBytes v) v := fun v => by
      simp only [handleRequest, ofByte_byte]
      rfl
    rw [answers, arbitrate_answer _ _ _ _ { s with slu := { s.slu with queue := rest } } ok]
  · refine if_neg fun ready => ?_
    obtain ⟨waiting, free⟩ := (dispatchReady_iff s).mp ready
    rcases nothing with empty | busy
    · exact waiting empty
    · omega

end Sys2Proof.SystemLink

/-! ## GET_IDENT, the masks and the platform state, and the nearest legal value (O14, O15, O17) -/

namespace Sys2Proof.SystemLink

open Sys2Proof.Machine Sys2Proof.Safety Sys2Proof.Snapshots

/-! ### GET_IDENT (R182) -/

/-- R47, R48: during the start-up interval no switchover can start. -/
theorem selectSource_busy {tag : Byte} {p : List Byte} {q : Source} {s : State} (named : sourceOf (at8 p 0) = some q)
    (startUp : s.spc.startUp = true) : handleSelectSource tag p s = answer tag .selectSource .busy [] s := by
  have waits : canStart s = false := by simp [canStart, startUp]
  simp only [handleSelectSource, named, waits]
  rfl

/-- Settles O14. -/
theorem getIdentIsTakenInEveryState : Obligations.GetIdentIsTakenInEveryState := by
  intro tag s h
  refine ⟨exec_answers .getIdent h rfl rfl, fun startUp q => ?_⟩
  have named : sourceOf (at8 [BitVec.ofNat 8 (Source.code q)] 0) = some q := by cases q <;> rfl
  exact exec_answers .selectSource h (one_allowed rfl (.inr (.inr (.inl rfl)))) (selectSource_busy named startUp)

/-! ### SET_NOTICE_MASK and SET_PLATFORM (R74, R107, R177, R178) -/

/-- R169, R170: a request whose block changes `heard s` to `u`, for which nothing waits to be sent, and then answers. -/
theorem exec_answersFrom {tag : Byte} {p : List Byte} {st : Status} {res : List Byte} {s u : State} (k : ReqKind) (h : Ready s)
    (len : lengthAllowed k p = true) (ok : TransmitterOk u)
    (handled : handleOwned k tag p (heard s) = answer tag k st res u) :
    exec (command k tag p) s = .next (replied u (replyOf k tag st res)) := by
  rw [exec_ready k tag p s h len, handled, arbitrate_answer k tag st res u ok]

/-- R187: a mask names the nine kinds alone where its high character is 0 or 1. -/
theorem maskAt_some {p : List Byte} {i : Nat} {lo hi : Byte} (read : at16 p i = lo.toNat + 256 * hi.toNat)
    (legal : hi.toNat ≤ 1) : maskAt p i = some (BitVec.ofNat 9 (lo.toNat + 256 * hi.toNat)) := by
  unfold maskAt
  rw [read]
  exact if_pos (by omega)

theorem maskAt_none {p : List Byte} {i : Nat} {lo hi : Byte} (read : at16 p i = lo.toNat + 256 * hi.toNat)
    (illegal : 2 ≤ hi.toNat) : maskAt p i = none := by
  unfold maskAt
  rw [read]
  exact if_neg (by omega)

/-- R185: the echo of a mask that was stored. -/
theorem u16_mask {lo hi : Byte} (legal : hi.toNat ≤ 1) : u16 (BitVec.ofNat 9 (lo.toNat + 256 * hi.toNat)).toNat = [lo, hi] := by
  have value : (BitVec.ofNat 9 (lo.toNat + 256 * hi.toNat)).toNat = lo.toNat + 256 * hi.toNat := by
    rw [BitVec.toNat_ofNat]
    omega
  have low : BitVec.ofNat 8 (lo.toNat + 256 * hi.toNat) = lo := by
    apply BitVec.eq_of_toNat_eq
    rw [BitVec.toNat_ofNat]
    omega
  have high : BitVec.ofNat 8 ((lo.toNat + 256 * hi.toNat) / 256) = hi := by
    apply BitVec.eq_of_toNat_eq
    rw [BitVec.toNat_ofNat]
    omega
  rw [value, u16, low, high]

theorem platform_code {n : Nat} {q : Platform} (h : Platform.ofCode n = some q) : q.code = n := by
  unfold Platform.ofCode at h
  split at h <;> cases h <;> rfl

/-- R107, R74: the change of the platform state that a state and a wake mask make, once stored. -/
def platformStored (q : Platform) (mask : NoticeSet) (s : State) : State :=
  publishPlatform s.slu.platform { s with slu := { s.slu with platform := q, wakeMask := mask } }

theorem platformStored_same {q : Platform} {s : State} (mask : NoticeSet) (same : q = s.slu.platform) :
    platformStored q mask s = { s with slu := { s.slu with platform := q, wakeMask := mask } } := if_pos same

theorem platformStored_changed {q : Platform} {s : State} (mask : NoticeSet) (changed : q ≠ s.slu.platform) :
    platformStored q mask s =
      { s with
        slu := { s.slu with platform := q, wakeMask := mask }
        lmd := s.lmd.platformChanged q
        scv := if s.slu.platform = .standby then s.scv.wake q else s.scv } := if_neg changed

theorem platformStored_frame (q : Platform) (mask : NoticeSet) (s : State) :
    platformStored q mask s =
      { s with
        slu := { s.slu with platform := q, wakeMask := mask }
        lmd := (platformStored q mask s).lmd, scv := (platformStored q mask s).scv } := by
  by_cases same : q = s.slu.platform
  · rw [platformStored_same mask same]
  · rw [platformStored_changed mask same]

/-- R107: a change to DARK or STANDBY puts a drive of nothing in force. -/
theorem platformChanged_dark {q : Platform} (l : Lmd) (dark : q ≠ .run) :
    l.platformChanged q =
      { l with
        a := 0, runEntry := false, inForce := ⟨0, 0⟩, staged := ⟨0, 0⟩, stagedPending := false
        changed := l.changed || decide (l.inForce ≠ ⟨0, 0⟩) } := by
  have differs : (Drive.off != l.inForce) = decide (l.inForce ≠ ⟨0, 0⟩) := by
    rw [Bool.eq_iff_iff, bne_iff_ne, decide_eq_true_iff]
    exact ne_comm
  cases q with
  | run => exact absurd rfl dark
  | dark | standby => simp only [Lmd.platformChanged, Lmd.putInForce, differs]; rfl

/-- R74: only an idle converter that leaves STANDBY is woken. -/
theorem platformStored_scv_kept {q : Platform} {s : State} (mask : NoticeSet)
    (h : s.slu.platform ≠ .standby ∨ s.scv.activity ≠ .idle) : (platformStored q mask s).scv = s.scv := by
  by_cases same : q = s.slu.platform
  · rw [platformStored_same mask same]
  · rw [platformStored_changed mask same]
    dsimp only
    split
    · rename_i standby
      exact if_neg (h.resolve_left fun ne => ne standby)
    · rfl

theorem platformStored_scv_woken {q : Platform} {s : State} (mask : NoticeSet) (standby : s.slu.platform = .standby)
    (leaves : q ≠ .standby) (idle : s.scv.activity = .idle) : (platformStored q mask s).scv = s.scv.startWalk q := by
  rw [platformStored_changed mask (standby ▸ leaves)]
  exact (if_pos standby).trans (if_pos idle)

/-- R178: SET_PLATFORM stores, publishes and echoes. -/
theorem setPlatform_stored {tag st lo hi : Byte} {q : Platform} (s : State) (named : Platform.ofCode st.toNat = some q)
    (legal : hi.toNat ≤ 1) :
    handleSetPlatform tag [st, lo, hi] s =
      answer tag .setPlatform .ok [st, lo, hi]
        (platformStored q (BitVec.ofNat 9 (lo.toNat + 256 * hi.toNat)) s) := by
  have state : Platform.ofCode (at8 [st, lo, hi] 0) = some q := named
  have mask := maskAt_some (p := [st, lo, hi]) (i := 1) (lo := lo) (hi := hi) rfl legal
  have echo : platformBytes (platformStored q (BitVec.ofNat 9 (lo.toNat + 256 * hi.toNat)) s) = [st, lo, hi] := by
    rw [platformStored_frame]
    have code : u8 q.code = [st] := by
      rw [platform_code named, u8, BitVec.ofNat_toNat, BitVec.setWidth_eq]
    show u8 q.code ++ u16 (BitVec.ofNat 9 (lo.toNat + 256 * hi.toNat)).toNat = _
    rw [code, u16_mask legal]
    rfl
  simp only [handleSetPlatform, state, mask]
  unfold platformStored at echo ⊢
  rw [echo]

theorem setPlatform_refused {tag st lo hi : Byte} (s : State) (illegal : Platform.ofCode st.toNat = none ∨ 2 ≤ hi.toNat) :
    handleSetPlatform tag [st, lo, hi] s = answer tag .setPlatform .badValue [] s := by
  have read : Platform.ofCode (at8 [st, lo, hi] 0) = Platform.ofCode st.toNat := rfl
  unfold handleSetPlatform
  rw [read]
  rcases illegal with none | mask
  · rw [none]
    rfl
  · rw [maskAt_none (p := [st, lo, hi]) (i := 1) (lo := lo) (hi := hi) rfl mask]
    cases Platform.ofCode st.toNat <;> rfl

/-- Settles O15. -/
theorem maskAndPlatformAreStored : Obligations.MaskAndPlatformAreStored := by
  intro tag st lo hi s h
  have ok := h.transmitter
  refine ⟨fun legal => ?_, fun illegal => ?_, fun q named legal => ?_, fun illegal => ?_⟩
  · refine exec_answersFrom .setNoticeMask h rfl (by exact ok) ?_
    simp only [handleOwned, handleSetNoticeMask, maskAt_some (p := [lo, hi]) (i := 0) (lo := lo) (hi := hi) rfl legal,
      u16_mask legal]
  · refine exec_answers .setNoticeMask h rfl ?_
    simp only [handleOwned, handleSetNoticeMask, maskAt_none (p := [lo, hi]) (i := 0) (lo := lo) (hi := hi) rfl illegal]
    rfl
  · have frame := platformStored_frame q (BitVec.ofNat 9 (lo.toNat + 256 * hi.toNat)) (heard s)
    generalize mask : BitVec.ofNat 9 (lo.toNat + 256 * hi.toNat) = m at frame ⊢
    refine ⟨platformStored q m (heard s), ?_, by rw [frame]; rfl, by rw [frame]; rfl, fun same => ?_, fun changed run => ?_,
      fun changed dark => ?_, platformStored_scv_kept (s := heard s) m, platformStored_scv_woken (s := heard s) m⟩
    · refine exec_answersFrom .setPlatform h rfl ?_ (mask ▸ setPlatform_stored (heard s) named legal)
      rw [frame]
      exact ok
    · rw [platformStored_same m (s := heard s) same]
      exact ⟨rfl, rfl⟩
    · rw [platformStored_changed m (s := heard s) changed, run]
      rfl
    · rw [platformStored_changed m (s := heard s) changed]
      exact platformChanged_dark s.lmd dark
  · exact exec_answers .setPlatform h rfl (setPlatform_refused (heard s) illegal)

/-! ### The nearest legal value (R171) -/

/-- Rounding to the nearest multiple of a step, midway to the lower. -/
def nearestMultiple (step d : Nat) : Nat := (if step < 2 * (d % step) then d / step + 1 else d / step) * step

theorem clampStep_eq (lo hi step v : Nat) : clampStep lo hi step v = lo + nearestMultiple step (clamp lo hi v - lo) := rfl

theorem nearestMultiple_nearest {step : Nat} (d j : Nat) (pos : 0 < step) :
    distance d (nearestMultiple step d) ≤ distance d (j * step) ∧
      (distance d (nearestMultiple step d) = distance d (j * step) → nearestMultiple step d ≤ j * step) := by
  have parts := Nat.div_add_mod' d step
  have below := Nat.mod_lt d pos
  have next : (d / step + 1) * step = d / step * step + step := Nat.succ_mul _ _
  unfold distance nearestMultiple
  rcases Nat.lt_or_ge (d / step) j with above | under
  · have far : (d / step + 1) * step ≤ j * step := Nat.mul_le_mul_right step above
    split <;> omega
  · have far := Nat.mul_le_mul_right step under
    split <;> omega

/-- A multiple is the one nearest to it. -/
theorem nearestMultiple_self {step : Nat} (j : Nat) (pos : 0 < step) : nearestMultiple step (j * step) = j * step := by
  have nearest := (nearestMultiple_nearest (j * step) j pos).1
  unfold distance at nearest
  omega

/-- Below a multiple, the nearest one does not pass it. -/
theorem nearestMultiple_le {step d : Nat} (j : Nat) (pos : 0 < step) (below : d ≤ j * step) :
    nearestMultiple step d ≤ j * step := by
  have nearest := (nearestMultiple_nearest d j pos).1
  unfold distance at nearest
  omega

theorem step_dvd_nearestMultiple (step d : Nat) : step ∣ nearestMultiple step d := Nat.dvd_mul_left _ _

/-- Settles O17: within the range by the rounding of the offset, and at its ends because they are legal values themselves. -/
theorem clampTakesNearestLegalValue : Obligations.ClampTakesNearestLegalValue := by
  intro lo hi step v pos range divides
  obtain ⟨n, top⟩ := divides
  rw [Nat.mul_comm] at top
  rw [clampStep_eq]
  have inside : clamp lo hi v - lo ≤ n * step := by
    unfold clamp
    omega
  have bounded := nearestMultiple_le n pos inside
  refine ⟨Nat.le_add_right _ _, by omega, ?_, fun x low high legal => ?_⟩
  · rw [Nat.add_sub_cancel_left]
    exact step_dvd_nearestMultiple _ _
  · obtain ⟨j, place⟩ := legal
    rw [Nat.mul_comm] at place
    rcases Nat.lt_or_ge v lo with under | notUnder
    · have offset : clamp lo hi v - lo = 0 * step := by
        unfold clamp
        omega
      rw [offset, nearestMultiple_self 0 pos]
      unfold distance
      omega
    · rcases Nat.lt_or_ge hi v with above | notAbove
      · have offset : clamp lo hi v - lo = n * step := by
          unfold clamp
          omega
        rw [offset, nearestMultiple_self n pos]
        unfold distance
        omega
      · have offset : clamp lo hi v - lo = v - lo := by
          unfold clamp
          omega
        have nearest := nearestMultiple_nearest (v - lo) j pos
        rw [offset]
        unfold distance at nearest ⊢
        omega

end Sys2Proof.SystemLink

/-! ## RESET (O16) -/

namespace Sys2Proof.SystemLink

open Sys2Proof.Machine Sys2Proof.Safety Sys2Proof.SupplyLaws Sys2Proof.Snapshots

/-! ### The records and the blocks (R23, R63, R82, R105, R124) -/

/-- R23: a path record after RESET. -/
theorem pathRecord_reset (p : Source) (r : PathRecord) :
    (r.reset p).settings = .defaults p ∧ (r.reset p).tripCount = 0 ∧ (r.reset p).effSlew = .medium ∧
      (r.reset p).retry = none ∧ (r.reset p).fault = .clear ∧ (r.reset p).voltage = r.voltage ∧
      (r.reset p).current = r.current ∧ (r.reset p).sampleUptime = r.sampleUptime ∧ (r.reset p).isEmpty = r.isEmpty ∧
      (r.reset p).emptyTimer = r.emptyTimer ∧
      (r.reset p).state = if r.state = .tripped ∨ r.state = .lockedOut then .opened else r.state := by
  have slew : (PathSettings.defaults p).slew = .medium := by cases p <;> rfl
  unfold PathRecord.reset
  cases state : r.state <;> simp [slew]

/-- R63: a latch record after RESET, but for the reply that its release owes. -/
theorem latchRecord_reset (l : LatchRecord) :
    l.reset.release = .idle ∧ l.reset.sensed = l.sensed ∧ l.reset.insecure = l.insecure ∧ l.reset.stuck = l.stuck ∧
      l.reset.stuckTimer = l.stuckTimer ∧ l.reset.hostOwed = l.hostOwed ∧
      (l.release = .granted → l.reset.faultTimer = 0) ∧ (l.release ≠ .idle → l.reset.lastEvent = .cancelled) ∧
      (l.release = .granted → l.reset.commanded = .locked) := by
  unfold LatchRecord.reset LatchRecord.endRelease
  cases release : l.release <;> simp [release]

/-- R64: the walk changes what is converted next, and no more. -/
theorem startWalk_frame (q : Platform) (v : Scv) :
    v.startWalk q = { v with activity := (v.startWalk q).activity, resume := (v.startWalk q).resume } := by
  unfold Scv.startWalk
  split <;> rfl

theorem scv_reset (q : Platform) (v : Scv) :
    (v.reset q).slots = defaultSlots ∧ (v.reset q).table = defaultThermistors ∧ (v.reset q).oneShot = none ∧
      (v.reset q).records = v.records := by
  unfold Scv.reset
  rw [startWalk_frame]
  exact ⟨rfl, rfl, rfl, rfl⟩

/-- R124: a publication of the BRE leaves the settings and the strings that RESET has made. -/
theorem resetBlocks_lmd (s : State) :
    (resetBlocks s).lmd.settings = .defaults ∧ ∀ i, ((resetBlocks s).lmd.strings.get i).state = .enabled := by
  have strings : ∀ i, (s.lmd.reset.strings.get i).state = .enabled := fun i => by
    show ((s.lmd.strings.map StringRecord.reset).get i).state = _
    rw [PerString.get_map]
    rfl
  unfold resetBlocks State.withBre
  dsimp only
  split
  · exact ⟨rfl, strings⟩
  · rw [published_frame]
    exact ⟨rfl, strings⟩

theorem resetBlocks_path (s : State) (p : Source) : (resetBlocks s).path p = (s.path p).reset p := by cases p <;> rfl

theorem resetBlocks_latch (s : State) (bay : Bay) : (resetBlocks s).latch bay = (s.latch bay).reset := by cases bay <;> rfl

theorem mpt_reset (m : Mpt) : m.reset.rate = .hz800 ∧ m.reset.ring = m.ring ∧ m.reset.counters = m.counters := by
  unfold Mpt.reset
  split
  · rename_i rate
    exact ⟨rate, rfl, rfl⟩
  · exact ⟨rfl, rfl, rfl⟩

/-! ### What the triggers read -/

section Inputs

variable {s t : State} (same : SameInputs s t)
include same

theorem sameInputs_chooseTarget (f : Option Source) (tried : List Source) : chooseTarget t f tried = chooseTarget s f tried := by
  unfold chooseTarget
  simp only [same.available]
  rw [same.supply]

theorem sameInputs_heldCondition : heldCondition t = heldCondition s := by
  have feeding : t.spc.feeding = s.spc.feeding := by rw [same.supply]
  have hot : ∀ p, hot t p = hot s p := fun p => by
    unfold Machine.hot
    rw [show bayTemp t = bayTemp s from funext same.temp]
  have empty : ∀ p, (t.path p).isEmpty = (s.path p).isEmpty := fun p => by
    obtain ⟨-, -, empty, -⟩ := same.path p
    exact empty
  unfold heldCondition
  rw [feeding]
  simp only [hot, empty]

theorem sameInputs_preemptRuns (p : Source) : preemptRuns t p = preemptRuns s p := by
  unfold preemptRuns earlierThanFeeding
  rw [same.available, same.supply]

end Inputs

/-! ### The examination at RESET (R34, R36, R49) -/

/-- R49: the examination starts nothing: it writes the sole-source flag and the preemption timers. -/
theorem examineReset_frame (s : State) :
    examineReset s =
      { s with
        spc := { s.spc with preempt := (examineReset s).spc.preempt, soleSource := (examineReset s).spc.soleSource }
        slu := (examineReset s).slu } := by
  unfold examineReset examineHeldWith
  split
  · rfl
  · split
    · split
      · rfl
      · unfold markSole
        split <;> rfl
    · rfl

/-- R34, R49: with the flag clear and no switchover in flight, a held condition without a target sets it. -/
theorem examineReset_sole {s : State} (clear : s.spc.soleSource = false) (idle : inFlight s = false) :
    (examineReset s).spc.soleSource = true ↔
      s.spc.startUp = false ∧ heldCondition s ≠ none ∧ chooseTarget s s.spc.feeding [] = none := by
  have flag : (examineReset s).spc.soleSource = (examineHeldWith (fun _ _ s => s) s).spc.soleSource := rfl
  have starts : canStart s = true ↔ s.spc.startUp = false := by simp [canStart, idle]
  rw [flag, ← starts]
  unfold examineHeldWith
  cases held : heldCondition s with
  | none => simp
  | some reason =>
    by_cases ready : canStart s = true
    · cases target : chooseTarget s s.spc.feeding [] with
      | some q => simp [ready, clear]
      | none => simp [ready, markSole, clear, raise]
    · simp [ready, clear]

/-- R34: setting the flag raises SUPPLY_CHANGE. -/
theorem examineReset_raises {s : State} (clear : s.spc.soleSource = false) :
    (examineReset s).slu = if (examineReset s).spc.soleSource then s.slu.raised .supplyChange else s.slu := by
  have flag : (examineReset s).spc.soleSource = (examineHeldWith (fun _ _ s => s) s).spc.soleSource := rfl
  have link : (examineReset s).slu = (examineHeldWith (fun _ _ s => s) s).slu := rfl
  rw [flag, link]
  unfold examineHeldWith
  cases heldCondition s with
  | none => rfl
  | some reason =>
    by_cases ready : canStart s = true
    · cases chooseTarget s s.spc.feeding [] with
      | some q => simp [ready, clear]
      | none => simp [ready, markSole, clear, raise]
    · simp [ready, clear]

/-- R36, R49: timers that were clear run from 0. -/
theorem examineReset_preempt {s : State} (clear : s.spc.preempt = ⟨none, none, none⟩) (p : Source) :
    (examineReset s).spc.preempt.get p = if preemptRuns (examineReset s) p then some 0 else none := by
  have timer : (examineHeldWith (fun _ _ s => s) s).spc.preempt.get p = none := by
    have same : (examineHeldWith (fun _ _ s => s) s).spc.preempt = s.spc.preempt := by
      unfold examineHeldWith
      split
      · rfl
      · split
        · split
          · rfl
          · unfold markSole
            split <;> rfl
        · rfl
    rw [same, clear]
    cases p <;> rfl
  unfold examineReset
  rw [nextPreempt_get, timer]
  rfl

/-! ### The owed replies (R52, R77, R172) -/

theorem answerRelease_frame (bay : Bay) (st : Status) (f : Option FailReason) (s : State) :
    answerRelease bay st f s =
      { s with
        ltc := (answerRelease bay st f s).ltc
        slu :=
          { s.slu with
            fifo := (answerRelease bay st f s).slu.fifo, owedRelease := (answerRelease bay st f s).slu.owedRelease } } := by
  unfold answerRelease
  split
  · dsimp only
    split <;> rfl
  · rfl

theorem answerRelease_free {bay : Bay} {s : State} (free : (s.latch bay).hostOwed = false) (st : Status)
    (f : Option FailReason) : answerRelease bay st f s = s := if_neg (by rw [free]; decide)

theorem answerRelease_owedRelease (bay : Bay) (st : Status) (f : Option FailReason) (s : State) :
    (answerRelease bay st f s).slu.owedRelease = if (s.latch bay).hostOwed = true then none else s.slu.owedRelease := by
  by_cases owes : (s.latch bay).hostOwed = true
  · rw [if_pos owes]
    cases owed : s.slu.owedRelease with
    | none => exact answerRelease_owed bay st f s owed
    | some tag => rw [answerRelease_some bay st f s tag owes owed]
  · rw [if_neg owes, answerRelease_free (Bool.not_eq_true _ ▸ owes)]

/-- R52, R183: the releases of both bays are cancelled. -/
def cancelReleases (s : State) : State := answerRelease .b .cancelled none (answerRelease .a .cancelled none s)

theorem cancelReleases_latch (s : State) (bay : Bay) :
    (cancelReleases s).latch bay = { s.latch bay with hostOwed := false } := by
  unfold cancelReleases
  cases bay <;> simp [answerRelease_latch]

theorem cancelReleases_owedRelease (s : State) :
    (cancelReleases s).slu.owedRelease =
      if (s.latch .a).hostOwed = true ∨ (s.latch .b).hostOwed = true then none else s.slu.owedRelease := by
  have other : (answerRelease .a .cancelled none s).latch .b = s.latch .b := by simp [answerRelease_latch]
  unfold cancelReleases
  rw [answerRelease_owedRelease, answerRelease_owedRelease, other]
  cases (s.latch .b).hostOwed with
  | true => simp
  | false => simp

/-- With one bay that owes, only its reply is made. -/
theorem cancelReleases_one {bay : Bay} {s : State} (free : (s.latch (otherBay bay)).hostOwed = false) :
    cancelReleases s = answerRelease bay .cancelled none s := by
  unfold cancelReleases
  cases bay with
  | a =>
    refine answerRelease_free ?_ _ _
    rw [answerRelease_latch, if_neg (by decide)]
    exact free
  | b => rw [answerRelease_free (bay := .a) free]

theorem cancelReleases_frame (s : State) :
    cancelReleases s =
      { s with
        ltc := (cancelReleases s).ltc
        slu := { s.slu with fifo := (cancelReleases s).slu.fifo, owedRelease := (cancelReleases s).slu.owedRelease } } := by
  unfold cancelReleases
  rw [answerRelease_frame .b, answerRelease_frame .a]

theorem answerConvert_frame (st : Status) (c : Channel) (s : State) :
    answerConvert st c s =
      { s with
        slu :=
          { s.slu with fifo := (answerConvert st c s).slu.fifo, owedConvert := (answerConvert st c s).slu.owedConvert } } := by
  unfold answerConvert
  split <;> rfl

theorem answerConvert_some {s : State} {tag : Byte} (owed : s.slu.owedConvert = some tag) (st : Status) (c : Channel) :
    (answerConvert st c s).slu.owedConvert = none ∧
      (answerConvert st c s).slu.fifo = s.slu.fifo ++ [replyOf .convertNow tag st (channelBytes (s.scv.records.get c))] := by
  unfold answerConvert
  rw [owed]
  exact ⟨rfl, rfl⟩

/-- The cancelled replies join the FIFO behind those that wait, the release's first. -/
theorem cancelOwed_fifo (oneShot : Option Channel) (s : State) :
    (cancelReleases s).slu.fifo <+: (cancelOwed oneShot s).slu.fifo := by
  cases oneShot with
  | none => exact List.prefix_rfl
  | some c =>
    show _ <+: (answerConvert .cancelled c (cancelReleases s)).slu.fifo
    cases owed : (cancelReleases s).slu.owedConvert with
    | none =>
      unfold answerConvert
      rw [owed]
    | some tag =>
      obtain ⟨-, joins⟩ := answerConvert_some owed .cancelled c
      rw [joins]
      exact List.prefix_append _ _

/-- R172: the cancelled replies change what the link owes, and which bays owe a reply. -/
theorem cancelOwed_frame (oneShot : Option Channel) (s : State) :
    cancelOwed oneShot s =
      { s with
        ltc := (cancelReleases s).ltc
        slu :=
          { s.slu with
            fifo := (cancelOwed oneShot s).slu.fifo, owedRelease := (cancelReleases s).slu.owedRelease
            owedConvert := (cancelOwed oneShot s).slu.owedConvert } } := by
  have releases : ∀ fifo owed,
      ({ cancelReleases s with slu := { (cancelReleases s).slu with fifo := fifo, owedConvert := owed } } : State) =
        { s with
          ltc := (cancelReleases s).ltc
          slu := { s.slu with fifo := fifo, owedRelease := (cancelReleases s).slu.owedRelease, owedConvert := owed } } := by
    intro fifo owed
    rw [cancelReleases_frame]
  cases oneShot with
  | none => exact releases _ _
  | some c => exact (answerConvert_frame .cancelled c (cancelReleases s)).trans (releases _ _)

/-! ### The RESET event (R183) -/

/-- The blocks after RESET, with the situation published. -/
def resetPublished (s : State) : State := publishSituation (resetBlocks (heard s))

/-- The RESET event before the replies. -/
def resetExamined (s : State) : State := examineReset (resetPublished s)

/-- The RESET event before the transmitter's choice. -/
def resetAnswered (tag : Byte) (s : State) : State :=
  answer tag .reset .ok [] (cancelOwed s.scv.oneShot (resetExamined s))

theorem exec_reset_taken (tag : Byte) {s : State} (h : Ready s) (idle : inFlight s = false) :
    exec (.resetRequest tag []) s = .next (arbitrate (resetAnswered tag s)) := by
  have quiet : inFlight (heard s) = false := idle
  have taken : handleReset tag [] (heard s) = resetAnswered tag s := if_neg (by rw [quiet]; decide)
  exact (exec_ready .reset tag [] s h rfl).trans (congrArg (fun t => Host.Outcome.next (arbitrate t)) taken)

theorem exec_reset_busy (tag : Byte) {s : State} (h : Ready s) (busy : inFlight s = true) :
    exec (.resetRequest tag []) s = .next (answered .reset tag .busy [] s) :=
  exec_answers .reset h rfl (if_pos busy)

/-- R174: a raise, when something occurred. -/
def raisedIf (b : Bool) (k : NoticeKind) (u : Slu) : Slu := if b then u.raised k else u

theorem raisedIf_link (b : Bool) (k : NoticeKind) (u : Slu) :
    raisedIf b k u = { u with outbox := (raisedIf b k u).outbox, wake := (raisedIf b k u).wake } := by
  cases b with
  | false => rfl
  | true => exact raised_link u k

theorem raisedIf_other {x k : NoticeKind} (b : Bool) (u : Slu) (other : x ≠ k) :
    (raisedIf b k u).outbox.get x = u.outbox.get x := by
  cases b with
  | false => rfl
  | true => exact raised_other u k x other

theorem raisedIf_count {k : NoticeKind} {u : Slu} (b : Bool) (inside : inMask u.noticeMask k = true)
    (room : u.outbox.get k < Config.maxOccurrences) : (raisedIf b k u).outbox.get k = u.outbox.get k + b.toNat := by
  cases b with
  | false => rfl
  | true =>
    show (u.raised k).outbox.get k = _
    rw [raised_inside inside]
    show (u.outbox.set k _).get k = _
    rw [PerNotice.get_set, if_pos rfl]
    exact Nat.min_eq_right room

theorem arbitrate_outbox_zero {s : State} {k : NoticeKind} (zero : s.slu.outbox.get k = 0) :
    (arbitrate s).slu.outbox.get k = 0 := by
  have taken : ∀ x, (s.slu.outbox.set x 0).get k = 0 := fun x => by
    rw [PerNotice.get_set]
    split
    · rfl
    · exact zero
  rw [arbitrate_slu]
  unfold arbitrated
  split
  · exact zero
  · split
    · exact taken .dropAlert
    · split
      · exact zero
      · split
        · exact taken _
        · exact zero

section Reset

variable (tag : Byte) (s : State)

/-- R172: after the examination, only the link and the replies owed change. -/
theorem reset_replies :
    arbitrate (resetAnswered tag s) =
      { resetExamined s with
        ltc := (cancelReleases (resetExamined s)).ltc, slu := (arbitrate (resetAnswered tag s)).slu } :=
  congrArg (fun c : State => { c with slu := (arbitrate (resetAnswered tag s)).slu })
    (cancelOwed_frame s.scv.oneShot (resetExamined s))

theorem reset_spc_examined : (arbitrate (resetAnswered tag s)).spc = (resetExamined s).spc := by rw [reset_replies]

/-- R183: the supply after RESET: what the blocks left, with the situation, the timers and the flag of the examination. -/
theorem reset_spc :
    (arbitrate (resetAnswered tag s)).spc =
      { s.spc.reset with
        situation := (resetPublished s).spc.situation, cap := (resetPublished s).spc.cap
        preempt := (resetExamined s).spc.preempt, soleSource := (resetExamined s).spc.soleSource } := by
  have published : (resetPublished s).spc =
      { s.spc.reset with situation := (resetPublished s).spc.situation, cap := (resetPublished s).spc.cap } :=
    publishSituation_spc (resetBlocks (heard s))
  rw [reset_spc_examined]
  exact (congrArg State.spc (examineReset_frame (resetPublished s))).trans
    (congrArg
      (fun c : Spc => { c with preempt := (resetExamined s).spc.preempt, soleSource := (resetExamined s).spc.soleSource })
      published)

theorem reset_path (p : Source) : (arbitrate (resetAnswered tag s)).path p = (s.path p).reset p := by
  rw [← resetBlocks_path s p]
  unfold State.path
  rw [reset_spc]
  rfl

theorem resetExamined_latch (bay : Bay) : (resetExamined s).latch bay = (s.latch bay).reset := by
  have examined : (resetExamined s).ltc = (resetPublished s).ltc := by
    unfold resetExamined
    rw [examineReset_frame]
  have published : (resetPublished s).ltc = (resetBlocks (heard s)).ltc := (calm_publishSituation _).ltc
  exact (congrArg (fun l : Ltc => l.latches.get bay) (examined.trans published)).trans (resetBlocks_latch (heard s) bay)

theorem resetExamined_hostOwed (bay : Bay) : ((resetExamined s).latch bay).hostOwed = (s.latch bay).hostOwed := by
  rw [resetExamined_latch]
  obtain ⟨-, -, -, -, -, owed, -⟩ := latchRecord_reset (s.latch bay)
  exact owed

theorem reset_latch (bay : Bay) :
    (arbitrate (resetAnswered tag s)).latch bay = { (s.latch bay).reset with hostOwed := false } := by
  have replies : (arbitrate (resetAnswered tag s)).latch bay = (cancelReleases (resetExamined s)).latch bay := by
    rw [reset_replies]
    rfl
  rw [replies, cancelReleases_latch, resetExamined_latch]

/-- R82, R138, R161: the blocks that RESET alone writes in its event. -/
theorem reset_rest :
    (arbitrate (resetAnswered tag s)).scv = s.scv.reset s.slu.platform ∧
      (arbitrate (resetAnswered tag s)).mpt = s.mpt.reset ∧ (arbitrate (resetAnswered tag s)).ddt = s.ddt.reset ∧
      (arbitrate (resetAnswered tag s)).pending = s.pending := by
  have published := (calm_publishSituation (resetBlocks (heard s))).rest
  rw [reset_replies]
  unfold resetExamined
  rw [examineReset_frame]
  unfold resetPublished
  rw [published]
  exact ⟨rfl, rfl, rfl, rfl⟩

/-- R105, R124: the publication of the situation reaches the levels, and no setting. -/
theorem reset_light :
    (arbitrate (resetAnswered tag s)).bre.settings = .defaults ∧ (arbitrate (resetAnswered tag s)).bre.curve = defaultCurve ∧
      (arbitrate (resetAnswered tag s)).bre.motionHold = false ∧ (arbitrate (resetAnswered tag s)).lmd.settings = .defaults ∧
      ∀ i, ((arbitrate (resetAnswered tag s)).lmd.strings.get i).state = .enabled := by
  have caps := (calm_publishSituation (resetBlocks (heard s))).caps
  obtain ⟨settings, strings⟩ := resetBlocks_lmd (heard s)
  rw [reset_replies]
  unfold resetExamined
  rw [examineReset_frame]
  unfold resetPublished
  dsimp only
  rw [caps.bre, caps.lmd]
  exact ⟨rfl, rfl, rfl, settings, strings⟩

/-! ### The triggers and the situation after RESET -/

theorem resetPublished_clear :
    (resetPublished s).spc.soleSource = false ∧ (resetPublished s).spc.preempt = ⟨none, none, none⟩ ∧
      (resetPublished s).spc.feeding = s.spc.feeding ∧ (resetPublished s).spc.startUp = s.spc.startUp ∧
      (resetPublished s).spc.sw = s.spc.sw := by
  unfold resetPublished
  rw [publishSituation_spc]
  exact ⟨rfl, rfl, rfl, rfl, rfl⟩

/-- The replies change nothing that the triggers or the situation read. -/
theorem sameInputs_resetExamined : SameInputs (resetExamined s) (arbitrate (resetAnswered tag s)) where
  supply := by rw [reset_spc_examined]
  path := fun p => by
    have same : (arbitrate (resetAnswered tag s)).path p = (resetExamined s).path p := by
      unfold State.path
      rw [reset_spc_examined]
    rw [same]
    exact ⟨rfl, rfl, rfl, rfl⟩
  latch := fun bay => by
    rw [reset_latch, resetExamined_latch]
    exact ⟨rfl, rfl, rfl⟩
  temp := fun bay => by
    rw [reset_replies]
    rfl

theorem sameInputs_resetPublished : SameInputs (resetPublished s) (resetExamined s) := sameInputs_examineReset _

theorem reset_situationOk : SituationOk (arbitrate (resetAnswered tag s)) :=
  (sameInputs_resetExamined tag s).situationOk
    ((sameInputs_resetPublished s).situationOk (situationOk_publishSituation _))

/-- R34, R49: the sole-source flag, read from the state that the event leaves. -/
theorem reset_sole (idle : inFlight s = false) :
    (arbitrate (resetAnswered tag s)).spc.soleSource = true ↔
      s.spc.startUp = false ∧ heldCondition (arbitrate (resetAnswered tag s)) ≠ none ∧
        chooseTarget (arbitrate (resetAnswered tag s)) (arbitrate (resetAnswered tag s)).spc.feeding [] = none := by
  obtain ⟨clear, -, feeding, startUp, sw⟩ := resetPublished_clear s
  have quiet : inFlight (resetPublished s) = false := by
    unfold inFlight
    rw [sw]
    exact idle
  have feeds : (arbitrate (resetAnswered tag s)).spc.feeding = (resetPublished s).spc.feeding := by
    rw [reset_spc, feeding]
    rfl
  rw [feeds, sameInputs_heldCondition (sameInputs_resetExamined tag s),
    sameInputs_heldCondition (sameInputs_resetPublished s), sameInputs_chooseTarget (sameInputs_resetExamined tag s),
    sameInputs_chooseTarget (sameInputs_resetPublished s), reset_spc_examined, ← startUp]
  exact examineReset_sole clear quiet

theorem reset_preempt (p : Source) :
    (arbitrate (resetAnswered tag s)).spc.preempt.get p =
      if preemptRuns (arbitrate (resetAnswered tag s)) p then some 0 else none := by
  obtain ⟨-, clear, -⟩ := resetPublished_clear s
  rw [sameInputs_preemptRuns (sameInputs_resetExamined tag s), reset_spc_examined]
  exact examineReset_preempt clear p

/-! ### The link after RESET (R183, R184) -/

/-- R34, R46: the event raises SUPPLY_CHANGE for the situation and for the flag, and nothing else. -/
theorem resetExamined_slu :
    (resetExamined s).slu =
      raisedIf (resetExamined s).spc.soleSource .supplyChange
        (raisedIf ((resetPublished s).spc.situation != s.spc.situation) .supplyChange (heard s).slu.reset) := by
  obtain ⟨clear, -⟩ := resetPublished_clear s
  have published : (resetPublished s).slu =
      raisedIf ((resetPublished s).spc.situation != s.spc.situation) .supplyChange (heard s).slu.reset :=
    publishSituation_raises (resetBlocks (heard s))
  rw [← published]
  exact examineReset_raises clear

theorem resetExamined_link :
    (resetExamined s).slu =
      { (heard s).slu.reset with outbox := (resetExamined s).slu.outbox, wake := (resetExamined s).slu.wake } := by
  rw [resetExamined_slu]
  refine (raisedIf_link _ _ _).trans ?_
  rw [raisedIf_link ((resetPublished s).spc.situation != s.spc.situation)]

theorem resetExamined_other {k : NoticeKind} (other : k ≠ .supplyChange) : (resetExamined s).slu.outbox.get k = 0 := by
  rw [resetExamined_slu, raisedIf_other _ _ other, raisedIf_other _ _ other]
  cases k <;> rfl

theorem resetExamined_supplyChange :
    (resetExamined s).slu.outbox.supplyChange =
      (resetExamined s).spc.soleSource.toNat + (decide ((resetPublished s).spc.situation ≠ s.spc.situation)).toNat := by
  have inside : inMask (heard s).slu.reset.noticeMask .supplyChange = true := by
    show inMask defaultNoticeMask .supplyChange = true
    decide
  have empty : (heard s).slu.reset.outbox.get .supplyChange = 0 := rfl
  have changed := raisedIf_count ((resetPublished s).spc.situation != s.spc.situation) inside (by rw [empty]; decide)
  have first : (raisedIf ((resetPublished s).spc.situation != s.spc.situation) .supplyChange
      (heard s).slu.reset).outbox.get .supplyChange ≤ 1 := by
    rw [changed]
    exact (Nat.zero_add _).trans_le (Bool.toNat_le _)
  have still : inMask (raisedIf ((resetPublished s).spc.situation != s.spc.situation) .supplyChange
      (heard s).slu.reset).noticeMask .supplyChange = true := by
    rw [raisedIf_link]
    exact inside
  have flagged := raisedIf_count (resetExamined s).spc.soleSource still (Nat.lt_of_le_of_lt first (by decide))
  rw [← resetExamined_slu, changed] at flagged
  have both : ((resetPublished s).spc.situation != s.spc.situation) =
      decide ((resetPublished s).spc.situation ≠ s.spc.situation) := by
    rw [Bool.eq_iff_iff, bne_iff_ne, decide_eq_true_iff]
  rw [← both, Nat.add_comm]
  exact flagged.trans (congrArg (· + _) (Nat.zero_add _))

/-- The link before the transmitter's choice. -/
theorem resetAnswered_link :
    (resetAnswered tag s).slu =
      { (heard s).slu.reset with
        outbox := (resetExamined s).slu.outbox, wake := (resetExamined s).slu.wake
        fifo := (cancelOwed s.scv.oneShot (resetExamined s)).slu.fifo ++ [replyOf .reset tag .ok []]
        owedRelease := (cancelReleases (resetExamined s)).slu.owedRelease
        owedConvert := (cancelOwed s.scv.oneShot (resetExamined s)).slu.owedConvert } := by
  have replies := congrArg State.slu (cancelOwed_frame s.scv.oneShot (resetExamined s))
  refine (congrArg (fun u : Slu => u.pushReply (replyOf .reset tag .ok [])) replies).trans ?_
  exact congrArg
    (fun u : Slu =>
      { u with
        fifo := (cancelOwed s.scv.oneShot (resetExamined s)).slu.fifo ++ [replyOf .reset tag .ok []]
        owedRelease := (cancelReleases (resetExamined s)).slu.owedRelease
        owedConvert := (cancelOwed s.scv.oneShot (resetExamined s)).slu.owedConvert })
    (resetExamined_link s)

/-- R183, R184: what RESET discards and what it keeps of the link, and the release reply that is no longer owed. -/
theorem reset_link :
    (arbitrate (resetAnswered tag s)).slu.queue = [] ∧ (arbitrate (resetAnswered tag s)).slu.noticeMask = 0b111111111 ∧
      (arbitrate (resetAnswered tag s)).slu.wakeMask = 0b000010011 ∧ (arbitrate (resetAnswered tag s)).slu.linkErrors = 0 ∧
      (arbitrate (resetAnswered tag s)).slu.platform = s.slu.platform ∧
      (arbitrate (resetAnswered tag s)).slu.uptime = s.slu.uptime ∧
      (arbitrate (resetAnswered tag s)).slu.owedRelease =
        (if (s.latch .a).hostOwed = true ∨ (s.latch .b).hostOwed = true then none else s.slu.owedRelease) ∧
      (arbitrate (resetAnswered tag s)).slu.owedConvert =
        (cancelOwed s.scv.oneShot (resetExamined s)).slu.owedConvert := by
  have owed : (cancelReleases (resetExamined s)).slu.owedRelease =
      if (s.latch .a).hostOwed = true ∨ (s.latch .b).hostOwed = true then none else s.slu.owedRelease := by
    rw [cancelReleases_owedRelease, resetExamined_hostOwed, resetExamined_hostOwed, resetExamined_link]
    rfl
  rw [arbitrate_slu, SourcePaths.arbitrated_frame, resetAnswered_link]
  exact ⟨rfl, rfl, rfl, rfl, rfl, rfl, owed, rfl⟩

/-- R184: the outbox holds SUPPLY_CHANGE alone. -/
theorem reset_outbox_other {k : NoticeKind} (other : k ≠ .supplyChange) :
    (arbitrate (resetAnswered tag s)).slu.outbox.get k = 0 := by
  refine arbitrate_outbox_zero ?_
  rw [resetAnswered_link]
  exact resetExamined_other s other

/-- With a frame on SYS_TX, the event's notices and replies wait. -/
theorem reset_busy (busy : s.slu.tx ≠ none) : arbitrate (resetAnswered tag s) = resetAnswered tag s := by
  refine arbitrate_busy ?_
  rw [resetAnswered_link]
  exact busy

theorem reset_supplyChange (busy : s.slu.tx ≠ none) :
    (arbitrate (resetAnswered tag s)).slu.outbox.supplyChange =
      (arbitrate (resetAnswered tag s)).spc.soleSource.toNat +
        (decide ((arbitrate (resetAnswered tag s)).spc.situation ≠ s.spc.situation)).toNat := by
  have outbox : (arbitrate (resetAnswered tag s)).slu.outbox = (resetExamined s).slu.outbox := by
    rw [reset_busy tag s busy, resetAnswered_link]
  rw [outbox, reset_spc]
  exact resetExamined_supplyChange s

/-! ### The replies of the event (R52, R170, R183) -/

theorem reset_reply (busy : s.slu.tx ≠ none) : replyOf .reset tag .ok [] ∈ (arbitrate (resetAnswered tag s)).slu.fifo := by
  rw [reset_busy tag s busy, resetAnswered_link]
  exact List.mem_append_right _ (List.mem_singleton.mpr rfl)

theorem reset_cancels_conversion {c : Channel} {ctag : Byte} (converts : s.scv.oneShot = some c)
    (owed : s.slu.owedConvert = some ctag) :
    (arbitrate (resetAnswered tag s)).slu.owedConvert = none ∧
      (s.slu.tx ≠ none →
        replyOf .convertNow ctag .cancelled (channelBytes ((arbitrate (resetAnswered tag s)).scv.records.get c)) ∈
          (arbitrate (resetAnswered tag s)).slu.fifo) := by
  have cancelled : cancelOwed s.scv.oneShot (resetExamined s) =
      answerConvert .cancelled c (cancelReleases (resetExamined s)) := by
    rw [converts]
    rfl
  have waits : (cancelReleases (resetExamined s)).slu.owedConvert = some ctag := by
    rw [cancelReleases_frame, resetExamined_link]
    exact owed
  obtain ⟨answered, joins⟩ := answerConvert_some waits .cancelled c
  obtain ⟨-, -, -, -, -, -, -, owes⟩ := reset_link tag s
  refine ⟨by rw [owes, cancelled, answered], fun busy => ?_⟩
  have records : (arbitrate (resetAnswered tag s)).scv = (cancelReleases (resetExamined s)).scv := by
    rw [reset_replies, cancelReleases_frame]
  rw [reset_busy tag s busy] at records ⊢
  rw [records, resetAnswered_link, cancelled, joins]
  exact List.mem_append_left _ (List.mem_append_right _ (List.mem_singleton.mpr rfl))

theorem latchBytes_congr {s t : State} {bay : Bay} (same : t.latch bay = s.latch bay) : latchBytes t bay = latchBytes s bay := by
  unfold latchBytes
  rw [same]

/-- R52, R172: the cancelled release reply is the first of the event. -/
theorem reset_cancels_release {bay : Bay} {rtag : Byte} (ok : TransmitterOk s) (owes : (s.latch bay).hostOwed = true)
    (alone : (s.latch (otherBay bay)).hostOwed = false) (owed : s.slu.owedRelease = some rtag) :
    MadeReply s (arbitrate (resetAnswered tag s))
      (replyOf .releaseBay rtag .cancelled (latchBytes (arbitrate (resetAnswered tag s)) bay)) := by
  have one := cancelReleases_one (bay := bay) (s := resetExamined s) ((resetExamined_hostOwed s _).trans alone)
  have waits : (resetExamined s).slu.owedRelease = some rtag := by
    rw [resetExamined_link]
    exact owed
  have record : (arbitrate (resetAnswered tag s)).latch bay =
      (answerRelease bay .cancelled none (resetExamined s)).latch bay := by
    rw [← one, cancelReleases_latch, resetExamined_latch, reset_latch]
  have first := congrArg Slu.fifo
    (answerRelease_some bay .cancelled none (resetExamined s) rtag ((resetExamined_hostOwed s bay).trans owes) waits)
  rw [← latchBytes_congr record, ← one, resetExamined_link] at first
  have blocksOk : TransmitterOk (resetBlocks (heard s)) := fun idle =>
    ⟨(ok idle).1, fun k => by cases k <;> rfl⟩
  have made := SourcePaths.madeReply_arbitrate (v := resetAnswered tag s)
    (r := replyOf .releaseBay rtag .cancelled (latchBytes (arbitrate (resetAnswered tag s)) bay)) blocksOk
    (by rw [resetAnswered_link]; rfl)
    (by rw [resetAnswered_link]; exact resetExamined_other s (k := .dropAlert) (by decide))
    (by
      rw [resetAnswered_link]
      refine List.IsPrefix.trans ?_ ((cancelOwed_fifo s.scv.oneShot (resetExamined s)).trans (List.prefix_append _ _))
      rw [first]
      exact List.prefix_rfl)
  exact ⟨made.sent, made.waits⟩

end Reset

/-- Settles O16: the blocks by their own RESET, the examination by what it reads, and the replies in the order they are made. -/
theorem resetReturnsDefaults : Obligations.ResetReturnsDefaults := by
  intro tag s ready
  refine ⟨exec_reset_busy tag ready, fun idle => ⟨arbitrate (resetAnswered tag s), exec_reset_taken tag ready idle, ?_⟩⟩
  obtain ⟨scv, mpt, ddt, pending⟩ := reset_rest tag s
  obtain ⟨light, curve, hold, lamp, strings⟩ := reset_light tag s
  obtain ⟨queue, noticeMask, wakeMask, errors, platform, uptime, owed, -⟩ := reset_link tag s
  obtain ⟨slots, table, oneShot, records⟩ := scv_reset s.slu.platform s.scv
  obtain ⟨rate, ring, counters⟩ := mpt_reset s.mpt
  have spc := reset_spc tag s
  refine ⟨fun p => by rw [reset_path]; exact pathRecord_reset p (s.path p), by rw [spc]; rfl, by rw [spc]; rfl,
    by rw [spc]; rfl, by rw [spc]; rfl, by rw [spc]; rfl, by rw [spc]; rfl, by rw [spc]; rfl, by rw [spc]; rfl,
    reset_sole tag s idle, reset_preempt tag s, reset_supplyChange tag s, fun bay => ?_, by rw [scv, slots],
    by rw [scv, table], by rw [scv, oneShot], by rw [scv, records], light, curve, hold, lamp, strings, by rw [mpt, rate],
    by rw [mpt, ring], by rw [mpt, counters], by rw [ddt]; rfl, by rw [ddt]; rfl, by rw [ddt]; rfl, by rw [ddt]; rfl,
    by rw [ddt]; rfl, by rw [ddt]; rfl, queue, noticeMask, wakeMask, errors, platform, uptime, pending, reset_reply tag s,
    owed, fun bay rtag owes alone waits => reset_cancels_release tag s ready.transmitter owes alone waits,
    fun c ctag converts waits => reset_cancels_conversion tag s converts waits, fun k other => reset_outbox_other tag s other,
    reset_situationOk tag s⟩
  obtain ⟨free, sensed, insecure, stuck, stuckTimer, -, faultTimer, lastEvent, commanded⟩ := latchRecord_reset (s.latch bay)
  rw [reset_latch]
  exact ⟨free, sensed, insecure, stuck, stuckTimer, rfl, faultTimer, lastEvent, commanded⟩

end Sys2Proof.SystemLink

/-! ## RELEASE_BAY (O41) -/

namespace Sys2Proof.ReleaseRequests

open Sys2Proof.Machine Sys2Proof.Safety Sys2Proof.SourcePaths Sys2Proof.SupplyLaws Sys2Proof.Snapshots Sys2Proof.SystemLink

/-! ### An examination that finds no target (R34, R36) -/

/-- R36: a running preemption timer is that of a target. -/
theorem preemptDue_none {v : State} (alone : chooseTarget v v.spc.feeding [] = none) : preemptDue v = none := by
  obtain ⟨-, noTarget⟩ := chooseTarget_eq v .dcIn v.spc.feeding []
  refine List.find?_eq_none.mpr fun x listed due => ?_
  obtain ⟨available, other⟩ := preemptRuns_spec (Bool.and_eq_true_iff.mp due).1
  exact noTarget.mp alone x listed ⟨available, other, List.not_mem_nil⟩

/-- R34, R36: with a source feeding, and no target, no trigger starts a switchover. -/
theorem settle_alone {v : State} (feeds : v.spc.feeding ≠ none) (alone : chooseTarget v v.spc.feeding [] = none) :
    (settle false v).spc.sw = v.spc.sw := by
  obtain ⟨triggers, -⟩ := triggersTaken_settle v
  cases can : canStart v with
  | false => exact (triggers.waits can).1
  | true =>
    cases held : heldCondition v with
    | some reason => exact (triggers.alone reason can held alone).1
    | none => exact triggers.idle can held (.inr ⟨feeds, .inr (preemptDue_none alone)⟩)

/-! ### The reply of a grant and of a refusal (R52, R172) -/

theorem grantBay_owedRelease {bay : Bay} {v : State} (owes : (v.latch bay).hostOwed = true) :
    (grantBay bay v).slu.owedRelease = none := by
  unfold grantBay
  rw [raise_slu, raised_owedRelease, answerRelease_owedRelease, if_pos]
  show ((v.setLatch bay (v.latch bay).grant).latch bay).hostOwed = true
  rw [setLatch_latch, if_pos rfl]
  exact owes

theorem refuseBay_owedRelease {bay : Bay} {v : State} (owes : (v.latch bay).hostOwed = true) :
    (refuseBay bay v).slu.owedRelease = none := by
  unfold refuseBay
  rw [raise_slu, raised_owedRelease, answerRelease_owedRelease, if_pos]
  rw [setLatch_latch, if_pos rfl]
  exact owes

/-- R53, R172: the reply of the RELEASE_BAY that is refused. -/
theorem refuseBay_fifo {bay : Bay} {v : State} {tag : Byte} (owes : (v.latch bay).hostOwed = true)
    (owed : v.slu.owedRelease = some tag) :
    (refuseBay bay v).slu.fifo =
      v.slu.fifo ++ [{ tag := tag, payload := [0x20, 10, 1] ++ latchBytes (refuseBay bay v) bay }] := by
  have owes' : ((v.setLatch bay ((v.latch bay).endRelease .refused)).latch bay).hostOwed = true := by
    rw [setLatch_latch, if_pos rfl]
    exact owes
  have slu := answerRelease_some bay .failed (some .soleSource) _ tag owes' owed
  unfold refuseBay
  rw [raise_slu, raised_fifo, slu]
  rfl

theorem refuseBay_spc (bay : Bay) (v : State) : (refuseBay bay v).spc = v.spc := answerRelease_spc ..

/-! ### The request as it is accepted (R52, R169) -/

section Owing

variable (tag : Byte) (bay : Bay) (s : State)

/-- The state in which the release of an accepted request is asked for. -/
def owing : State := oweRelease tag bay (heard s)

theorem owing_latch (x : Bay) :
    (owing tag bay s).latch x = if x = bay then { s.latch bay with hostOwed := true } else s.latch x :=
  setLatch_latch (heard s) bay _ x

theorem owing_own : (owing tag bay s).latch bay = { s.latch bay with hostOwed := true } := by rw [owing_latch, if_pos rfl]

theorem owing_other : (owing tag bay s).latch (otherBay bay) = s.latch (otherBay bay) := by
  rw [owing_latch, if_neg (otherBay_ne bay)]

/-- No trigger reads what is owed. -/
theorem owing_inputs : SameInputs s (owing tag bay s) where
  supply := rfl
  path := fun _ => ⟨rfl, rfl, rfl, rfl⟩
  latch := fun x => by
    rw [owing_latch]
    split
    · next own =>
      rw [own]
      exact ⟨rfl, rfl, rfl⟩
    · exact ⟨rfl, rfl, rfl⟩
  temp := fun _ => rfl

theorem heldFirst_owing (r : SwReason) (x : Source) : HeldFirst (owing tag bay s) bay r x ↔ HeldFirst s bay r x := by
  unfold HeldFirst
  rw [sameInputs_chooseTarget (owing_inputs tag bay s), sameInputs_heldCondition (owing_inputs tag bay s)]
  rfl

variable {tag bay s} (h : Ready s)
include h

theorem exec_releaseBay_named :
    exec (.releaseBay tag [BitVec.ofNat 8 (bayCode bay)]) s =
      .next (arbitrate (handleReleaseBay tag [BitVec.ofNat 8 (bayCode bay)] (heard s))) :=
  exec_ready .releaseBay tag _ s h (one_allowed rfl (by simp))

theorem exec_releaseBay_badValue {p : List Byte} (len : p.length = 1) (none : bayOf (at8 p 0) = .none) :
    exec (.releaseBay tag p) s = .next (answered .releaseBay tag .badValue [] s) :=
  exec_answers .releaseBay h (one_allowed len (by simp)) (by simp only [handleOwned, handleReleaseBay, none]; rfl)

theorem exec_releaseBay_busy (outstanding : releaseOutstanding s = true) :
    exec (.releaseBay tag [BitVec.ofNat 8 (bayCode bay)]) s = .next (answered .releaseBay tag .busy [] s) := by
  refine exec_answers .releaseBay h (one_allowed rfl (by simp)) ?_
  simp only [handleOwned, handleReleaseBay, bayOf_code]
  exact if_pos outstanding

/-- R52: a GRANTED bay is answered at once. -/
theorem exec_releaseBay_granted (free : releaseOutstanding s = false) (granted : (s.latch bay).release = .granted) :
    exec (.releaseBay tag [BitVec.ofNat 8 (bayCode bay)]) s =
      .next (replied ((heard s).setLatch bay { s.latch bay with byHost := true })
        (replyOf .releaseBay tag .ok (latchBytes ((heard s).setLatch bay { s.latch bay with byHost := true }) bay))) := by
  have joins : releaseRequest bay .host (heard s) = (heard s).setLatch bay { s.latch bay with byHost := true } :=
    releaseRequest_joins .host (s := heard s) (by rw [show ((heard s).latch bay).release = .granted from granted]; decide)
  refine exec_answersFrom .releaseBay h (one_allowed rfl (by simp)) h.transmitter ?_
  simp only [handleOwned, handleReleaseBay, bayOf_code]
  rw [if_neg (by rw [show releaseOutstanding (heard s) = false from free]; decide), if_pos (by exact granted), joins]

/-- R52: any other bay's request is owed its reply before its release is asked for. -/
theorem exec_releaseBay_owes (free : releaseOutstanding s = false) (waits : (s.latch bay).release ≠ .granted) :
    exec (.releaseBay tag [BitVec.ofNat 8 (bayCode bay)]) s = .next (requested bay .host (owing tag bay s)) := by
  rw [exec_releaseBay_named h]
  simp only [handleReleaseBay, bayOf_code]
  rw [if_neg (by rw [show releaseOutstanding (heard s) = false from free]; decide), if_neg (by exact waits)]
  rfl

/-- R52: a bay that is left PENDING is owed the reply. -/
theorem released_waits {l : LatchRecord} (record : (requested bay .host (owing tag bay s)).latch bay = l)
    (pending : l.release = .pending) :
    (requested bay .host (owing tag bay s)).slu.owedRelease = some tag ∧
      (requested bay .host (owing tag bay s)).slu.fifo = s.slu.fifo ∧
      (requested bay .host (owing tag bay s)).latch bay = l := by
  obtain ⟨owed, fifo⟩ := requested_owed .host (s := owing tag bay s) (fun idle => (h.transmitter idle).1)
    (by rw [record]; exact pending)
  exact ⟨owed, fifo, record⟩

/-- R172, R176: a reply that the ask has made is the first of its event. -/
theorem released_answers {v : State} {r : Reply} (idle : (s.latch bay).release = .idle)
    (starts : startRelease bay .host (owing tag bay s) = v) (fifo : v.slu.fifo = s.slu.fifo ++ [r]) :
    MadeReply s (requested bay .host (owing tag bay s)) r := by
  have idle' : ((owing tag bay s).latch bay).release = .idle := by rw [owing_own]; exact idle
  have event := (startRelease_kept bay .host (owing tag bay s)).trans (kept_settle false _)
  unfold requested
  rw [releaseRequest_idle .host idle']
  refine madeReply_arbitrate h.transmitter (by rw [event.link]; rfl) (event.kinds .dropAlert (by decide) (by decide)) ?_
  rw [(calm_settle _).fifo, starts, fifo]

end Owing

/-! ### The ask of a request (R37, R53, R55, R56) -/

section Ask

variable (tag : Byte) {bay : Bay} {s : State}

theorem asking_owes : ((asking bay .host (owing tag bay s)).latch bay).hostOwed = true := by
  rw [asking_latch, owing_own]
  rfl

theorem asking_owed : (asking bay .host (owing tag bay s)).slu.owedRelease = some tag :=
  (asking_calm .host bay (owing tag bay s)).owedRelease

theorem asking_fifo : (asking bay .host (owing tag bay s)).slu.fifo = s.slu.fifo :=
  (asking_calm .host bay (owing tag bay s)).fifo

theorem owing_asks (h : Asks bay s) : Asks bay (owing tag bay s) where
  release := by
    rw [owing_own]
    exact h.release
  still := h.still
  other := by
    rw [owing_other]
    exact h.other
  idle := h.idle
  asks := (askRuns_latch (owing_other tag bay s)).trans h.asks
  held := fun r x held => h.held r x ((heldFirst_owing tag bay s r x).mp held)

/-- R52: a reply that the ask has made is owed no longer. -/
theorem released_owesNothing {v : State} (h : Asks bay s) (starts : startRelease bay .host (owing tag bay s) = v)
    (paid : v.slu.owedRelease = none) : (requested bay .host (owing tag bay s)).slu.owedRelease = none := by
  refine (arbitrate_owed _).trans (settle_owed false _ ?_)
  rw [releaseRequest_idle .host (owing_asks tag h).release, starts, paid]

/-- R53, R56: a bay that does not feed is granted, and answered OK. -/
theorem released_granted (ready : Ready s) (h : Asks bay s) (off : s.spc.feeding ≠ some (baySource bay)) :
    ∃ u : State, (requested bay .host (owing tag bay s)).slu.owedRelease = none ∧
      u.latch bay = (requested bay .host (owing tag bay s)).latch bay ∧
      MadeReply s (requested bay .host (owing tag bay s)) (replyOf .releaseBay tag .ok (latchBytes u bay)) := by
  have starts := startRelease_moved .host (owing_asks tag h) off
  refine ⟨grantBay bay (asking bay .host (owing tag bay s)),
    released_owesNothing tag h starts (grantBay_owedRelease (asking_owes tag)), ?_, released_answers ready h.release starts ?_⟩
  · rw [requested_idle .host (owing_asks tag h).release, starts]
  · rw [grantBay_fifo (asking_owes tag) (asking_owed tag), asking_fifo]

/-- R53: a bay that feeds, with a target, is PENDING for the RELEASE switchover that its ask starts. -/
theorem released_started (ready : Ready s) (h : Asks bay s) (feeds : s.spc.feeding = some (baySource bay)) {x : Source}
    (target : chooseTarget s s.spc.feeding [] = some x) :
    let t := requested bay .host (owing tag bay s)
    t.slu.owedRelease = some tag ∧ t.slu.fifo = s.slu.fifo ∧
      t.latch bay = { s.latch bay with byHost := true, hostOwed := true, release := .pending, cause := .switchover } ∧
      t.spc.sw.reason = .release ∧ t.spc.sw.fromSrc = s.spc.feeding ∧ t.spc.sw.toSrc = x ∧ inFlight t = true := by
  obtain ⟨record, sw⟩ := requested_started .host (owing_asks tag h) feeds
    ((sameInputs_chooseTarget (owing_inputs tag bay s) _ _).trans target)
  rw [owing_own] at record
  obtain ⟨owed, fifo, -⟩ := released_waits ready record rfl
  exact ⟨owed, fifo, record, sw⟩

section Refused

variable (h : Asks bay s) (feeds : s.spc.feeding = some (baySource bay)) (alone : chooseTarget s s.spc.feeding [] = none)
include h feeds alone

/-- R37, R53: the ask of a bay that feeds with no target is refused. -/
theorem startRelease_refused :
    startRelease bay .host (owing tag bay s) = refuseBay bay (asking bay .host (owing tag bay s)) :=
  (startRelease_feeds .host (owing_asks tag h) feeds).2 ((sameInputs_chooseTarget (owing_inputs tag bay s) _ _).trans alone)

theorem startRelease_refused_supply :
    (startRelease bay .host (owing tag bay s)).spc =
      { s.spc with soleSource := (startRelease bay .host (owing tag bay s)).spc.soleSource } := by
  rw [startRelease_refused tag h feeds alone, refuseBay_spc, (asking_noted .host (owing_asks tag h)).eq]
  rfl

/-- R53: a refusal leaves the bay IDLE, as it was, for the triggers. -/
theorem startRelease_refused_inputs : SameInputs s (startRelease bay .host (owing tag bay s)) where
  supply := by rw [startRelease_refused_supply tag h feeds alone]
  path := fun p => by
    unfold State.path
    rw [startRelease_refused_supply tag h feeds alone]
    exact ⟨rfl, rfl, rfl, rfl⟩
  latch := fun x => by
    by_cases own : x = bay
    · rw [own, startRelease_refused tag h feeds alone, refuseBay_latch, asking_latch, owing_own, h.release]
      exact ⟨rfl, rfl, rfl⟩
    · have other : x = otherBay bay := by cases x <;> cases bay <;> first | rfl | exact absurd rfl own
      rw [other, startRelease_other, owing_other]
      exact ⟨rfl, rfl, rfl⟩
  temp := fun x => by
    unfold bayTemp
    rw [(startRelease_kept bay .host (owing tag bay s)).rest]
    rfl

/-- R34, R53: a refusal starts no switchover in its event. -/
theorem released_refused_sw : (requested bay .host (owing tag bay s)).spc.sw = s.spc.sw := by
  have supply := startRelease_refused_supply tag h feeds alone
  have feeding : (startRelease bay .host (owing tag bay s)).spc.feeding = s.spc.feeding := by rw [supply]
  show (settle false (releaseRequest bay .host (owing tag bay s))).spc.sw = _
  rw [releaseRequest_idle .host (owing_asks tag h).release, settle_alone, supply]
  · rw [feeding, feeds]
    exact Option.some_ne_none _
  · rw [sameInputs_chooseTarget (startRelease_refused_inputs tag h feeds alone), feeding, alone]

theorem released_refused (ready : Ready s) :
    (requested bay .host (owing tag bay s)).slu.owedRelease = none ∧
      MadeReply s (requested bay .host (owing tag bay s))
        { tag := tag, payload := [0x20, 10, 1] ++ latchBytes (requested bay .host (owing tag bay s)) bay } := by
  have starts := startRelease_refused tag h feeds alone
  have same : (requested bay .host (owing tag bay s)).latch bay =
      (refuseBay bay (asking bay .host (owing tag bay s))).latch bay := by
    rw [requested_idle .host (owing_asks tag h).release, starts]
  refine ⟨released_owesNothing tag h starts (refuseBay_owedRelease (asking_owes tag)),
    released_answers ready h.release starts ?_⟩
  rw [refuseBay_fifo (asking_owes tag) (asking_owed tag), asking_fifo, latchBytes_congr same]

end Refused

end Ask

/-! ### The rows of R53 -/

section Rows

variable {tag : Byte} {bay : Bay} {s : State}

/-- R53: a request joins the release of a PENDING bay; outside STILL, one for an IDLE bay waits for the motion phase. -/
theorem released_pending
    (waits : (s.latch bay).release = .pending ∨ (s.latch bay).release = .idle ∧ s.ddt.phase ≠ .still) :
    (requested bay .host (owing tag bay s)).latch bay =
      { s.latch bay with
        byHost := true, hostOwed := true, release := .pending
        cause := if (s.latch bay).release = .idle then .motion else (s.latch bay).cause } := by
  rcases waits with pending | ⟨idle, moves⟩
  · have busy : ((owing tag bay s).latch bay).release ≠ .idle := by
      rw [owing_own]
      show (s.latch bay).release ≠ .idle
      rw [pending]
      decide
    rw [requested_latch, releaseRequest_joins .host busy, setLatch_latch, if_pos rfl, owing_own,
      if_neg (by rw [pending]; decide), ← pending]
    rfl
  · obtain ⟨-, motion, -⟩ := startRelease_waits bay .host (owing tag bay s)
    rw [requested_idle .host (by rw [owing_own]; exact idle), motion moves, owing_own, if_pos idle]
    rfl

/-- R32: an EMPTY or HOT that RESET has left to begin starts before the ask. -/
theorem released_held (idle : (s.latch bay).release = .idle) {r : SwReason} {x : Source} (held : HeldFirst s bay r x) :
    (requested bay .host (owing tag bay s)).spc.sw = startedRecord s r x :=
  requested_held .host (by rw [owing_own]; exact idle) ((heldFirst_owing tag bay s r x).mpr held)

end Rows

theorem releaseOutstanding_iff (s : State) :
    releaseOutstanding s = true ↔ (s.latch .a).hostOwed = true ∨ (s.latch .b).hostOwed = true := Bool.or_eq_true_iff ..

/-- Settles O41: the two refusals, a GRANTED bay's answer, and the rows of R53 for the request that is owed its reply. -/
theorem releaseBayIsDeferred : Obligations.ReleaseBayIsDeferred := by
  intro tag bay s ready
  refine ⟨fun p len unnamed => exec_releaseBay_badValue ready len unnamed,
    fun owed => exec_releaseBay_busy ready ((releaseOutstanding_iff s).mpr owed), fun freeA freeB => ?_⟩
  have free : releaseOutstanding s = false := by rw [releaseOutstanding, freeA, freeB]; rfl
  have notOwed : (s.latch bay).hostOwed = false := by cases bay <;> assumption
  have frame := requested_frame bay .host (owing tag bay s)
  obtain ⟨-, -, grant, busy⟩ := startRelease_waits bay .host (owing tag bay s)
  refine ⟨fun granted => ⟨_, exec_releaseBay_granted ready free granted, rfl⟩, fun waits => ?_, fun idle still => ?_,
    fun idle still other asks quiet held off => ?_⟩
  · have row := released_pending (tag := tag) waits
    obtain ⟨owed, fifo, record⟩ := released_waits ready row rfl
    refine ⟨_, exec_releaseBay_owes ready free ?_, owed, fifo, record, fun idle reason x => released_held idle⟩
    rcases waits with pending | ⟨idle, -⟩
    · simp [pending]
    · simp [idle]
  · have idle' : ((owing tag bay s).latch bay).release = .idle := by rw [owing_own]; exact idle
    simp only [← requested_idle .host idle', owing_own, owing_other] at grant busy
    refine ⟨_, exec_releaseBay_owes ready free (by simp [idle]), frame.other.trans (owing_other tag bay s), frame.feeding,
      fun granted => released_waits ready (grant still granted) rfl, fun reason x => released_held idle, fun other => ?_⟩
    refine ⟨fun wait => released_waits ready (busy still other ?_) rfl, fun quiet asks held feeds => ?_⟩
    · rw [askRuns_latch (owing_other tag bay s)]
      simp only [heldFirst_owing]
      exact wait
    · have ask : Asks bay s := ⟨idle, still, other, quiet, asks, held⟩
      refine ⟨fun x => released_started tag ready ask feeds, fun alone => ?_⟩
      have record := requested_refused .host (owing_asks tag ask) feeds
        ((sameInputs_chooseTarget (owing_inputs tag bay s) _ _).trans alone)
      rw [owing_own] at record
      obtain ⟨paid, reply⟩ := released_refused tag ask feeds alone ready
      exact ⟨paid, released_refused_sw tag ask feeds alone, record.trans (refused_notOwed idle notOwed), reply⟩
  · have ask : Asks bay s := ⟨idle, still, other, quiet, asks, held⟩
    obtain ⟨record, pack⟩ := requested_granted .host (owing_asks tag ask) off
    rw [owing_own] at record
    obtain ⟨u, paid, same, reply⟩ := released_granted tag ready ask off
    refine ⟨u, _, exec_releaseBay_owes ready free (by simp [idle]), paid, by rw [record], pack, record.trans ?_, same, reply⟩
    exact granted_notOwed (l := { s.latch bay with byHost := true }) notOwed

end Sys2Proof.ReleaseRequests

/-! ## The latch switch, the timers, the window and the motion phase (O42) -/

namespace Sys2Proof.LatchTimers

open Sys2Proof.Machine Sys2Proof.Safety Sys2Proof.SourcePaths

/-! ### The switch (R50) -/

theorem setLatch_own (bay : Bay) (s : State) : s.setLatch bay (s.latch bay) = s := by cases bay <;> rfl

theorem sense_same (l : LatchRecord) : l.sense l.sensed = l := if_pos rfl

/-- R59, R60: a new position restarts both timers. -/
theorem sense_moved {l : LatchRecord} {pos : LatchPos} (moved : pos ≠ l.sensed) :
    l.sense pos = { l with sensed := pos, faultTimer := 0, stuckTimer := 0, stuck := l.stuck && pos == .locked } :=
  if_neg moved

/-! ### The fault timer and the stuck timer (R59, R60) -/

theorem faultTimerRuns_iff (l : LatchRecord) :
    faultTimerRuns l = true ↔ l.commanded = .locked ∧ l.sensed = if l.insecure then .locked else .unlocked := by
  simp [faultTimerRuns]

theorem stuckTimerRuns_iff (l : LatchRecord) :
    stuckTimerRuns l = true ↔ l.commanded = .unlocked ∧ l.sensed = .locked := by
  simp [stuckTimerRuns]

/-- R60: the timer has been taken once its 200 ms have set the flag. -/
theorem stuckTaken_iff (l : LatchRecord) : stuckTaken l = true ↔ l.stuck = true ∧ l.stuckTimer = 200 := by
  simp [stuckTaken, Config.latchTimerMs]

theorem exec_latchFaultTimerExpiry {bay : Bay} {s : State} (runs : faultTimerRuns (s.latch bay) = true) :
    exec (.latchFaultTimerExpiry bay) s =
      .next (arbitrate (settle false (raise .release (s.setLatch bay (s.latch bay).faultExpired)))) := if_pos runs

/-- R59: the flag turns over, and the triggers are examined, for an insecure latch is an input of them (R5). -/
theorem faultTimer_examined {bay : Bay} {s : State} (ok : TransmitterOk s) :
    Examined (raise .release (s.setLatch bay (s.latch bay).faultExpired))
      (arbitrate (settle false (raise .release (s.setLatch bay (s.latch bay).faultExpired)))) := by
  refine examined_settle _ fun idle => ?_
  rw [raise_slu, raised_tx] at idle
  rw [raise_slu, raised_fifo]
  exact (ok idle).1

theorem exec_latchStuckTimerExpiry {bay : Bay} {s : State} (commanded : (s.latch bay).commanded = .unlocked)
    (sensed : (s.latch bay).sensed = .locked) (fresh : (s.latch bay).stuck = false ∨ (s.latch bay).stuckTimer ≠ 200) :
    exec (.latchStuckTimerExpiry bay) s = .next (noticed .release (s.setLatch bay (s.latch bay).stuckExpired)) := by
  have free : stuckTaken (s.latch bay) = false := by
    rw [Bool.eq_false_iff, ne_eq, stuckTaken_iff]
    rintro ⟨stuck, taken⟩
    rcases fresh with clear | early
    · simp [clear] at stuck
    · exact early taken
  exact if_pos ⟨(stuckTimerRuns_iff _).mpr ⟨commanded, sensed⟩, free⟩

theorem exec_latchStuckTimerExpiry_not {bay : Bay} {s : State}
    (stays : (s.latch bay).commanded = .locked ∨ (s.latch bay).sensed = .unlocked ∨
      (s.latch bay).stuck = true ∧ (s.latch bay).stuckTimer = 200) :
    exec (.latchStuckTimerExpiry bay) s = .next s := by
  refine if_neg ?_
  rintro ⟨runs, free⟩
  obtain ⟨commanded, sensed⟩ := (stuckTimerRuns_iff _).mp runs
  rcases stays with locked | unlocked | taken
  · simp [locked] at commanded
  · simp [unlocked] at sensed
  · simp [(stuckTaken_iff _).mpr taken] at free

/-! ### The release window (R57) -/

section Window

variable (bay : Bay) (s : State)

/-- The event of a window that expires. -/
def windowExpired : State := arbitrate (settle true (endWindow bay .expired s))

theorem exec_releaseWindowExpiry {bay : Bay} {s : State} (granted : (s.latch bay).release = .granted) :
    exec (.releaseWindowExpiry bay) s = .next (windowExpired bay s) := if_pos granted

theorem endWindow_latch (e : ReleaseEvent) : (endWindow bay e s).latch bay = (s.latch bay).lock.endRelease e := by
  unfold endWindow
  rw [raise_latch, setLatch_latch, if_pos rfl]

/-- R54: the bay is IDLE as the PENDING bays are evaluated, so the rest of the event leaves its record. -/
theorem windowExpired_latch : (windowExpired bay s).latch bay = (s.latch bay).lock.endRelease .expired := by
  have ended := endWindow_latch bay s .expired
  rw [windowExpired, latch_settle_event true (by rw [ended]; exact nofun), ended]

theorem windowExpired_kept : Kept s (settle true (endWindow bay .expired s)) :=
  (kept_endWindow bay .expired s).trans (kept_settle true _)

theorem windowExpired_frame : SupplyFrame s (windowExpired bay s) :=
  supplyFrame_arbitrate (windowExpired_kept bay s).toReported (situationOk_settle true _)

/-- R174: RELEASE is raised, and the rest of the event raises no kind less often. -/
theorem windowExpired_raises : RaisedRelease s (windowExpired bay s) :=
  raised_event true (raised_tx _ _) fun _ mask => (raised_release_le s.slu mask).ge

/-- R54: the other bay is evaluated on the state that the end of the window leaves. -/
theorem windowExpired_evaluates (x : Bay) : PendingEvaluated (endWindow bay .expired s) (windowExpired bay s) x :=
  pendingEvaluated_arbitrate (settle_tx true _) (pendingEvaluated_settle _ x)

end Window

/-- Settles O42: the switch and the timers by what each restarts or sets, the window by its end and the evaluation that follows,
and the motion phase by the phase that a frame end leaves and publishes. -/
theorem latchSwitchAndTimers : Obligations.LatchSwitchAndTimers := by
  intro bay pos s
  refine ⟨fun same => ?_, fun moved => ?_, fun ok commanded sensed => ?_, fun stays => ?_, exec_latchStuckTimerExpiry,
    exec_latchStuckTimerExpiry_not, fun granted => ?_, fun other => if_neg other, fun f transfer => ?_⟩
  · show Host.Outcome.next (s.setLatch bay ((s.latch bay).sense pos)) = _
    rw [same, sense_same, setLatch_own]
  · show Host.Outcome.next (s.setLatch bay ((s.latch bay).sense pos)) = _
    rw [sense_moved moved]
  · exact ⟨_, exec_latchFaultTimerExpiry ((faultTimerRuns_iff _).mpr ⟨commanded, sensed⟩), faultTimer_examined ok⟩
  · exact if_neg fun runs => stays ((faultTimerRuns_iff _).mp runs)
  · have record := windowExpired_latch bay s
    refine ⟨_, exec_releaseWindowExpiry granted, record, (windowExpired_kept bay s).feeding, windowExpired_frame bay s,
      windowExpired_raises bay s, ?_⟩
    rw [record]
    exact windowExpired_evaluates bay s (otherBay bay)
  · exact ⟨_, rfl, frameEnd_bays f s transfer bay⟩

end Sys2Proof.LatchTimers
